-- ==== Sys2Proof/Word.lean ====
section
/-! DEFINITION. The word types of the block (spec/00_scope.md R13). -/

namespace Sys2Proof

/-- `u8`: one ADC register, one frame byte, one byte of system memory. -/
abbrev Byte := BitVec 8

/-- A 16-bit value: an ADC register address (R56) or a template micro-operation (R96). -/
abbrev Half := BitVec 16

/-- `u32`: a receive-buffer word (R61) or a pulse generator register (R48). -/
abbrev Word := BitVec 32

/-- `u64`: a request word (R82), a result word (R89) or a nanosecond operand (R88). -/
abbrev DWord := BitVec 64

end Sys2Proof
end

