-- ==== Sys2Proof/Syntax.lean ====
section
/-! DEFINITION. The instruction set: 22 host operations and 3 template micro-operations, one constructor per row of
spec/opcode_table.json (spec/30_encoding.md R86, R96), and the pseudo-instructions of R100. -/

namespace Sys2Proof

/-- One instruction. Host operations carry their operands as the request does (R83, R88); the three micro-operations
are executed by the template engine only (R185). -/
inductive Instr where
  /-- REG.RD a (R117). -/
  | regRd (addr : Half)
  /-- REG.WR a, v (R119). -/
  | regWr (addr : Half) (v : Byte)
  /-- REG.RDM a, m (R123). -/
  | regRdm (addr : Half) (m : Byte)
  /-- REG.WRM a, m, v (R124). -/
  | regWrm (addr : Half) (m v : Byte)
  /-- PWM.INIT (R136). -/
  | pwmInit
  /-- PWM.SETP ns (R139). -/
  | pwmSetp (ns : DWord)
  /-- PWM.SETD ns (R141). -/
  | pwmSetd (ns : DWord)
  /-- PWM.EN (R143). -/
  | pwmEn
  /-- PWM.DIS (R144). -/
  | pwmDis
  /-- PWM.TD (R145). -/
  | pwmTd
  /-- PWM.GETP (R146). -/
  | pwmGetp
  /-- DEV.INIT (R150). -/
  | devInit
  /-- DEV.TD (R162). -/
  | devTd
  /-- OFL.INIT rx_addr, rx_len, flags (R181). -/
  | oflInit (rxAddr rxLen flags : DWord)
  /-- MSG.SETP w (R182). -/
  | msgSetp (w : DWord)
  /-- MSG.SETCH ch (R183). -/
  | msgSetch (ch : DWord)
  /-- OFL.XFER reps (R184). -/
  | oflXfer (reps : DWord)
  /-- SETTLE ms (R186). -/
  | settle (ms : DWord)
  /-- CINV addr, len (R187). -/
  | cinv (addr len : DWord)
  /-- DECODE n (R188). -/
  | decodeBuf (n : DWord)
  /-- ACQ.ITER (R210). -/
  | acqIter
  /-- ACQ.RUN (R212). -/
  | acqRun
  /-- CS.ASSERT (R196). -/
  | csAssert
  /-- XFER n (R197). -/
  | xfer (n : BitVec 12)
  /-- CS.DEASSERT (R198). -/
  | csDeassert
  deriving DecidableEq, Repr

/-- The template micro-operations (R96): every other instruction is a host operation. -/
def Instr.isMicro : Instr → Bool
  | .csAssert | .xfer _ | .csDeassert => true
  | .regRd _ | .regWr _ _ | .regRdm _ _ | .regWrm _ _ _ | .pwmInit | .pwmSetp _ | .pwmSetd _ | .pwmEn | .pwmDis | .pwmTd
  | .pwmGetp | .devInit | .devTd | .oflInit _ _ _ | .msgSetp _ | .msgSetch _ | .oflXfer _ | .settle _ | .cinv _ _
  | .decodeBuf _ | .acqIter | .acqRun => false

/-- The pseudo-instructions of the assembler (R100). -/
inductive Pseudo where
  /-- REG.SETB a, m. -/
  | regSetb (addr : Half) (m : Byte)
  /-- REG.CLRB a, m. -/
  | regClrb (addr : Half) (m : Byte)
  /-- PWM.CFG p, d. -/
  | pwmCfg (p d : DWord)
  deriving DecidableEq, Repr

/-- "Each expands to exactly the listed operations" (R100). -/
def Pseudo.expand : Pseudo → List Instr
  | .regSetb a m => [.regWrm a m m]
  | .regClrb a m => [.regWrm a m 0#8]
  | .pwmCfg p d => [.pwmSetp p, .pwmSetd d]

end Sys2Proof
end

