-- ==== Sys2Proof/Config.lean ====
section
/-! DEFINITION. What an implementation and a launch fix: the parameters of spec/00_scope.md R11, the launch record `DevCfg` of
R12, and the free values (draws, R17), which are opaque. -/

namespace Sys2Proof

/-! ### Parameters the source or the spec fixes for every instantiation (R11) -/

/-- `WORD_SIZE`: bytes per receive-buffer word (D15). -/
def Config.wordSize : Nat := 4
/-- `SEQ_CYC_MASK`: the cycle-mode field, bits 7:6 of the sequencing-control register (R46). -/
def Config.seqCycMask : Byte := 0xC0#8
/-- `SETUP_SEQ_MASK`: the sequencing-mode bit, bit 5 of the setup register (R45). -/
def Config.setupSeqMask : Byte := 0x20#8
/-- `TEMPLATE_MAX`: most micro-operations in a template (D30). -/
def Config.templateMax : Nat := 16
/-- `REPS_MAX`: the largest repetition count (D32). -/
def Config.repsMax : Nat := 2 ^ 32 - 1
/-- `SETTLE_MS` (D39). -/
def Config.settleMs : Nat := 2000
/-- `RESET_HOLD_MS` (R151, R273). -/
def Config.resetHoldMs : Nat := 100
/-- `MUL_W`: width of the tick quantizer's intermediate product (D18). -/
def Config.mulW : Nat := 64
/-- `PWM_REG_W`: pulse generator register width (D18). -/
def Config.pwmRegW : Nat := 32
/-- The register-access width of the transport: 8 bits (R152). -/
def Config.regWidth : Nat := 8

/-! ### Policies (R11, 93_implementation_defined.md A5 to A8, A26) -/

/-- `MASKED_WRITE_POLICY`: what REG.WRM does after a failed read (D12). -/
inductive MaskedWritePolicy where
  | failOpen | failFast
  deriving DecidableEq, Repr, Inhabited

/-- `SELFTEST_POLICY`: what DEV.INIT step 3 does on a mismatch (D13). -/
inductive SelfTestPolicy where
  | lenient | strict
  deriving DecidableEq, Repr, Inhabited

/-- `UNIMPL_SEQ_POLICY`: what DEV.INIT step 4 does for modes other than single-cycle (D14). -/
inductive UnimplSeqPolicy where
  | accept | reject
  deriving DecidableEq, Repr, Inhabited

/-- `SETTLE_MODE`: what SETTLE guarantees (D36). -/
inductive SettleMode where
  | conservative | assumed
  deriving DecidableEq, Repr, Inhabited

/-! ### The parameter record (R11) -/

/-- The parameters of R11 that can differ between instantiations. `ChSelWord` and `BusySel` are finite tables
(DESIGN CHOICE, log 16): channel 0, channel 1, then the others, so that `NCH ≥ 2` by construction. -/
structure Params where
  /-- `OPC_READ`. -/
  opcRead : Byte
  /-- `OPC_WRITE`. -/
  opcWrite : Byte
  /-- `ADDR_HI_MASK`. -/
  addrHiMask : Byte
  /-- `DUMMY_BYTE`. -/
  dummyByte : Byte
  /-- `RX_DATA_INDEX`. -/
  rxDataIndex : Nat
  /-- `ADDR_SCRATCH`. -/
  addrScratch : Half
  /-- `ADDR_SETUP`. -/
  addrSetup : Half
  /-- `ADDR_SEQ_CTRL`. -/
  addrSeqCtrl : Half
  /-- `ADDR_GP_MODE`. -/
  addrGpMode : Half
  /-- `SENTINEL`. -/
  sentinel : Byte
  /-- `SETUP_IF_MASK`. -/
  setupIfMask : Byte
  /-- `IF_VAL_CONV`. -/
  ifValConv : Byte
  /-- `IF_VAL_REG`. -/
  ifValReg : Byte
  /-- `GP_BUSY_EN_MASK`. -/
  gpBusyEnMask : Byte
  /-- `GP_BUSY_SEL_MASK`. -/
  gpBusySelMask : Byte
  /-- `BusySel`: the value for pin `i` at index `i`. -/
  busySel : List Byte
  /-- `XFER_WIDTH`. -/
  xferWidth : Nat
  /-- `RES_BITS`. -/
  resBits : Nat
  /-- `SIGN_EXTEND`. -/
  signExtend : Bool
  /-- `ChSelWord(0)`. -/
  chSel0 : Word
  /-- `ChSelWord(1)`. -/
  chSel1 : Word
  /-- `ChSelWord(2)`, `ChSelWord(3)`, … -/
  chSelMore : List Word
  /-- `TEMPLATE`. -/
  template : List Half
  /-- `SAMPLE_COUNT`. -/
  sampleCount : Nat
  /-- `OFF_SCRATCH`. -/
  offScratch : Nat
  /-- `OFF_CONFIG`. -/
  offConfig : Nat
  /-- `OFF_PERIOD`. -/
  offPeriod : Nat
  /-- `OFF_WIDTH`. -/
  offWidth : Nat
  /-- `PWM_TEST_PATTERN`. -/
  pwmTestPattern : Word
  /-- `CFG_LOAD`. -/
  cfgLoad : Word
  /-- `CFG_RESET`. -/
  cfgReset : Word
  /-- `MEM_ADDR_W`. -/
  memAddrW : Nat
  /-- `MASKED_WRITE_POLICY`. -/
  maskedWritePolicy : MaskedWritePolicy
  /-- `SELFTEST_POLICY`. -/
  selfTestPolicy : SelfTestPolicy
  /-- `UNIMPL_SEQ_POLICY`. -/
  unimplSeqPolicy : UnimplSeqPolicy
  /-- `SETTLE_MODE`. -/
  settleMode : SettleMode
  /-- `DEV_CONNECTED`. -/
  devConnected : Bool
  /-- `PWM_CONNECTED`. -/
  pwmConnected : Bool
  deriving DecidableEq, Repr, Inhabited

/-- `NCH`, the number of ADC input channels: at least 2 (D38). -/
def Params.nch (p : Params) : Nat := p.chSelMore.length + 2

/-- `ChSelWord(ch)` (R94, D38). -/
def Params.chSelWord (p : Params) : Nat → Word
  | 0 => p.chSel0
  | 1 => p.chSel1
  | n + 2 => p.chSelMore.getD n 0#32

/-- `BusySel(pin)` (R47); a pin past the table selects 0, which lies in every mask (log 16). -/
def Params.busySelOf (p : Params) (pin : Nat) : Byte := p.busySel.getD pin 0#8

/-- The constraints of R11 on the register-access frames and on the index of the read byte (log 28). -/
def Params.framesValid (p : Params) : Bool :=
  p.addrHiMask &&& (p.opcRead ||| p.opcWrite) == 0#8 && p.opcRead != p.opcWrite && decide (p.rxDataIndex < 3)

/-- The constraints of R11 on the ADC registers: four distinct addresses, and the fields of R45 and R47. -/
def Params.regsValid (p : Params) : Bool :=
  p.addrScratch != p.addrSetup && p.addrScratch != p.addrSeqCtrl && p.addrScratch != p.addrGpMode
    && p.addrSetup != p.addrSeqCtrl && p.addrSetup != p.addrGpMode && p.addrSeqCtrl != p.addrGpMode
    && p.setupIfMask != 0#8 && p.setupIfMask &&& Config.setupSeqMask == 0#8
    && p.ifValConv &&& ~~~p.setupIfMask == 0#8 && p.ifValReg &&& ~~~p.setupIfMask == 0#8
    && p.ifValConv != p.ifValReg
    && p.gpBusyEnMask != 0#8 && p.gpBusyEnMask &&& (p.gpBusyEnMask - 1#8) == 0#8
    && p.gpBusyEnMask &&& p.gpBusySelMask == 0#8
    && p.busySel.all (fun v => v &&& ~~~p.gpBusySelMask == 0#8)

/-- The constraints of R11 on the data phase and the acquisition loop. -/
def Params.dataValid (p : Params) : Bool :=
  decide (8 < p.xferWidth) && decide (p.xferWidth ≤ 32)
    && (p.resBits == 16 || p.resBits == 18 || p.resBits == 20)
    && p.chSel0 != p.chSel1
    && decide (p.chSel0.toNat < 2 ^ p.xferWidth) && decide (p.chSel1.toNat < 2 ^ p.xferWidth)
    && p.chSelMore.all (fun w => decide (w.toNat < 2 ^ p.xferWidth))
    && decide (1 ≤ p.sampleCount) && decide (p.sampleCount ≤ Config.repsMax)

/-- The constraints of R11 on the pulse generator block and the memory. -/
def Params.pwmValid (p : Params) : Bool :=
  p.offScratch % 4 == 0 && p.offConfig % 4 == 0 && p.offPeriod % 4 == 0 && p.offWidth % 4 == 0
    && p.offScratch != p.offConfig && p.offScratch != p.offPeriod && p.offScratch != p.offWidth
    && p.offConfig != p.offPeriod && p.offConfig != p.offWidth && p.offPeriod != p.offWidth
    && p.cfgLoad != p.cfgReset && decide (16 ≤ p.memAddrW)

/-- Every constraint of R11. -/
def Params.Valid (p : Params) : Bool := p.framesValid && p.regsValid && p.dataValid && p.pwmValid

/-- The parameters R11 gives a value (by the source or by a decision of 92_eei_decisions.md) set to that value. -/
def Params.decided (p : Params) : Params :=
  { p with
    dummyByte := 0x00#8
    rxDataIndex := 1
    xferWidth := 16
    resBits := 20
    signExtend := false
    template := [0x1000#16, 0x2001#16, 0x3000#16]
    maskedWritePolicy := .failOpen
    selfTestPolicy := .lenient
    unimplSeqPolicy := .accept
    settleMode := .conservative }

/-- The illustrative instantiation EX1 of 95_test_vectors.md Part 1: one admissible record, no value of the source. -/
def Params.ex1 : Params :=
  { opcRead := 0x80#8, opcWrite := 0x40#8, addrHiMask := 0x3F#8, dummyByte := 0x00#8, rxDataIndex := 1
    addrScratch := 0x000A#16, addrSetup := 0x0020#16, addrSeqCtrl := 0x0024#16, addrGpMode := 0x0027#16
    sentinel := 0xAA#8, setupIfMask := 0x04#8, ifValConv := 0x04#8, ifValReg := 0x00#8
    gpBusyEnMask := 0x20#8, gpBusySelMask := 0x10#8, busySel := [0x00#8, 0x10#8]
    xferWidth := 16, resBits := 20, signExtend := false
    chSel0 := 0x8000#32, chSel1 := 0x8100#32
    chSelMore := [0x8200#32, 0x8300#32, 0x8400#32, 0x8500#32, 0x8600#32, 0x8700#32, 0x8800#32, 0x8900#32, 0x8A00#32,
      0x8B00#32, 0x8C00#32, 0x8D00#32, 0x8E00#32, 0x8F00#32]
    template := [0x1000#16, 0x2001#16, 0x3000#16], sampleCount := 4
    offScratch := 0x04, offConfig := 0x10, offPeriod := 0x40, offWidth := 0x44
    pwmTestPattern := 0xA5A5A5A5#32, cfgLoad := 0x00000002#32, cfgReset := 0x00000001#32, memAddrW := 32
    maskedWritePolicy := .failOpen, selfTestPolicy := .lenient, unimplSeqPolicy := .accept
    settleMode := .conservative, devConnected := true, pwmConnected := true }

/-- A record that meets the constraints of R11 is admitted as it is; any other is replaced by an admissible one, so that
the outcome ranges over exactly the admissible records. -/
def Params.admitted (p : Params) : Params := if p.decided.Valid then p.decided else Params.ex1

/-! ### The launch record (R12) -/

/-- `seq_mode` (R12). -/
inductive SeqMode where
  | singleCycle | twoCycle | standardSequence | advancedSequence
  deriving DecidableEq, Repr, Inhabited

/-- `if_mode` (R12). -/
inductive IfMode where
  | conversion | register
  deriving DecidableEq, Repr, Inhabited

/-- `DevCfg` (R12). The three opaque fields (bus mode, identity tag, clock parameters) are tags that only pass through
(DESIGN CHOICE, log 27). R57 and R62 say that every pulse generator access is aligned, but R12 gives `pwm_base` no alignment and R70
leaves it to the platform: here it is any natural number, a multiple of 4 or not (DESIGN CHOICE, log 32). -/
structure DevCfg where
  /-- `reset_line_present`. -/
  resetLinePresent : Bool
  /-- `reg_speed_hz`. -/
  regSpeedHz : Nat
  /-- `bulk_speed_hz`. -/
  bulkSpeedHz : Nat
  /-- `bus_mode`. -/
  busMode : Nat
  /-- `seq_mode`. -/
  seqMode : SeqMode
  /-- `if_mode`. -/
  ifMode : IfMode
  /-- `busy_pin`. -/
  busyPin : Nat
  /-- `identity_tag`. -/
  identityTag : Nat
  /-- `clk_params`. -/
  clkParams : Nat
  /-- `clk_rate_hz`. -/
  clkRateHz : Nat
  /-- `pwm_base`, of any alignment (log 32). -/
  pwmBase : Nat
  /-- `pwm_ref_hz`. -/
  pwmRefHz : DWord
  /-- `pwm_period_ns`. -/
  pwmPeriodNs : DWord
  /-- `pwm_duty_ns`. -/
  pwmDutyNs : DWord
  deriving DecidableEq, Repr, Inhabited

/-- What one launch fixes: the parameters of R11 and the record of R12. -/
structure Launch where
  params : Params
  cfg : DevCfg
  deriving DecidableEq, Repr, Inhabited

/-! ### Opaque: the OPEN parameters, the launch record, the draws -/

/-- The OPEN parameters of R11, unconstrained and unknown. -/
opaque Config.openParams : Params

/-- The launch record the host supplies (R12), unknown. -/
opaque Config.devCfg : DevCfg

/-- The parameters of the machine at reset: decided ones at their value, OPEN ones unknown but admissible (log 1). -/
def Config.params : Params := Config.openParams.admitted.decided

/-- The launch of the machine at reset. -/
def Config.launch : Launch := { params := Config.params, cfg := Config.devCfg }

/-- FREE VALUE. The `n`-th draw of a run (R17), where the state lists none (log 2). -/
opaque Config.freeDraw : Nat → Nat

/-- FREE VALUE. The byte of system memory at an address before anything has been written there (R63, log 10). -/
opaque Config.memInit : Nat → Byte

end Sys2Proof
end

