-- ==== Sys2Proof/WellFormed.lean ====
section
/-! DEFINITION. Which instructions a launch admits: the operand ranges of spec/30_encoding.md R88 and, for XFER, R96. -/

namespace Sys2Proof

/-- The operands lie in the ranges of R88 (host operations) or R96 (micro-operations). -/
def Instr.WellFormed (p : Params) : Instr → Bool
  | .msgSetp w => decide (w.toNat < 2 ^ p.xferWidth)
  | .msgSetch ch => decide (ch.toNat < p.nch)
  | .oflXfer reps => decide (1 ≤ reps.toNat) && decide (reps.toNat ≤ Config.repsMax)
  | .cinv addr len => decide (addr.toNat + len.toNat ≤ 2 ^ p.memAddrW)
  | .decodeBuf n => decide (1 ≤ n.toNat)
  | .xfer n => decide (1 ≤ n.toNat)
  | .regRd _ | .regWr _ _ | .regRdm _ _ | .regWrm _ _ _ | .pwmInit | .pwmSetp _ | .pwmSetd _ | .pwmEn | .pwmDis | .pwmTd
  | .pwmGetp | .devInit | .devTd | .oflInit _ _ _ | .settle _ | .acqIter | .acqRun | .csAssert | .csDeassert => true

end Sys2Proof
end

