-- ==== Sys2Proof/Decode.lean ====
section
/-! DEFINITION. Decoding and encoding of host requests and template micro-operations (spec/30_encoding.md R82 to R88, R96), and the
assembler of R99 to R101. Decoding checks the opcode, then the reserved bits (R236 items 1 and 2); the operand ranges of R88
(item 3) depend on the launch and are the first check of the operation itself (log 21). -/

namespace Sys2Proof

/-! ### The opcode map (R86) -/

/-- The host operations, by name. -/
inductive Op where
  | regRd | regWr | regRdm | regWrm
  | pwmInit | pwmSetp | pwmSetd | pwmEn | pwmDis | pwmTd | pwmGetp
  | devInit | devTd
  | oflInit | msgSetp | msgSetch | oflXfer | settle | cinv | decodeBuf
  | acqIter | acqRun
  deriving DecidableEq, Repr

/-- Every host operation, in the order of R86. -/
def Op.all : List Op :=
  [.regRd, .regWr, .regRdm, .regWrm, .pwmInit, .pwmSetp, .pwmSetd, .pwmEn, .pwmDis, .pwmTd, .pwmGetp,
    .devInit, .devTd, .oflInit, .msgSetp, .msgSetch, .oflXfer, .settle, .cinv, .decodeBuf, .acqIter, .acqRun]

/-- `OP`, the opcode in `H[7:0]` (R86). -/
def Op.code : Op → Byte
  | .regRd => 0x01#8 | .regWr => 0x02#8 | .regRdm => 0x03#8 | .regWrm => 0x04#8
  | .pwmInit => 0x10#8 | .pwmSetp => 0x11#8 | .pwmSetd => 0x12#8 | .pwmEn => 0x13#8
  | .pwmDis => 0x14#8 | .pwmTd => 0x15#8 | .pwmGetp => 0x16#8
  | .devInit => 0x20#8 | .devTd => 0x21#8
  | .oflInit => 0x30#8 | .msgSetp => 0x31#8 | .msgSetch => 0x32#8 | .oflXfer => 0x33#8
  | .settle => 0x34#8 | .cinv => 0x35#8 | .decodeBuf => 0x36#8
  | .acqIter => 0x40#8 | .acqRun => 0x41#8

/-- The header bits the operation fixes: the opcode, the reserved bits, and every field it does not use (R83, R85). -/
def Op.mask : Op → DWord
  | .regRd => 0xFFFFFFFF0000FFFF#64
  | .regWr => 0xFFFF00FF0000FFFF#64
  | .regRdm => 0xFFFFFF000000FFFF#64
  | .regWrm => 0xFFFF00000000FFFF#64
  | .pwmInit | .pwmSetp | .pwmSetd | .pwmEn | .pwmDis | .pwmTd | .pwmGetp | .devInit | .devTd | .oflInit | .msgSetp
  | .msgSetch | .oflXfer | .settle | .cinv | .decodeBuf | .acqIter | .acqRun => 0xFFFFFFFFFFFFFFFF#64

/-- `K`, the number of operand words (R84). -/
def Op.operands : Op → Nat
  | .regRd | .regWr | .regRdm | .regWrm => 0
  | .pwmInit | .pwmEn | .pwmDis | .pwmTd | .pwmGetp | .devInit | .devTd | .acqIter | .acqRun => 0
  | .pwmSetp | .pwmSetd | .msgSetp | .msgSetch | .oflXfer | .settle | .decodeBuf => 1
  | .cinv => 2
  | .oflInit => 3

/-- The operation an opcode names; none for the reserved opcodes of R87. -/
def Op.ofCode (c : Byte) : Option Op := Op.all.find? (fun o => o.code == c)

/-! ### Operand fields (R83, R88) -/

/-- `H[7:0]`. -/
def headerOp (h : DWord) : Byte := h.extractLsb' 0 8
/-- `A = H[31:16]`. -/
def headerA (h : DWord) : Half := h.extractLsb' 16 16
/-- `M = H[39:32]`. -/
def headerM (h : DWord) : Byte := h.extractLsb' 32 8
/-- `V = H[47:40]`. -/
def headerV (h : DWord) : Byte := h.extractLsb' 40 8

/-- The instruction of an operation, its header and its operand words (R88): no operand is extended, scaled or shifted. -/
def Op.build (o : Op) (h w1 w2 w3 : DWord) : Instr :=
  match o with
  | .regRd => .regRd (headerA h)
  | .regWr => .regWr (headerA h) (headerV h)
  | .regRdm => .regRdm (headerA h) (headerM h)
  | .regWrm => .regWrm (headerA h) (headerM h) (headerV h)
  | .pwmInit => .pwmInit
  | .pwmSetp => .pwmSetp w1
  | .pwmSetd => .pwmSetd w1
  | .pwmEn => .pwmEn
  | .pwmDis => .pwmDis
  | .pwmTd => .pwmTd
  | .pwmGetp => .pwmGetp
  | .devInit => .devInit
  | .devTd => .devTd
  | .oflInit => .oflInit w1 w2 w3
  | .msgSetp => .msgSetp w1
  | .msgSetch => .msgSetch w1
  | .oflXfer => .oflXfer w1
  | .settle => .settle w1
  | .cinv => .cinv w1 w2
  | .decodeBuf => .decodeBuf w1
  | .acqIter => .acqIter
  | .acqRun => .acqRun

/-! ### Decoding a request (R82, R85, R87) -/

/-- Why a request is refused at decode (R236 items 1 and 2). -/
inductive DecodeError where
  /-- The opcode is not in the map (R87). -/
  | reservedOpcode
  /-- A reserved header bit or an unused header field is not 0 (R85). -/
  | reservedBits
  deriving DecidableEq, Repr

/-- What decoding the front of a word stream gives. -/
inductive Decoded where
  /-- An instruction, and the words after it. -/
  | instr (i : Instr) (rest : List DWord)
  /-- The request is refused. -/
  | refused (e : DecodeError)
  /-- The header, or an operand word the header calls for, has not come yet. -/
  | incomplete
  deriving DecidableEq, Repr

/-- The operation of a header word, or why it is refused: the opcode first, then the reserved bits (R236). -/
def decodeHeader (h : DWord) : Except DecodeError Op :=
  match Op.ofCode (headerOp h) with
  | none => .error .reservedOpcode
  | some o => if h &&& o.mask = (o.code).setWidth 64 then .ok o else .error .reservedBits

/-- Decode the front of a word stream. "A decoder knows the length from the first word" (R82). -/
def decodeRequest (ws : List DWord) : Decoded :=
  match ws with
  | [] => .incomplete
  | h :: rest =>
    match decodeHeader h with
    | .error e => .refused e
    | .ok o =>
      if rest.length < o.operands then .incomplete
      else .instr (o.build h (rest.getD 0 0#64) (rest.getD 1 0#64) (rest.getD 2 0#64)) (rest.drop o.operands)

/-- The number of words of the request a header opens (R82); a header that is refused stands alone. -/
def requestLength (h : DWord) : Nat :=
  match Op.ofCode (headerOp h) with
  | none => 1
  | some o => 1 + o.operands

/-! ### Decoding a micro-operation (R96) -/

/-- `KIND` is `U[15:12]` and `N` is `U[11:0]`; a reserved kind, and `N ≠ 0` where it must be 0, give none. `XFER 0` decodes
and is not well-formed (R97). -/
def decodeMicro (u : Half) : Option Instr :=
  if u = 0x1000#16 then some .csAssert
  else if u.extractLsb' 12 4 = 0x2#4 then some (.xfer (u.extractLsb' 0 12))
  else if u = 0x3000#16 then some .csDeassert
  else none

/-! ### Encoding -/

/-- The words of a host operation (R83, R84); a micro-operation is no request. -/
def encodeRequest : Instr → List DWord
  | .regRd a => [0x01#64 ||| a.setWidth 64 <<< 16]
  | .regWr a v => [0x02#64 ||| a.setWidth 64 <<< 16 ||| v.setWidth 64 <<< 40]
  | .regRdm a m => [0x03#64 ||| a.setWidth 64 <<< 16 ||| m.setWidth 64 <<< 32]
  | .regWrm a m v => [0x04#64 ||| a.setWidth 64 <<< 16 ||| m.setWidth 64 <<< 32 ||| v.setWidth 64 <<< 40]
  | .pwmInit => [0x10#64]
  | .pwmSetp ns => [0x11#64, ns]
  | .pwmSetd ns => [0x12#64, ns]
  | .pwmEn => [0x13#64]
  | .pwmDis => [0x14#64]
  | .pwmTd => [0x15#64]
  | .pwmGetp => [0x16#64]
  | .devInit => [0x20#64]
  | .devTd => [0x21#64]
  | .oflInit a len flags => [0x30#64, a, len, flags]
  | .msgSetp w => [0x31#64, w]
  | .msgSetch ch => [0x32#64, ch]
  | .oflXfer reps => [0x33#64, reps]
  | .settle ms => [0x34#64, ms]
  | .cinv a len => [0x35#64, a, len]
  | .decodeBuf n => [0x36#64, n]
  | .acqIter => [0x40#64]
  | .acqRun => [0x41#64]
  | .csAssert | .xfer _ | .csDeassert => []

/-- The word of a micro-operation (R96, R101); a host operation is none. -/
def encodeMicro : Instr → Option Half
  | .csAssert => some 0x1000#16
  | .xfer n => some (0x2000#16 ||| n.setWidth 16)
  | .csDeassert => some 0x3000#16
  | .regRd _ | .regWr _ _ | .regRdm _ _ | .regWrm _ _ _ | .pwmInit | .pwmSetp _ | .pwmSetd _ | .pwmEn | .pwmDis | .pwmTd
  | .pwmGetp | .devInit | .devTd | .oflInit _ _ _ | .msgSetp _ | .msgSetch _ | .oflXfer _ | .settle _ | .cinv _ _
  | .decodeBuf _ | .acqIter | .acqRun => none

/-- The words of an instruction, as numbers: the 64-bit words of a host operation, the 16-bit word of a micro-operation. -/
def encode (i : Instr) : List Nat :=
  match encodeMicro i with
  | some u => [u.toNat]
  | none => (encodeRequest i).map BitVec.toNat

/-! ### The host's view of the opcode table -/

/-- The `k`-th 64-bit word of a number whose bit 0 is the least significant bit of the first word. -/
def tableWord (w k : Nat) : DWord := BitVec.ofNat 64 (w / 2 ^ (64 * k))

/-- The instruction the decoder reads from the bits of an opcode-table row: 16 bits are a micro-operation, more are a
request, whose operand words follow the header. -/
def decodeTableWord (nbits w : Nat) : Option Instr :=
  if nbits ≤ 16 then decodeMicro (BitVec.ofNat 16 w)
  else
    match decodeRequest [tableWord w 0, tableWord w 1, tableWord w 2, tableWord w 3] with
    | .instr i _ => some i
    | .refused _ => none
    | .incomplete => none

/-! ### The assembler (R99 to R101) -/

/-- An assembler operand of a given width. -/
def asmOperand (width n : Nat) : Option (BitVec width) :=
  if n < 2 ^ width then some (BitVec.ofNat width n) else none

/-- One assembly line, its mnemonic and its operands read as numbers, in the order R99 gives; the pseudo-instructions of
R100 give the operations they expand to. -/
def assemble (mnemonic : String) (ops : List Nat) : Option (List Instr) :=
  match mnemonic, ops with
  | "REG.RD", [a] => do some [.regRd (← asmOperand 16 a)]
  | "REG.WR", [a, v] => do some [.regWr (← asmOperand 16 a) (← asmOperand 8 v)]
  | "REG.RDM", [a, m] => do some [.regRdm (← asmOperand 16 a) (← asmOperand 8 m)]
  | "REG.WRM", [a, m, v] => do some [.regWrm (← asmOperand 16 a) (← asmOperand 8 m) (← asmOperand 8 v)]
  | "PWM.INIT", [] => some [.pwmInit]
  | "PWM.SETP", [ns] => do some [.pwmSetp (← asmOperand 64 ns)]
  | "PWM.SETD", [ns] => do some [.pwmSetd (← asmOperand 64 ns)]
  | "PWM.EN", [] => some [.pwmEn]
  | "PWM.DIS", [] => some [.pwmDis]
  | "PWM.TD", [] => some [.pwmTd]
  | "PWM.GETP", [] => some [.pwmGetp]
  | "DEV.INIT", [] => some [.devInit]
  | "DEV.TD", [] => some [.devTd]
  | "OFL.INIT", [a, l, f] => do some [.oflInit (← asmOperand 64 a) (← asmOperand 64 l) (← asmOperand 64 f)]
  | "MSG.SETP", [w] => do some [.msgSetp (← asmOperand 64 w)]
  | "MSG.SETCH", [ch] => do some [.msgSetch (← asmOperand 64 ch)]
  | "OFL.XFER", [n] => do some [.oflXfer (← asmOperand 64 n)]
  | "SETTLE", [ms] => do some [.settle (← asmOperand 64 ms)]
  | "CINV", [a, l] => do some [.cinv (← asmOperand 64 a) (← asmOperand 64 l)]
  | "DECODE", [n] => do some [.decodeBuf (← asmOperand 64 n)]
  | "ACQ.ITER", [] => some [.acqIter]
  | "ACQ.RUN", [] => some [.acqRun]
  | "CS.ASSERT", [] => some [.csAssert]
  | "XFER", [n] => do some [.xfer (← asmOperand 12 n)]
  | "CS.DEASSERT", [] => some [.csDeassert]
  | "REG.SETB", [a, m] => do some (Pseudo.regSetb (← asmOperand 16 a) (← asmOperand 8 m)).expand
  | "REG.CLRB", [a, m] => do some (Pseudo.regClrb (← asmOperand 16 a) (← asmOperand 8 m)).expand
  | "PWM.CFG", [p, d] => do some (Pseudo.pwmCfg (← asmOperand 64 p) (← asmOperand 64 d)).expand
  | _, _ => none

end Sys2Proof
end

