-- ==== Sys2Proof/Machine/State.lean ====
section
/-! DEFINITION. The machine's state (spec/10_state.md), its reset value (spec/70_reset_and_hazards.md R260) and the reasons a run
stops (spec/60_exceptions.md R233 to R235). -/

namespace Sys2Proof.Machine

/-! ### Reasons -/

/-- Fault reasons (R233): a contract of the source that the host broke. Each errs toward unprovable (safe). -/
inductive Fault where
  /-- Raised by DEV.INIT when a handle exists (R165). Safe. -/
  | handleExists
  /-- Raised by REG.* when the transport is not initialized (R116). Safe. -/
  | noTransport
  /-- Raised by REG.* outside register framing or at a width other than 8, and by OFL.XFER outside conversion framing or at
  a width other than `XFER_WIDTH` (R116, R184). Safe. -/
  | framingHazard
  /-- Raised by OFL.INIT and OFL.XFER outside `ready` (R180). Safe. -/
  | notReady
  /-- Raised by OFL.XFER and DECODE when the offload is not configured (R184, R188). Safe. -/
  | offloadNotInitialized
  /-- Raised by OFL.XFER and DECODE when the words do not fit in `rx_len` (R184, R188). Safe. -/
  | bufferOverrun
  /-- Raised by PWM.SETP, PWM.SETD, PWM.EN, PWM.DIS and PWM.GETP on an uninitialized descriptor (R135). Safe. -/
  | pwmNotInitialized
  /-- Raised by PWM.INIT, and by DEV.INIT step 7 through it, on an allocated descriptor (R136). Safe. -/
  | pwmAlreadyInitialized
  /-- Raised by ACQ.ITER and ACQ.RUN after termination (R214). Safe. -/
  | acqTerminated
  /-- Answered by `step`, not by an operation: CTL is stuck (R235) and no word is left for the DMA agent to land, so no
  agent has a step. Safe. -/
  | stuck
  deriving DecidableEq, Repr

/-- Refusal reasons (R234): the model gives the request no meaning. Each errs toward unprovable (safe). -/
inductive Refusal where
  /-- Raised by a dispatch arm whose instruction has no meaning yet; no arm is left so. Safe. -/
  | notModelled (mnemonic : String)
  /-- Raised at decode: the opcode is not in the map (R87). Safe. -/
  | reservedOpcode
  /-- Raised at decode: a reserved header bit or an unused field is not 0 (R85). Safe. -/
  | reservedBits
  /-- Raised by MSG.SETP, MSG.SETCH, OFL.XFER, CINV and DECODE on an operand word outside its range (R88). Safe. -/
  | operandRange
  /-- Raised by REG.* on an address with high bits outside `ADDR_HI_MASK` (R115). Safe. -/
  | addressNotEncodable
  /-- Raised by OFL.XFER on a template that is not well-formed, and by the micro-operation XFER 0 (R97). Safe. -/
  | templateNotAdmitted
  /-- Raised by PWM.SETP, PWM.SETD and PWM.INIT when the tick count does not fit (R131). Safe. -/
  | tickOverflow
  deriving DecidableEq, Repr

/-! ### Controller state -/

/-- `S.dev_state` (R23). -/
inductive DevState where
  | absent | reset | gpioReady | busReady | identityVerified | sequencingConfigured | busySignalConfigured
  | interfaceModeConfigured | ready | failed
  deriving DecidableEq, Repr

/-- `S.alloc` (R24): which resources the block holds. -/
structure Alloc where
  handle : Bool
  gpio : Bool
  xport : Bool
  clkgen : Bool
  pwm : Bool
  deriving DecidableEq, Repr

/-- `S.xport` (R25): the transport as the controller configured it. -/
structure Xport where
  initialized : Bool
  speedHz : Nat
  wordWidth : Nat
  deriving DecidableEq, Repr

/-- An event of `S.log` (R27). -/
inductive Event where
  | selfTestMismatch (readback : Byte)
  deriving DecidableEq, Repr

/-- `S.pwm.state` (R28). -/
inductive PwmState where
  | uninitialized | configured | enabled | disabled
  deriving DecidableEq, Repr

/-- `S.pwm`, the pulse generator descriptor (R28). -/
structure PwmDesc where
  state : PwmState
  base : Nat
  refHz : DWord
  periodNs : DWord
  dutyNs : DWord
  deriving DecidableEq, Repr

/-- The descriptor at reset and after release (R28, R138); `base` and `ref_hz` are 0 by DESIGN CHOICE (log 9). -/
def PwmDesc.reset : PwmDesc := { state := .uninitialized, base := 0, refHz := 0#64, periodNs := 0#64, dutyNs := 0#64 }

/-- `S.ofl`, the offload configuration (R31). -/
structure Ofl where
  initialized : Bool
  rxAddr : Nat
  rxLen : Nat
  rxEn : Bool
  deriving DecidableEq, Repr

/-- `S.msg`, the offload transfer message (R32). A parameter word has `XFER_WIDTH ≤ 32` bits (log 14). -/
structure Msg where
  template : List Half
  param : Word
  paramValid : Bool
  channelTag : Option Nat
  deriving DecidableEq, Repr

/-- `S.engine` (R33), and two fields of the model's own (log 19): the captured parameter word (R80) and the number of
repetitions the transfer issues (R184). -/
structure Engine where
  busy : Bool
  tpc : Nat
  rep : Nat
  /-- The model's own: the captured parameter word. -/
  param : Word
  /-- The model's own: the repetitions to issue. -/
  reps : Nat
  deriving DecidableEq, Repr

/-- `S.acq` (R36). -/
structure Acq where
  channel : Fin 2
  iter : Nat
  terminated : Bool
  deriving DecidableEq, Repr

/-! ### Memory -/

/-- Sparse bytes by address: addresses strictly rising; an address that is not listed holds no byte (log 10). -/
abbrev Memory := List Host.Cell

/-! ### Device state -/

/-- `D.framing` (R41). -/
inductive Framing where
  | register | conversion
  deriving DecidableEq, Repr

/-- The ADC device (R40 to R42). A register that is not listed is `none`, its content unspecified. -/
structure Dev where
  reg : Memory
  framing : Framing
  sel : Option Word
  deriving DecidableEq, Repr

/-- `P.run` when it is known (R52). A period or width that the rule leaves open is `none` (log 11). -/
structure PulseRun where
  running : Bool
  period : Option Word
  width : Option Word
  deriving DecidableEq, Repr

/-- The pulse generator hardware: `P.reg` (R48) and `P.run` (R52). -/
structure Pulse where
  scratch : Option Word
  config : Option Word
  period : Option Word
  width : Option Word
  run : Option PulseRun
  deriving DecidableEq, Repr

/-! ### The model's own state -/

/-- The result words `ST` and `VAL` (R89). -/
structure Result where
  st : DWord
  val : DWord
  deriving DecidableEq, Repr

/-- Where CTL is between two steps: waiting for a request, inside the loop of ACQ.RUN (R212), or stuck (R235). -/
inductive CtlPos where
  | idle | acqRun | stuck
  deriving DecidableEq, Repr

/-- A collaborator primitive, as CTL performs it (R15 to R17, R72). -/
inductive Call where
  /-- The allocation of the device handle (R150). -/
  | allocHandle
  /-- The allocation of the pulse generator descriptor (R136). -/
  | allocPwm
  /-- `GpioGetOptional` of the reset descriptor (R151). -/
  | gpioGetOptional
  /-- `GpioSetDirectionOutput(h, level)`; false is LOW (R151). -/
  | gpioSetDirectionOutput (level : Bool)
  /-- `GpioSetLevel(h, level)` (R151). -/
  | gpioSetLevel (level : Bool)
  /-- `Wait_ms(n)` (R18). -/
  | waitMs (n : Nat)
  /-- `XportInit(speed, mode, width)` (R152). -/
  | xportInit (speedHz mode width : Nat)
  /-- `XportSetWordWidth(w)` (R157). -/
  | xportSetWordWidth (w : Nat)
  /-- `XportSetSpeed(hz)` (R157). -/
  | xportSetSpeed (hz : Nat)
  /-- `XportRemove()` (R161). -/
  | xportRemove
  /-- `ClkInit(params)` (R157). -/
  | clkInit (params : Nat)
  /-- `ClkSetRate(hz)` (R157). -/
  | clkSetRate (hz : Nat)
  /-- `ClkRemove()` (R161). -/
  | clkRemove
  /-- `GpioRemove()` (R161). -/
  | gpioRemove
  /-- `BusExchange(tx)` (R16). -/
  | busExchange (tx : List Byte)
  /-- `MmioWrite32` at an absolute address (R15). -/
  | mmioWrite (addr : Nat) (v : Word)
  /-- `MmioRead32` at an absolute address (R15). -/
  | mmioRead (addr : Nat)
  /-- `XportOffloadInit(rx_dma_base, rx_enable)` (R181). -/
  | offloadInit (rxDmaBase : Nat) (rxEnable : Bool)
  /-- `XportOffloadTrigger(T, reps)` (R184). -/
  | offloadTrigger (template : List Half) (reps : Nat)
  /-- `ConvExchange(w)` (R16). -/
  | convExchange (w : Word)
  /-- `CacheInvalidate(addr, len)` (R67). -/
  | cacheInvalidate (addr len : Nat)
  deriving DecidableEq, Repr

/-- The environment's draws (R17). `faultFree` is the launch premise TransportFaultFree (R265): every collaborator result is
ok. `script` lists draws still to come; where it is empty the draw is `Config.freeDraw drawn`, of which nothing is known
(log 2, log 3). -/
structure Env where
  faultFree : Bool
  script : List Nat
  drawn : Nat
  deriving DecidableEq, Repr

/-! ### The state -/

/-- The whole state: the block's `S`, the ADC's `D`, the pulse generator's `P`, and the model's own fields. -/
structure State where
  /-- `S.dev_state` (R23). -/
  devState : DevState
  /-- `S.alloc` (R24). -/
  alloc : Alloc
  /-- `S.xport` (R25). -/
  xport : Xport
  /-- `S.cs` (R26). -/
  cs : Bool
  /-- `S.log` (R27). -/
  log : List Event
  /-- `S.pwm` (R28). -/
  pwm : PwmDesc
  /-- `S.ofl` (R31). -/
  ofl : Ofl
  /-- `S.msg` (R32). -/
  msg : Msg
  /-- `S.engine` (R33). -/
  engine : Engine
  /-- `S.inflight` (R34), in the order of capture. -/
  inflight : List (Nat × Word)
  /-- The model's own: how many turns may still go to another agent or word before the oldest word in flight lands (R248);
  none while that number is not drawn (log 34). -/
  landBy : Option Nat
  /-- `S.mem` (R63). -/
  mem : Memory
  /-- `S.vis` (R64): the addresses that are Stale, strictly rising; every other is Fresh. -/
  stale : List Nat
  /-- `S.acq` (R36). -/
  acq : Acq
  /-- `S.out` (R37). -/
  out : List (List Word)
  /-- `S.fault` (R38). -/
  fault : Option Fault
  /-- `S.refused` (R38). -/
  refused : Option Refusal
  /-- `D` (R40 to R42). -/
  dev : Dev
  /-- `P` (R48 to R52). -/
  pulse : Pulse
  /-- The result words of the last operation (R89); none before the first and after one that returns nothing. -/
  result : Option Result
  /-- The model's own: where CTL is. -/
  ctl : CtlPos
  /-- The model's own: the request words the host has put out and CTL has not taken (R82). -/
  pending : List DWord
  /-- The model's own: the collaborator primitives performed so far, in order (R72). -/
  calls : List Call
  /-- The model's own: the environment's draws. -/
  env : Env
  /-- The parameters and the launch record (R11, R12): no operation writes them. -/
  launch : Launch
  deriving DecidableEq, Repr

/-- The state at power-on (R260) of a machine with the given launch. Fields R260 calls unspecified hold the value log 9
names. -/
def State.boot (l : Launch) : State :=
  { devState := .absent
    alloc := { handle := false, gpio := false, xport := false, clkgen := false, pwm := false }
    xport := { initialized := false, speedHz := 0, wordWidth := 8 }
    cs := false
    log := []
    pwm := PwmDesc.reset
    ofl := { initialized := false, rxAddr := 0, rxLen := 0, rxEn := false }
    msg := { template := l.params.template, param := 0#32, paramValid := false, channelTag := none }
    engine := { busy := false, tpc := 0, rep := 0, param := 0#32, reps := 0 }
    inflight := []
    landBy := none
    mem := []
    stale := []
    acq := { channel := 0, iter := 0, terminated := false }
    out := []
    fault := none
    refused := none
    dev := { reg := [], framing := .register, sel := none }
    pulse := { scratch := none, config := none, period := none, width := none, run := none }
    result := none
    ctl := .idle
    pending := []
    calls := []
    env := { faultFree := false, script := [], drawn := 0 }
    launch := l }

/-- The machine right after reset (R260), its launch unknown but admissible (log 1). -/
def State.reset : State := State.boot Config.launch

end Sys2Proof.Machine
end

