-- ==== Sys2Proof/Machine/Flags.lean ====
section
/-! DEFINITION. The status of an operation: error codes, cause codes and the result words (spec/30_encoding.md R89,
spec/60_exceptions.md R231). The block has no arithmetic flags (R39): the status byte is its only computed flag. -/

namespace Sys2Proof.Machine

/-- The architectural error codes (R231). -/
inductive ErrCode where
  | transportError | selfTestFailure | initError | offloadInitError | offloadTransferError | resourceExhausted
  deriving DecidableEq, Repr

/-- The cause of an `InitError` (R231); `none` is cause 0. -/
inductive Cause where
  | none | transportError | selfTestFailure | resourceExhausted | unimplementedMode | collaboratorError
  deriving DecidableEq, Repr

/-- `ST[7:0]` of an error. -/
def ErrCode.code : ErrCode → DWord
  | .transportError => 1#64
  | .selfTestFailure => 2#64
  | .initError => 3#64
  | .offloadInitError => 4#64
  | .offloadTransferError => 5#64
  | .resourceExhausted => 6#64

/-- `ST[15:8]` of an `InitError`. -/
def Cause.code : Cause → DWord
  | .none => 0#64
  | .transportError => 1#64
  | .selfTestFailure => 2#64
  | .resourceExhausted => 6#64
  | .unimplementedMode => 7#64
  | .collaboratorError => 8#64

/-- The cause DEV.INIT reports for an error of PWM.INIT that is not an `InitError` (R157). -/
def ErrCode.asCause : ErrCode → Cause
  | .transportError => .transportError
  | .selfTestFailure => .selfTestFailure
  | .resourceExhausted => .resourceExhausted
  | .initError | .offloadInitError | .offloadTransferError => .none

/-- The result words of `Ok(v)` (R89). -/
def okResult (v : DWord) : Result := { st := 0#64, val := v }

/-- The result words of `Err(e, c)`: the cause only with `InitError`, `VAL` 0 (R89). -/
def errResult (e : ErrCode) (c : Cause) : Result :=
  { st := e.code ||| (if e = .initError then c.code else 0#64) <<< 8, val := 0#64 }

end Sys2Proof.Machine
end

