-- ==== Sys2Proof/Machine/Operands.lean ====
section
/-! DEFINITION. Operand forms: operand ranges (spec/30_encoding.md R88), register frames (R90 to R93, spec/40_register_access.md
R115), masked values (R124), the tick quantizer (spec/41_pulse_generator.md R131), templates (R96 to R98) and samples
(spec/43_offload.md R188). -/

namespace Sys2Proof.Machine

/-! ### Operand ranges (R88) -/

/-- MSG.SETP: `W1 < 2^XFER_WIDTH`. -/
def paramInRange (p : Params) (w : DWord) : Bool := decide (w.toNat < 2 ^ p.xferWidth)

/-- MSG.SETCH: `W1 < NCH`. -/
def channelInRange (p : Params) (ch : DWord) : Bool := decide (ch.toNat < p.nch)

/-- OFL.XFER: `1 ≤ W1 ≤ REPS_MAX`. -/
def repsInRange (reps : DWord) : Bool := decide (1 ≤ reps.toNat) && decide (reps.toNat ≤ Config.repsMax)

/-- CINV: `W1 + W2 ≤ 2^MEM_ADDR_W`, computed in `Nat`. -/
def spanInRange (p : Params) (addr len : DWord) : Bool := decide (addr.toNat + len.toNat ≤ 2 ^ p.memAddrW)

/-- DECODE: `W1 ≥ 1`. -/
def countInRange (n : DWord) : Bool := decide (1 ≤ n.toNat)

/-! ### Register frames (R59, R90 to R93, R115) -/

/-- `addr[15:8]`. -/
def addrHigh (addr : Half) : Byte := addr.extractLsb' 8 8

/-- `addr[7:0]`. -/
def addrLow (addr : Half) : Byte := addr.extractLsb' 0 8

/-- `FrameAddr(addr)` (R115). -/
def frameAddr (p : Params) (addr : Half) : Byte := addrHigh addr &&& p.addrHiMask

/-- The address can be carried in a frame (R115). -/
def addrEncodable (p : Params) (addr : Half) : Bool := addrHigh addr &&& ~~~p.addrHiMask == 0#8

/-- The read frame of an address (R90). -/
def readFrame (p : Params) (addr : Half) : List Byte := [p.opcRead ||| frameAddr p addr, addrLow addr, p.dummyByte]

/-- The write frame of an address and a value (R91). -/
def writeFrame (p : Params) (addr : Half) (v : Byte) : List Byte := [p.opcWrite ||| frameAddr p addr, addrLow addr, v]

/-- A frame from the device's side (R93). -/
inductive FrameKind where
  | read (addr : Half)
  | write (addr : Half) (v : Byte)
  /-- Byte 0 matches neither opcode, or the frame has not three bytes. -/
  | other
  deriving DecidableEq, Repr

/-- Decoding a frame from the device's side (R93). -/
def decodeFrame (p : Params) : List Byte → FrameKind
  | [b0, b1, b2] =>
    if b0 &&& ~~~p.addrHiMask = p.opcRead then .read ((b0 &&& p.addrHiMask) ++ b1)
    else if b0 &&& ~~~p.addrHiMask = p.opcWrite then .write ((b0 &&& p.addrHiMask) ++ b1) b2
    else .other
  | _ => .other

/-! ### Masked values (R124) and the setup register (R118, R121) -/

/-- `(old & ~m) | v`: `v` is not masked (R124, C2). -/
def maskedValue (old m v : Byte) : Byte := (old &&& ~~~m) ||| v

/-- What an unspecified setup register reads as, for a drawn byte: the interface-mode field reads `IF_VAL_REG` (R118). -/
def setupUnknown (p : Params) (d : Byte) : Byte := (d &&& ~~~p.setupIfMask) ||| p.ifValReg

/-! ### The tick quantizer (R131) -/

/-- `ceil_div(p, q)` (R13). -/
def ceilDiv (p q : Nat) : Nat := (p + q - 1) / q

/-- `Ticks(ns, ref_hz)` (R131); none where it refuses with `TickOverflow`. -/
def ticks (ns refHz : DWord) : Option Word :=
  let k := refHz.toNat / 1000
  let p := k * ns.toNat
  if 2 ^ Config.mulW ≤ p then none
  else
    let t := ceilDiv p 1000000
    if 2 ^ Config.pwmRegW ≤ t then none else some (BitVec.ofNat 32 t)

/-- `min(ns, period)`: "clamps ns to the current period" (R141). -/
def clampDuty (ns period : DWord) : DWord := if ns.toNat ≤ period.toNat then ns else period

/-! ### Templates (R96 to R98) -/

/-- A micro-operation of a template (R96). -/
inductive MicroOp where
  | assert
  | xfer (n : BitVec 12)
  | deassert
  deriving DecidableEq, Repr

/-- The micro-operation of a template word; none for a reserved kind or a field that must be 0 (R96). -/
def microOf (u : Half) : Option MicroOp :=
  match decodeMicro u with
  | some .csAssert => some .assert
  | some (.xfer n) => some (.xfer n)
  | some .csDeassert => some .deassert
  | _ => none

/-- R97 items 2 and 3: defined kinds, `N ≥ 1` in XFER, and chip-select used in order, deasserted at the end. -/
def scanTemplate : List Half → Bool → Bool
  | [], asserted => !asserted
  | u :: rest, asserted =>
    match microOf u with
    | some .assert => !asserted && scanTemplate rest true
    | some (.xfer n) => asserted && n != 0#12 && scanTemplate rest true
    | some .deassert => asserted && scanTemplate rest false
    | none => false

/-- The words an element of a template transfers. -/
def microWords (u : Half) : Nat :=
  match microOf u with
  | some (.xfer n) => n.toNat
  | some .assert | some .deassert | none => 0

/-- `ResultWords(T)` (R98). -/
def resultWords : List Half → Nat
  | [] => 0
  | u :: rest => microWords u + resultWords rest

/-- The template is well-formed (R97). -/
def templateWf (t : List Half) : Bool :=
  decide (1 ≤ t.length) && decide (t.length ≤ Config.templateMax) && scanTemplate t false && decide (1 ≤ resultWords t)

/-! ### Samples (R188) -/

/-- `2^RES_BITS − 1`. -/
def sampleMask (p : Params) : Word := BitVec.ofNat 32 (2 ^ p.resBits - 1)

/-- One element of a decoded sequence: masked to the resolution, and sign-extended only if `SIGN_EXTEND` (R188). -/
def decodeSample (p : Params) (w : Word) : Word :=
  let s := w &&& sampleMask p
  if p.signExtend && s.getLsbD (p.resBits - 1) then s ||| ~~~sampleMask p else s

end Sys2Proof.Machine
end

