-- ==== Sys2Proof/Machine/Ops.lean ====
section
/-! DEFINITION. The named operations over the state: outcomes of an operation and how it ends (spec/00_scope.md R18), draws and
collaborator primitives (R17), system memory and the DMA agent (spec/20_memory.md R61 to R67), the ADC's registers and the
bus exchange (spec/40_register_access.md R115 to R122), the pulse generator's registers (spec/41_pulse_generator.md). -/

namespace Sys2Proof.Machine

/-! ### Outcomes of an operation (R18) -/

/-- How an operation, or a part of one, ends (R18). -/
inductive Res (α : Type) where
  /-- `return Ok(v)`. -/
  | ok (v : α)
  /-- `raise Err(code, cause)`. -/
  | err (e : ErrCode) (c : Cause)
  /-- `fault R`. -/
  | fault (r : Fault)
  /-- `refuse R`. -/
  | refuse (r : Refusal)
  /-- `stuck`. -/
  | stuck
  deriving DecidableEq, Repr

/-- Go on after `Ok`; every other outcome ends the whole with that outcome and the state reached (R236, R238). -/
def andThen {α β : Type} (x : Res α × State) (f : α → State → Res β × State) : Res β × State :=
  match x with
  | (.ok v, s) => f v s
  | (.err e c, s) => (.err e c, s)
  | (.fault r, s) => (.fault r, s)
  | (.refuse r, s) => (.refuse r, s)
  | (.stuck, s) => (.stuck, s)

/-- A cleanup path: `Err` is handed on to `f`, every other outcome stays (R238). -/
def onErr {α : Type} (x : Res α × State) (f : ErrCode → Cause → State → Res α × State) : Res α × State :=
  match x with
  | (.err e c, s) => f e c s
  | (.ok v, s) => (.ok v, s)
  | (.fault r, s) => (.fault r, s)
  | (.refuse r, s) => (.refuse r, s)
  | (.stuck, s) => (.stuck, s)

/-- Record a fault (R38): the first one stays, and nothing is returned to the host (R89). -/
def recordFault (r : Fault) (s : State) : State := { s with fault := some r, result := none }

/-- Record a refusal (R38). -/
def recordRefusal (r : Refusal) (s : State) : State := { s with refused := some r, result := none }

/-- CTL has no further step (R235). -/
def hang (s : State) : State := { s with ctl := .stuck, result := none }

/-- Return result words to the host and wait for the next request (R89, R266). -/
def giveResult (r : Result) (s : State) : State := { s with result := some r, ctl := .idle }

/-- HOW EVERY HOST OPERATION ENDS (R18, R89, R230, R238): `Ok` and `Err` return the result words, a fault or a refusal is
recorded for ever, a stuck operation leaves CTL without a step. No state is saved and no control is transferred: the block
has no trap entry and no return from one (R230, R239). -/
def ended (x : Res DWord × State) : State :=
  match x with
  | (.ok v, s) => giveResult (okResult v) s
  | (.err e c, s) => giveResult (errResult e c) s
  | (.fault r, s) => recordFault r s
  | (.refuse r, s) => recordRefusal r s
  | (.stuck, s) => hang s

/-- The answer of an instruction: every outcome of an operation is a next state (R38, log 4). -/
def finish (x : Res DWord × State) : Host.Outcome State Fault Refusal := .next (ended x)

/-! ### Draws (R17) -/

/-- The value of the next draw: listed in the state, or free (log 2). -/
def Env.head (e : Env) : Nat :=
  match e.script with
  | [] => Config.freeDraw e.drawn
  | d :: _ => d

/-- The environment after a draw. -/
def Env.advance (e : Env) : Env := { e with script := e.script.tail, drawn := e.drawn + 1 }

/-- `Draw(T)` as a number; each type is read from it. -/
def drawNat (s : State) : Nat × State := (s.env.head, { s with env := s.env.advance })

/-- `Draw(u8)`. -/
def drawByte (s : State) : Byte × State := (BitVec.ofNat 8 (drawNat s).1, (drawNat s).2)

/-- `Draw(u32)`. -/
def drawWord (s : State) : Word × State := (BitVec.ofNat 32 (drawNat s).1, (drawNat s).2)

/-- `Draw({register, conversion})`: an even draw is register. -/
def drawFraming (s : State) : Framing × State :=
  (if (drawNat s).1 % 2 = 0 then .register else .conversion, (drawNat s).2)

/-- `Draw({0, …, n − 1})`. -/
def drawBelow (n : Nat) (s : State) : Nat × State := ((drawNat s).1 % n, (drawNat s).2)

/-- A drawn truth value: an even draw is true. -/
def drawBool (s : State) : Bool × State := ((drawNat s).1 % 2 == 0, (drawNat s).2)

/-- The result of a collaborator that draws ok or fail; always ok under TransportFaultFree (R17, R265). -/
def drawOk (s : State) : Bool × State := if s.env.faultFree then (true, s) else drawBool s

/-- What an exchange can draw (R17). -/
inductive BusResult where
  | ok | fail | hang
  deriving DecidableEq, Repr

/-- The result a drawn number stands for. -/
def BusResult.ofDraw (d : Nat) : BusResult := if d % 3 = 0 then .ok else if d % 3 = 1 then .fail else .hang

/-- The result of a `BusExchange` (R17). -/
def drawBus (s : State) : BusResult × State :=
  if s.env.faultFree then (.ok, s) else (BusResult.ofDraw (drawNat s).1, (drawNat s).2)

/-! ### Collaborator primitives (R72) -/

/-- Perform a primitive that has no result. -/
def perform (c : Call) (s : State) : State := { s with calls := s.calls ++ [c] }

/-- Perform a primitive that draws ok or fail. -/
def attempt (c : Call) (s : State) : Bool × State := drawOk (perform c s)

/-! ### System memory (R61 to R67) -/

/-- The byte listed at an address; none where nothing has been written (log 10). -/
def Memory.read : Memory → Nat → Option Byte
  | [], _ => none
  | (a, b) :: m, x => if x = a then some b else Memory.read m x

/-- Write one byte, keeping the addresses rising. -/
def Memory.write : Memory → Nat → Byte → Memory
  | [], x, v => [(x, v)]
  | (a, b) :: m, x, v =>
    if x < a then (x, v) :: (a, b) :: m else if x = a then (x, v) :: m else (a, b) :: Memory.write m x v

/-- Forget the byte at an address. -/
def Memory.erase (m : Memory) (x : Nat) : Memory := m.filter (fun c => c.1 != x)

/-- The canonical form: addresses strictly rising. -/
abbrev Memory.wf (m : Memory) : Prop := List.Pairwise (fun c d => c.1 < d.1) m

/-- Byte `i` of a word, little-endian (R61). -/
def wordByte (w : Word) (i : Nat) : Byte := w.extractLsb' (8 * i) 8

/-- `MemWrite(a, 4, w)`, little-endian (R61). -/
def Memory.writeWord (m : Memory) (a : Nat) (w : Word) : Memory :=
  (((m.write a (wordByte w 0)).write (a + 1) (wordByte w 1)).write (a + 2) (wordByte w 2)).write (a + 3) (wordByte w 3)

/-- Add an address to a rising list. -/
def insertAddr : List Nat → Nat → List Nat
  | [], x => [x]
  | a :: l, x => if x < a then x :: a :: l else if x = a then a :: l else a :: insertAddr l x

/-- `S.vis[a + i] <- Stale` for the four bytes of a word (R65). -/
def markStale (l : List Nat) (a : Nat) : List Nat :=
  insertAddr (insertAddr (insertAddr (insertAddr l a) (a + 1)) (a + 2)) (a + 3)

/-- `S.vis[b] <- Fresh` for `b` in `[addr, addr + len)` (R67). -/
def markFresh (l : List Nat) (addr len : Nat) : List Nat := l.filter (fun b => decide (b < addr) || decide (addr + len ≤ b))

/-- `S.vis[a] = Stale` (R64). -/
def isStale (s : State) (a : Nat) : Bool := s.stale.contains a

/-- `S.mem[a]` (R63): the byte listed, or the unknown byte of memory nothing has written (log 10). -/
def memByte (s : State) (a : Nat) : Byte := (s.mem.read a).getD (Config.memInit a)

/-- A CTL read of one byte (R66): a Stale byte is a draw, and stays Stale. A byte whose word is still in flight and has not landed
may be Fresh, and then reads as the old `S.mem` (R64, R65, R66); the last sentence of R76 says that such a read meets a Stale byte
too. DESIGN CHOICE (log 31): the primary rules R64 to R67 are followed. -/
def readByte (a : Nat) (s : State) : Byte × State := if isStale s a then drawByte s else (memByte s a, s)

/-- The word of four bytes, the first least significant (R61). -/
def wordOfBytes (b0 b1 b2 b3 : Byte) : Word := (b3 ++ b2 ++ b1 ++ b0 : BitVec (8 + 8 + 8 + 8))

/-- `MemRead(a, 4)` (R66). -/
def memRead (a : Nat) (s : State) : Word × State :=
  let r0 := readByte a s
  let r1 := readByte (a + 1) r0.2
  let r2 := readByte (a + 2) r1.2
  let r3 := readByte (a + 3) r2.2
  (wordOfBytes r0.1 r1.1 r2.1 r3.1, r3.2)

/-- `CacheInvalidate(addr, len)` (R67). -/
def cacheInvalidate (addr len : Nat) (s : State) : State :=
  perform (.cacheInvalidate addr len) { s with stale := markFresh s.stale addr len }

/-! ### The DMA agent (R65, R75) -/

/-- DMA.LAND of the `i`-th word in flight: it leaves `S.inflight`, its bytes are written and become Stale (R65). When it was the
oldest, the turns that the next one may wait are still to be drawn (R248, log 34). -/
def land (i : Nat) (s : State) : State :=
  match s.inflight[i]? with
  | none => s
  | some (a, w) =>
    { s with
      inflight := s.inflight.eraseIdx i
      landBy := if i = 0 then none else s.landBy
      mem := s.mem.writeWord a w
      stale := markStale s.stale a }

/-- Any number of landings, in any order, at one point of an operation: each draw ends the landings or picks a word. -/
def dmaRun : Nat → State → State
  | 0, s => s
  | k + 1, s =>
    if s.inflight = [] then s
    else
      let d := drawBelow (s.inflight.length + 1) s
      if d.1 = 0 then d.2 else dmaRun k (land (d.1 - 1) d.2)

/-- The landings at one point of an operation: none to all of the words in flight (R75). -/
def dmaMoves (s : State) : State := dmaRun s.inflight.length s

/-- Every word in flight lands, in a drawn order: the wait of SETTLE under `ASSUMED` (R186, R248). -/
def dmaDrain : Nat → State → State
  | 0, s => s
  | k + 1, s =>
    if s.inflight = [] then s
    else
      let d := drawBelow s.inflight.length s
      dmaDrain k (land d.1 d.2)

/-! ### The ADC's registers (R40 to R43, R118 to R122) -/

/-- `D.framing <- f`. -/
def setFraming (f : Framing) (s : State) : State := { s with dev := { s.dev with framing := f } }

/-- `D.framing <- Draw({register, conversion})`. -/
def framingUnknown (s : State) : State := setFraming (drawFraming s).1 (drawFraming s).2

/-- `D.reg[a]` (R40). -/
def devReg (s : State) (a : Half) : Option Byte := s.dev.reg.read a.toNat

/-- `D.reg[a] <- some v`. -/
def setDevReg (a : Half) (v : Byte) (s : State) : State :=
  { s with dev := { s.dev with reg := s.dev.reg.write a.toNat v } }

/-- `D.reg[a] <- none`. -/
def clearDevReg (a : Half) (s : State) : State := { s with dev := { s.dev with reg := s.dev.reg.erase a.toNat } }

/-- The interface-mode side effect of a write of the setup register (R121). -/
def interfaceEffect (v : Byte) (s : State) : State :=
  let p := s.launch.params
  if v &&& p.setupIfMask = p.ifValConv then setFraming .conversion s
  else if v &&& p.setupIfMask = p.ifValReg then s
  else framingUnknown s

/-- `DeviceWrite(a, v)` and the side effect that follows it (R120, R121). -/
def deviceWrite (a : Half) (v : Byte) (s : State) : State :=
  if s.launch.params.devConnected then
    if a = s.launch.params.addrSetup then interfaceEffect v (setDevReg a v s) else setDevReg a v s
  else clearDevReg a s

/-- `DeviceWriteUnknown(a)` (R122). -/
def deviceWriteUnknown (a : Half) (s : State) : State :=
  if a = s.launch.params.addrSetup then framingUnknown (clearDevReg a s) else clearDevReg a s

/-- The byte the device answers to a read frame (R118); none where it has no defined value. -/
def deviceAnswer (a : Half) (s : State) : Option Byte × State :=
  if s.launch.params.devConnected then
    match devReg s a with
    | some b => (some b, s)
    | none =>
      if a = s.launch.params.addrSetup then (some (setupUnknown s.launch.params (drawByte s).1), (drawByte s).2)
      else (none, s)
  else (none, s)

/-- A frame with neither opcode has an unspecified effect (R93, A29): nothing is known of the device afterwards (log 15). -/
def deviceForget (s : State) : State := framingUnknown { s with dev := { s.dev with reg := [] } }

/-- The received bytes of a frame of `n` bytes, of which only the data byte has a value (R92, R118, log 13). -/
def rxBytes (p : Params) (n : Nat) (b : Option Byte) : List (Option Byte) := (List.replicate n none).set p.rxDataIndex b

/-- The device takes a frame whose exchange is ok (R93, R118, R120). -/
def deviceFrame (tx : List Byte) (s : State) : List (Option Byte) × State :=
  match decodeFrame s.launch.params tx with
  | .read a => (rxBytes s.launch.params tx.length (deviceAnswer a s).1, (deviceAnswer a s).2)
  | .write a v => (rxBytes s.launch.params tx.length none, deviceWrite a v s)
  | .other => (rxBytes s.launch.params tx.length none, deviceForget s)

/-- A frame whose exchange failed: the device may have taken a write (R122). -/
def deviceFrameFailed (tx : List Byte) (s : State) : State :=
  match decodeFrame s.launch.params tx with
  | .read _ => s
  | .write a _ => deviceWriteUnknown a s
  | .other => deviceForget s

/-- What a `BusExchange` gives: its result and the received bytes (R16). -/
structure Exchange where
  res : BusResult
  rx : List (Option Byte)
  state : State

/-- `BusExchange(tx)` (R16, R17). -/
def busExchange (tx : List Byte) (s : State) : Exchange :=
  let r := drawBus (perform (.busExchange tx) s)
  match r.1 with
  | .ok => { res := .ok, rx := (deviceFrame tx r.2).1, state := (deviceFrame tx r.2).2 }
  | .fail => { res := .fail, rx := [], state := deviceFrameFailed tx r.2 }
  | .hang => { res := .hang, rx := [], state := r.2 }

/-- `rx[RX_DATA_INDEX]`: a byte without a defined value is a draw (R92, R118). -/
def rxData (rx : List (Option Byte)) (s : State) : Byte × State :=
  match rx.getD s.launch.params.rxDataIndex none with
  | some b => (b, s)
  | none => drawByte s

/-- `DeviceConv(p)` (R191): the device records the word and answers a drawn word of `XFER_WIDTH` bits. For a word that selects no
channel R191 leaves the effect beyond `D.sel` unspecified. DESIGN CHOICE (log 33): it has none, as R110 lets only the register
accesses and the reset pulse write `D.reg` and `D.framing`. -/
def deviceConv (w : Word) (s : State) : Word × State :=
  let d := drawNat { s with dev := { s.dev with sel := some w } }
  (BitVec.ofNat 32 (d.1 % 2 ^ s.launch.params.xferWidth), d.2)

/-- `DeviceResetAssert()` (R263). -/
def deviceResetAssert (s : State) : State := { s with dev := { reg := [], framing := .register, sel := none } }

/-- `DeviceResetRelease()` (R263): the device leaves reset in register framing, its registers unspecified. -/
def deviceResetRelease (s : State) : State := s

/-! ### The pulse generator's registers (R48 to R52, R57) -/

/-- The four registers (R48). -/
inductive PwmReg where
  | scratch | config | period | width
  deriving DecidableEq, Repr

/-- `OFF_*`. -/
def pwmOffset (p : Params) : PwmReg → Nat
  | .scratch => p.offScratch
  | .config => p.offConfig
  | .period => p.offPeriod
  | .width => p.offWidth

/-- `P.reg[r]`. -/
def pwmReg (s : State) : PwmReg → Option Word
  | .scratch => s.pulse.scratch
  | .config => s.pulse.config
  | .period => s.pulse.period
  | .width => s.pulse.width

/-- `P.reg[r] <- v`. -/
def setPwmReg (r : PwmReg) (v : Option Word) (s : State) : State :=
  match r with
  | .scratch => { s with pulse := { s.pulse with scratch := v } }
  | .config => { s with pulse := { s.pulse with config := v } }
  | .period => { s with pulse := { s.pulse with period := v } }
  | .width => { s with pulse := { s.pulse with width := v } }

/-- `P.run <- r`. -/
def setRun (r : Option PulseRun) (s : State) : State := { s with pulse := { s.pulse with run := r } }

/-- `MmioWrite32(OFF_r, v)` (R15): a successful write sets the register, a failed one leaves it unspecified (D20, log 12). -/
def mmioWrite (r : PwmReg) (v : Word) (s : State) : Bool × State :=
  let a := attempt (.mmioWrite (s.pwm.base + pwmOffset s.launch.params r) v) s
  if a.1 then (true, setPwmReg r (some v) a.2) else (false, setPwmReg r none a.2)

/-- `MmioRead32(OFF_r)` (R15): none is a failed read; a register that is unspecified, or a block that is not connected,
reads as a draw (R11, R137). -/
def mmioRead (r : PwmReg) (s : State) : Option Word × State :=
  let a := attempt (.mmioRead (s.pwm.base + pwmOffset s.launch.params r)) s
  if a.1 then
    match (if a.2.launch.params.pwmConnected then pwmReg a.2 r else none) with
    | some v => (some v, a.2)
    | none => (some (drawWord a.2).1, (drawWord a.2).2)
  else (none, a.2)

end Sys2Proof.Machine
end

