-- ==== Sys2Proof/Machine/Pwm.lean ====
section
/-! DEFINITION. Pulse generator control: PWM.INIT, PWM.SETP, PWM.SETD, PWM.EN, PWM.DIS, PWM.TD, PWM.GETP
(spec/41_pulse_generator.md). DEV.INIT step 7 and the teardown use the same bodies. -/

namespace Sys2Proof.Machine

/-- `G_PWM` (R135), then `f`. -/
def pwmGuard {α : Type} (s : State) (f : State → Res α × State) : Res α × State :=
  if s.pwm.state = .uninitialized then (.fault .pwmNotInitialized, s) else f s

/-- `PwmRelease()` (R138): no register is written. -/
def pwmRelease (s : State) : State := { s with alloc := { s.alloc with pwm := false }, pwm := PwmDesc.reset }

/-- `SetPeriod(ns)` (R139): the period is stored "only on successful write". -/
def setPeriod (ns : DWord) (s : State) : Res Unit × State :=
  match ticks ns s.pwm.refHz with
  | none => (.refuse .tickOverflow, s)
  | some t =>
    let w := mmioWrite .period t s
    if w.1 then (.ok (), { w.2 with pwm := { w.2.pwm with periodNs := ns } })
    else (.err .transportError .none, w.2)

/-- `SetDuty(ns)` (R141): clamped to the period, and the clamped value is stored. -/
def setDuty (ns : DWord) (s : State) : Res Unit × State :=
  let d := clampDuty ns s.pwm.periodNs
  match ticks d s.pwm.refHz with
  | none => (.refuse .tickOverflow, s)
  | some t =>
    let w := mmioWrite .width t s
    if w.1 then (.ok (), { w.2 with pwm := { w.2.pwm with dutyNs := d } })
    else (.err .transportError .none, w.2)

/-- `S.pwm.state <- st`. -/
def setPwmState (st : PwmState) (s : State) : State := { s with pwm := { s.pwm with state := st } }

/-- `Enable()` (R143): load-config latches the period and the width into the running source (R52). -/
def pwmEnable (s : State) : Res Unit × State :=
  let w := mmioWrite .config s.launch.params.cfgLoad s
  if w.1 then
    (.ok (), setPwmState .enabled
      (setRun (some { running := true, period := w.2.pulse.period, width := w.2.pulse.width }) w.2))
  else (.err .transportError .none, setRun none w.2)

/-- The source stopped; `(false, _, _)` leaves period and width open (R52, log 11). -/
def stopped : PulseRun := { running := false, period := none, width := none }

/-- The body of PWM.DIS (R144). -/
def pwmDisable (s : State) : Res Unit × State :=
  let w := mmioWrite .config s.launch.params.cfgReset s
  if w.1 then (.ok (), setPwmState .disabled (setRun (some stopped) w.2))
  else (.err .transportError .none, setRun none w.2)

/-- The body of PWM.TD (R145): the release happens whether or not the write succeeds. -/
def pwmTeardown (s : State) : Res Unit × State :=
  if !s.alloc.pwm then (.ok (), s)
  else
    let w := mmioWrite .config s.launch.params.cfgReset s
    let t := pwmRelease (setRun (if w.1 then some stopped else none) w.2)
    if w.1 then (.ok (), t) else (.err .transportError .none, t)

/-- `PwmSelfTest()` (R137). -/
def pwmSelfTest (s : State) : Res Unit × State :=
  let w := mmioWrite .scratch s.launch.params.pwmTestPattern s
  if w.1 then
    let r := mmioRead .scratch w.2
    match r.1 with
    | none => (.err .initError .transportError, r.2)
    | some v => if v = s.launch.params.pwmTestPattern then (.ok (), r.2) else (.err .selfTestFailure .none, r.2)
  else (.err .initError .transportError, w.2)

/-- A failed part of PWM.INIT releases the descriptor and raises the given error (R136). -/
def releaseAndRaise (e : ErrCode) (c : Cause) (s : State) : Res Unit × State := (.err e c, pwmRelease s)

/-- PWM.INIT's programming sequence after the self-test (R136). -/
def pwmProgram (s : State) : Res Unit × State :=
  andThen (onErr (setPeriod s.launch.cfg.pwmPeriodNs s) fun _ _ => releaseAndRaise .initError .transportError) fun _ s =>
  andThen (onErr (setDuty s.launch.cfg.pwmDutyNs s) fun _ _ => releaseAndRaise .initError .transportError) fun _ s =>
  onErr (pwmEnable (setPwmState .configured s)) fun _ _ => releaseAndRaise .initError .transportError

/-- The descriptor as PWM.INIT fills it in from the launch record (R136). -/
def pwmClaim (s : State) : State :=
  { s with
    alloc := { s.alloc with pwm := true }
    pwm := { s.pwm with base := s.launch.cfg.pwmBase, refHz := s.launch.cfg.pwmRefHz, periodNs := 0#64, dutyNs := 0#64 } }

/-- `PwmInit(cfg)` (R136). -/
def pwmInit (s : State) : Res Unit × State :=
  if s.pwm.state ≠ .uninitialized ∨ s.alloc.pwm = true then (.fault .pwmAlreadyInitialized, s)
  else
    let a := attempt .allocPwm s
    if a.1 then
      andThen (onErr (pwmSelfTest (pwmClaim a.2)) releaseAndRaise) fun _ s => pwmProgram s
    else (.err .resourceExhausted .none, a.2)

/-- PWM.INIT (R136). -/
def execPwmInit (s : State) : Host.Outcome State Fault Refusal :=
  finish (andThen (pwmInit s) fun _ s => (.ok 0#64, s))

/-- PWM.SETP (R139). -/
def execPwmSetp (ns : DWord) (s : State) : Host.Outcome State Fault Refusal :=
  finish (andThen (pwmGuard s (setPeriod ns)) fun _ s => (.ok 0#64, s))

/-- PWM.SETD (R141). -/
def execPwmSetd (ns : DWord) (s : State) : Host.Outcome State Fault Refusal :=
  finish (andThen (pwmGuard s (setDuty ns)) fun _ s => (.ok 0#64, s))

/-- PWM.EN (R143). -/
def execPwmEn (s : State) : Host.Outcome State Fault Refusal :=
  finish (andThen (pwmGuard s pwmEnable) fun _ s => (.ok 0#64, s))

/-- PWM.DIS (R144). -/
def execPwmDis (s : State) : Host.Outcome State Fault Refusal :=
  finish (andThen (pwmGuard s pwmDisable) fun _ s => (.ok 0#64, s))

/-- PWM.TD (R145). -/
def execPwmTd (s : State) : Host.Outcome State Fault Refusal :=
  finish (andThen (pwmTeardown s) fun _ s => (.ok 0#64, s))

/-- PWM.GETP (R146): the stored period; no register is read. -/
def execPwmGetp (s : State) : Host.Outcome State Fault Refusal :=
  finish (pwmGuard s fun s => (.ok s.pwm.periodNs, s))

end Sys2Proof.Machine
end

