-- ==== Sys2Proof/Machine/RegAccess.lean ====
section
/-! DEFINITION. The register access layer: REG.RD, REG.WR, REG.RDM, REG.WRM (spec/40_register_access.md). DEV.INIT uses the same
four functions. -/

namespace Sys2Proof.Machine

/-- The frame address check (R115), then the guard `G_REG` (R116); then `f`. -/
def regGuard {α : Type} (addr : Half) (s : State) (f : State → Res α × State) : Res α × State :=
  if !addrEncodable s.launch.params addr then (.refuse .addressNotEncodable, s)
  else if !s.xport.initialized then (.fault .noTransport, s)
  else if s.xport.wordWidth ≠ Config.regWidth ∨ s.dev.framing ≠ .register then (.fault .framingHazard, s)
  else f s

/-- `RegRead(addr)` (R117). -/
def regRead (addr : Half) (s : State) : Res Byte × State :=
  regGuard addr s fun s =>
    let x := busExchange (readFrame s.launch.params addr) s
    match x.res with
    | .hang => (.stuck, x.state)
    | .fail => (.err .transportError .none, x.state)
    | .ok => (.ok (rxData x.rx x.state).1, (rxData x.rx x.state).2)

/-- `RegWrite(addr, v)` (R119). The device's part is in the exchange (R120 to R122). -/
def regWrite (addr : Half) (v : Byte) (s : State) : Res Unit × State :=
  regGuard addr s fun s =>
    let x := busExchange (writeFrame s.launch.params addr v) s
    match x.res with
    | .hang => (.stuck, x.state)
    | .fail => (.err .transportError .none, x.state)
    | .ok => (.ok (), x.state)

/-- `RegReadMasked(addr, m)` (R123). -/
def regReadMasked (addr : Half) (m : Byte) (s : State) : Res Byte × State :=
  andThen (regRead addr s) fun b s => (.ok (b &&& m), s)

/-- The write half of a masked write (R124): the write frame goes out with `new`, and the first error is raised. -/
def regWriteBack (addr : Half) (new : Byte) (readFailed : Bool) (s : State) : Res Unit × State :=
  let x := busExchange (writeFrame s.launch.params addr new) s
  match x.res with
  | .hang => (.stuck, x.state)
  | .fail => (.err .transportError .none, x.state)
  | .ok => if readFailed then (.err .transportError .none, x.state) else (.ok (), x.state)

/-- `RegWriteMasked(addr, m, v)` (R124, R126). -/
def regWriteMasked (addr : Half) (m v : Byte) (s : State) : Res Unit × State :=
  regGuard addr s fun s =>
    let x := busExchange (readFrame s.launch.params addr) s
    match x.res with
    | .hang => (.stuck, x.state)
    | .fail =>
      match s.launch.params.maskedWritePolicy with
      | .failFast => (.err .transportError .none, x.state)
      | .failOpen =>
        regWriteBack addr (maskedValue (drawByte x.state).1 m v) true (drawByte x.state).2
    | .ok => regWriteBack addr (maskedValue (rxData x.rx x.state).1 m v) false (rxData x.rx x.state).2

/-- REG.RD (R117): `VAL` is the byte, zero-extended. -/
def execRegRd (addr : Half) (s : State) : Host.Outcome State Fault Refusal :=
  finish (andThen (regRead addr s) fun b s => (.ok (b.setWidth 64), s))

/-- REG.WR (R119). -/
def execRegWr (addr : Half) (v : Byte) (s : State) : Host.Outcome State Fault Refusal :=
  finish (andThen (regWrite addr v s) fun _ s => (.ok 0#64, s))

/-- REG.RDM (R123): `VAL` is the masked byte, zero-extended. -/
def execRegRdm (addr : Half) (m : Byte) (s : State) : Host.Outcome State Fault Refusal :=
  finish (andThen (regReadMasked addr m s) fun b s => (.ok (b.setWidth 64), s))

/-- REG.WRM (R124). -/
def execRegWrm (addr : Half) (m v : Byte) (s : State) : Host.Outcome State Fault Refusal :=
  finish (andThen (regWriteMasked addr m v s) fun _ s => (.ok 0#64, s))

end Sys2Proof.Machine
end

