-- ==== Sys2Proof/Machine/DevConfig.lean ====
section
/-! DEFINITION. The device configuration state machine: DEV.INIT, its seven steps and its failure path, and DEV.TD
(spec/42_device_config.md). -/

namespace Sys2Proof.Machine

/-- Perform a primitive whose failure ends the step with `CollaboratorError` (R151, R152, R157); then `f`. -/
def collaborate (c : Call) (s : State) (f : State → Res Unit × State) : Res Unit × State :=
  let a := attempt c s
  if a.1 then f a.2 else (.err .initError .collaboratorError, a.2)

/-- A register access of a step: its `Err` becomes the cause `TransportError` (R153 to R156). -/
def stepAccess {α : Type} (x : Res α × State) : Res α × State :=
  onErr x fun _ _ s => (.err .initError .transportError, s)

/-- Step 1 (R151): the reset line, if the launch record names one and the GPIO collaborator has it (log 17). -/
def step1 (s : State) : Res Unit × State :=
  if !s.launch.cfg.resetLinePresent then (.ok (), s)
  else
    collaborate .gpioGetOptional s fun s =>
      let h := drawBool s
      if !h.1 then (.ok (), h.2)
      else
        collaborate (.gpioSetDirectionOutput false) { h.2 with alloc := { h.2.alloc with gpio := true } } fun s =>
          collaborate (.gpioSetLevel true) (perform (.waitMs Config.resetHoldMs) (deviceResetAssert s)) fun s =>
            (.ok (), deviceResetRelease (perform (.waitMs Config.resetHoldMs) s))

/-- Step 2 (R152): the transport at register speed, with 8-bit words. -/
def step2 (s : State) : Res Unit × State :=
  collaborate (.xportInit s.launch.cfg.regSpeedHz s.launch.cfg.busMode Config.regWidth) s fun s =>
    (.ok (), { s with
      alloc := { s.alloc with xport := true }
      xport := { initialized := true, speedHz := s.launch.cfg.regSpeedHz, wordWidth := Config.regWidth } })

/-- Step 3 (R153): the scratch-pad self-test; a mismatch is logged, and fatal only under `STRICT`. -/
def step3 (s : State) : Res Unit × State :=
  andThen (stepAccess (regWrite s.launch.params.addrScratch s.launch.params.sentinel s)) fun _ s =>
  andThen (stepAccess (regRead s.launch.params.addrScratch s)) fun b s =>
    if b = s.launch.params.sentinel then (.ok (), s)
    else
      let t := { s with log := s.log ++ [.selfTestMismatch b] }
      match s.launch.params.selfTestPolicy with
      | .strict => (.err .initError .selfTestFailure, t)
      | .lenient => (.ok (), t)

/-- Step 4 (R154): the channel-sequencing mode. -/
def step4 (s : State) : Res Unit × State :=
  match s.launch.cfg.seqMode with
  | .singleCycle =>
    andThen (stepAccess (regWriteMasked s.launch.params.addrSeqCtrl Config.seqCycMask 0x00#8 s)) fun _ s =>
      stepAccess (regWriteMasked s.launch.params.addrSetup Config.setupSeqMask 0x00#8 s)
  | .twoCycle | .standardSequence | .advancedSequence =>
    match s.launch.params.unimplSeqPolicy with
    | .reject => (.err .initError .unimplementedMode, s)
    | .accept => (.ok (), s)

/-- Step 5 (R155): the busy indicator, enable bit and then select field. -/
def step5 (s : State) : Res Unit × State :=
  andThen (stepAccess (regWriteMasked s.launch.params.addrGpMode s.launch.params.gpBusyEnMask
    s.launch.params.gpBusyEnMask s)) fun _ s =>
    stepAccess (regWriteMasked s.launch.params.addrGpMode s.launch.params.gpBusySelMask
      (s.launch.params.busySelOf s.launch.cfg.busyPin) s)

/-- The interface-mode field value of the requested mode (R156). -/
def interfaceValue (l : Launch) : Byte :=
  match l.cfg.ifMode with
  | .conversion => l.params.ifValConv
  | .register => l.params.ifValReg

/-- Step 6 (R156): the interface mode. -/
def step6 (s : State) : Res Unit × State :=
  stepAccess (regWriteMasked s.launch.params.addrSetup s.launch.params.setupIfMask (interfaceValue s.launch) s)

/-- The error DEV.INIT takes from PWM.INIT: an `InitError` keeps its cause, another error becomes the cause (R157). -/
def pwmInitCause (e : ErrCode) (c : Cause) (s : State) : Res Unit × State :=
  (.err .initError (if e = .initError then c else e.asCause), s)

/-- Step 7 (R157): the clock generator, the data width, the bulk speed and the pulse generator. -/
def step7 (s : State) : Res Unit × State :=
  collaborate (.clkInit s.launch.cfg.clkParams) s fun s =>
  collaborate (.clkSetRate s.launch.cfg.clkRateHz) { s with alloc := { s.alloc with clkgen := true } } fun s =>
  collaborate (.xportSetWordWidth s.launch.params.xferWidth) s fun s =>
  collaborate (.xportSetSpeed s.launch.cfg.bulkSpeedHz)
    { s with xport := { s.xport with wordWidth := s.launch.params.xferWidth } } fun s =>
  onErr (pwmInit { s with xport := { s.xport with speedHz := s.launch.cfg.bulkSpeedHz } }) pwmInitCause

/-- Release a resource if it is held (R161). -/
def releaseIf (held : Bool) (c : Call) (free : Alloc → Alloc) (s : State) : State :=
  if held then { perform c s with alloc := free s.alloc } else s

/-- `DevTeardown()` (R161): transport, pulse generator, clock generator, GPIO line, handle, each only if held. The error of the
pulse generator's write is ignored. -/
def devTeardown (s : State) : State :=
  let s1 := releaseIf s.alloc.xport .xportRemove (fun a => { a with xport := false }) s
  let s2 := (pwmTeardown { s1 with xport := { s1.xport with initialized := false } }).2
  let s3 := releaseIf s2.alloc.clkgen .clkRemove (fun a => { a with clkgen := false }) s2
  let s4 := releaseIf s3.alloc.gpio .gpioRemove (fun a => { a with gpio := false }) s3
  { s4 with
    ofl := { s4.ofl with initialized := false }
    alloc := { s4.alloc with handle := false }
    devState := .absent }

/-- `DevFail(c)` (R159): `failed` is left before the error is returned. -/
def devFail (c : Cause) (s : State) : Res Unit × State :=
  (.err .initError c, devTeardown { s with devState := .failed })

/-- Run one step and move to its target state only if it succeeded (R158). -/
def runStep (f : State → Res Unit × State) (next : DevState) (s : State) : Res Unit × State :=
  andThen (f s) fun _ s => (.ok (), { s with devState := next })

/-- The seven steps in the required order (R150, R158). -/
def devSteps (s : State) : Res Unit × State :=
  andThen (runStep step1 .gpioReady s) fun _ s =>
  andThen (runStep step2 .busReady s) fun _ s =>
  andThen (runStep step3 .identityVerified s) fun _ s =>
  andThen (runStep step4 .sequencingConfigured s) fun _ s =>
  andThen (runStep step5 .busySignalConfigured s) fun _ s =>
  andThen (runStep step6 .interfaceModeConfigured s) fun _ s =>
  runStep step7 .ready s

/-- The body of DEV.INIT (R150). A fault, a refusal or a hang of a step ends it at once, without teardown. -/
def devInit (s : State) : Res Unit × State :=
  if s.devState ≠ .absent then (.fault .handleExists, s)
  else
    let a := attempt .allocHandle s
    if a.1 then
      onErr (devSteps { a.2 with alloc := { a.2.alloc with handle := true }, devState := .reset }) fun _ c => devFail c
    else (.err .initError .resourceExhausted, a.2)

/-- DEV.INIT (R150). -/
def execDevInit (s : State) : Host.Outcome State Fault Refusal :=
  finish (andThen (devInit s) fun _ s => (.ok 0#64, s))

/-- DEV.TD (R162). -/
def execDevTd (s : State) : Host.Outcome State Fault Refusal :=
  finish (.ok 0#64, if s.devState = .absent ∧ s.alloc.pwm = false then s else devTeardown s)

end Sys2Proof.Machine
end

