-- ==== Sys2Proof/Machine/Offload.lean ====
section
/-! DEFINITION. Bulk transfer offload and the command template engine: OFL.INIT, MSG.SETP, MSG.SETCH, OFL.XFER, SETTLE, CINV,
DECODE, and the micro-operations CS.ASSERT, XFER, CS.DEASSERT (spec/43_offload.md). -/

namespace Sys2Proof.Machine

/-! ### Offload configuration (R180, R181) -/

/-- `G_OFL` (R180), then `f`. -/
def oflGuard {α : Type} (s : State) (f : State → Res α × State) : Res α × State :=
  if s.devState ≠ .ready then (.fault .notReady, s) else f s

/-- The misconfigurations of OFL.INIT (R181, D29). -/
def oflMisconfigured (p : Params) (a len flags : DWord) : Bool :=
  flags >>> 1 != 0#64 || !flags.getLsbD 0 || len == 0#64
    || a.toNat % Config.wordSize != 0 || len.toNat % Config.wordSize != 0
    || decide (2 ^ p.memAddrW < a.toNat + len.toNat)

/-- `S.ofl.initialized <- false`. -/
def oflUnset (s : State) : State := { s with ofl := { s.ofl with initialized := false } }

/-- The body of OFL.INIT (R181). -/
def oflInit (a len flags : DWord) (s : State) : Res Unit × State :=
  oflGuard s fun s =>
    if oflMisconfigured s.launch.params a len flags then (.err .offloadInitError .none, oflUnset s)
    else
      let x := attempt (.offloadInit a.toNat true) s
      if x.1 then
        (.ok (), { x.2 with ofl := { initialized := true, rxAddr := a.toNat, rxLen := len.toNat, rxEn := true } })
      else (.err .offloadInitError .none, oflUnset x.2)

/-! ### The parameter word (R182, R183) -/

/-- Populate the parameter slot (R182, R183). -/
def setParam (w : Word) (tag : Option Nat) (s : State) : State :=
  { s with msg := { s.msg with param := w, paramValid := true, channelTag := tag } }

/-- The body of MSG.SETCH (R183). -/
def selectChannel (ch : Nat) (s : State) : State := setParam (s.launch.params.chSelWord ch) (some ch) s

/-! ### The template engine (R185, R196 to R198) -/

/-- Advance the engine past a micro-operation (R185): after the last one of the template a repetition is complete, and after
the last repetition the engine is no longer busy (R184). -/
def engineAdvance (s : State) : State :=
  if s.engine.tpc + 1 < s.msg.template.length then { s with engine := { s.engine with tpc := s.engine.tpc + 1 } }
  else
    { s with
      engine := { s.engine with
        tpc := 0
        rep := s.engine.rep + 1
        busy := s.engine.busy && decide (s.engine.rep + 1 < s.engine.reps) } }

/-- `idx`, the number of result words this repetition has captured before the current micro-operation (R185). -/
def wordIndex (s : State) : Nat := resultWords (s.msg.template.take s.engine.tpc)

/-- Where result word `idx` of the current repetition lands: `rx_addr + (r·W + idx)·WORD_SIZE` (R185). -/
def captureAddr (s : State) (idx : Nat) : Nat :=
  s.ofl.rxAddr + (s.engine.rep * resultWords s.msg.template + idx) * Config.wordSize

/-- `k` exchanges of an XFER, the first capturing result word `idx` (R185, R197). Inside a triggered transfer an exchange
draws only ok or hang. -/
def exchangeWords : Nat → Nat → State → Res Unit × State
  | 0, _, s => (.ok (), s)
  | k + 1, idx, s =>
    let x := attempt (.convExchange s.engine.param) s
    if x.1 then
      let d := deviceConv s.engine.param x.2
      exchangeWords k (idx + 1) { d.2 with inflight := d.2.inflight ++ [(captureAddr d.2 idx, d.1)] }
    else (.stuck, x.2)

/-- CS.ASSERT in the engine (R196). -/
def microAssert (s : State) : Res Unit × State := (.ok (), engineAdvance { s with cs := true })

/-- XFER in the engine (R197); `XFER 0` is not admitted (R97). -/
def microXfer (n : BitVec 12) (s : State) : Res Unit × State :=
  if n = 0#12 then (.refuse .templateNotAdmitted, s)
  else andThen (exchangeWords n.toNat (wordIndex s) s) fun _ s => (.ok (), engineAdvance s)

/-- CS.DEASSERT in the engine (R198). -/
def microDeassert (s : State) : Res Unit × State := (.ok (), engineAdvance { s with cs := false })

/-- One step of the engine: the micro-operation at `tpc` (R185). -/
def engineStep (s : State) : Res Unit × State :=
  match s.msg.template[s.engine.tpc]?.bind microOf with
  | some .assert => microAssert s
  | some (.xfer n) => microXfer n s
  | some .deassert => microDeassert s
  | none => (.refuse .templateNotAdmitted, s)

/-- The engine for a number of micro-operations. -/
def engineRun : Nat → State → Res Unit × State
  | 0, s => (.ok (), s)
  | k + 1, s => andThen (engineStep s) fun _ s => engineRun k s

/-- `reps` repetitions of the template, sending the captured word (R184, R185, R80). -/
def transfer (param : Word) (reps : Nat) (s : State) : Res Unit × State :=
  engineRun (reps * s.msg.template.length)
    { s with engine := { busy := decide (0 < reps), tpc := 0, rep := 0, param := param, reps := reps } }

/-! ### OFL.XFER (R184) -/

/-- The body of OFL.XFER (R184); the checks stand in the order of R236. -/
def oflXfer (reps : Nat) (s : State) : Res Unit × State :=
  oflGuard s fun s =>
    if !s.ofl.initialized then (.fault .offloadNotInitialized, s)
    else if !templateWf s.msg.template then (.refuse .templateNotAdmitted, s)
    else if !s.msg.paramValid then (.err .offloadTransferError .none, s)
    else if s.ofl.rxLen < reps * resultWords s.msg.template * Config.wordSize then (.fault .bufferOverrun, s)
    else if s.xport.wordWidth ≠ s.launch.params.xferWidth ∨ s.dev.framing ≠ .conversion then (.fault .framingHazard, s)
    else if s.pwm.state ≠ .enabled then (.stuck, s)
    else
      let x := attempt (.offloadTrigger s.msg.template reps) s
      if x.1 then transfer s.msg.param reps x.2
      else
        let k := drawBelow reps x.2
        andThen (transfer s.msg.param k.1 k.2) fun _ s => (.err .offloadTransferError .none, s)

/-! ### The consumer side (R186 to R188) -/

/-- SETTLE (R186): the wait changes no state; under `ASSUMED` every word in flight lands first. -/
def settle (ms : Nat) (s : State) : State :=
  let t := perform (.waitMs ms) s
  match t.launch.params.settleMode with
  | .conservative => t
  | .assumed => dmaDrain t.inflight.length t

/-- Read and decode `n` words from an address on (R188). -/
def decodeWords : Nat → Nat → State → List Word × State
  | 0, _, s => ([], s)
  | n + 1, a, s =>
    let r := memRead a s
    let t := decodeWords n (a + Config.wordSize) r.2
    (decodeSample s.launch.params r.1 :: t.1, t.2)

/-- The body of DECODE (R188). -/
def decodeBuffer (n : Nat) (s : State) : Res Unit × State :=
  if !s.ofl.initialized then (.fault .offloadNotInitialized, s)
  else if s.ofl.rxLen < n * Config.wordSize then (.fault .bufferOverrun, s)
  else
    let r := decodeWords n s.ofl.rxAddr s
    (.ok (), { r.2 with out := r.2.out ++ [r.1] })

/-! ### The instructions -/

/-- The operand range check of R88, the first check of the operation (R236 item 3); then `f`. -/
def operandGuard (inRange : Bool) (s : State) (f : State → Res DWord × State) : Res DWord × State :=
  if inRange then f s else (.refuse .operandRange, s)

/-- OFL.INIT (R181). -/
def execOflInit (a len flags : DWord) (s : State) : Host.Outcome State Fault Refusal :=
  finish (andThen (oflInit a len flags s) fun _ s => (.ok 0#64, s))

/-- MSG.SETP (R182). -/
def execMsgSetp (w : DWord) (s : State) : Host.Outcome State Fault Refusal :=
  finish (operandGuard (paramInRange s.launch.params w) s fun s => (.ok 0#64, setParam (w.setWidth 32) none s))

/-- MSG.SETCH (R183). -/
def execMsgSetch (ch : DWord) (s : State) : Host.Outcome State Fault Refusal :=
  finish (operandGuard (channelInRange s.launch.params ch) s fun s => (.ok 0#64, selectChannel ch.toNat s))

/-- OFL.XFER (R184). -/
def execOflXfer (reps : DWord) (s : State) : Host.Outcome State Fault Refusal :=
  finish (operandGuard (repsInRange reps) s fun s => andThen (oflXfer reps.toNat s) fun _ s => (.ok 0#64, s))

/-- SETTLE (R186): any operand is accepted (R88). -/
def execSettle (ms : DWord) (s : State) : Host.Outcome State Fault Refusal := finish (.ok 0#64, settle ms.toNat s)

/-- CINV (R187). -/
def execCinv (addr len : DWord) (s : State) : Host.Outcome State Fault Refusal :=
  finish (operandGuard (spanInRange s.launch.params addr len) s fun s =>
    (.ok 0#64, cacheInvalidate addr.toNat len.toNat s))

/-- DECODE (R188): `VAL` is the number of words decoded. -/
def execDecode (n : DWord) (s : State) : Host.Outcome State Fault Refusal :=
  finish (operandGuard (countInRange n) s fun s => andThen (decodeBuffer n.toNat s) fun _ s => (.ok n, s))

/-- How a micro-operation ends: it returns nothing to the host (R185, R235). -/
def endedMicro (x : Res Unit × State) : State :=
  match x with
  | (.ok _, s) => s
  | (.err _ _, s) => s
  | (.fault r, s) => recordFault r s
  | (.refuse r, s) => recordRefusal r s
  | (.stuck, s) => hang s

/-- The answer of a micro-operation. -/
def finishMicro (x : Res Unit × State) : Host.Outcome State Fault Refusal := .next (endedMicro x)

/-- CS.ASSERT (R196). -/
def execCsAssert (s : State) : Host.Outcome State Fault Refusal := finishMicro (microAssert s)

/-- XFER n (R197). -/
def execXfer (n : BitVec 12) (s : State) : Host.Outcome State Fault Refusal := finishMicro (microXfer n s)

/-- CS.DEASSERT (R198). -/
def execCsDeassert (s : State) : Host.Outcome State Fault Refusal := finishMicro (microDeassert s)

end Sys2Proof.Machine
end

