-- ==== Sys2Proof/Machine/Acquire.lean ====
section
/-! DEFINITION. The acquisition loop: ACQ.ITER and ACQ.RUN (spec/44_acquisition.md). -/

namespace Sys2Proof.Machine

/-- `channel <- 1 − ch` (R210). -/
def otherChannel (ch : Fin 2) : Fin 2 := if ch = 0 then 1 else 0

/-- `AcqTerminate(e, c)` (R211): the pulse generator is disabled first, its error ignored; then the common teardown. -/
def acqTerminate (e : ErrCode) (c : Cause) (s : State) : Res Unit × State :=
  let s1 := if s.pwm.state = .uninitialized then s else (pwmDisable s).2
  let s2 := devTeardown s1
  (.err e c, { s2 with acq := { s2.acq with terminated := true } })

/-- The iteration after its transfer (R210): settle, invalidate the exact range, decode, flip the channel. Words in flight may
land between any two of these (R216, log 6). -/
def acqConsume (s : State) : Res Unit × State :=
  let words := s.launch.params.sampleCount * resultWords s.msg.template
  let t := settle Config.settleMs (dmaMoves s)
  let u := dmaMoves (cacheInvalidate t.ofl.rxAddr (words * Config.wordSize) t)
  andThen (decodeBuffer words u) fun _ v =>
    (.ok (), { v with acq := { v.acq with channel := otherChannel v.acq.channel, iter := v.acq.iter + 1 } })

/-- The body of ACQ.ITER (R210). -/
def acqIter (s : State) : Res Unit × State :=
  if s.acq.terminated then (.fault .acqTerminated, s)
  else
    andThen (onErr (oflXfer s.launch.params.sampleCount (selectChannel s.acq.channel.val s)) acqTerminate) fun _ s =>
      acqConsume s

/-- ACQ.ITER (R210). -/
def execAcqIter (s : State) : Host.Outcome State Fault Refusal :=
  finish (andThen (acqIter s) fun _ s => (.ok 0#64, s))

/-- How an iteration inside ACQ.RUN ends (R212): after one that is `Ok` CTL stays in the loop and nothing is returned; an `Err`
ends the loop and is returned. -/
def endedRun (x : Res Unit × State) : State :=
  match x with
  | (.ok _, s) => { s with ctl := .acqRun, result := none }
  | (.err e c, s) => giveResult (errResult e c) s
  | (.fault r, s) => recordFault r s
  | (.refuse r, s) => recordRefusal r s
  | (.stuck, s) => hang s

/-- ACQ.RUN (R212), one iteration at a time (log 7). -/
def execAcqRun (s : State) : Host.Outcome State Fault Refusal := .next (endedRun (acqIter s))

end Sys2Proof.Machine
end

