-- ==== Sys2Proof/Machine/Fetch.lean ====
section
/-! DEFINITION. Whose turn it is and what CTL runs next: the marks of spec/10_state.md R38, the DMA agent between steps
(spec/20_memory.md R65, R75) and its fairness (spec/60_exceptions.md R248), the step of the host (spec/00_scope.md R5), its requests
(spec/30_encoding.md R82) and the template engine (spec/43_offload.md R185). -/

namespace Sys2Proof.Machine

/-- What the next step of the machine is. -/
inductive Turn where
  /-- No agent has a step: a recorded fault (R38), or CTL stuck with nothing in flight (R235). -/
  | faulted (r : Fault)
  /-- No agent has a step: a recorded refusal (R38). -/
  | refused (r : Refusal)
  /-- A step that runs no instruction: a landing, a step of the host, a request refused at decode. -/
  | moves (t : State)
  /-- CTL runs an instruction. -/
  | runs (i : Instr) (t : State)
  deriving DecidableEq, Repr

/-- The refusal a decode error is recorded as (R234). -/
def decodeRefusal : DecodeError → Refusal
  | .reservedOpcode => .reservedOpcode
  | .reservedBits => .reservedBits

/-- Words that the host puts out, each a draw (`Draw(u64)`). -/
def drawDWords : Nat → Env → List DWord × Env
  | 0, e => ([], e)
  | k + 1, e => (BitVec.ofNat 64 e.head :: (drawDWords k e.advance).1, (drawDWords k e.advance).2)

/-- The request words that are out after HOST has issued one request (R5, R82): a header of its choice and the operand words it
opens; where a header is out already, the words still missing. Any operation with any operands, and any other word, can be drawn. -/
def hostIssue (pending : List DWord) (e : Env) : List DWord × Env :=
  match pending with
  | [] =>
    let h : DWord := BitVec.ofNat 64 e.head
    (h :: (drawDWords (requestLength h - 1) e.advance).1, (drawDWords (requestLength h - 1) e.advance).2)
  | h :: rest =>
    (h :: rest ++ (drawDWords (requestLength h - (rest.length + 1)) e).1,
      (drawDWords (requestLength h - (rest.length + 1)) e).2)

/-- What the host chooses to do, as drawn: it issues a request (an even draw), or nothing yet. -/
def hostChoice (pending : List DWord) (e : Env) : List DWord × Env :=
  if e.head % 2 = 0 then hostIssue pending e.advance else (pending, e.advance)

/-- THE STEP OF HOST (R5, R266), while CTL waits for a request (log 20). To read back `result` and `S.out` changes no state. -/
def hostStep (s : State) : State :=
  { s with pending := (hostChoice s.pending s.env).1, env := (hostChoice s.pending s.env).2 }

/-- CTL takes the host's next request (R82, R236); while there is none, or its words have not all come (log 21), it is the host
that steps: "The host cannot issue another operation until it finishes" (R5). -/
def hostTurn (s : State) : Turn :=
  match decodeRequest s.pending with
  | .incomplete => .moves (hostStep s)
  | .refused e => .moves (recordRefusal (decodeRefusal e) { s with pending := s.pending.tail })
  | .instr i rest => .runs i { s with pending := rest }

/-- The engine takes the micro-operation at `tpc` (R185, log 19). -/
def engineTurn (s : State) : Turn :=
  match s.msg.template[s.engine.tpc]?.bind decodeMicro with
  | some i => .runs i s
  | none => .moves (recordRefusal .templateNotAdmitted s)

/-- The turn of CTL, or of HOST while CTL waits for it: CTL is stuck, goes on in ACQ.RUN (R212), issues a transfer, or takes a
request. -/
def ctlTurn (s : State) : Turn :=
  match s.ctl with
  | .stuck => .faulted .stuck
  | .acqRun => .runs .acqRun s
  | .idle => if s.engine.busy then engineTurn s else hostTurn s

/-- The turn of an agent. A stuck CTL leaves it to the DMA agent (R235). With words in flight a draw picks CTL (0) or a word that
lands (R65, R75), in any order and after any delay; but the number of turns that the oldest word may wait is drawn before, "a word
in `S.inflight` lands eventually" (R248, log 34). -/
def agentTurn (s : State) : Turn :=
  if s.inflight = [] then ctlTurn s
  else if s.ctl = .stuck then
    let d := drawBelow s.inflight.length s
    .moves (land d.1 d.2)
  else
    match s.landBy with
    | none => .moves { (drawNat s).2 with landBy := some (drawNat s).1 }
    | some 0 => .moves (land 0 s)
    | some (k + 1) =>
      let d := drawBelow (s.inflight.length + 1) { s with landBy := some k }
      if d.1 = 0 then ctlTurn d.2 else .moves (land (d.1 - 1) d.2)

/-- The next turn: a recorded fault or refusal leaves no agent a step (R38). -/
def turn (s : State) : Turn :=
  match s.fault with
  | some r => .faulted r
  | none =>
    match s.refused with
    | some r => .refused r
    | none => agentTurn s

/-- Ready to take the next instruction: no mark, CTL waiting, the engine as told, and (if words are in flight) a turn left that
the next draw gives to CTL. This places an instruction from outside the machine, whatever it was doing; it is no step of the host,
which is `hostStep`. -/
def readyToFetch (busy : Bool) (s : State) : State :=
  { s with
    fault := none
    refused := none
    ctl := .idle
    engine := { s.engine with busy := busy }
    landBy := if s.inflight = [] then s.landBy else some 1
    env := if s.inflight = [] then s.env else { s.env with script := 0 :: s.env.script } }

/-- A request is put out, and nothing after it. -/
def placeRequest (ws : List DWord) (s : State) : State :=
  { readyToFetch false s with pending := ws.take (requestLength (ws.getD 0 0#64)) }

/-- The engine holds one micro-operation, in the only repetition of a transfer. -/
def placeMicro (u : Half) (s : State) : State :=
  let t := readyToFetch true s
  { t with
    msg := { t.msg with template := [u] }
    engine := { t.engine with tpc := 0, rep := 0, reps := 1 } }

end Sys2Proof.Machine
end

