-- ==== Sys2Proof/Machine/Dispatch.lean ====
section
/-! DEFINITION. One arm per instruction, each one direct call of its meaning. -/

namespace Sys2Proof.Machine

def exec (i : Instr) (s : State) : Host.Outcome State Fault Refusal :=
  match i with
  | .regRd addr => Sys2Proof.Machine.execRegRd addr s
  | .regWr addr v => Sys2Proof.Machine.execRegWr addr v s
  | .regRdm addr m => Sys2Proof.Machine.execRegRdm addr m s
  | .regWrm addr m v => Sys2Proof.Machine.execRegWrm addr m v s
  | .pwmInit => Sys2Proof.Machine.execPwmInit s
  | .pwmSetp ns => Sys2Proof.Machine.execPwmSetp ns s
  | .pwmSetd ns => Sys2Proof.Machine.execPwmSetd ns s
  | .pwmEn => Sys2Proof.Machine.execPwmEn s
  | .pwmDis => Sys2Proof.Machine.execPwmDis s
  | .pwmTd => Sys2Proof.Machine.execPwmTd s
  | .pwmGetp => Sys2Proof.Machine.execPwmGetp s
  | .devInit => Sys2Proof.Machine.execDevInit s
  | .devTd => Sys2Proof.Machine.execDevTd s
  | .oflInit a len flags => Sys2Proof.Machine.execOflInit a len flags s
  | .msgSetp w => Sys2Proof.Machine.execMsgSetp w s
  | .msgSetch ch => Sys2Proof.Machine.execMsgSetch ch s
  | .oflXfer reps => Sys2Proof.Machine.execOflXfer reps s
  | .settle ms => Sys2Proof.Machine.execSettle ms s
  | .cinv addr len => Sys2Proof.Machine.execCinv addr len s
  | .decodeBuf n => Sys2Proof.Machine.execDecode n s
  | .acqIter => Sys2Proof.Machine.execAcqIter s
  | .acqRun => Sys2Proof.Machine.execAcqRun s
  | .csAssert => Sys2Proof.Machine.execCsAssert s
  | .xfer n => Sys2Proof.Machine.execXfer n s
  | .csDeassert => Sys2Proof.Machine.execCsDeassert s

end Sys2Proof.Machine
end

