-- ==== Sys2Proof/Machine/Step.lean ====
section
/-! DEFINITION. One step of the machine, and placing an instruction where the next step takes it. -/

namespace Sys2Proof.Machine

/-- One step: the turn decides what happens, and an instruction that CTL runs is executed. -/
def step (s : State) : Host.Outcome State Fault Refusal :=
  match turn s with
  | .faulted r => .fault r
  | .refused r => .refused r
  | .moves t => .next t
  | .runs i t => exec i t

/-- The state with an instruction placed where `step` takes its next one (log 20): a row of at most 16 bits is a
micro-operation in the engine's template, any other a request of the host, its operand words after its header. -/
def State.withFetchWord (s : State) (nbits w : Nat) : State :=
  if nbits ≤ 16 then placeMicro (BitVec.ofNat 16 w) s
  else placeRequest [tableWord w 0, tableWord w 1, tableWord w 2, tableWord w 3] s

end Sys2Proof.Machine
end

