-- ==== Sys2Proof/Safety.lean ====
section
/-! DEFINITION. The terms claims are stated in: the launch premises of spec/70_reset_and_hazards.md R265, when an operation runs
normally, the end of a run (R267), and the invariants of a run. -/

namespace Sys2Proof.Machine

/-! ### Launch premises (R265) -/

/-- NoFaultRecorded. -/
def NoFaultRecorded (s : State) : Prop := s.fault = none ∧ s.refused = none

/-- CleanLaunch: every field R260 gives a value holds it; the fields R260 calls unspecified are free. -/
structure CleanLaunch (s : State) : Prop where
  devState : s.devState = .absent
  alloc : s.alloc = { handle := false, gpio := false, xport := false, clkgen := false, pwm := false }
  xport : s.xport.initialized = false
  cs : s.cs = false
  log : s.log = []
  pwmState : s.pwm.state = .uninitialized
  period : s.pwm.periodNs = 0#64
  duty : s.pwm.dutyNs = 0#64
  ofl : s.ofl.initialized = false
  template : s.msg.template = s.launch.params.template
  paramValid : s.msg.paramValid = false
  channelTag : s.msg.channelTag = none
  busy : s.engine.busy = false
  tpc : s.engine.tpc = 0
  rep : s.engine.rep = 0
  inflight : s.inflight = []
  vis : ∀ a, isStale s a = false
  acq : s.acq = { channel := 0, iter := 0, terminated := false }
  out : s.out = []
  fault : s.fault = none
  refused : s.refused = none
  reg : ∀ a, devReg s a = none
  framing : s.dev.framing = .register
  sel : s.dev.sel = none
  pulse : ∀ r, pwmReg s r = none
  run : s.pulse.run = none

/-- NothingInFlight. -/
def NothingInFlight (s : State) : Prop := s.inflight = []

/-- TransportFaultFree: every collaborator result is ok (R17, log 3). -/
def TransportFaultFree (s : State) : Prop := s.env.faultFree = true

/-- DeviceConnected. -/
def DeviceConnected (s : State) : Prop := s.launch.params.devConnected = true ∧ s.launch.params.pwmConnected = true

/-- SettleAssumed. -/
def SettleAssumed (s : State) : Prop := s.launch.params.settleMode = .assumed

/-- The end of the pulse generator block, `max(OFF_*) + 4` (R270). -/
def pwmBlockLen (p : Params) : Nat := max (max p.offScratch p.offConfig) (max p.offPeriod p.offWidth) + 4

/-- BufferPlaced (R270): the buffer lies in system memory and does not overlap the pulse generator block. The cache-line duty
is the host's and is not checked (R270, D42). -/
def BufferPlaced (s : State) : Prop :=
  s.ofl.rxAddr + s.ofl.rxLen ≤ 2 ^ s.launch.params.memAddrW
    ∧ (s.ofl.rxAddr + s.ofl.rxLen ≤ s.pwm.base ∨ s.pwm.base + pwmBlockLen s.launch.params ≤ s.ofl.rxAddr)

/-! ### When an operation runs normally -/

/-- A register access to an address passes R115 and the guard of R116. -/
structure RegOpen (addr : Half) (s : State) : Prop where
  encodable : addrEncodable s.launch.params addr = true
  initialized : s.xport.initialized = true
  width : s.xport.wordWidth = Config.regWidth
  framing : s.dev.framing = .register

/-- The byte of a read frame that is answered (R118), and the draws left after it: the register's content where the device is
connected and it is known, otherwise a draw, whose interface-mode field reads as register framing for the setup register. -/
def answeredByte (s : State) (a : Half) (e : Env) : Byte × Env :=
  let p := s.launch.params
  let d : Byte := BitVec.ofNat 8 e.head
  match if p.devConnected = true then devReg s a else none with
  | some b => (b, e)
  | none =>
    (if p.devConnected = true ∧ a = p.addrSetup then (d &&& ~~~p.setupIfMask) ||| p.ifValReg else d, e.advance)

/-- The framing after a write frame the device took in register framing (R121), and the draws left, `e` before: only a write of the
setup register of a connected device moves it, as its interface-mode field says. -/
def FramingAfterWrite (p : Params) (a : Half) (v : Byte) (e : Env) (t : State) : Prop :=
  let switches := a = p.addrSetup ∧ p.devConnected = true
  (switches ∧ v &&& p.setupIfMask = p.ifValConv → t.dev.framing = .conversion ∧ t.env = e)
    ∧ (¬ switches ∨ v &&& p.setupIfMask = p.ifValReg → t.dev.framing = .register ∧ t.env = e)
    ∧ (switches ∧ v &&& p.setupIfMask ≠ p.ifValConv ∧ v &&& p.setupIfMask ≠ p.ifValReg →
      t.dev.framing = (if e.head % 2 = 0 then .register else .conversion) ∧ t.env = e.advance)

/-- The framing after a write frame that failed in register framing (R122), and the draws left, `e` before. -/
def FramingAfterFailure (p : Params) (a : Half) (e : Env) (t : State) : Prop :=
  (a ≠ p.addrSetup → t.dev.framing = .register ∧ t.env = e)
    ∧ (a = p.addrSetup → t.dev.framing = (if e.head % 2 = 0 then .register else .conversion) ∧ t.env = e.advance)

/-- A transfer of `reps` repetitions passes every check of R184, and the conversion clock runs. -/
structure XferOpen (reps : Nat) (s : State) : Prop where
  ready : s.devState = .ready
  initialized : s.ofl.initialized = true
  template : templateWf s.msg.template = true
  param : s.msg.paramValid = true
  fits : reps * resultWords s.msg.template * Config.wordSize ≤ s.ofl.rxLen
  width : s.xport.wordWidth = s.launch.params.xferWidth
  framing : s.dev.framing = .conversion
  clock : s.pwm.state = .enabled

/-- Exchange `k` of a transfer hangs, the first being exchange 0, for the draws left before the first one: in a run whose
collaborators may fail, each exchange draws its result and, when that is ok, its response (R17, R185, R191; log 2). -/
def HangsAt (k : Nat) (e : Env) : Prop :=
  (∀ j : Nat, j < k → (Env.advance^[2 * j] e).head % 2 = 0) ∧ (Env.advance^[2 * k] e).head % 2 = 1

/-- CTL takes the next host request: no mark, CTL waiting, the engine idle, and nothing in flight that could move first. (It holds at
reset and with requests out; the end of a run is `RunEnded`.) -/
structure Waiting (s : State) : Prop where
  fault : s.fault = none
  refused : s.refused = none
  ctl : s.ctl = .idle
  engine : s.engine.busy = false
  quiet : s.inflight = []

/-! ### The end of a run (R267) -/

/-- The last operation that the host has issued has returned `Ok` or `Err`: no mark, CTL waiting and the engine idle, no request word
out, and the result words given back (R89). It does not hold at reset, where no operation has returned. -/
structure Returned (s : State) : Prop where
  fault : s.fault = none
  refused : s.refused = none
  ctl : s.ctl = .idle
  engine : s.engine.busy = false
  pending : s.pending = []
  result : s.result ≠ none

/-- THE END OF A RUN (R267): "ends when the last operation has returned `Ok` or `Err` and `S.inflight` is empty". The finite
operation list of the host is what it has issued so far (log 35). -/
def RunEnded (s : State) : Prop := Returned s ∧ s.inflight = []

/-! ### Landings (R65, R248) -/

/-- The oldest word in flight in `s` has left `S.inflight` in `t`: what is in flight is some of the others and, where the step was an
iteration, words that it captured, for the places of its buffer (R185, R210). -/
def OldestLeft (s t : State) : Prop :=
  ∃ new : List (Nat × Word), t.inflight.Sublist (s.inflight.tail ++ new)
    ∧ (new = [] ∨ ∃ (i : Instr) (u : State), turn s = .runs i u ∧ (i = .acqIter ∨ i = .acqRun))
    ∧ ∀ d ∈ new, s.ofl.rxAddr ≤ d.1
      ∧ d.1 + 4 ≤ s.ofl.rxAddr + s.launch.params.sampleCount * resultWords s.msg.template * 4

/-! ### Invariants -/

/-- System memory, the view marks and the device registers are in canonical form. -/
structure StorageInv (s : State) : Prop where
  mem : Memory.wf s.mem
  stale : List.Pairwise (fun a b => a < b) s.stale
  reg : Memory.wf s.dev.reg

/-- No recorded fault or refusal, and CTL is not stuck: an operation has ended, or none has begun. -/
def Running (s : State) : Prop := s.fault = none ∧ s.refused = none ∧ s.ctl ≠ .stuck

/-- The invariant of the controller: what the handle state says of the resources and of the offload (R23, R24, R62, R160, R163),
what the descriptor says (R28, R130; its base and reference after a release are the model's, log 9), and what holds whenever an
operation has ended (R23, R26, R33). -/
structure BlockInv (s : State) : Prop where
  /-- The parameters meet the constraints of R11. -/
  params : s.launch.params.Valid = true
  /-- No operation changes the template (R32). -/
  template : s.msg.template = s.launch.params.template
  /-- Without a handle nothing but the pulse generator can be held (R160). -/
  absent : s.devState = .absent → s.alloc.handle = false ∧ s.alloc.gpio = false ∧ s.alloc.xport = false
    ∧ s.alloc.clkgen = false ∧ s.xport.initialized = false ∧ s.ofl.initialized = false
  /-- The ready invariant (R163), without its clause on `S.alloc.pwm`. -/
  ready : s.devState = .ready → s.alloc.handle = true ∧ s.alloc.xport = true ∧ s.alloc.clkgen = true
    ∧ s.xport.initialized = true ∧ s.xport.wordWidth = s.launch.params.xferWidth
  /-- A configured offload is aligned, not empty, inside memory, and the device is ready (R62, R180, R181). -/
  offload : s.ofl.initialized = true → s.devState = .ready ∧ s.ofl.rxEn = true ∧ s.ofl.rxAddr % Config.wordSize = 0
    ∧ s.ofl.rxLen % Config.wordSize = 0 ∧ 0 < s.ofl.rxLen ∧ s.ofl.rxAddr + s.ofl.rxLen ≤ 2 ^ s.launch.params.memAddrW
  /-- A released descriptor is at its reset value (R138), base and reference included by DESIGN CHOICE (log 9). -/
  descriptor : s.alloc.pwm = false → s.pwm = PwmDesc.reset
  /-- Every word in flight lands whole, aligned and inside memory (R58, R62). -/
  inflight : ∀ c ∈ s.inflight, c.1 % Config.wordSize = 0 ∧ c.1 + Config.wordSize ≤ 2 ^ s.launch.params.memAddrW
  /-- A word that must land within a number of turns is in flight (R248, log 34). -/
  deadline : s.inflight = [] → s.landBy = none
  /-- The parameter word has `XFER_WIDTH` bits (R32). -/
  param : s.msg.param.toNat < 2 ^ s.launch.params.xferWidth
  /-- The transient states are left, chip-select is deasserted, the engine is idle, an allocated descriptor is enabled or
  disabled. -/
  settled : Running s → (s.devState = .absent ∨ s.devState = .ready) ∧ s.cs = false ∧ s.engine.busy = false
    ∧ s.pwm.state ≠ .configured ∧ (s.alloc.pwm = true → s.pwm.state ≠ .uninitialized)

end Sys2Proof.Machine
end

