-- ==== Sys2Proof/Certificates/Slice0/Obligations.lean ====
section
/-! DEFINITION. The statements for the provers. Each docstring names the rule of spec/ it formalises. "Completes" means: `exec`
answers a next state that carries the result words of R89. Which outcome a drawn number stands for (`env.head % 2`, `% 3`, the low
byte) is the model's choice (log 2), and so are the fields `result`, `ctl`, `pending`, `calls` and `env` (log 18). -/

open Sys2Proof Sys2Proof.Machine

/-! ### Encoding (spec/30_encoding.md) -/

/-- Decoding the words of an instruction gives it back, with every operand at every value: a request with whatever follows it
(R82 to R88), a micro-operation by its word (R96). -/
def Obligations.DecodeInvertsEncode : Prop :=
  (∀ (i : Instr) (rest : List DWord), i.isMicro = false → decodeRequest (encodeRequest i ++ rest) = .instr i rest)
    ∧ ∀ i : Instr, i.isMicro = true → ∃ u : Half, encodeMicro i = some u ∧ decodeMicro u = some i

/-- Each word has one meaning: what the decoder accepts are exactly the words of the instruction it gives (R83, R85, R96). -/
def Obligations.DecodedWordsAreTheEncoding : Prop :=
  (∀ (ws rest : List DWord) (i : Instr), decodeRequest ws = .instr i rest →
      i.isMicro = false ∧ ws = encodeRequest i ++ rest)
    ∧ ∀ (u : Half) (i : Instr), decodeMicro u = some i → encodeMicro i = some u

/-- R87: a request whose opcode is not in the map is refused, it is no no-op, and which opcodes those are. -/
def Obligations.ReservedOpcodesRefused : Prop :=
  (∀ (s : State) (h : DWord) (rest : List DWord), Waiting s → s.pending = h :: rest →
      headerOp h ∉ [0x01#8, 0x02#8, 0x03#8, 0x04#8, 0x10#8, 0x11#8, 0x12#8, 0x13#8, 0x14#8, 0x15#8, 0x16#8, 0x20#8, 0x21#8,
        0x30#8, 0x31#8, 0x32#8, 0x33#8, 0x34#8, 0x35#8, 0x36#8, 0x40#8, 0x41#8] →
      step s = .next { s with refused := some .reservedOpcode, result := none, pending := rest })
    ∧ ∀ c : Byte,
      c ∉ [0x01#8, 0x02#8, 0x03#8, 0x04#8, 0x10#8, 0x11#8, 0x12#8, 0x13#8, 0x14#8, 0x15#8, 0x16#8, 0x20#8, 0x21#8,
        0x30#8, 0x31#8, 0x32#8, 0x33#8, 0x34#8, 0x35#8, 0x36#8, 0x40#8, 0x41#8] ↔
      c.toNat = 0x00 ∨ (0x05 ≤ c.toNat ∧ c.toNat ≤ 0x0F) ∨ (0x17 ≤ c.toNat ∧ c.toNat ≤ 0x1F)
        ∨ (0x22 ≤ c.toNat ∧ c.toNat ≤ 0x2F) ∨ (0x37 ≤ c.toNat ∧ c.toNat ≤ 0x3F) ∨ 0x42 ≤ c.toNat

/-- R85: which headers are refused for their reserved bits, and that a request with such a header is refused. -/
def Obligations.ReservedBitsRefused : Prop :=
  ∀ (h : DWord) (o : Op), Op.ofCode (headerOp h) = some o →
    let reserved := h.extractLsb' 8 8 ≠ 0#8 ∨ h.extractLsb' 48 16 ≠ 0#16
      ∨ (o ∉ [.regRd, .regWr, .regRdm, .regWrm] ∧ headerA h ≠ 0#16)
      ∨ (o ∉ [.regRdm, .regWrm] ∧ headerM h ≠ 0#8)
      ∨ (o ∉ [.regWr, .regWrm] ∧ headerV h ≠ 0#8)
    (decodeHeader h = .error .reservedBits ↔ reserved)
      ∧ (reserved → ∀ (s : State) (rest : List DWord), Waiting s → s.pending = h :: rest →
          step s = .next { s with refused := some .reservedBits, result := none, pending := rest })

/-- Words written out from R83, R86, R96 and R99 decode to the instructions they stand for. -/
def Obligations.SampleWordsDecode : Prop :=
  decodeRequest [0x000000C001230004#64] = .instr (.regWrm 0x0123#16 0xC0#8 0x00#8) []
    ∧ decodeRequest [0x0000A50001230002#64] = .instr (.regWr 0x0123#16 0xA5#8) []
    ∧ decodeRequest [0x11#64, 1000#64] = .instr (.pwmSetp 1000#64) []
    ∧ decodeRequest [0x20#64] = .instr .devInit []
    ∧ decodeRequest [0x30#64, 0x1000#64, 4000#64, 1#64] = .instr (.oflInit 0x1000#64 4000#64 1#64) []
    ∧ decodeRequest [0x35#64, 0x1000#64, 4000#64] = .instr (.cinv 0x1000#64 4000#64) []
    ∧ decodeRequest [0x41#64] = .instr .acqRun []
    ∧ decodeMicro 0x1000#16 = some .csAssert ∧ decodeMicro 0x2001#16 = some (.xfer 1#12)
    ∧ decodeMicro 0x3000#16 = some .csDeassert

/-- R88, R236: an operand outside its range ends the instruction before anything else happens. For XFER 0 the spec says only that
no template that holds it is admitted (R97): that executing it alone records the same refusal is the model's choice (log 23,
DEDUCED). -/
def Obligations.IllFormedOperandsRefused : Prop :=
  ∀ (i : Instr) (s : State), i.WellFormed s.launch.params = false →
    exec i s = .next
      { s with refused := some (if i.isMicro then .templateNotAdmitted else .operandRange), result := none }

/-! ### The step -/

/-- The turn of CTL or HOST, in a state with no mark, when nothing is in flight or the draw leaves the turn to them (R5, R65, R75):
a host request is decoded and executed, its words taken (R82); ACQ.RUN goes on (R212); while no whole request is there, the host
issues nothing yet, or all the words of one (R5). The model's own choices are: how the turn and the host's words are drawn (log 2,
log 6, log 20, log 34; DESIGN CHOICE), that a request whose words have not all come is waited for (log 21, DESIGN CHOICE), and that
a busy engine executes the micro-operation at `tpc` while CTL is idle (log 19, DESIGN CHOICE; no run reaches it). -/
def Obligations.StepRunsTheDecodedInstruction : Prop :=
  ∀ s : State, s.fault = none → s.refused = none →
    (s.inflight = [] ∨ ((∃ k, s.landBy = some (k + 1)) ∧ s.env.head % (s.inflight.length + 1) = 0)) →
    let t : State :=
      if s.inflight = [] then s else { s with landBy := s.landBy.map (· - 1), env := s.env.advance }
    (s.ctl = .idle → s.engine.busy = false → ∀ (i : Instr) (rest : List DWord),
        decodeRequest s.pending = .instr i rest → step s = exec i { t with pending := rest })
      ∧ (s.ctl = .idle → s.engine.busy = false → decodeRequest s.pending = .incomplete →
        (t.env.head % 2 = 1 → step s = .next { t with env := t.env.advance })
          ∧ (t.env.head % 2 = 0 → ∃ (ws : List DWord) (e : Env),
            step s = .next { t with pending := s.pending ++ ws, env := e } ∧ ws ≠ []
              ∧ (decodeRequest (s.pending ++ ws) ≠ .incomplete)
              ∧ ∀ (i : Instr) (rest : List DWord), decodeRequest (s.pending ++ ws) = .instr i rest → rest = []))
      ∧ (s.ctl = .idle → s.engine.busy = true → ∀ (u : Half) (i : Instr), s.msg.template[s.engine.tpc]? = some u →
        decodeMicro u = some i → step s = exec i t)
      ∧ (s.ctl = .acqRun → step s = exec .acqRun t)

/-- R38: a state with a mark has no further step, so a step starts only without marks; both are none at reset. R267: the run of a
finite list of host operations has ended when the last one has returned `Ok` or `Err` and nothing is in flight (`RunEnded`). Every
host operation that returns result words leaves such a state but for the words in flight; while the host issues nothing more, only
landings change it, and in every run that goes on long enough the words land and the run ends: two steps for each word in flight, and
the turns drawn for it. Then only HOST has a step. A run with a fault or a refusal has no end, nor has a stuck run (R235) or one
inside ACQ.RUN (R212), and none has ended at reset. (That the operation list is what the host has issued so far, and that it may issue
more, is the model's, log 35; the turns, by which words are made to land, are log 34.) -/
def Obligations.RunEndsAtAMark : Prop :=
  (∀ (s : State) (r : Fault), s.fault = some r → step s = .fault r)
    ∧ (∀ (s : State) (r : Refusal), s.fault = none → s.refused = some r → step s = .refused r)
    ∧ (∀ s t : State, step s = .next t → s.fault = none ∧ s.refused = none)
    ∧ State.reset.fault = none ∧ State.reset.refused = none
    ∧ (∀ (i : Instr) (s t : State), i.isMicro = false → NoFaultRecorded s → s.engine.busy = false → s.pending = [] →
      exec i s = .next t → t.result ≠ none → Returned t)
    ∧ (∀ s t : State, Returned s → step s = .next t → t.pending = [] →
      Returned t ∧ t.inflight.Sublist s.inflight
        ∧ t = { s with inflight := t.inflight, landBy := t.landBy, mem := t.mem, stale := t.stale, env := t.env })
    ∧ (∀ (r : Nat → State) (m b : Nat), Returned (r 0) →
      (∀ j : Nat, j < m → step (r j) = .next (r (j + 1)) ∧ (r (j + 1)).pending = []) →
      (∀ j k : Nat, j ≤ m → (r j).landBy = some k → k ≤ b) → (r 0).inflight.length * (b + 2) ≤ m →
      ∃ n : Nat, n ≤ m ∧ RunEnded (r n))
    ∧ (∀ s : State, RunEnded s → ∃ t : State, step s = .next t ∧ t = { s with pending := t.pending, env := t.env })
    ∧ (∀ s : State, s.fault ≠ none ∨ s.refused ≠ none ∨ s.ctl = .stuck ∨ s.ctl = .acqRun → ¬ RunEnded s)
    ∧ (∀ s t : State, s.ctl = .stuck → step s = .next t → t.ctl = .stuck)
    ∧ ¬ RunEnded State.reset

/-! ### Register access (spec/40_register_access.md) -/

/-- R117, R118, R123: REG.RD and REG.RDM of a register whose content is known complete, returning the byte, masked by REG.RDM,
after one read frame; nothing else changes. -/
def Obligations.RegisterReadReturnsContent : Prop :=
  ∀ (s : State) (a : Half) (b m : Byte), s.launch.params.Valid = true → TransportFaultFree s → RegOpen a s →
    s.launch.params.devConnected = true → devReg s a = some b →
    let frame := [s.launch.params.opcRead ||| (a.extractLsb' 8 8 &&& s.launch.params.addrHiMask), a.extractLsb' 0 8,
      s.launch.params.dummyByte]
    exec (.regRd a) s = .next
        { s with
          result := some { st := 0#64, val := b.setWidth 64 }
          ctl := .idle
          calls := s.calls ++ [.busExchange frame] }
      ∧ exec (.regRdm a m) s = .next
        { s with
          result := some { st := 0#64, val := (b &&& m).setWidth 64 }
          ctl := .idle
          calls := s.calls ++ [.busExchange frame] }

/-- R118: reading a register whose content is unspecified, or with no device, gives a draw; the interface-mode field of an
unspecified setup register reads as register framing. -/
def Obligations.UnknownRegisterReadsDraw : Prop :=
  ∀ (s : State) (a : Half) (m : Byte), s.launch.params.Valid = true → TransportFaultFree s → RegOpen a s →
    (s.launch.params.devConnected = false ∨ devReg s a = none) →
    let d : Byte := BitVec.ofNat 8 s.env.head
    let b : Byte := if s.launch.params.devConnected = true ∧ a = s.launch.params.addrSetup then
      (d &&& ~~~s.launch.params.setupIfMask) ||| s.launch.params.ifValReg else d
    let frame := [s.launch.params.opcRead ||| (a.extractLsb' 8 8 &&& s.launch.params.addrHiMask), a.extractLsb' 0 8,
      s.launch.params.dummyByte]
    exec (.regRd a) s = .next
        { s with
          result := some { st := 0#64, val := b.setWidth 64 }
          ctl := .idle
          calls := s.calls ++ [.busExchange frame]
          env := s.env.advance }
      ∧ exec (.regRdm a m) s = .next
        { s with
          result := some { st := 0#64, val := (b &&& m).setWidth 64 }
          ctl := .idle
          calls := s.calls ++ [.busExchange frame]
          env := s.env.advance }

/-- R119 to R121: REG.WR completes after one write frame; the register holds the byte (nothing is known of it without a device),
every other register is as before, and a write of the setup register sets the framing its interface-mode field selects. -/
def Obligations.RegisterWriteTakesEffect : Prop :=
  ∀ (s : State) (a : Half) (v : Byte), s.launch.params.Valid = true → TransportFaultFree s → RegOpen a s →
    let p := s.launch.params
    let frame := [p.opcWrite ||| (a.extractLsb' 8 8 &&& p.addrHiMask), a.extractLsb' 0 8, v]
    let switches := a = p.addrSetup ∧ p.devConnected = true
    ∃ t : State, exec (.regWr a v) s = .next t
      ∧ t = { s with
        dev := t.dev
        env := t.env
        result := some { st := 0#64, val := 0#64 }
        ctl := .idle
        calls := s.calls ++ [.busExchange frame] }
      ∧ devReg t a = (if p.devConnected = true then some v else none)
      ∧ (∀ x : Half, x ≠ a → devReg t x = devReg s x)
      ∧ t.dev.sel = s.dev.sel
      ∧ (switches ∧ v &&& p.setupIfMask = p.ifValConv → t.dev.framing = .conversion ∧ t.env = s.env)
      ∧ (¬ switches ∨ v &&& p.setupIfMask = p.ifValReg → t.dev.framing = .register ∧ t.env = s.env)
      ∧ (switches ∧ v &&& p.setupIfMask ≠ p.ifValConv ∧ v &&& p.setupIfMask ≠ p.ifValReg →
        t.dev.framing = (if s.env.head % 2 = 0 then .register else .conversion) ∧ t.env = s.env.advance)

/-- R124, R125, the masked-write law: REG.WRM completes with the register at `(old & ~m) | v`, `old` being the byte the read frame
gives (R118, a draw where the content is unspecified or no device is connected; without a device nothing is known of the register
after the write, R120); a write of the setup register sets the framing (R121). Where the content was known, `v ⊆ m` makes it
`(old & ~m) | (v & m)`, no bit outside the mask changes, and a read that follows returns it. (Which byte and which framing a drawn
number stands for is the model's choice, log 2, DESIGN CHOICE.) -/
def Obligations.MaskedWriteLaw : Prop :=
  ∀ (s : State) (a : Half) (m v : Byte), s.launch.params.Valid = true → TransportFaultFree s → RegOpen a s →
    let p := s.launch.params
    let read := answeredByte s a s.env
    let new := (read.1 &&& ~~~m) ||| v
    let byte0 := a.extractLsb' 8 8 &&& p.addrHiMask
    ∃ t : State, exec (.regWrm a m v) s = .next t
      ∧ t = { s with
        dev := t.dev
        env := t.env
        result := some { st := 0#64, val := 0#64 }
        ctl := .idle
        calls := s.calls ++ [.busExchange [p.opcRead ||| byte0, a.extractLsb' 0 8, p.dummyByte],
          .busExchange [p.opcWrite ||| byte0, a.extractLsb' 0 8, new]] }
      ∧ devReg t a = (if p.devConnected = true then some new else none)
      ∧ (∀ x : Half, x ≠ a → devReg t x = devReg s x)
      ∧ t.dev.sel = s.dev.sel
      ∧ FramingAfterWrite p a new read.2 t
      ∧ ∀ old : Byte, p.devConnected = true → devReg s a = some old →
        new = (old &&& ~~~m) ||| v ∧ read.2 = s.env
          ∧ (v &&& ~~~m = 0#8 → new = (old &&& ~~~m) ||| (v &&& m) ∧ new &&& ~~~m = old &&& ~~~m
            ∧ (t.dev.framing = .register → ∃ u : State, exec (.regRd a) t = .next u
              ∧ u.result = some { st := 0#64, val := ((old &&& ~~~m) ||| (v &&& m)).setWidth 64 }))

/-- R117, R119, R122: a frame whose exchange fails ends the operation with `TransportError`; a failed write leaves the register,
and for the setup register the framing, unknown. -/
def Obligations.FailedFrameReportsTransportError : Prop :=
  ∀ (s : State) (a : Half) (m v : Byte), s.launch.params.Valid = true → s.env.faultFree = false → s.env.head % 3 = 1 →
    RegOpen a s →
    let p := s.launch.params
    let byte0 := a.extractLsb' 8 8 &&& p.addrHiMask
    (∀ i ∈ [Instr.regRd a, Instr.regRdm a m], exec i s = .next
        { s with
          result := some { st := 1#64, val := 0#64 }
          ctl := .idle
          calls := s.calls ++ [.busExchange [p.opcRead ||| byte0, a.extractLsb' 0 8, p.dummyByte]]
          env := s.env.advance })
      ∧ ∃ t : State, exec (.regWr a v) s = .next t
        ∧ t = { s with
          dev := t.dev
          env := t.env
          result := some { st := 1#64, val := 0#64 }
          ctl := .idle
          calls := s.calls ++ [.busExchange [p.opcWrite ||| byte0, a.extractLsb' 0 8, v]] }
        ∧ devReg t a = none
        ∧ (∀ x : Half, x ≠ a → devReg t x = devReg s x)
        ∧ t.dev.sel = s.dev.sel
        ∧ (a ≠ p.addrSetup → t.dev.framing = .register ∧ t.env = s.env.advance)
        ∧ (a = p.addrSetup → t.dev.framing = (if s.env.advance.head % 2 = 0 then .register else .conversion)
          ∧ t.env = s.env.advance.advance)

/-- R124, R126, R122: REG.WRM with a frame that fails. After a failed read frame it sends no write frame under `FAIL_FAST`; under
`FAIL_OPEN` it sends one whose base is undefined (a draw), so that only the bits inside the mask are known afterwards, and still
reports the error. A write frame that fails, after a good read frame or a failed one, leaves the register unspecified and reports
`TransportError`; one that hangs leaves CTL stuck (that the device is then as before is the model's, log 24). -/
def Obligations.MaskedWriteAfterFailedRead : Prop :=
  ∀ (s : State) (a : Half) (m v : Byte), s.launch.params.Valid = true → s.env.faultFree = false → RegOpen a s →
    let p := s.launch.params
    let byte0 := a.extractLsb' 8 8 &&& p.addrHiMask
    let readCall := Call.busExchange [p.opcRead ||| byte0, a.extractLsb' 0 8, p.dummyByte]
    let readFails := s.env.head % 3 = 1
    let read : Byte × Env :=
      if readFails then (BitVec.ofNat 8 s.env.advance.head, s.env.advance.advance) else answeredByte s a s.env.advance
    let new := (read.1 &&& ~~~m) ||| v
    let sent := s.calls ++ [readCall, .busExchange [p.opcWrite ||| byte0, a.extractLsb' 0 8, new]]
    let reports := fun t : State => exec (.regWrm a m v) s = .next t
      ∧ t = { s with
        dev := t.dev, env := t.env, result := some { st := 1#64, val := 0#64 }, ctl := .idle, calls := sent }
      ∧ (∀ x : Half, x ≠ a → devReg t x = devReg s x) ∧ t.dev.sel = s.dev.sel
    (readFails → p.maskedWritePolicy = .failFast → exec (.regWrm a m v) s = .next
        { s with
          result := some { st := 1#64, val := 0#64 }
          ctl := .idle
          calls := s.calls ++ [readCall]
          env := s.env.advance })
      ∧ (readFails → p.maskedWritePolicy = .failOpen → read.2.head % 3 = 0 →
        ∃ t : State, reports t
          ∧ devReg t a = (if p.devConnected = true then some new else none)
          ∧ new &&& m = v &&& m
          ∧ FramingAfterWrite p a new read.2.advance t)
      ∧ ((readFails ∧ p.maskedWritePolicy = .failOpen) ∨ s.env.head % 3 = 0 →
        (read.2.head % 3 = 1 → ∃ t : State, reports t
            ∧ devReg t a = none ∧ FramingAfterFailure p a read.2.advance t)
          ∧ (read.2.head % 3 = 2 → exec (.regWrm a m v) s = .next
            { s with result := none, ctl := .stuck, calls := sent, env := read.2.advance }))

/-- R116 (after the address check of R115): what each register access checks before its first exchange, and in which order;
nothing is sent and nothing else changes. -/
def Obligations.RegisterAccessGuard : Prop :=
  ∀ (s : State) (a : Half) (m v : Byte) (i : Instr), i ∈ [.regRd a, .regWr a v, .regRdm a m, .regWrm a m v] →
    (a.extractLsb' 8 8 &&& ~~~s.launch.params.addrHiMask ≠ 0#8 →
        exec i s = .next { s with refused := some .addressNotEncodable, result := none })
      ∧ (a.extractLsb' 8 8 &&& ~~~s.launch.params.addrHiMask = 0#8 → s.xport.initialized = false →
        exec i s = .next { s with fault := some .noTransport, result := none })
      ∧ (a.extractLsb' 8 8 &&& ~~~s.launch.params.addrHiMask = 0#8 → s.xport.initialized = true →
        s.xport.wordWidth ≠ 8 ∨ s.dev.framing ≠ .register →
        exec i s = .next { s with fault := some .framingHazard, result := none })

/-- R127: the register accesses change `S` only through their outcome (the marks; the result words, CTL's position, the trace and
the draws are the model's own); every byte of memory and every view mark is as before. -/
def Obligations.RegisterAccessFrame : Prop :=
  ∀ (s t : State) (a : Half) (m v : Byte) (i : Instr), i ∈ [.regRd a, .regWr a v, .regRdm a m, .regWrm a m v] →
    exec i s = .next t →
    t = { s with
        dev := t.dev
        fault := t.fault
        refused := t.refused
        result := t.result
        ctl := t.ctl
        calls := t.calls
        env := t.env }
      ∧ ∀ x : Nat, memByte t x = memByte s x ∧ isStale t x = isStale s x

/-- R235, R18: an exchange that hangs leaves CTL without a step and returns nothing; the DMA agent still lands what is in flight,
and then no agent has a step. Both cases of an exchange: the first frame of a register access, and a conversion exchange inside a
transfer, of OFL.XFER, ACQ.ITER or ACQ.RUN (R185, after a trigger that drew ok, or inside the prefix of one that failed, R184) or of
the micro-operation XFER alone (R197). There exactly the words captured so far are in flight, each for its place, memory and the view
marks are as before, and the chip-select stays asserted. The model's own choices are: how a draw is read (log 2), the device is as
before the exchange that hangs (log 24, DEDUCED; the spec is silent), the engine stays busy inside the repetition (log 19), a word
that selects no channel does no more to the device (log 33), the landings are drawn and the state with none left answers the fault
`stuck` (log 5, DEDUCED). -/
def Obligations.HangLeavesLandingsOnly : Prop :=
  (∀ (s : State) (a : Half) (m v : Byte) (i : Instr), i ∈ [.regRd a, .regWr a v, .regRdm a m, .regWrm a m v] →
      s.env.faultFree = false → s.env.head % 3 = 2 → RegOpen a s →
      ∃ frame : List Byte, exec i s = .next
        { s with
          result := none
          ctl := .stuck
          calls := s.calls ++ [.busExchange frame]
          env := s.env.advance })
    ∧ (∀ (s u : State) (i : Instr) (n k : Nat), s.env.faultFree = false →
      ((∃ reps : DWord, i = .oflXfer reps ∧ n = reps.toNat ∧ 1 ≤ n ∧ n ≤ Config.repsMax ∧ u = s)
        ∨ (i ∈ [.acqIter, .acqRun] ∧ s.acq.terminated = false ∧ n = s.launch.params.sampleCount
          ∧ u = selectChannel s.acq.channel.val s)) →
      XferOpen n u →
      let triggered := s.env.head % 2 = 0
      let issued := if triggered then n else s.env.advance.head % n
      let e := if triggered then s.env.advance else s.env.advance.advance
      let word := fun j : Nat => BitVec.ofNat 32 ((Env.advance^[2 * j + 1] e).head % 2 ^ s.launch.params.xferWidth)
      HangsAt k e → k < issued * resultWords s.msg.template →
      ∃ t : State, exec i s = .next t
        ∧ t = { u with
          cs := true
          engine := { busy := true, tpc := t.engine.tpc, rep := t.engine.rep, param := u.msg.param, reps := issued }
          inflight := s.inflight ++ (List.range k).map fun j => (s.ofl.rxAddr + 4 * j, word j)
          dev := { s.dev with sel := if k = 0 then s.dev.sel else some u.msg.param }
          result := none
          ctl := .stuck
          calls := s.calls ++ [.offloadTrigger s.msg.template n] ++ List.replicate (k + 1) (.convExchange u.msg.param)
          env := Env.advance^[2 * k + 1] e })
    ∧ (∀ (s : State) (n : BitVec 12) (k : Nat), s.env.faultFree = false → HangsAt k s.env → k < n.toNat →
      let first := s.engine.rep * resultWords s.msg.template + resultWords (s.msg.template.take s.engine.tpc)
      let word := fun j : Nat => BitVec.ofNat 32 ((Env.advance^[2 * j + 1] s.env).head % 2 ^ s.launch.params.xferWidth)
      exec (.xfer n) s = .next
        { s with
          inflight := s.inflight ++ (List.range k).map fun j => (s.ofl.rxAddr + (first + j) * 4, word j)
          dev := { s.dev with sel := if k = 0 then s.dev.sel else some s.engine.param }
          result := none
          ctl := .stuck
          calls := s.calls ++ List.replicate (k + 1) (.convExchange s.engine.param)
          env := Env.advance^[2 * k + 1] s.env })
    ∧ ∀ s : State, s.fault = none → s.refused = none → s.ctl = .stuck →
      (s.inflight = [] → step s = .fault .stuck)
        ∧ (s.inflight ≠ [] →
          step s = .next (land (s.env.head % s.inflight.length) { s with env := s.env.advance }))

/-! ### The pulse generator (spec/41_pulse_generator.md) -/

/-- R132: `Ticks` is the ideal value for a reference that is a multiple of 1000, and never larger otherwise. -/
def Obligations.TicksMatchTheIdeal : Prop :=
  (∀ (ns r : DWord) (t : Word), ticks ns r = some t → r.toNat % 1000 = 0 →
      t.toNat = (ns.toNat * r.toNat + (10 ^ 9 - 1)) / 10 ^ 9)
    ∧ (∀ (ns r : DWord) (t : Word), ticks ns r = some t → t.toNat ≤ (ns.toNat * r.toNat + (10 ^ 9 - 1)) / 10 ^ 9)
    ∧ ticks 1000000#64 1234567#64 = some 1234#32 ∧ (1000000 * 1234567 + (10 ^ 9 - 1)) / 10 ^ 9 = 1235

/-- R133: `Ticks` is monotonic in `ns`, 0 at 0, and 0 for a reference below 1 kHz. -/
def Obligations.TicksMonotonic : Prop :=
  (∀ (ns1 ns2 r : DWord) (t1 t2 : Word), ns1.toNat < ns2.toNat → ticks ns1 r = some t1 → ticks ns2 r = some t2 →
      t1.toNat ≤ t2.toNat)
    ∧ (∀ r : DWord, ticks 0#64 r = some 0#32)
    ∧ ∀ ns r : DWord, r.toNat < 1000 → ticks ns r = some 0#32

/-- R134: within 200 MHz and 10 seconds nothing overflows. -/
def Obligations.TicksFitWithinTheBounds : Prop :=
  ∀ ns r : DWord, r.toNat ≤ 200000000 → ns.toNat ≤ 10000000000 →
    r.toNat / 1000 ≤ 200000 ∧ r.toNat / 1000 * ns.toNat ≤ 2 * 10 ^ 15 ∧ 2 * 10 ^ 15 < 2 ^ 64
      ∧ ∃ t : Word, ticks ns r = some t ∧ t.toNat ≤ 2 * 10 ^ 9 ∧ 2 * 10 ^ 9 < 2 ^ 32

/-- R131, R136, R139, R141, R234: a tick count whose intermediate or result does not fit is refused, and nothing is written; PWM.INIT
has done its self-test and claimed the descriptor by then. (Where the period of PWM.INIT fits, so does the duty cycle, which is
clamped to it.) -/
def Obligations.TickOverflowRefused : Prop :=
  (∀ (s : State) (ns : DWord), s.pwm.state ≠ .uninitialized →
    let overflows := fun d : Nat => 2 ^ 64 ≤ s.pwm.refHz.toNat / 1000 * d
      ∨ 2 ^ 32 ≤ (s.pwm.refHz.toNat / 1000 * d + 999999) / 1000000
    (overflows ns.toNat → exec (.pwmSetp ns) s = .next { s with refused := some .tickOverflow, result := none })
      ∧ (overflows (min ns.toNat s.pwm.periodNs.toNat) →
        exec (.pwmSetd ns) s = .next { s with refused := some .tickOverflow, result := none }))
    ∧ ∀ s : State, TransportFaultFree s → s.launch.params.pwmConnected = true → s.pwm.state = .uninitialized →
      s.alloc.pwm = false →
      let cfg := s.launch.cfg
      let p := s.launch.params
      (2 ^ 64 ≤ cfg.pwmRefHz.toNat / 1000 * cfg.pwmPeriodNs.toNat
        ∨ 2 ^ 32 ≤ (cfg.pwmRefHz.toNat / 1000 * cfg.pwmPeriodNs.toNat + 999999) / 1000000) →
      exec .pwmInit s = .next
        { s with
          alloc := { s.alloc with pwm := true }
          pwm := { state := .uninitialized, base := cfg.pwmBase, refHz := cfg.pwmRefHz, periodNs := 0#64, dutyNs := 0#64 }
          pulse := { s.pulse with scratch := some p.pwmTestPattern }
          refused := some .tickOverflow
          result := none
          calls := s.calls ++ [.allocPwm, .mmioWrite (cfg.pwmBase + p.offScratch) p.pwmTestPattern,
            .mmioRead (cfg.pwmBase + p.offScratch)] }

/-- R136, R137: PWM.INIT on a free descriptor tests, programs and enables the pulse generator. -/
def Obligations.PwmInitEnables : Prop :=
  ∀ (s : State) (tp td : Word), TransportFaultFree s → s.launch.params.pwmConnected = true →
    s.pwm.state = .uninitialized → s.alloc.pwm = false →
    let cfg := s.launch.cfg
    let p := s.launch.params
    let duty := if cfg.pwmDutyNs.toNat ≤ cfg.pwmPeriodNs.toNat then cfg.pwmDutyNs else cfg.pwmPeriodNs
    ticks cfg.pwmPeriodNs cfg.pwmRefHz = some tp → ticks duty cfg.pwmRefHz = some td →
    exec .pwmInit s = .next
      { s with
        alloc := { s.alloc with pwm := true }
        pwm := { state := .enabled, base := cfg.pwmBase, refHz := cfg.pwmRefHz, periodNs := cfg.pwmPeriodNs, dutyNs := duty }
        pulse := {
          scratch := some p.pwmTestPattern, config := some p.cfgLoad, period := some tp, width := some td
          run := some { running := true, period := some tp, width := some td } }
        result := some { st := 0#64, val := 0#64 }
        ctl := .idle
        calls := s.calls ++ [.allocPwm, .mmioWrite (cfg.pwmBase + p.offScratch) p.pwmTestPattern,
          .mmioRead (cfg.pwmBase + p.offScratch), .mmioWrite (cfg.pwmBase + p.offPeriod) tp,
          .mmioWrite (cfg.pwmBase + p.offWidth) td, .mmioWrite (cfg.pwmBase + p.offConfig) p.cfgLoad] }

/-- R136, R138, R232: a PWM.INIT that returns an error returns one of three, leaves the descriptor released, and a PWM.TD that
follows is a no-op. -/
def Obligations.PwmInitErrorReleases : Prop :=
  ∀ (s t : State) (r : Result), s.pwm.state = .uninitialized → s.alloc.pwm = false → exec .pwmInit s = .next t →
    t.result = some r → r.st ≠ 0#64 →
    (r.st = 2#64 ∨ r.st = 6#64 ∨ r.st = 0x103#64) ∧ r.val = 0#64
      ∧ t.pwm.state = .uninitialized ∧ t.alloc = s.alloc
      ∧ exec .pwmTd t = .next { t with result := some { st := 0#64, val := 0#64 }, ctl := .idle }

/-- R135: the guard of every pulse generator operation except PWM.INIT and PWM.TD. -/
def Obligations.UninitializedPulseGeneratorFaults : Prop :=
  ∀ (s : State) (ns : DWord) (i : Instr), i ∈ [.pwmSetp ns, .pwmSetd ns, .pwmEn, .pwmDis, .pwmGetp] →
    s.pwm.state = .uninitialized → exec i s = .next { s with fault := some .pwmNotInitialized, result := none }

/-- R136, R165: a second PWM.INIT or DEV.INIT is a fault, and changes nothing else. -/
def Obligations.SecondInitFaults : Prop :=
  ∀ s : State,
    (s.pwm.state ≠ .uninitialized ∨ s.alloc.pwm = true →
        exec .pwmInit s = .next { s with fault := some .pwmAlreadyInitialized, result := none })
      ∧ (s.devState ≠ .absent → exec .devInit s = .next { s with fault := some .handleExists, result := none })

/-- R139, R141: PWM.SETP and PWM.SETD complete: the register takes the tick count, the descriptor the nanoseconds, clamped to the
period by PWM.SETD. -/
def Obligations.PeriodAndDutyAreStored : Prop :=
  ∀ (s : State) (ns : DWord), TransportFaultFree s → s.pwm.state ≠ .uninitialized →
    let k := s.pwm.refHz.toNat / 1000
    let d := if ns.toNat ≤ s.pwm.periodNs.toNat then ns else s.pwm.periodNs
    (k * ns.toNat < 2 ^ 64 → (k * ns.toNat + 999999) / 1000000 < 2 ^ 32 →
        let t : Word := BitVec.ofNat 32 ((k * ns.toNat + 999999) / 1000000)
        exec (.pwmSetp ns) s = .next
          { s with
            pwm := { s.pwm with periodNs := ns }
            pulse := { s.pulse with period := some t }
            result := some { st := 0#64, val := 0#64 }
            ctl := .idle
            calls := s.calls ++ [.mmioWrite (s.pwm.base + s.launch.params.offPeriod) t] })
      ∧ (k * d.toNat < 2 ^ 64 → (k * d.toNat + 999999) / 1000000 < 2 ^ 32 →
        let t : Word := BitVec.ofNat 32 ((k * d.toNat + 999999) / 1000000)
        exec (.pwmSetd ns) s = .next
          { s with
            pwm := { s.pwm with dutyNs := d }
            pulse := { s.pulse with width := some t }
            result := some { st := 0#64, val := 0#64 }
            ctl := .idle
            calls := s.calls ++ [.mmioWrite (s.pwm.base + s.launch.params.offWidth) t] })

/-- R140, R142: PWM.GETP after PWM.SETP returns what was set, not the tick count, and after a failed one the previous value; a
successful PWM.SETD stores the period for a larger operand, so that the stored duty cycle is not above the period. -/
def Obligations.PeriodAndDutyAreKeptInNanoseconds : Prop :=
  (∀ (s t : State) (ns : DWord), exec (.pwmSetp ns) s = .next t →
      (t.result = some { st := 0#64, val := 0#64 } →
          exec .pwmGetp t = .next { t with result := some { st := 0#64, val := ns }, ctl := .idle })
        ∧ ∀ r : Result, t.result = some r → r.st ≠ 0#64 →
          exec .pwmGetp t = .next { t with result := some { st := 0#64, val := s.pwm.periodNs }, ctl := .idle })
    ∧ ∀ (s t : State) (ns : DWord), exec (.pwmSetd ns) s = .next t → t.result = some { st := 0#64, val := 0#64 } →
      (s.pwm.periodNs.toNat < ns.toNat → t.pwm.dutyNs = s.pwm.periodNs)
        ∧ t.pwm.periodNs = s.pwm.periodNs ∧ t.pwm.dutyNs.toNat ≤ t.pwm.periodNs.toNat

/-- R143, R144, R52: PWM.EN and PWM.DIS complete: they write their pattern to CONFIG and start the source with the period and
width of the registers, or stop it. -/
def Obligations.EnableAndDisableSwitchTheSource : Prop :=
  ∀ s : State, TransportFaultFree s → s.pwm.state ≠ .uninitialized →
    let p := s.launch.params
    exec .pwmEn s = .next
        { s with
          pwm := { s.pwm with state := .enabled }
          pulse := { s.pulse with
            config := some p.cfgLoad
            run := some { running := true, period := s.pulse.period, width := s.pulse.width } }
          result := some { st := 0#64, val := 0#64 }
          ctl := .idle
          calls := s.calls ++ [.mmioWrite (s.pwm.base + p.offConfig) p.cfgLoad] }
      ∧ exec .pwmDis s = .next
        { s with
          pwm := { s.pwm with state := .disabled }
          pulse := { s.pulse with
            config := some p.cfgReset
            run := some { running := false, period := none, width := none } }
          result := some { st := 0#64, val := 0#64 }
          ctl := .idle
          calls := s.calls ++ [.mmioWrite (s.pwm.base + p.offConfig) p.cfgReset] }

/-- R145, R138: PWM.TD completes: an allocated descriptor is released after CONFIG is written, and with none it is a no-op. The
released base and reference are the model's (log 9). -/
def Obligations.PwmTeardownReleases : Prop :=
  ∀ s : State,
    (TransportFaultFree s → s.alloc.pwm = true → exec .pwmTd s = .next
        { s with
          alloc := { s.alloc with pwm := false }
          pwm := { state := .uninitialized, base := 0, refHz := 0#64, periodNs := 0#64, dutyNs := 0#64 }
          pulse := { s.pulse with
            config := some s.launch.params.cfgReset
            run := some { running := false, period := none, width := none } }
          result := some { st := 0#64, val := 0#64 }
          ctl := .idle
          calls := s.calls ++ [.mmioWrite (s.pwm.base + s.launch.params.offConfig) s.launch.params.cfgReset] })
      ∧ (s.alloc.pwm = false →
        exec .pwmTd s = .next { s with result := some { st := 0#64, val := 0#64 }, ctl := .idle })

/-- R139, R141, R143 to R145: a register write that fails ends the operation with `TransportError`, leaves the register unknown
and the descriptor as it was; PWM.TD has released it all the same (the released base and reference are the model's, log 9, DESIGN
CHOICE; that a failed write leaves the register unknown is log 12). -/
def Obligations.FailedPulseGeneratorWriteReports : Prop :=
  ∀ (s : State) (ns : DWord) (tp td : Word), s.env.faultFree = false → s.env.head % 2 = 1 → s.pwm.state ≠ .uninitialized →
    let p := s.launch.params
    let failed := fun (c : Nat) (v : Word) (pulse : Pulse) =>
      { s with
        pulse := pulse
        result := some { st := 1#64, val := 0#64 }
        ctl := .idle
        calls := s.calls ++ [.mmioWrite (s.pwm.base + c) v]
        env := s.env.advance }
    (ticks ns s.pwm.refHz = some tp →
        exec (.pwmSetp ns) s = .next (failed p.offPeriod tp { s.pulse with period := none }))
      ∧ (ticks (if ns.toNat ≤ s.pwm.periodNs.toNat then ns else s.pwm.periodNs) s.pwm.refHz = some td →
        exec (.pwmSetd ns) s = .next (failed p.offWidth td { s.pulse with width := none }))
      ∧ exec .pwmEn s = .next (failed p.offConfig p.cfgLoad { s.pulse with config := none, run := none })
      ∧ exec .pwmDis s = .next (failed p.offConfig p.cfgReset { s.pulse with config := none, run := none })
      ∧ (s.alloc.pwm = true → exec .pwmTd s = .next
        { failed p.offConfig p.cfgReset { s.pulse with config := none, run := none } with
          alloc := { s.alloc with pwm := false }
          pwm := PwmDesc.reset })

/-- R146: PWM.GETP returns the stored period; no register is read and nothing else changes. -/
def Obligations.GetPeriodReturnsTheStoredPeriod : Prop :=
  ∀ s : State,
    (s.pwm.state ≠ .uninitialized →
        exec .pwmGetp s = .next { s with result := some { st := 0#64, val := s.pwm.periodNs }, ctl := .idle })
      ∧ (s.pwm.state = .uninitialized → exec .pwmGetp s = .next { s with fault := some .pwmNotInitialized, result := none })

/-- R28, R130, R136 to R146: the pulse generator operations change only its allocation flag, its descriptor and its registers
(the marks, result, position, trace and draws apart); every byte of memory and every view mark is as before. -/
def Obligations.PulseGeneratorFrame : Prop :=
  ∀ (s t : State) (ns : DWord) (i : Instr),
    i ∈ [.pwmInit, .pwmSetp ns, .pwmSetd ns, .pwmEn, .pwmDis, .pwmTd, .pwmGetp] → exec i s = .next t →
    t = { s with
        alloc := { s.alloc with pwm := t.alloc.pwm }
        pwm := t.pwm
        pulse := t.pulse
        fault := t.fault
        refused := t.refused
        result := t.result
        ctl := t.ctl
        calls := t.calls
        env := t.env }
      ∧ ∀ x : Nat, memByte t x = memByte s x ∧ isStale t x = isStale s x

/-- R277: a new period or duty cycle does not reach the running source, until a PWM.EN that succeeds takes it over. -/
def Obligations.NewPeriodNeedsReload : Prop :=
  ∀ (s t : State) (ns : DWord) (i : Instr), i ∈ [.pwmSetp ns, .pwmSetd ns] → exec i s = .next t →
    t.pulse.run = s.pulse.run
      ∧ ∀ u : State, exec .pwmEn t = .next u → u.result = some { st := 0#64, val := 0#64 } →
        u.pulse.run = some { running := true, period := t.pulse.period, width := t.pulse.width }

/-! ### Device configuration (spec/42_device_config.md) -/

/-- R150 to R158, R163, R27: under TransportFaultFree with the pulse generator connected, DEV.INIT completes in `ready`: with
single-cycle sequencing, or another mode where the policy is `ACCEPT` (nothing is written then, R154), and in conversion framing or,
where that is the requested mode, in register framing (R156). A device that is not connected answers the self-test with a draw:
another byte than the sentinel is logged and, under `LENIENT`, not fatal (R153). The device is in register framing at the start, its
setup register consistent with that (R118), or the reset pulse puts it there, all its registers and `D.sel` unspecified (R263).
What DEV.INIT has no business with is as before: every other register and `D.sel`, the bits outside the written fields where the
content was known, and the line's flag without a pulse. (Which draw finds the reset line is the model's, log 2.) -/
def Obligations.DevInitReachesReady : Prop :=
  ∀ (s : State) (tp td : Word), s.launch.params.Valid = true → TransportFaultFree s →
    s.launch.params.pwmConnected = true → s.devState = .absent → s.pwm.state = .uninitialized → s.alloc.pwm = false →
    let cfg := s.launch.cfg
    let p := s.launch.params
    let drawn : Byte := BitVec.ofNat 8 (if cfg.resetLinePresent = true then s.env.advance else s.env).head
    let pulsed : Bool := cfg.resetLinePresent && decide (s.env.head % 2 = 0)
    let before := fun x : Half => if pulsed then none else devReg s x
    (cfg.seqMode = .singleCycle ∨ p.unimplSeqPolicy = .accept) →
    (p.devConnected = true ∨ drawn = p.sentinel ∨ p.selfTestPolicy = .lenient) →
    addrEncodable p p.addrScratch = true → (cfg.seqMode = .singleCycle → addrEncodable p p.addrSeqCtrl = true) →
    addrEncodable p p.addrSetup = true → addrEncodable p p.addrGpMode = true →
    ticks cfg.pwmPeriodNs cfg.pwmRefHz = some tp →
    ticks (if cfg.pwmDutyNs.toNat ≤ cfg.pwmPeriodNs.toNat then cfg.pwmDutyNs else cfg.pwmPeriodNs) cfg.pwmRefHz = some td →
    (pulsed = true ∨ (s.dev.framing = .register
      ∧ ∀ b : Byte, p.devConnected = true → devReg s p.addrSetup = some b → b &&& p.setupIfMask = p.ifValReg)) →
    ∃ t : State, exec .devInit s = .next t
      ∧ t = { s with
        devState := .ready
        alloc := { handle := true, gpio := pulsed || s.alloc.gpio, xport := true, clkgen := true, pwm := true }
        xport := { initialized := true, speedHz := cfg.bulkSpeedHz, wordWidth := p.xferWidth }
        log := s.log ++ if p.devConnected = true ∨ drawn = p.sentinel then [] else [.selfTestMismatch drawn]
        pwm := {
          state := .enabled, base := cfg.pwmBase, refHz := cfg.pwmRefHz, periodNs := cfg.pwmPeriodNs
          dutyNs := if cfg.pwmDutyNs.toNat ≤ cfg.pwmPeriodNs.toNat then cfg.pwmDutyNs else cfg.pwmPeriodNs }
        pulse := {
          scratch := some p.pwmTestPattern, config := some p.cfgLoad, period := some tp, width := some td
          run := some { running := true, period := some tp, width := some td } }
        dev := t.dev
        result := some { st := 0#64, val := 0#64 }
        ctl := .idle
        calls := t.calls
        env := t.env }
      ∧ t.dev.sel = (if pulsed then none else s.dev.sel)
      ∧ t.dev.framing = (if p.devConnected = true ∧ cfg.ifMode = .conversion then .conversion else .register)
      ∧ (∀ x : Half, x ≠ p.addrScratch → x ≠ p.addrSetup → x ≠ p.addrGpMode →
        (x ≠ p.addrSeqCtrl ∨ cfg.seqMode ≠ .singleCycle) → devReg t x = before x)
      ∧ (p.devConnected = false → devReg t p.addrScratch = none ∧ devReg t p.addrSetup = none
        ∧ devReg t p.addrGpMode = none ∧ (cfg.seqMode = .singleCycle → devReg t p.addrSeqCtrl = none))
      ∧ (p.devConnected = true → ∃ setup gp : Byte, devReg t p.addrScratch = some p.sentinel
        ∧ devReg t p.addrSetup = some setup
        ∧ setup &&& p.setupIfMask = (match cfg.ifMode with | .conversion => p.ifValConv | .register => p.ifValReg)
        ∧ (∀ b : Byte, before p.addrSetup = some b →
          setup &&& ~~~(p.setupIfMask ||| 0x20#8) = b &&& ~~~(p.setupIfMask ||| 0x20#8)
            ∧ (cfg.seqMode ≠ .singleCycle → setup &&& 0x20#8 = b &&& 0x20#8))
        ∧ devReg t p.addrGpMode = some gp ∧ gp &&& p.gpBusyEnMask = p.gpBusyEnMask
        ∧ gp &&& p.gpBusySelMask = p.busySelOf cfg.busyPin
        ∧ (∀ b : Byte, before p.addrGpMode = some b →
          gp &&& ~~~(p.gpBusyEnMask ||| p.gpBusySelMask) = b &&& ~~~(p.gpBusyEnMask ||| p.gpBusySelMask))
        ∧ (cfg.seqMode = .singleCycle → setup &&& 0x20#8 = 0#8
          ∧ ∃ seq : Byte, devReg t p.addrSeqCtrl = some seq ∧ seq &&& 0xC0#8 = 0#8
            ∧ ∀ b : Byte, before p.addrSeqCtrl = some b → seq &&& ~~~0xC0#8 = b &&& ~~~0xC0#8))

/-- R159, R160, R231: a DEV.INIT that returns an error returns `InitError` with a cause of the table, has logged at most a mismatch
of the self-test, and has left no handle and no resource; what DEV.INIT has no business with is as before. Where the handle
allocation itself failed (status 0x603), a pulse generator set up by PWM.INIT before is not torn down: R150 gives no teardown there.
R153, R154: a byte other than the sentinel is logged and ends DEV.INIT with `SelfTestFailure` (0x203) under `STRICT`, and a sequencing
mode other than single-cycle ends it with `UnimplementedMode` (0x703) under `REJECT`. (The base and reference of a released
descriptor are the model's, log 9.) -/
def Obligations.DevInitErrorTearsDown : Prop :=
  (∀ (s t : State) (r : Result), BlockInv s → exec .devInit s = .next t → t.result = some r → r.st ≠ 0#64 →
    (r.st = 0x103#64 ∨ r.st = 0x203#64 ∨ r.st = 0x603#64 ∨ r.st = 0x703#64 ∨ r.st = 0x803#64) ∧ r.val = 0#64
      ∧ t.devState = .absent ∧ t.alloc.handle = false ∧ t.alloc.gpio = false ∧ t.alloc.xport = false
      ∧ t.alloc.clkgen = false ∧ t.xport.initialized = false ∧ t.ofl.initialized = false
      ∧ (s.alloc.pwm = false ∨ r.st ≠ 0x603#64 → t.alloc.pwm = false ∧ t.pwm.state = .uninitialized)
      ∧ (t.log = s.log ∨ ∃ b : Byte, b ≠ s.launch.params.sentinel ∧ t.log = s.log ++ [.selfTestMismatch b])
      ∧ t = { s with
        devState := t.devState
        alloc := t.alloc
        xport := t.xport
        log := t.log
        pwm := t.pwm
        ofl := t.ofl
        dev := t.dev
        pulse := t.pulse
        result := t.result
        ctl := t.ctl
        calls := t.calls
        env := t.env })
    ∧ ∀ s : State, s.launch.params.Valid = true → TransportFaultFree s → s.devState = .absent →
      let cfg := s.launch.cfg
      let p := s.launch.params
      let drawn : Byte := BitVec.ofNat 8 (if cfg.resetLinePresent = true then s.env.advance else s.env).head
      addrEncodable p p.addrScratch = true →
      ((cfg.resetLinePresent = true ∧ s.env.head % 2 = 0) ∨ s.dev.framing = .register) →
      let tornDown := fun (st : DWord) (t : State) => exec .devInit s = .next t
        ∧ t = { s with
          alloc := { handle := false, gpio := false, xport := false, clkgen := false, pwm := false }
          xport := { initialized := false, speedHz := cfg.regSpeedHz, wordWidth := 8 }
          log := s.log ++ if p.devConnected = true ∨ drawn = p.sentinel then [] else [.selfTestMismatch drawn]
          pwm := if s.alloc.pwm then PwmDesc.reset else s.pwm
          ofl := { s.ofl with initialized := false }
          dev := t.dev
          pulse := if s.alloc.pwm then
            { s.pulse with config := some p.cfgReset, run := some { running := false, period := none, width := none } }
            else s.pulse
          result := some { st := st, val := 0#64 }
          ctl := .idle
          calls := t.calls
          env := t.env }
      (p.devConnected = false → drawn ≠ p.sentinel → p.selfTestPolicy = .strict → ∃ t : State, tornDown 0x203#64 t)
        ∧ ((p.devConnected = true ∨ drawn = p.sentinel ∨ p.selfTestPolicy = .lenient) → cfg.seqMode ≠ .singleCycle →
          p.unimplSeqPolicy = .reject → ∃ t : State, tornDown 0x703#64 t)

/-- R161, R162: DEV.TD completes in every state and always returns `Ok`. With a handle or a pulse generator it releases what is
held, in the order of R161, and nothing of the devices changes but the CONFIG register and the source, which are unknown where the
register write draws a failure (log 12); otherwise it is a no-op. The base and reference of a released descriptor are the model's
(log 9, DESIGN CHOICE), and so is which draw is a failure (log 2). -/
def Obligations.DevTdReleasesWhatIsHeld : Prop :=
  ∀ s : State,
    (s.devState = .absent ∧ s.alloc.pwm = false →
        exec .devTd s = .next { s with result := some { st := 0#64, val := 0#64 }, ctl := .idle })
      ∧ (s.devState ≠ .absent ∨ s.alloc.pwm = true → exec .devTd s = .next
        { s with
          devState := .absent
          alloc := { handle := false, gpio := false, xport := false, clkgen := false, pwm := false }
          xport := { s.xport with initialized := false }
          ofl := { s.ofl with initialized := false }
          pwm := if s.alloc.pwm then PwmDesc.reset else s.pwm
          pulse := if s.alloc.pwm then
            (if s.env.faultFree = false ∧ s.env.head % 2 = 1 then { s.pulse with config := none, run := none }
              else
                { s.pulse with
                  config := some s.launch.params.cfgReset
                  run := some { running := false, period := none, width := none } })
            else s.pulse
          result := some { st := 0#64, val := 0#64 }
          ctl := .idle
          calls := s.calls ++ (if s.alloc.xport then [.xportRemove] else [])
            ++ (if s.alloc.pwm then
              [.mmioWrite (s.pwm.base + s.launch.params.offConfig) s.launch.params.cfgReset] else [])
            ++ (if s.alloc.clkgen then [.clkRemove] else []) ++ (if s.alloc.gpio then [.gpioRemove] else [])
          env := if s.alloc.pwm = true ∧ s.env.faultFree = false then s.env.advance else s.env })

/-- R240: DevTeardown releases each resource only when its flag is set, whatever its register write draws, and a second one
releases nothing. -/
def Obligations.TeardownIsIdempotent : Prop :=
  ∀ s : State,
    (devTeardown s).calls = s.calls ++ (if s.alloc.xport then [.xportRemove] else [])
        ++ (if s.alloc.pwm then
          [.mmioWrite (s.pwm.base + s.launch.params.offConfig) s.launch.params.cfgReset] else [])
        ++ (if s.alloc.clkgen then [.clkRemove] else []) ++ (if s.alloc.gpio then [.gpioRemove] else [])
      ∧ (devTeardown s).alloc = { handle := false, gpio := false, xport := false, clkgen := false, pwm := false }
      ∧ devTeardown (devTeardown s) = devTeardown s

/-- R164, R238: DEV.INIT with the device in conversion framing and no reset line faults at step 3, with nothing torn down. -/
def Obligations.ReinitializationNeedsAReset : Prop :=
  ∀ s : State, TransportFaultFree s → s.devState = .absent → s.launch.cfg.resetLinePresent = false →
    s.dev.framing = .conversion → addrEncodable s.launch.params s.launch.params.addrScratch = true →
    exec .devInit s = .next
      { s with
        devState := .busReady
        alloc := { s.alloc with handle := true, xport := true }
        xport := { initialized := true, speedHz := s.launch.cfg.regSpeedHz, wordWidth := 8 }
        fault := some .framingHazard
        result := none
        calls := s.calls ++ [.allocHandle, .xportInit s.launch.cfg.regSpeedHz s.launch.cfg.busMode 8] }

/-- R41, R110, R262, R263: the device's framing and its registers change only by the register accesses and DEV.INIT (for a conversion
word that selects no channel that is the model's choice, log 33); conversion framing ends only with a DEV.INIT that has a reset
line. -/
def Obligations.ConversionFramingLastsUntilReset : Prop :=
  (∀ (i : Instr) (s t : State), s.launch.params.Valid = true → exec i s = .next t →
      (t.dev.framing ≠ s.dev.framing ∨ ∃ x : Half, devReg t x ≠ devReg s x) →
      i = .devInit ∨ (∃ a v, i = .regWr a v) ∨ ∃ a m v, i = .regWrm a m v)
    ∧ ∀ s t : State, step s = .next t → s.dev.framing = .conversion → t.dev.framing = .register →
      s.launch.cfg.resetLinePresent = true ∧ ∃ u : State, turn s = .runs .devInit u

/-! ### Offload (spec/43_offload.md) -/

/-- R180, R181: OFL.INIT outside `ready` is a fault, a misconfiguration is an error that unsets the offload, and otherwise it
completes with the buffer stored, unless the transport fails. -/
def Obligations.OffloadInitChecksAndStores : Prop :=
  ∀ (s : State) (a len flags : DWord),
    let bad := flags ≠ 1#64 ∨ len = 0#64 ∨ a.toNat % 4 ≠ 0 ∨ len.toNat % 4 ≠ 0
      ∨ 2 ^ s.launch.params.memAddrW < a.toNat + len.toNat
    (s.devState ≠ .ready → exec (.oflInit a len flags) s = .next { s with fault := some .notReady, result := none })
      ∧ (s.devState = .ready → bad → exec (.oflInit a len flags) s = .next
        { s with ofl := { s.ofl with initialized := false }, result := some { st := 4#64, val := 0#64 }, ctl := .idle })
      ∧ (s.devState = .ready → ¬ bad → TransportFaultFree s → exec (.oflInit a len flags) s = .next
        { s with
          ofl := { initialized := true, rxAddr := a.toNat, rxLen := len.toNat, rxEn := true }
          result := some { st := 0#64, val := 0#64 }
          ctl := .idle
          calls := s.calls ++ [.offloadInit a.toNat true] })
      ∧ (s.devState = .ready → ¬ bad → s.env.faultFree = false → s.env.head % 2 = 1 →
        exec (.oflInit a len flags) s = .next
          { s with
            ofl := { s.ofl with initialized := false }
            result := some { st := 4#64, val := 0#64 }
            ctl := .idle
            calls := s.calls ++ [.offloadInit a.toNat true]
            env := s.env.advance })

/-- R182: MSG.SETP stores the word, marks the slot populated and clears the tag; a word of more than `XFER_WIDTH` bits is
refused. -/
def Obligations.SetParameterStoresTheWord : Prop :=
  ∀ (s : State) (w : DWord),
    (w.toNat < 2 ^ s.launch.params.xferWidth → exec (.msgSetp w) s = .next
        { s with
          msg := { s.msg with param := w.setWidth 32, paramValid := true, channelTag := none }
          result := some { st := 0#64, val := 0#64 }
          ctl := .idle })
      ∧ (2 ^ s.launch.params.xferWidth ≤ w.toNat →
        exec (.msgSetp w) s = .next { s with refused := some .operandRange, result := none })

/-- R183: MSG.SETCH stores the channel's word and tag; a channel that is not there is refused; channels 0 and 1 differ. -/
def Obligations.SetChannelStoresItsWord : Prop :=
  ∀ (s : State) (ch : DWord),
    (ch.toNat < s.launch.params.nch → exec (.msgSetch ch) s = .next
        { s with
          msg := { s.msg with
            param := s.launch.params.chSelWord ch.toNat
            paramValid := true
            channelTag := some ch.toNat }
          result := some { st := 0#64, val := 0#64 }
          ctl := .idle })
      ∧ (s.launch.params.nch ≤ ch.toNat →
        exec (.msgSetch ch) s = .next { s with refused := some .operandRange, result := none })
      ∧ (s.launch.params.Valid = true → s.launch.params.chSelWord 0 ≠ s.launch.params.chSelWord 1)

/-- R184, R185, R191, R193: under TransportFaultFree OFL.XFER completes: `reps · W` exchanges of the captured word, each response
(a draw of `XFER_WIDTH` bits) put in flight for the next word address from `rx_addr` on, all of it inside the buffer; memory is
untouched. (That a word that selects no channel does no more to the device is the model's, log 33.) -/
def Obligations.TransferIssuesEveryRepetition : Prop :=
  ∀ (s : State) (reps : DWord), TransportFaultFree s → XferOpen reps.toNat s → 1 ≤ reps.toNat →
    reps.toNat ≤ Config.repsMax →
    let n := reps.toNat * resultWords s.msg.template
    let word := fun j : Nat => BitVec.ofNat 32 ((Env.advance^[j] s.env).head % 2 ^ s.launch.params.xferWidth)
    exec (.oflXfer reps) s = .next
        { s with
          cs := false
          engine := { busy := false, tpc := 0, rep := reps.toNat, param := s.msg.param, reps := reps.toNat }
          inflight := s.inflight ++ (List.range n).map fun j => (s.ofl.rxAddr + 4 * j, word j)
          dev := { s.dev with sel := some s.msg.param }
          result := some { st := 0#64, val := 0#64 }
          ctl := .idle
          calls := s.calls ++ [.offloadTrigger s.msg.template reps.toNat] ++ List.replicate n (.convExchange s.msg.param)
          env := Env.advance^[n] s.env }
      ∧ s.ofl.rxAddr + 4 * n ≤ s.ofl.rxAddr + s.ofl.rxLen

/-- R184, R236, R190: the checks of OFL.XFER, in their order; without the conversion clock it is stuck. -/
def Obligations.TransferChecksInOrder : Prop :=
  ∀ (s : State) (reps : DWord), 1 ≤ reps.toNat → reps.toNat ≤ Config.repsMax →
    let faults := fun r : Fault => exec (.oflXfer reps) s = .next { s with fault := some r, result := none }
    if s.devState ≠ .ready then faults .notReady
    else if s.ofl.initialized = false then faults .offloadNotInitialized
    else if templateWf s.msg.template = false then
      exec (.oflXfer reps) s = .next { s with refused := some .templateNotAdmitted, result := none }
    else if s.msg.paramValid = false then
      exec (.oflXfer reps) s = .next { s with result := some { st := 5#64, val := 0#64 }, ctl := .idle }
    else if s.ofl.rxLen < reps.toNat * resultWords s.msg.template * 4 then faults .bufferOverrun
    else if s.xport.wordWidth ≠ s.launch.params.xferWidth ∨ s.dev.framing ≠ .conversion then faults .framingHazard
    else if s.pwm.state ≠ .enabled then exec (.oflXfer reps) s = .next { s with ctl := .stuck, result := none }
    else XferOpen reps.toNat s

/-- R184: a trigger that fails is reported as `OffloadTransferError` after a prefix of the repetitions, of any length, has been
issued; if no exchange hangs, exactly their words are in flight. -/
def Obligations.FailedTriggerIssuesAPrefix : Prop :=
  ∀ (s t : State) (reps : DWord) (r : Result), XferOpen reps.toNat s → 1 ≤ reps.toNat → reps.toNat ≤ Config.repsMax →
    s.env.faultFree = false → s.env.head % 2 = 1 → exec (.oflXfer reps) s = .next t → t.result = some r →
    r = { st := 5#64, val := 0#64 } ∧ t.engine.busy = false ∧ t.mem = s.mem
      ∧ ∃ words : List Word,
        words.length = s.env.advance.head % reps.toNat * resultWords s.msg.template
        ∧ t.inflight = s.inflight ++ (words.zipIdx.map fun c => (s.ofl.rxAddr + 4 * c.2, c.1))

/-- R196 to R198, R185: each micro-operation completes in the engine: chip-select, or `n` exchanges whose words go to the next word
addresses of the repetition; then the engine moves on, after the last one to the next repetition. (That it takes them one step each
is the model's, log 19, and that a word that selects no channel does no more to the device, log 33.) -/
def Obligations.MicroOperationsComplete : Prop :=
  ∀ (s : State) (n : BitVec 12), TransportFaultFree s → n ≠ 0#12 →
    let last := ¬ s.engine.tpc + 1 < s.msg.template.length
    let engine := if last then
        { s.engine with
          tpc := 0
          rep := s.engine.rep + 1
          busy := s.engine.busy && decide (s.engine.rep + 1 < s.engine.reps) }
      else { s.engine with tpc := s.engine.tpc + 1 }
    let first := s.engine.rep * resultWords s.msg.template + resultWords (s.msg.template.take s.engine.tpc)
    let word := fun j : Nat => BitVec.ofNat 32 ((Env.advance^[j] s.env).head % 2 ^ s.launch.params.xferWidth)
    exec .csAssert s = .next { s with cs := true, engine := engine }
      ∧ exec .csDeassert s = .next { s with cs := false, engine := engine }
      ∧ exec (.xfer n) s = .next
        { s with
          engine := engine
          inflight := s.inflight ++ (List.range n.toNat).map fun j => (s.ofl.rxAddr + (first + j) * 4, word j)
          dev := { s.dev with sel := some s.engine.param }
          calls := s.calls ++ List.replicate n.toNat (.convExchange s.engine.param)
          env := Env.advance^[n.toNat] s.env }

/-- R65, R61: a landing writes the four bytes of its word, least significant first, marks them Stale, and changes no other byte,
mark or field; between two operations it happens when the draw picks the word. (The turns the oldest word may still wait, `landBy`,
are the model's, log 34.) -/
def Obligations.LandingWritesItsWord : Prop :=
  (∀ (s : State) (i a : Nat) (w : Word), s.inflight[i]? = some (a, w) →
      let t := land i s
      t = { s with
          inflight := s.inflight.eraseIdx i
          landBy := if i = 0 then none else s.landBy
          mem := t.mem
          stale := t.stale }
        ∧ (∀ k : Nat, k < 4 → memByte t (a + k) = w.extractLsb' (8 * k) 8 ∧ isStale t (a + k) = true)
        ∧ ∀ x : Nat, x < a ∨ a + 4 ≤ x → t.mem.read x = s.mem.read x ∧ isStale t x = isStale s x)
    ∧ ∀ (s : State) (k : Nat), s.fault = none → s.refused = none → s.ctl ≠ .stuck → s.inflight ≠ [] →
      s.landBy = some (k + 1) → s.env.head % (s.inflight.length + 1) ≠ 0 →
      step s = .next
        (land (s.env.head % (s.inflight.length + 1) - 1) { s with landBy := some k, env := s.env.advance })

/-- R63, R58, R187: memory is written by landings only. No instruction but SETTLE and the acquisition loop, inside which words land,
changes a byte or takes a word out of `S.inflight` (or touches its deadline, log 34), and only CINV among the others changes a view
mark; a byte that a step changes lies in a word that was in flight, or in the buffer of an iteration. -/
def Obligations.MemoryChangesOnlyByLandings : Prop :=
  (∀ (i : Instr) (s t : State), exec i s = .next t → (∀ ms, i ≠ .settle ms) → i ≠ .acqIter → i ≠ .acqRun →
      t.mem = s.mem ∧ s.inflight <+: t.inflight ∧ t.landBy = s.landBy ∧ ((∀ a len, i ≠ .cinv a len) → t.stale = s.stale))
    ∧ ∀ (s t : State) (x : Nat), step s = .next t → t.mem.read x ≠ s.mem.read x →
      (∃ c ∈ s.inflight, c.1 ≤ x ∧ x < c.1 + 4)
        ∨ (s.ofl.rxAddr ≤ x
          ∧ x < s.ofl.rxAddr + s.launch.params.sampleCount * resultWords s.msg.template * 4
          ∧ ∃ u : State, turn s = .runs .acqIter u ∨ turn s = .runs .acqRun u)

/-- R186, R248, R65: SETTLE completes: by default it changes nothing; under `ASSUMED` every word in flight has landed, every byte of
theirs is Stale and holds a byte of such a word, and no byte outside them has changed. R248, fairness: "a word in `S.inflight` lands
eventually". How the model gives it is its own (log 34, DESIGN CHOICE): the number of turns the oldest word may wait is drawn; every
step that does not land it counts one off (inside SETTLE and the acquisition loop it may land too); at 0 it lands. So in every run in
which CTL is not stuck (else every step lands a word) the oldest word leaves `S.inflight` within the drawn number of steps and one
more. -/
def Obligations.SettleDrainsWhenAssumed : Prop :=
  (∀ (s : State) (ms : DWord),
    (s.launch.params.settleMode = .conservative → exec (.settle ms) s = .next
        { s with
          result := some { st := 0#64, val := 0#64 }
          ctl := .idle
          calls := s.calls ++ [.waitMs ms.toNat] })
      ∧ (s.launch.params.settleMode = .assumed → ∃ t : State, exec (.settle ms) s = .next t
        ∧ t = { s with
          inflight := []
          landBy := if s.inflight = [] then s.landBy else none
          mem := t.mem
          stale := t.stale
          env := t.env
          result := some { st := 0#64, val := 0#64 }
          ctl := .idle
          calls := s.calls ++ [.waitMs ms.toNat] }
        ∧ (∀ c ∈ s.inflight, ∀ k : Nat, k < 4 → isStale t (c.1 + k) = true
          ∧ ∃ d ∈ s.inflight, ∃ m : Nat, m < 4 ∧ d.1 + m = c.1 + k
            ∧ t.mem.read (c.1 + k) = some (d.2.extractLsb' (8 * m) 8))
        ∧ ∀ x : Nat, (∀ c ∈ s.inflight, x < c.1 ∨ c.1 + 4 ≤ x) →
          t.mem.read x = s.mem.read x ∧ isStale t x = isStale s x))
    ∧ (∀ (s t : State) (c : Nat × Word), s.ctl ≠ .stuck → s.inflight.head? = some c → step s = .next t →
      (s.landBy = none → t = { s with landBy := some s.env.head, env := s.env.advance })
        ∧ (s.landBy = some 0 → t = land 0 s)
        ∧ ∀ k : Nat, s.landBy = some (k + 1) →
          (t.landBy = some k ∧ t.inflight.head? = some c)
            ∨ (t.landBy = none ∧ OldestLeft s t ∧ (t = land 0 { s with landBy := some k, env := s.env.advance }
              ∨ ∃ (i : Instr) (u : State), turn s = .runs i u ∧ ((∃ ms, i = .settle ms) ∨ i = .acqIter ∨ i = .acqRun))))
    ∧ ∀ (r : Nat → State) (d : Nat) (c : Nat × Word),
      (∀ j : Nat, j ≤ d → (r j).ctl ≠ .stuck ∧ step (r j) = .next (r (j + 1))) →
      (r 0).inflight.head? = some c → (r 0).landBy = some d →
      ∃ n : Nat, n ≤ d ∧ (∀ j : Nat, j ≤ n → (r j).inflight.head? = some c ∧ (r j).landBy = some (d - j))
        ∧ (r (n + 1)).landBy = none ∧ OldestLeft (r n) (r (n + 1))

/-- R187, R67: CINV completes: the bytes of the range are Fresh, every other mark and every byte of memory is as before. -/
def Obligations.InvalidateMakesTheRangeFresh : Prop :=
  ∀ (s : State) (a len : DWord), a.toNat + len.toNat ≤ 2 ^ s.launch.params.memAddrW →
    ∃ t : State, exec (.cinv a len) s = .next t
      ∧ t = { s with
        stale := t.stale
        result := some { st := 0#64, val := 0#64 }
        ctl := .idle
        calls := s.calls ++ [.cacheInvalidate a.toNat len.toNat] }
      ∧ (∀ x : Nat, a.toNat ≤ x ∧ x < a.toNat + len.toNat → isStale t x = false)
      ∧ (∀ x : Nat, x < a.toNat ∨ a.toNat + len.toNat ≤ x → isStale t x = isStale s x)
      ∧ ∀ x : Nat, memByte t x = memByte s x

/-- R188, R66: DECODE completes when the words fit: it appends one list of `n` samples, of `RES_BITS` bits each; where every byte is
Fresh they are the words of the buffer, extended as `SIGN_EXTEND` says. Its guards are faults. -/
def Obligations.DecodeEmitsTheBuffer : Prop :=
  ∀ (s : State) (n : DWord), s.launch.params.Valid = true → 1 ≤ n.toNat →
    let p := s.launch.params
    let word := fun j : Nat => memByte s (s.ofl.rxAddr + 4 * j + 3) ++ memByte s (s.ofl.rxAddr + 4 * j + 2)
      ++ memByte s (s.ofl.rxAddr + 4 * j + 1) ++ memByte s (s.ofl.rxAddr + 4 * j)
    (s.ofl.initialized = false →
        exec (.decodeBuf n) s = .next { s with fault := some .offloadNotInitialized, result := none })
      ∧ (s.ofl.initialized = true → s.ofl.rxLen < n.toNat * 4 →
        exec (.decodeBuf n) s = .next { s with fault := some .bufferOverrun, result := none })
      ∧ (s.ofl.initialized = true → n.toNat * 4 ≤ s.ofl.rxLen → ∃ (t : State) (l : List Word),
        exec (.decodeBuf n) s = .next t
        ∧ t = { s with
          out := s.out ++ [l]
          env := t.env
          result := some { st := 0#64, val := n }
          ctl := .idle }
        ∧ l.length = n.toNat
        ∧ (p.signExtend = false → ∀ x ∈ l, x.toNat ≤ 2 ^ p.resBits - 1)
        ∧ ((∀ x : Nat, s.ofl.rxAddr ≤ x → x < s.ofl.rxAddr + 4 * n.toNat → isStale s x = false) →
          t.env = s.env ∧ ∀ j : Nat, j < n.toNat → l[j]? = some
            (if p.signExtend = true then ((word j).setWidth p.resBits).signExtend 32
              else ((word j).setWidth p.resBits).setWidth 32)))

/-- R194 items 1 and 2: transfer, settle, invalidate the exact range, decode. In both settle modes every operation completes and
the last list has `n · W` samples in range; under `ASSUMED`, with nothing in flight before, they are the captured words,
masked. -/
def Obligations.FullTransferCycle : Prop :=
  ∀ (s : State) (reps ms addr len count : DWord), s.launch.params.Valid = true → TransportFaultFree s →
    XferOpen reps.toNat s → 1 ≤ reps.toNat → reps.toNat ≤ Config.repsMax → NothingInFlight s →
    s.launch.params.signExtend = false → s.ofl.rxAddr + s.ofl.rxLen ≤ 2 ^ s.launch.params.memAddrW →
    addr.toNat = s.ofl.rxAddr → count.toNat = reps.toNat * resultWords s.msg.template → len.toNat = 4 * count.toNat →
    ∃ (s1 s2 s3 s4 : State) (words samples : List Word),
      exec (.oflXfer reps) s = .next s1 ∧ exec (.settle ms) s1 = .next s2 ∧ exec (.cinv addr len) s2 = .next s3
        ∧ exec (.decodeBuf count) s3 = .next s4
        ∧ s1.inflight.map Prod.snd = words
        ∧ s4.out = s.out ++ [samples] ∧ samples.length = count.toNat
        ∧ (∀ x ∈ samples, x.toNat ≤ 2 ^ s.launch.params.resBits - 1)
        ∧ (SettleAssumed s →
          samples = words.map fun w => w &&& BitVec.ofNat 32 (2 ^ s.launch.params.resBits - 1))

/-! ### The acquisition loop (spec/44_acquisition.md) -/

/-- R210, R215, R212: ACQ.ITER completes: the channel's word is sent, one list of `SAMPLE_COUNT · W` samples is emitted, the
channel flips and the count rises; what the iteration has no business with is as before, and so is every byte and view mark outside
the buffer's words and the words that were in flight. Under `ASSUMED`, with nothing in flight before, the samples are the captured
responses, masked to `RES_BITS` and extended as `SIGN_EXTEND` says, and nothing is left in flight (R186, R188, R194). In ACQ.RUN the
same iteration leaves CTL in the loop and returns nothing. (How a draw is read is log 2.) -/
def Obligations.IterationCompletes : Prop :=
  ∀ s : State, s.launch.params.Valid = true → TransportFaultFree s → s.acq.terminated = false →
    XferOpen s.launch.params.sampleCount (selectChannel s.acq.channel.val s) →
    let p := s.launch.params
    let n := p.sampleCount * resultWords s.msg.template
    let word := fun j : Nat => BitVec.ofNat 32 ((Env.advance^[j] s.env).head % 2 ^ p.xferWidth)
    ∃ (t : State) (l : List Word), exec .acqIter s = .next t
      ∧ exec .acqRun s = .next { t with ctl := .acqRun, result := none }
      ∧ t = { s with
        msg := { s.msg with
          param := p.chSelWord s.acq.channel.val
          paramValid := true
          channelTag := some s.acq.channel.val }
        cs := false
        engine := {
          busy := false, tpc := 0, rep := p.sampleCount, param := p.chSelWord s.acq.channel.val, reps := p.sampleCount }
        inflight := t.inflight
        landBy := t.landBy
        mem := t.mem
        stale := t.stale
        acq := { channel := if s.acq.channel = 0 then 1 else 0, iter := s.acq.iter + 1, terminated := false }
        out := s.out ++ [l]
        dev := { s.dev with sel := some (p.chSelWord s.acq.channel.val) }
        result := some { st := 0#64, val := 0#64 }
        ctl := .idle
        calls := s.calls ++ [.offloadTrigger s.msg.template p.sampleCount]
          ++ List.replicate n (.convExchange (p.chSelWord s.acq.channel.val))
          ++ [.waitMs Config.settleMs, .cacheInvalidate s.ofl.rxAddr (n * 4)]
        env := t.env }
      ∧ l.length = n
      ∧ (p.signExtend = false → ∀ x ∈ l, x.toNat ≤ 2 ^ p.resBits - 1)
      ∧ (∀ x : Nat, (∀ c ∈ s.inflight, x < c.1 ∨ c.1 + 4 ≤ x) → (x < s.ofl.rxAddr ∨ s.ofl.rxAddr + n * 4 ≤ x) →
        t.mem.read x = s.mem.read x ∧ isStale t x = isStale s x)
      ∧ (SettleAssumed s → t.inflight = []
        ∧ (NothingInFlight s → ∀ j : Nat, j < n → l[j]? = some
          (if p.signExtend = true then ((word j).setWidth p.resBits).signExtend 32
            else ((word j).setWidth p.resBits).setWidth 32)))

/-- R213: two consecutive iterations that return `Ok` send the words of the two channels, which differ, channel 0 first from
reset. Landings may come between them. -/
def Obligations.ChannelsAlternate : Prop :=
  State.reset.acq.channel = 0
    ∧ ∀ s t t' u : State, s.launch.params.Valid = true →
      exec .acqIter s = .next t → t.result = some { st := 0#64, val := 0#64 } → t'.acq = t.acq → t'.launch = t.launch →
      exec .acqIter t' = .next u → u.result = some { st := 0#64, val := 0#64 } →
      let c := s.acq.channel.val
      t.dev.sel = some (s.launch.params.chSelWord c) ∧ u.dev.sel = some (s.launch.params.chSelWord (1 - c))
        ∧ s.launch.params.chSelWord c ≠ s.launch.params.chSelWord (1 - c)

/-- R211, R214, R215: an iteration that returns an error returns `OffloadTransferError`, has torn the block down, has emitted
nothing and has ended the loop; a terminated loop stays terminated and its operations fault. -/
def Obligations.TerminationIsFinal : Prop :=
  (∀ (s t : State) (r : Result) (i : Instr), i ∈ [.acqIter, .acqRun] → exec i s = .next t → t.result = some r →
      r.st ≠ 0#64 →
      r = { st := 5#64, val := 0#64 } ∧ t.acq = { s.acq with terminated := true } ∧ t.out = s.out ∧ t.devState = .absent
        ∧ t.alloc = { handle := false, gpio := false, xport := false, clkgen := false, pwm := false }
        ∧ t.xport.initialized = false ∧ t.ofl.initialized = false ∧ t.mem = s.mem ∧ t.stale = s.stale)
    ∧ (∀ (s : State) (i : Instr), i ∈ [.acqIter, .acqRun] → s.acq.terminated = true →
      exec i s = .next { s with fault := some .acqTerminated, result := none })
    ∧ ∀ s t : State, step s = .next t → s.acq.terminated = true → t.acq.terminated = true

/-! ### The whole machine -/

/-- R260: the state at reset holds every value the rule gives. -/
def Obligations.ResetIsTheCleanLaunch : Prop := CleanLaunch State.reset

/-- Memory, the view marks and the device registers keep their canonical form (R63, R64, R40), from every state that has it. -/
def Obligations.StepKeepsStorageCanonical : Prop :=
  ∀ s t : State, StorageInv s → step s = .next t → StorageInv t

/-- The invariant of the controller holds again after every step, from every state that has it: what R23, R24, R26, R32, R33, R58,
R62, R138, R160 and R163 say of the state when no operation runs. That a released descriptor has base 0 and reference 0 too is the
model's choice (log 9, DESIGN CHOICE), and so is the clause on `landBy` (log 34). -/
def Obligations.StepKeepsBlockInvariant : Prop :=
  ∀ s t : State, BlockInv s → step s = .next t → BlockInv t

/-- Both invariants hold at reset, whatever the OPEN parameters and the launch record are. -/
def Obligations.InvariantsHoldAtReset : Prop :=
  StorageInv State.reset ∧ BlockInv State.reset ∧ ∀ l : Launch, l.params.Valid = true → BlockInv (State.boot l)

/-- R11, R12, R27, R32, R36, R37, R39, R72: no step writes the parameters, the launch record or the template; the logs and the trace
only grow; the parameter slot stays populated; the iteration count never falls. -/
def Obligations.HistoryOnlyGrows : Prop :=
  ∀ s t : State, step s = .next t →
    t.launch = s.launch ∧ t.msg.template = s.msg.template ∧ s.log <+: t.log ∧ s.out <+: t.out ∧ s.calls <+: t.calls
      ∧ (s.msg.paramValid = true → t.msg.paramValid = true) ∧ s.acq.iter ≤ t.acq.iter
      ∧ t.env.faultFree = s.env.faultFree
end

