-- ==== Sys2Proof/Laws/Config.lean ====
section
/-! SUPPORT. The parameter record: what is admitted (R11), and the parameters at reset. -/

namespace Sys2Proof

theorem Params.ex1_valid : Params.ex1.Valid = true := by decide

theorem Params.ex1_decided : Params.ex1.decided = Params.ex1 := rfl

theorem Params.decided_decided (p : Params) : p.decided.decided = p.decided := rfl

/-- What `admitted` gives meets every constraint of R11. -/
theorem Params.admitted_valid (p : Params) : p.admitted.Valid = true := by
  unfold Params.admitted
  split
  · assumption
  · exact Params.ex1_valid

/-- No admissible record with the decided values is left out. -/
theorem Params.admitted_of_valid {p : Params} (h : p.decided.Valid = true) : p.admitted = p.decided := if_pos h

theorem Params.admitted_decided (p : Params) : p.admitted.decided = p.admitted := by
  unfold Params.admitted
  split <;> rfl

/-- The parameters at reset meet every constraint of R11, whatever the OPEN ones are. -/
theorem Config.params_valid : Config.params.Valid = true := by
  unfold Config.params
  rw [Params.admitted_decided]
  exact Params.admitted_valid _

/-- The constraints, part by part. -/
theorem Params.valid_parts {p : Params} (h : p.Valid = true) :
    p.framesValid = true ∧ p.regsValid = true ∧ p.dataValid = true ∧ p.pwmValid = true := by
  simpa [Params.Valid, and_assoc] using h

/-- The constraints on the frames. -/
theorem Params.valid_frames {p : Params} (h : p.Valid = true) :
    p.addrHiMask &&& (p.opcRead ||| p.opcWrite) = 0#8 ∧ p.opcRead ≠ p.opcWrite ∧ p.rxDataIndex < 3 := by
  have := (Params.valid_parts h).1
  simpa [Params.framesValid, and_assoc] using this

/-- The four ADC register addresses are pairwise distinct. -/
theorem Params.valid_addrs {p : Params} (h : p.Valid = true) :
    p.addrScratch ≠ p.addrSetup ∧ p.addrSeqCtrl ≠ p.addrSetup ∧ p.addrGpMode ≠ p.addrSetup := by
  have := (Params.valid_parts h).2.1
  simp only [Params.regsValid, Bool.and_eq_true, bne_iff_ne, ne_eq] at this
  exact ⟨by tauto, fun e => by simp_all, fun e => by simp_all⟩

/-- The other three pairs of ADC register addresses. -/
theorem Params.valid_addrs_apart {p : Params} (h : p.Valid = true) :
    p.addrScratch ≠ p.addrSeqCtrl ∧ p.addrScratch ≠ p.addrGpMode ∧ p.addrSeqCtrl ≠ p.addrGpMode := by
  have := (Params.valid_parts h).2.1
  simp only [Params.regsValid, Bool.and_eq_true, bne_iff_ne, ne_eq] at this
  tauto

/-- The busy-indicator fields (R47): disjoint masks, and every select value inside its mask. -/
theorem Params.valid_busy {p : Params} (h : p.Valid = true) :
    p.gpBusyEnMask &&& p.gpBusySelMask = 0#8 ∧ ∀ pin, p.busySelOf pin &&& ~~~p.gpBusySelMask = 0#8 := by
  have := (Params.valid_parts h).2.1
  simp only [Params.regsValid, Bool.and_eq_true, List.all_eq_true, beq_iff_eq] at this
  refine ⟨this.1.2, fun pin => ?_⟩
  simp only [Params.busySelOf, List.getD_eq_getElem?_getD]
  cases hp : p.busySel[pin]? with
  | none => simp
  | some v => exact this.2 v (List.mem_of_getElem? hp)

/-- The interface-mode field (R45): disjoint from the sequencing-mode bit, its two values inside it and distinct. -/
theorem Params.valid_interface {p : Params} (h : p.Valid = true) :
    p.setupIfMask &&& Config.setupSeqMask = 0#8 ∧ p.ifValConv &&& ~~~p.setupIfMask = 0#8
      ∧ p.ifValReg &&& ~~~p.setupIfMask = 0#8 ∧ p.ifValConv ≠ p.ifValReg := by
  have := (Params.valid_parts h).2.1
  simp only [Params.regsValid, Bool.and_eq_true, bne_iff_ne, ne_eq, beq_iff_eq] at this
  tauto

/-- The widths of the data phase. -/
theorem Params.valid_widths {p : Params} (h : p.Valid = true) :
    8 < p.xferWidth ∧ p.xferWidth ≤ 32 ∧ (p.resBits = 16 ∨ p.resBits = 18 ∨ p.resBits = 20) := by
  have := (Params.valid_parts h).2.2.1
  simp only [Params.dataValid, Bool.and_eq_true, Bool.or_eq_true, decide_eq_true_eq, beq_iff_eq] at this
  tauto

/-- The sample count of the acquisition loop. -/
theorem Params.valid_sampleCount {p : Params} (h : p.Valid = true) :
    1 ≤ p.sampleCount ∧ p.sampleCount ≤ Config.repsMax := by
  have := (Params.valid_parts h).2.2.1
  simp only [Params.dataValid, Bool.and_eq_true, Bool.or_eq_true, decide_eq_true_eq, beq_iff_eq] at this
  tauto

/-- Channels 0 and 1 have different select words (R11). -/
theorem Params.valid_chSel {p : Params} (h : p.Valid = true) : p.chSelWord 0 ≠ p.chSelWord 1 := by
  have := (Params.valid_parts h).2.2.1
  simp only [Params.dataValid, Bool.and_eq_true, bne_iff_ne, ne_eq] at this
  simp only [Params.chSelWord]
  tauto

/-- A channel-select word has `XFER_WIDTH` bits. -/
theorem Params.valid_chSelWord {p : Params} (h : p.Valid = true) (ch : Nat) :
    (p.chSelWord ch).toNat < 2 ^ p.xferWidth := by
  have := (Params.valid_parts h).2.2.1
  simp only [Params.dataValid, Bool.and_eq_true, decide_eq_true_eq, List.all_eq_true] at this
  obtain ⟨⟨⟨⟨⟨-, h0⟩, h1⟩, hm⟩, -⟩, -⟩ := this
  match ch with
  | 0 => exact h0
  | 1 => exact h1
  | n + 2 =>
    simp only [Params.chSelWord, List.getD_eq_getElem?_getD]
    cases hn : p.chSelMore[n]? with
    | none => simp
    | some w => exact hm w (List.mem_of_getElem? hn)

end Sys2Proof
end

