-- ==== Sys2Proof/Laws/Frames.lean ====
section
/-! SUPPORT. Register frames and header fields: the device reads back the address CTL put in (R90 to R93), and a masked value bit
by bit (R124). -/

namespace Sys2Proof.Machine

/-- A mask disjoint from the union of two opcodes is disjoint from each. -/
theorem mask_disjoint {m r w : Byte} (h : m &&& (r ||| w) = 0#8) : m &&& r = 0#8 ∧ m &&& w = 0#8 := by
  constructor <;>
  · apply BitVec.eq_of_getElem_eq
    intro i hi
    have hb := congrArg (fun x => x.getLsbD i) h
    simp [hi] at hb
    simp
    cases hmi : m[i] <;> simp_all

/-- The bits of byte 0 outside the mask are the opcode. -/
theorem opcode_kept {o h m : Byte} (hm : m &&& o = 0#8) : (o ||| (h &&& m)) &&& ~~~m = o := by
  apply BitVec.eq_of_getElem_eq
  intro i hi
  have hb := congrArg (fun x => x.getLsbD i) hm
  simp [hi] at hb
  simp
  cases ho : o[i] <;> cases hmi : m[i] <;> simp_all

/-- The bits of byte 0 inside the mask are the high address byte. -/
theorem address_kept {o h m : Byte} (hm : m &&& o = 0#8) (he : h &&& ~~~m = 0#8) : (o ||| (h &&& m)) &&& m = h := by
  apply BitVec.eq_of_getElem_eq
  intro i hi
  have hb := congrArg (fun x => x.getLsbD i) hm
  have hc := congrArg (fun x => x.getLsbD i) he
  simp [hi] at hb hc
  simp
  cases ho : o[i] <;> cases hmi : m[i] <;> simp_all

/-- The two address bytes make the address. -/
theorem high_low (a : Half) : (addrHigh a ++ addrLow a : BitVec (8 + 8)) = a := by
  apply BitVec.eq_of_getLsbD_eq
  intro i hi
  have h := BitVec.getLsbD_append (x := addrHigh a) (y := addrLow a) (i := i)
  refine h.trans ?_
  simp only [addrHigh, addrLow, BitVec.getLsbD_extractLsb']
  by_cases h8 : i < 8
  · simp [h8]
  · have e : 8 + (i - 8) = i := by omega
    have l : i - 8 < 8 := by omega
    simp [h8, e, l]

/-- The device reads a read frame as a read of the address (R93). -/
theorem decodeFrame_readFrame {p : Params} {a : Half} (hv : p.Valid = true) (he : addrEncodable p a = true) :
    decodeFrame p (readFrame p a) = .read a := by
  have hm := (mask_disjoint (Params.valid_frames hv).1).1
  have he' : addrHigh a &&& ~~~p.addrHiMask = 0#8 := by simpa [addrEncodable] using he
  simp only [decodeFrame, readFrame, frameAddr, opcode_kept hm, if_true, address_kept hm he', high_low]

/-- The device reads a write frame as a write of the value to the address (R93). -/
theorem decodeFrame_writeFrame {p : Params} {a : Half} (v : Byte) (hv : p.Valid = true)
    (he : addrEncodable p a = true) : decodeFrame p (writeFrame p a v) = .write a v := by
  have hm := (mask_disjoint (Params.valid_frames hv).1).2
  have hn : ¬ p.opcWrite = p.opcRead := fun h => (Params.valid_frames hv).2.1 h.symm
  have he' : addrHigh a &&& ~~~p.addrHiMask = 0#8 := by simpa [addrEncodable] using he
  simp only [decodeFrame, writeFrame, frameAddr, opcode_kept hm, if_neg hn, if_true, address_kept hm he', high_low]

@[simp] theorem readFrame_length (p : Params) (a : Half) : (readFrame p a).length = 3 := rfl

@[simp] theorem writeFrame_length (p : Params) (a : Half) (v : Byte) : (writeFrame p a v).length = 3 := rfl

/-- Bit `i` of a masked value (R124). -/
theorem maskedValue_getElem (old m v : Byte) (i : Nat) (hi : i < 8) :
    (maskedValue old m v)[i] = ((old[i] && !m[i]) || v[i]) := by simp [maskedValue]

/-- A masked write of a value inside the mask keeps the bits outside it (R125). -/
theorem maskedValue_outside {old m v : Byte} (hv : v &&& ~~~m = 0#8) :
    maskedValue old m v &&& ~~~m = old &&& ~~~m := by
  apply BitVec.eq_of_getElem_eq
  intro i hi
  have hb := congrArg (fun x => x.getLsbD i) hv
  simp [hi] at hb
  simp [maskedValue]
  cases hmi : m[i] <;> simp_all

/-- A masked write leaves a field that neither its mask nor its value touches (R124). -/
theorem maskedValue_apart {old m v n : Byte} (hn : m &&& n = 0#8) (hv : v &&& n = 0#8) :
    maskedValue old m v &&& n = old &&& n := by
  apply BitVec.eq_of_getElem_eq
  intro i hi
  have h1 := congrArg (fun x => x.getLsbD i) hn
  have h2 := congrArg (fun x => x.getLsbD i) hv
  simp [hi] at h1 h2
  simp [maskedValue]
  cases ho : old[i] <;> cases hm : m[i] <;> cases hvv : v[i] <;> cases hnn : n[i] <;> simp_all

/-- Inside its mask a masked write puts the value (R124). -/
theorem maskedValue_inside {old m v : Byte} (hv : v &&& ~~~m = 0#8) : maskedValue old m v &&& m = v := by
  apply BitVec.eq_of_getElem_eq
  intro i hi
  have h2 := congrArg (fun x => x.getLsbD i) hv
  simp [hi] at h2
  simp [maskedValue]
  cases ho : old[i] <;> cases hm : m[i] <;> cases hvv : v[i] <;> simp_all

/-- A value inside a mask misses what the mask misses. -/
theorem apart_of_inside {v m n : Byte} (h : v &&& ~~~m = 0#8) (hn : m &&& n = 0#8) : v &&& n = 0#8 := by
  apply BitVec.eq_of_getElem_eq
  intro i hi
  have h1 := congrArg (fun x => x.getLsbD i) hn
  have h2 := congrArg (fun x => x.getLsbD i) h
  simp [hi] at h1 h2
  simp
  cases hm : m[i] <;> cases hvv : v[i] <;> cases hnn : n[i] <;> simp_all

/-- What lies outside a field, and outside another one beside it, lies outside both. -/
theorem outside_left (m n : Byte) : m &&& ~~~(m ||| n) = 0#8 := by
  apply BitVec.eq_of_getElem_eq
  intro i hi
  simp
  cases m[i] <;> simp

theorem outside_right (m n : Byte) : n &&& ~~~(m ||| n) = 0#8 := by
  rw [BitVec.or_comm]
  exact outside_left n m

/-- A masked write of a value inside its field keeps what lies elsewhere (R125). -/
theorem maskedValue_elsewhere {old m v n : Byte} (hv : v &&& ~~~m = 0#8) (hn : m &&& n = 0#8) :
    maskedValue old m v &&& n = old &&& n := maskedValue_apart hn (apart_of_inside hv hn)

end Sys2Proof.Machine
end

