-- ==== Sys2Proof/Laws/Memory.lean ====
section
/-! SUPPORT. Laws of sparse memory, of the view marks and of a landing (spec/20_memory.md R61 to R67): read after write, and every
operation keeps the canonical form. -/

namespace Sys2Proof.Machine

/-! ### Bytes -/

theorem Memory.read_write_same (m : Memory) (x : Nat) (v : Byte) : (Memory.write m x v).read x = some v := by
  induction m with
  | nil => simp [Memory.write, Memory.read]
  | cons c m ih =>
    obtain ⟨a, b⟩ := c
    unfold Memory.write
    split
    · simp [Memory.read]
    · split
      · simp [Memory.read]
      · next h => simp [Memory.read, h, ih]

theorem Memory.read_write_other (m : Memory) {x y : Nat} (v : Byte) (h : y ≠ x) :
    (Memory.write m x v).read y = m.read y := by
  induction m with
  | nil => simp [Memory.write, Memory.read, h]
  | cons c m ih =>
    obtain ⟨a, b⟩ := c
    unfold Memory.write
    split
    · simp [Memory.read, h]
    · split
      · next he =>
        subst he
        simp [Memory.read, h]
      · simp only [Memory.read, ih]

/-- Read after write. -/
theorem Memory.read_write (m : Memory) (x y : Nat) (v : Byte) :
    (Memory.write m x v).read y = if y = x then some v else m.read y := by
  by_cases h : y = x
  · subst h
    simp [Memory.read_write_same]
  · simp [h, Memory.read_write_other m v h]

theorem Memory.mem_write {m : Memory} {x : Nat} {v : Byte} {c : Host.Cell} (h : c ∈ Memory.write m x v) :
    c = (x, v) ∨ c ∈ m := by
  induction m with
  | nil => simpa [Memory.write] using h
  | cons d m ih =>
    obtain ⟨a, b⟩ := d
    unfold Memory.write at h
    split at h
    · simpa using h
    · split at h
      · rcases List.mem_cons.1 h with h | h
        · exact .inl h
        · exact .inr (List.mem_cons_of_mem _ h)
      · rcases List.mem_cons.1 h with h | h
        · exact .inr (h ▸ List.mem_cons_self)
        · exact (ih h).imp_right (List.mem_cons_of_mem _)

/-- A write keeps the canonical form. -/
theorem Memory.write_wf {m : Memory} (hm : Memory.wf m) (x : Nat) (v : Byte) : Memory.wf (Memory.write m x v) := by
  induction m with
  | nil => simp [Memory.wf, Memory.write]
  | cons c m ih =>
    obtain ⟨a, b⟩ := c
    obtain ⟨hc, hm'⟩ := List.pairwise_cons.1 hm
    unfold Memory.write
    split
    · next hlt =>
      refine List.pairwise_cons.2 ⟨fun d hd => ?_, hm⟩
      rcases List.mem_cons.1 hd with rfl | hd
      · exact hlt
      · exact Nat.lt_trans hlt (hc d hd)
    · split
      · next he =>
        subst he
        exact List.pairwise_cons.2 ⟨hc, hm'⟩
      · refine List.pairwise_cons.2 ⟨fun d hd => ?_, ih hm'⟩
        rcases Memory.mem_write hd with rfl | hd
        · simp only
          omega
        · exact hc d hd

/-- Forgetting a byte keeps the canonical form. -/
theorem Memory.erase_wf {m : Memory} (hm : Memory.wf m) (x : Nat) : Memory.wf (Memory.erase m x) :=
  List.Pairwise.sublist List.filter_sublist hm

theorem Memory.read_erase (m : Memory) (x y : Nat) :
    (Memory.erase m x).read y = if y = x then none else m.read y := by
  induction m with
  | nil => simp [Memory.erase, Memory.read]
  | cons c m ih =>
    obtain ⟨a, b⟩ := c
    unfold Memory.erase at ih ⊢
    rw [List.filter_cons]
    by_cases ha : a = x
    · subst ha
      simp only [bne_self_eq_false, Bool.false_eq_true, if_false, ih, Memory.read]
      by_cases hy : y = a <;> simp [hy]
    · have : (a != x) = true := by simpa using ha
      simp only [this, if_true, Memory.read, ih]
      by_cases hy : y = a
      · subst hy
        simp [ha]
      · simp [hy]

/-- A word keeps the canonical form (R61). -/
theorem Memory.writeWord_wf {m : Memory} (hm : Memory.wf m) (a : Nat) (w : Word) : Memory.wf (Memory.writeWord m a w) :=
  Memory.write_wf (Memory.write_wf (Memory.write_wf (Memory.write_wf hm _ _) _ _) _ _) _ _

/-- A word lies little-endian in its four bytes, and every other byte is as before (R61). -/
theorem Memory.read_writeWord (m : Memory) (a x : Nat) (w : Word) :
    (Memory.writeWord m a w).read x =
      if a ≤ x ∧ x < a + 4 then some (wordByte w (x - a)) else m.read x := by
  simp only [Memory.writeWord, Memory.read_write]
  by_cases h : a ≤ x ∧ x < a + 4
  · obtain ⟨k, rfl⟩ := Nat.exists_eq_add_of_le h.1
    have hk : k < 4 := by omega
    interval_cases k <;> simp
  · have h0 : ¬ x = a := by omega
    have h1 : ¬ x = a + 1 := by omega
    have h2 : ¬ x = a + 2 := by omega
    have h3 : ¬ x = a + 3 := by omega
    simp [h, h0, h1, h2, h3]

/-- The four bytes of a word make the word (R61). -/
theorem wordOfBytes_wordByte (w : Word) :
    wordOfBytes (wordByte w 0) (wordByte w 1) (wordByte w 2) (wordByte w 3) = w := by
  apply BitVec.eq_of_getLsbD_eq
  intro i hi
  have e3 := BitVec.getLsbD_append (x := wordByte w 3 ++ wordByte w 2 ++ wordByte w 1) (y := wordByte w 0) (i := i)
  have e2 := BitVec.getLsbD_append (x := wordByte w 3 ++ wordByte w 2) (y := wordByte w 1) (i := i - 8)
  have e1 := BitVec.getLsbD_append (x := wordByte w 3) (y := wordByte w 2) (i := i - 8 - 8)
  refine e3.trans ?_
  rw [e2, e1]
  simp only [wordByte, BitVec.getLsbD_extractLsb']
  rcases Nat.lt_or_ge i 8 with h | h
  · simp [h]
  rcases Nat.lt_or_ge i 16 with h' | h'
  · have : i - 8 < 8 := by omega
    have e : 8 + (i - 8) = i := by omega
    simp [Nat.not_lt.2 h, this, e]
  rcases Nat.lt_or_ge i 24 with h'' | h''
  · have n1 : ¬ i < 8 := by omega
    have n2 : ¬ i - 8 < 8 := by omega
    have l : i - 8 - 8 < 8 := by omega
    have e : 16 + (i - 8 - 8) = i := by omega
    simp [n1, n2, l, e]
  · have n1 : ¬ i < 8 := by omega
    have n2 : ¬ i - 8 < 8 := by omega
    have n3 : ¬ i - 8 - 8 < 8 := by omega
    have l : i - 8 - 8 - 8 < 8 := by omega
    have e : 24 + (i - 8 - 8 - 8) = i := by omega
    simp [n1, n2, n3, l, e]

/-! ### View marks -/

theorem mem_insertAddr {l : List Nat} {x y : Nat} : y ∈ insertAddr l x ↔ y = x ∨ y ∈ l := by
  induction l with
  | nil => simp [insertAddr]
  | cons a l ih =>
    unfold insertAddr
    split
    · simp
    · split
      · next h =>
        subst h
        simp
      · simp only [List.mem_cons, ih]
        tauto

theorem insertAddr_rising {l : List Nat} (hl : l.Pairwise (fun a b => a < b)) (x : Nat) :
    (insertAddr l x).Pairwise (fun a b => a < b) := by
  induction l with
  | nil => simp [insertAddr]
  | cons a l ih =>
    obtain ⟨ha, hl'⟩ := List.pairwise_cons.1 hl
    unfold insertAddr
    split
    · next h =>
      refine List.pairwise_cons.2 ⟨fun d hd => ?_, hl⟩
      rcases List.mem_cons.1 hd with rfl | hd
      · exact h
      · exact Nat.lt_trans h (ha d hd)
    · split
      · exact hl
      · refine List.pairwise_cons.2 ⟨fun d hd => ?_, ih hl'⟩
        rcases mem_insertAddr.1 hd with rfl | hd
        · omega
        · exact ha d hd

/-- A landing marks exactly its four bytes Stale (R65). -/
theorem mem_markStale {l : List Nat} {a x : Nat} : x ∈ markStale l a ↔ (a ≤ x ∧ x < a + 4) ∨ x ∈ l := by
  simp only [markStale, mem_insertAddr]
  constructor
  · rintro (h | h | h | h | h)
    · left; omega
    · left; omega
    · left; omega
    · left; omega
    · exact .inr h
  · rintro (h | h)
    · have : x = a ∨ x = a + 1 ∨ x = a + 2 ∨ x = a + 3 := by omega
      tauto
    · tauto

theorem markStale_rising {l : List Nat} (hl : l.Pairwise (fun a b => a < b)) (a : Nat) :
    (markStale l a).Pairwise (fun a b => a < b) :=
  insertAddr_rising (insertAddr_rising (insertAddr_rising (insertAddr_rising hl _) _) _) _

/-- An invalidate leaves exactly the Stale bytes outside its range (R67). -/
theorem mem_markFresh {l : List Nat} {a len x : Nat} : x ∈ markFresh l a len ↔ x ∈ l ∧ (x < a ∨ a + len ≤ x) := by
  simp [markFresh]

theorem markFresh_rising {l : List Nat} (hl : l.Pairwise (fun a b => a < b)) (a len : Nat) :
    (markFresh l a len).Pairwise (fun a b => a < b) := List.Pairwise.sublist List.filter_sublist hl

theorem isStale_iff {s : State} {a : Nat} : isStale s a = true ↔ a ∈ s.stale := by simp [isStale]

theorem isStale_eq_false {s : State} {a : Nat} : isStale s a = false ↔ a ∉ s.stale := by
  simp [isStale]

/-! ### Landings (R65) -/

/-- Everything a landing does to memory and to the view marks. -/
theorem land_of_getElem {s : State} {i a : Nat} {w : Word} (h : s.inflight[i]? = some (a, w)) :
    land i s = { s with
      inflight := s.inflight.eraseIdx i
      landBy := if i = 0 then none else s.landBy
      mem := s.mem.writeWord a w
      stale := markStale s.stale a } := by
  simp [land, h]

theorem land_of_none {s : State} {i : Nat} (h : s.inflight[i]? = none) : land i s = s := by simp [land, h]

/-- A landing keeps the canonical forms. -/
theorem land_storageInv {s : State} (h : StorageInv s) (i : Nat) : StorageInv (land i s) := by
  unfold land
  split
  · exact h
  · exact ⟨Memory.writeWord_wf h.mem _ _, markStale_rising h.stale _, h.reg⟩

/-- Any predicate that draws and landings keep is kept by any number of landings. -/
theorem dmaRun_keeps {P : State → Prop} (hd : ∀ n s, P s → P (drawBelow n s).2) (hl : ∀ i s, P s → P (land i s))
    (k : Nat) {s : State} (h : P s) : P (dmaRun k s) := by
  induction k generalizing s with
  | zero => exact h
  | succ k ih =>
    unfold dmaRun
    split
    · exact h
    · simp only
      split
      · exact hd _ _ h
      · exact ih (hl _ _ (hd _ _ h))

/-- Any predicate that draws and landings keep is kept by the drain. -/
theorem dmaDrain_keeps {P : State → Prop} (hd : ∀ n s, P s → P (drawBelow n s).2) (hl : ∀ i s, P s → P (land i s))
    (k : Nat) {s : State} (h : P s) : P (dmaDrain k s) := by
  induction k generalizing s with
  | zero => exact h
  | succ k ih =>
    unfold dmaDrain
    split
    · exact h
    · exact ih (hl _ _ (hd _ _ h))

theorem dmaMoves_keeps {P : State → Prop} (hd : ∀ n s, P s → P (drawBelow n s).2) (hl : ∀ i s, P s → P (land i s))
    {s : State} (h : P s) : P (dmaMoves s) := dmaRun_keeps hd hl _ h

/-- With nothing in flight there is nothing to land. -/
theorem dmaMoves_nil {s : State} (h : s.inflight = []) : dmaMoves s = s := by simp [dmaMoves, h, dmaRun]

theorem length_eraseIdx_lt {α : Type} {l : List α} {i : Nat} (h : i < l.length) : (l.eraseIdx i).length + 1 = l.length := by
  rw [List.length_eraseIdx_of_lt h]
  omega

/-- The drain empties `S.inflight` (R186). -/
theorem dmaDrain_inflight (k : Nat) (s : State) (hk : s.inflight.length ≤ k) : (dmaDrain k s).inflight = [] := by
  induction k generalizing s with
  | zero => exact List.length_eq_zero_iff.1 (Nat.le_zero.1 hk)
  | succ k ih =>
    unfold dmaDrain
    split
    · assumption
    · next hne =>
      have hpos : 0 < s.inflight.length := List.length_pos_iff.2 hne
      apply ih
      have hi : (drawBelow s.inflight.length s).1 < (drawBelow s.inflight.length s).2.inflight.length :=
        Nat.mod_lt _ hpos
      have hs : (drawBelow s.inflight.length s).2.inflight = s.inflight := rfl
      unfold land
      split
      · next hn =>
        rw [List.getElem?_eq_none_iff] at hn
        omega
      · simp only
        have := length_eraseIdx_lt hi
        rw [hs] at this ⊢
        omega

end Sys2Proof.Machine
end

