-- ==== Sys2Proof/Laws/State.lean ====
section
/-! SUPPORT. One lemma per field per named update of the state, true by definition: no proof unfolds a record update. -/

namespace Sys2Proof.Machine

variable (s : State)

/-! ### What a draw leaves -/

@[simp] theorem drawNat_devState : ((drawNat s).2).devState = s.devState := rfl
@[simp] theorem drawNat_alloc : ((drawNat s).2).alloc = s.alloc := rfl
@[simp] theorem drawNat_xport : ((drawNat s).2).xport = s.xport := rfl
@[simp] theorem drawNat_cs : ((drawNat s).2).cs = s.cs := rfl
@[simp] theorem drawNat_log : ((drawNat s).2).log = s.log := rfl
@[simp] theorem drawNat_pwm : ((drawNat s).2).pwm = s.pwm := rfl
@[simp] theorem drawNat_ofl : ((drawNat s).2).ofl = s.ofl := rfl
@[simp] theorem drawNat_msg : ((drawNat s).2).msg = s.msg := rfl
@[simp] theorem drawNat_engine : ((drawNat s).2).engine = s.engine := rfl
@[simp] theorem drawNat_inflight : ((drawNat s).2).inflight = s.inflight := rfl
@[simp] theorem drawNat_landBy : ((drawNat s).2).landBy = s.landBy := rfl
@[simp] theorem drawNat_mem : ((drawNat s).2).mem = s.mem := rfl
@[simp] theorem drawNat_stale : ((drawNat s).2).stale = s.stale := rfl
@[simp] theorem drawNat_acq : ((drawNat s).2).acq = s.acq := rfl
@[simp] theorem drawNat_out : ((drawNat s).2).out = s.out := rfl
@[simp] theorem drawNat_fault : ((drawNat s).2).fault = s.fault := rfl
@[simp] theorem drawNat_refused : ((drawNat s).2).refused = s.refused := rfl
@[simp] theorem drawNat_dev : ((drawNat s).2).dev = s.dev := rfl
@[simp] theorem drawNat_pulse : ((drawNat s).2).pulse = s.pulse := rfl
@[simp] theorem drawNat_result : ((drawNat s).2).result = s.result := rfl
@[simp] theorem drawNat_ctl : ((drawNat s).2).ctl = s.ctl := rfl
@[simp] theorem drawNat_pending : ((drawNat s).2).pending = s.pending := rfl
@[simp] theorem drawNat_calls : ((drawNat s).2).calls = s.calls := rfl
@[simp] theorem drawNat_env : ((drawNat s).2).env = s.env.advance := rfl
@[simp] theorem drawNat_launch : ((drawNat s).2).launch = s.launch := rfl

/-! ### What a collaborator primitive leaves -/

@[simp] theorem perform_devState (c : Call) : (perform c s).devState = s.devState := rfl
@[simp] theorem perform_alloc (c : Call) : (perform c s).alloc = s.alloc := rfl
@[simp] theorem perform_xport (c : Call) : (perform c s).xport = s.xport := rfl
@[simp] theorem perform_cs (c : Call) : (perform c s).cs = s.cs := rfl
@[simp] theorem perform_log (c : Call) : (perform c s).log = s.log := rfl
@[simp] theorem perform_pwm (c : Call) : (perform c s).pwm = s.pwm := rfl
@[simp] theorem perform_ofl (c : Call) : (perform c s).ofl = s.ofl := rfl
@[simp] theorem perform_msg (c : Call) : (perform c s).msg = s.msg := rfl
@[simp] theorem perform_engine (c : Call) : (perform c s).engine = s.engine := rfl
@[simp] theorem perform_inflight (c : Call) : (perform c s).inflight = s.inflight := rfl
@[simp] theorem perform_landBy (c : Call) : (perform c s).landBy = s.landBy := rfl
@[simp] theorem perform_mem (c : Call) : (perform c s).mem = s.mem := rfl
@[simp] theorem perform_stale (c : Call) : (perform c s).stale = s.stale := rfl
@[simp] theorem perform_acq (c : Call) : (perform c s).acq = s.acq := rfl
@[simp] theorem perform_out (c : Call) : (perform c s).out = s.out := rfl
@[simp] theorem perform_fault (c : Call) : (perform c s).fault = s.fault := rfl
@[simp] theorem perform_refused (c : Call) : (perform c s).refused = s.refused := rfl
@[simp] theorem perform_dev (c : Call) : (perform c s).dev = s.dev := rfl
@[simp] theorem perform_pulse (c : Call) : (perform c s).pulse = s.pulse := rfl
@[simp] theorem perform_result (c : Call) : (perform c s).result = s.result := rfl
@[simp] theorem perform_ctl (c : Call) : (perform c s).ctl = s.ctl := rfl
@[simp] theorem perform_pending (c : Call) : (perform c s).pending = s.pending := rfl
@[simp] theorem perform_calls (c : Call) : (perform c s).calls = s.calls ++ [c] := rfl
@[simp] theorem perform_env (c : Call) : (perform c s).env = s.env := rfl
@[simp] theorem perform_launch (c : Call) : (perform c s).launch = s.launch := rfl

/-! ### What returning result words leaves -/

@[simp] theorem giveResult_devState (r : Result) : (giveResult r s).devState = s.devState := rfl
@[simp] theorem giveResult_alloc (r : Result) : (giveResult r s).alloc = s.alloc := rfl
@[simp] theorem giveResult_xport (r : Result) : (giveResult r s).xport = s.xport := rfl
@[simp] theorem giveResult_cs (r : Result) : (giveResult r s).cs = s.cs := rfl
@[simp] theorem giveResult_log (r : Result) : (giveResult r s).log = s.log := rfl
@[simp] theorem giveResult_pwm (r : Result) : (giveResult r s).pwm = s.pwm := rfl
@[simp] theorem giveResult_ofl (r : Result) : (giveResult r s).ofl = s.ofl := rfl
@[simp] theorem giveResult_msg (r : Result) : (giveResult r s).msg = s.msg := rfl
@[simp] theorem giveResult_engine (r : Result) : (giveResult r s).engine = s.engine := rfl
@[simp] theorem giveResult_inflight (r : Result) : (giveResult r s).inflight = s.inflight := rfl
@[simp] theorem giveResult_landBy (r : Result) : (giveResult r s).landBy = s.landBy := rfl
@[simp] theorem giveResult_mem (r : Result) : (giveResult r s).mem = s.mem := rfl
@[simp] theorem giveResult_stale (r : Result) : (giveResult r s).stale = s.stale := rfl
@[simp] theorem giveResult_acq (r : Result) : (giveResult r s).acq = s.acq := rfl
@[simp] theorem giveResult_out (r : Result) : (giveResult r s).out = s.out := rfl
@[simp] theorem giveResult_fault (r : Result) : (giveResult r s).fault = s.fault := rfl
@[simp] theorem giveResult_refused (r : Result) : (giveResult r s).refused = s.refused := rfl
@[simp] theorem giveResult_dev (r : Result) : (giveResult r s).dev = s.dev := rfl
@[simp] theorem giveResult_pulse (r : Result) : (giveResult r s).pulse = s.pulse := rfl
@[simp] theorem giveResult_result (r : Result) : (giveResult r s).result = some r := rfl
@[simp] theorem giveResult_ctl (r : Result) : (giveResult r s).ctl = .idle := rfl
@[simp] theorem giveResult_pending (r : Result) : (giveResult r s).pending = s.pending := rfl
@[simp] theorem giveResult_calls (r : Result) : (giveResult r s).calls = s.calls := rfl
@[simp] theorem giveResult_env (r : Result) : (giveResult r s).env = s.env := rfl
@[simp] theorem giveResult_launch (r : Result) : (giveResult r s).launch = s.launch := rfl

/-! ### What recording a fault leaves -/

@[simp] theorem recordFault_devState (r : Fault) : (recordFault r s).devState = s.devState := rfl
@[simp] theorem recordFault_alloc (r : Fault) : (recordFault r s).alloc = s.alloc := rfl
@[simp] theorem recordFault_xport (r : Fault) : (recordFault r s).xport = s.xport := rfl
@[simp] theorem recordFault_cs (r : Fault) : (recordFault r s).cs = s.cs := rfl
@[simp] theorem recordFault_log (r : Fault) : (recordFault r s).log = s.log := rfl
@[simp] theorem recordFault_pwm (r : Fault) : (recordFault r s).pwm = s.pwm := rfl
@[simp] theorem recordFault_ofl (r : Fault) : (recordFault r s).ofl = s.ofl := rfl
@[simp] theorem recordFault_msg (r : Fault) : (recordFault r s).msg = s.msg := rfl
@[simp] theorem recordFault_engine (r : Fault) : (recordFault r s).engine = s.engine := rfl
@[simp] theorem recordFault_inflight (r : Fault) : (recordFault r s).inflight = s.inflight := rfl
@[simp] theorem recordFault_landBy (r : Fault) : (recordFault r s).landBy = s.landBy := rfl
@[simp] theorem recordFault_mem (r : Fault) : (recordFault r s).mem = s.mem := rfl
@[simp] theorem recordFault_stale (r : Fault) : (recordFault r s).stale = s.stale := rfl
@[simp] theorem recordFault_acq (r : Fault) : (recordFault r s).acq = s.acq := rfl
@[simp] theorem recordFault_out (r : Fault) : (recordFault r s).out = s.out := rfl
@[simp] theorem recordFault_fault (r : Fault) : (recordFault r s).fault = some r := rfl
@[simp] theorem recordFault_refused (r : Fault) : (recordFault r s).refused = s.refused := rfl
@[simp] theorem recordFault_dev (r : Fault) : (recordFault r s).dev = s.dev := rfl
@[simp] theorem recordFault_pulse (r : Fault) : (recordFault r s).pulse = s.pulse := rfl
@[simp] theorem recordFault_result (r : Fault) : (recordFault r s).result = none := rfl
@[simp] theorem recordFault_ctl (r : Fault) : (recordFault r s).ctl = s.ctl := rfl
@[simp] theorem recordFault_pending (r : Fault) : (recordFault r s).pending = s.pending := rfl
@[simp] theorem recordFault_calls (r : Fault) : (recordFault r s).calls = s.calls := rfl
@[simp] theorem recordFault_env (r : Fault) : (recordFault r s).env = s.env := rfl
@[simp] theorem recordFault_launch (r : Fault) : (recordFault r s).launch = s.launch := rfl

/-! ### What recording a refusal leaves -/

@[simp] theorem recordRefusal_devState (r : Refusal) : (recordRefusal r s).devState = s.devState := rfl
@[simp] theorem recordRefusal_alloc (r : Refusal) : (recordRefusal r s).alloc = s.alloc := rfl
@[simp] theorem recordRefusal_xport (r : Refusal) : (recordRefusal r s).xport = s.xport := rfl
@[simp] theorem recordRefusal_cs (r : Refusal) : (recordRefusal r s).cs = s.cs := rfl
@[simp] theorem recordRefusal_log (r : Refusal) : (recordRefusal r s).log = s.log := rfl
@[simp] theorem recordRefusal_pwm (r : Refusal) : (recordRefusal r s).pwm = s.pwm := rfl
@[simp] theorem recordRefusal_ofl (r : Refusal) : (recordRefusal r s).ofl = s.ofl := rfl
@[simp] theorem recordRefusal_msg (r : Refusal) : (recordRefusal r s).msg = s.msg := rfl
@[simp] theorem recordRefusal_engine (r : Refusal) : (recordRefusal r s).engine = s.engine := rfl
@[simp] theorem recordRefusal_inflight (r : Refusal) : (recordRefusal r s).inflight = s.inflight := rfl
@[simp] theorem recordRefusal_landBy (r : Refusal) : (recordRefusal r s).landBy = s.landBy := rfl
@[simp] theorem recordRefusal_mem (r : Refusal) : (recordRefusal r s).mem = s.mem := rfl
@[simp] theorem recordRefusal_stale (r : Refusal) : (recordRefusal r s).stale = s.stale := rfl
@[simp] theorem recordRefusal_acq (r : Refusal) : (recordRefusal r s).acq = s.acq := rfl
@[simp] theorem recordRefusal_out (r : Refusal) : (recordRefusal r s).out = s.out := rfl
@[simp] theorem recordRefusal_fault (r : Refusal) : (recordRefusal r s).fault = s.fault := rfl
@[simp] theorem recordRefusal_refused (r : Refusal) : (recordRefusal r s).refused = some r := rfl
@[simp] theorem recordRefusal_dev (r : Refusal) : (recordRefusal r s).dev = s.dev := rfl
@[simp] theorem recordRefusal_pulse (r : Refusal) : (recordRefusal r s).pulse = s.pulse := rfl
@[simp] theorem recordRefusal_result (r : Refusal) : (recordRefusal r s).result = none := rfl
@[simp] theorem recordRefusal_ctl (r : Refusal) : (recordRefusal r s).ctl = s.ctl := rfl
@[simp] theorem recordRefusal_pending (r : Refusal) : (recordRefusal r s).pending = s.pending := rfl
@[simp] theorem recordRefusal_calls (r : Refusal) : (recordRefusal r s).calls = s.calls := rfl
@[simp] theorem recordRefusal_env (r : Refusal) : (recordRefusal r s).env = s.env := rfl
@[simp] theorem recordRefusal_launch (r : Refusal) : (recordRefusal r s).launch = s.launch := rfl

/-! ### What a hang leaves -/

@[simp] theorem hang_devState : (hang s).devState = s.devState := rfl
@[simp] theorem hang_alloc : (hang s).alloc = s.alloc := rfl
@[simp] theorem hang_xport : (hang s).xport = s.xport := rfl
@[simp] theorem hang_cs : (hang s).cs = s.cs := rfl
@[simp] theorem hang_log : (hang s).log = s.log := rfl
@[simp] theorem hang_pwm : (hang s).pwm = s.pwm := rfl
@[simp] theorem hang_ofl : (hang s).ofl = s.ofl := rfl
@[simp] theorem hang_msg : (hang s).msg = s.msg := rfl
@[simp] theorem hang_engine : (hang s).engine = s.engine := rfl
@[simp] theorem hang_inflight : (hang s).inflight = s.inflight := rfl
@[simp] theorem hang_landBy : (hang s).landBy = s.landBy := rfl
@[simp] theorem hang_mem : (hang s).mem = s.mem := rfl
@[simp] theorem hang_stale : (hang s).stale = s.stale := rfl
@[simp] theorem hang_acq : (hang s).acq = s.acq := rfl
@[simp] theorem hang_out : (hang s).out = s.out := rfl
@[simp] theorem hang_fault : (hang s).fault = s.fault := rfl
@[simp] theorem hang_refused : (hang s).refused = s.refused := rfl
@[simp] theorem hang_dev : (hang s).dev = s.dev := rfl
@[simp] theorem hang_pulse : (hang s).pulse = s.pulse := rfl
@[simp] theorem hang_result : (hang s).result = none := rfl
@[simp] theorem hang_ctl : (hang s).ctl = .stuck := rfl
@[simp] theorem hang_pending : (hang s).pending = s.pending := rfl
@[simp] theorem hang_calls : (hang s).calls = s.calls := rfl
@[simp] theorem hang_env : (hang s).env = s.env := rfl
@[simp] theorem hang_launch : (hang s).launch = s.launch := rfl

/-! ### What the framing leaves -/

@[simp] theorem setFraming_devState (f : Framing) : (setFraming f s).devState = s.devState := rfl
@[simp] theorem setFraming_alloc (f : Framing) : (setFraming f s).alloc = s.alloc := rfl
@[simp] theorem setFraming_xport (f : Framing) : (setFraming f s).xport = s.xport := rfl
@[simp] theorem setFraming_cs (f : Framing) : (setFraming f s).cs = s.cs := rfl
@[simp] theorem setFraming_log (f : Framing) : (setFraming f s).log = s.log := rfl
@[simp] theorem setFraming_pwm (f : Framing) : (setFraming f s).pwm = s.pwm := rfl
@[simp] theorem setFraming_ofl (f : Framing) : (setFraming f s).ofl = s.ofl := rfl
@[simp] theorem setFraming_msg (f : Framing) : (setFraming f s).msg = s.msg := rfl
@[simp] theorem setFraming_engine (f : Framing) : (setFraming f s).engine = s.engine := rfl
@[simp] theorem setFraming_inflight (f : Framing) : (setFraming f s).inflight = s.inflight := rfl
@[simp] theorem setFraming_landBy (f : Framing) : (setFraming f s).landBy = s.landBy := rfl
@[simp] theorem setFraming_mem (f : Framing) : (setFraming f s).mem = s.mem := rfl
@[simp] theorem setFraming_stale (f : Framing) : (setFraming f s).stale = s.stale := rfl
@[simp] theorem setFraming_acq (f : Framing) : (setFraming f s).acq = s.acq := rfl
@[simp] theorem setFraming_out (f : Framing) : (setFraming f s).out = s.out := rfl
@[simp] theorem setFraming_fault (f : Framing) : (setFraming f s).fault = s.fault := rfl
@[simp] theorem setFraming_refused (f : Framing) : (setFraming f s).refused = s.refused := rfl
@[simp] theorem setFraming_dev (f : Framing) : (setFraming f s).dev = { s.dev with framing := f } := rfl
@[simp] theorem setFraming_pulse (f : Framing) : (setFraming f s).pulse = s.pulse := rfl
@[simp] theorem setFraming_result (f : Framing) : (setFraming f s).result = s.result := rfl
@[simp] theorem setFraming_ctl (f : Framing) : (setFraming f s).ctl = s.ctl := rfl
@[simp] theorem setFraming_pending (f : Framing) : (setFraming f s).pending = s.pending := rfl
@[simp] theorem setFraming_calls (f : Framing) : (setFraming f s).calls = s.calls := rfl
@[simp] theorem setFraming_env (f : Framing) : (setFraming f s).env = s.env := rfl
@[simp] theorem setFraming_launch (f : Framing) : (setFraming f s).launch = s.launch := rfl

/-! ### What a device register leaves -/

@[simp] theorem setDevReg_devState (a : Half) (v : Byte) : (setDevReg a v s).devState = s.devState := rfl
@[simp] theorem setDevReg_alloc (a : Half) (v : Byte) : (setDevReg a v s).alloc = s.alloc := rfl
@[simp] theorem setDevReg_xport (a : Half) (v : Byte) : (setDevReg a v s).xport = s.xport := rfl
@[simp] theorem setDevReg_cs (a : Half) (v : Byte) : (setDevReg a v s).cs = s.cs := rfl
@[simp] theorem setDevReg_log (a : Half) (v : Byte) : (setDevReg a v s).log = s.log := rfl
@[simp] theorem setDevReg_pwm (a : Half) (v : Byte) : (setDevReg a v s).pwm = s.pwm := rfl
@[simp] theorem setDevReg_ofl (a : Half) (v : Byte) : (setDevReg a v s).ofl = s.ofl := rfl
@[simp] theorem setDevReg_msg (a : Half) (v : Byte) : (setDevReg a v s).msg = s.msg := rfl
@[simp] theorem setDevReg_engine (a : Half) (v : Byte) : (setDevReg a v s).engine = s.engine := rfl
@[simp] theorem setDevReg_inflight (a : Half) (v : Byte) : (setDevReg a v s).inflight = s.inflight := rfl
@[simp] theorem setDevReg_landBy (a : Half) (v : Byte) : (setDevReg a v s).landBy = s.landBy := rfl
@[simp] theorem setDevReg_mem (a : Half) (v : Byte) : (setDevReg a v s).mem = s.mem := rfl
@[simp] theorem setDevReg_stale (a : Half) (v : Byte) : (setDevReg a v s).stale = s.stale := rfl
@[simp] theorem setDevReg_acq (a : Half) (v : Byte) : (setDevReg a v s).acq = s.acq := rfl
@[simp] theorem setDevReg_out (a : Half) (v : Byte) : (setDevReg a v s).out = s.out := rfl
@[simp] theorem setDevReg_fault (a : Half) (v : Byte) : (setDevReg a v s).fault = s.fault := rfl
@[simp] theorem setDevReg_refused (a : Half) (v : Byte) : (setDevReg a v s).refused = s.refused := rfl
@[simp] theorem setDevReg_dev (a : Half) (v : Byte) : (setDevReg a v s).dev = { s.dev with reg := s.dev.reg.write a.toNat v } := rfl
@[simp] theorem setDevReg_pulse (a : Half) (v : Byte) : (setDevReg a v s).pulse = s.pulse := rfl
@[simp] theorem setDevReg_result (a : Half) (v : Byte) : (setDevReg a v s).result = s.result := rfl
@[simp] theorem setDevReg_ctl (a : Half) (v : Byte) : (setDevReg a v s).ctl = s.ctl := rfl
@[simp] theorem setDevReg_pending (a : Half) (v : Byte) : (setDevReg a v s).pending = s.pending := rfl
@[simp] theorem setDevReg_calls (a : Half) (v : Byte) : (setDevReg a v s).calls = s.calls := rfl
@[simp] theorem setDevReg_env (a : Half) (v : Byte) : (setDevReg a v s).env = s.env := rfl
@[simp] theorem setDevReg_launch (a : Half) (v : Byte) : (setDevReg a v s).launch = s.launch := rfl

/-! ### What forgetting a device register leaves -/

@[simp] theorem clearDevReg_devState (a : Half) : (clearDevReg a s).devState = s.devState := rfl
@[simp] theorem clearDevReg_alloc (a : Half) : (clearDevReg a s).alloc = s.alloc := rfl
@[simp] theorem clearDevReg_xport (a : Half) : (clearDevReg a s).xport = s.xport := rfl
@[simp] theorem clearDevReg_cs (a : Half) : (clearDevReg a s).cs = s.cs := rfl
@[simp] theorem clearDevReg_log (a : Half) : (clearDevReg a s).log = s.log := rfl
@[simp] theorem clearDevReg_pwm (a : Half) : (clearDevReg a s).pwm = s.pwm := rfl
@[simp] theorem clearDevReg_ofl (a : Half) : (clearDevReg a s).ofl = s.ofl := rfl
@[simp] theorem clearDevReg_msg (a : Half) : (clearDevReg a s).msg = s.msg := rfl
@[simp] theorem clearDevReg_engine (a : Half) : (clearDevReg a s).engine = s.engine := rfl
@[simp] theorem clearDevReg_inflight (a : Half) : (clearDevReg a s).inflight = s.inflight := rfl
@[simp] theorem clearDevReg_landBy (a : Half) : (clearDevReg a s).landBy = s.landBy := rfl
@[simp] theorem clearDevReg_mem (a : Half) : (clearDevReg a s).mem = s.mem := rfl
@[simp] theorem clearDevReg_stale (a : Half) : (clearDevReg a s).stale = s.stale := rfl
@[simp] theorem clearDevReg_acq (a : Half) : (clearDevReg a s).acq = s.acq := rfl
@[simp] theorem clearDevReg_out (a : Half) : (clearDevReg a s).out = s.out := rfl
@[simp] theorem clearDevReg_fault (a : Half) : (clearDevReg a s).fault = s.fault := rfl
@[simp] theorem clearDevReg_refused (a : Half) : (clearDevReg a s).refused = s.refused := rfl
@[simp] theorem clearDevReg_dev (a : Half) : (clearDevReg a s).dev = { s.dev with reg := s.dev.reg.erase a.toNat } := rfl
@[simp] theorem clearDevReg_pulse (a : Half) : (clearDevReg a s).pulse = s.pulse := rfl
@[simp] theorem clearDevReg_result (a : Half) : (clearDevReg a s).result = s.result := rfl
@[simp] theorem clearDevReg_ctl (a : Half) : (clearDevReg a s).ctl = s.ctl := rfl
@[simp] theorem clearDevReg_pending (a : Half) : (clearDevReg a s).pending = s.pending := rfl
@[simp] theorem clearDevReg_calls (a : Half) : (clearDevReg a s).calls = s.calls := rfl
@[simp] theorem clearDevReg_env (a : Half) : (clearDevReg a s).env = s.env := rfl
@[simp] theorem clearDevReg_launch (a : Half) : (clearDevReg a s).launch = s.launch := rfl

/-! ### What the pulse source leaves -/

@[simp] theorem setRun_devState (r : Option PulseRun) : (setRun r s).devState = s.devState := rfl
@[simp] theorem setRun_alloc (r : Option PulseRun) : (setRun r s).alloc = s.alloc := rfl
@[simp] theorem setRun_xport (r : Option PulseRun) : (setRun r s).xport = s.xport := rfl
@[simp] theorem setRun_cs (r : Option PulseRun) : (setRun r s).cs = s.cs := rfl
@[simp] theorem setRun_log (r : Option PulseRun) : (setRun r s).log = s.log := rfl
@[simp] theorem setRun_pwm (r : Option PulseRun) : (setRun r s).pwm = s.pwm := rfl
@[simp] theorem setRun_ofl (r : Option PulseRun) : (setRun r s).ofl = s.ofl := rfl
@[simp] theorem setRun_msg (r : Option PulseRun) : (setRun r s).msg = s.msg := rfl
@[simp] theorem setRun_engine (r : Option PulseRun) : (setRun r s).engine = s.engine := rfl
@[simp] theorem setRun_inflight (r : Option PulseRun) : (setRun r s).inflight = s.inflight := rfl
@[simp] theorem setRun_landBy (r : Option PulseRun) : (setRun r s).landBy = s.landBy := rfl
@[simp] theorem setRun_mem (r : Option PulseRun) : (setRun r s).mem = s.mem := rfl
@[simp] theorem setRun_stale (r : Option PulseRun) : (setRun r s).stale = s.stale := rfl
@[simp] theorem setRun_acq (r : Option PulseRun) : (setRun r s).acq = s.acq := rfl
@[simp] theorem setRun_out (r : Option PulseRun) : (setRun r s).out = s.out := rfl
@[simp] theorem setRun_fault (r : Option PulseRun) : (setRun r s).fault = s.fault := rfl
@[simp] theorem setRun_refused (r : Option PulseRun) : (setRun r s).refused = s.refused := rfl
@[simp] theorem setRun_dev (r : Option PulseRun) : (setRun r s).dev = s.dev := rfl
@[simp] theorem setRun_pulse (r : Option PulseRun) : (setRun r s).pulse = { s.pulse with run := r } := rfl
@[simp] theorem setRun_result (r : Option PulseRun) : (setRun r s).result = s.result := rfl
@[simp] theorem setRun_ctl (r : Option PulseRun) : (setRun r s).ctl = s.ctl := rfl
@[simp] theorem setRun_pending (r : Option PulseRun) : (setRun r s).pending = s.pending := rfl
@[simp] theorem setRun_calls (r : Option PulseRun) : (setRun r s).calls = s.calls := rfl
@[simp] theorem setRun_env (r : Option PulseRun) : (setRun r s).env = s.env := rfl
@[simp] theorem setRun_launch (r : Option PulseRun) : (setRun r s).launch = s.launch := rfl

/-! ### What the descriptor's state leaves -/

@[simp] theorem setPwmState_devState (p : PwmState) : (setPwmState p s).devState = s.devState := rfl
@[simp] theorem setPwmState_alloc (p : PwmState) : (setPwmState p s).alloc = s.alloc := rfl
@[simp] theorem setPwmState_xport (p : PwmState) : (setPwmState p s).xport = s.xport := rfl
@[simp] theorem setPwmState_cs (p : PwmState) : (setPwmState p s).cs = s.cs := rfl
@[simp] theorem setPwmState_log (p : PwmState) : (setPwmState p s).log = s.log := rfl
@[simp] theorem setPwmState_pwm (p : PwmState) : (setPwmState p s).pwm = { s.pwm with state := p } := rfl
@[simp] theorem setPwmState_ofl (p : PwmState) : (setPwmState p s).ofl = s.ofl := rfl
@[simp] theorem setPwmState_msg (p : PwmState) : (setPwmState p s).msg = s.msg := rfl
@[simp] theorem setPwmState_engine (p : PwmState) : (setPwmState p s).engine = s.engine := rfl
@[simp] theorem setPwmState_inflight (p : PwmState) : (setPwmState p s).inflight = s.inflight := rfl
@[simp] theorem setPwmState_landBy (p : PwmState) : (setPwmState p s).landBy = s.landBy := rfl
@[simp] theorem setPwmState_mem (p : PwmState) : (setPwmState p s).mem = s.mem := rfl
@[simp] theorem setPwmState_stale (p : PwmState) : (setPwmState p s).stale = s.stale := rfl
@[simp] theorem setPwmState_acq (p : PwmState) : (setPwmState p s).acq = s.acq := rfl
@[simp] theorem setPwmState_out (p : PwmState) : (setPwmState p s).out = s.out := rfl
@[simp] theorem setPwmState_fault (p : PwmState) : (setPwmState p s).fault = s.fault := rfl
@[simp] theorem setPwmState_refused (p : PwmState) : (setPwmState p s).refused = s.refused := rfl
@[simp] theorem setPwmState_dev (p : PwmState) : (setPwmState p s).dev = s.dev := rfl
@[simp] theorem setPwmState_pulse (p : PwmState) : (setPwmState p s).pulse = s.pulse := rfl
@[simp] theorem setPwmState_result (p : PwmState) : (setPwmState p s).result = s.result := rfl
@[simp] theorem setPwmState_ctl (p : PwmState) : (setPwmState p s).ctl = s.ctl := rfl
@[simp] theorem setPwmState_pending (p : PwmState) : (setPwmState p s).pending = s.pending := rfl
@[simp] theorem setPwmState_calls (p : PwmState) : (setPwmState p s).calls = s.calls := rfl
@[simp] theorem setPwmState_env (p : PwmState) : (setPwmState p s).env = s.env := rfl
@[simp] theorem setPwmState_launch (p : PwmState) : (setPwmState p s).launch = s.launch := rfl

/-! ### What the release of the descriptor leaves -/

@[simp] theorem pwmRelease_devState : (pwmRelease s).devState = s.devState := rfl
@[simp] theorem pwmRelease_alloc : (pwmRelease s).alloc = { s.alloc with pwm := false } := rfl
@[simp] theorem pwmRelease_xport : (pwmRelease s).xport = s.xport := rfl
@[simp] theorem pwmRelease_cs : (pwmRelease s).cs = s.cs := rfl
@[simp] theorem pwmRelease_log : (pwmRelease s).log = s.log := rfl
@[simp] theorem pwmRelease_pwm : (pwmRelease s).pwm = PwmDesc.reset := rfl
@[simp] theorem pwmRelease_ofl : (pwmRelease s).ofl = s.ofl := rfl
@[simp] theorem pwmRelease_msg : (pwmRelease s).msg = s.msg := rfl
@[simp] theorem pwmRelease_engine : (pwmRelease s).engine = s.engine := rfl
@[simp] theorem pwmRelease_inflight : (pwmRelease s).inflight = s.inflight := rfl
@[simp] theorem pwmRelease_landBy : (pwmRelease s).landBy = s.landBy := rfl
@[simp] theorem pwmRelease_mem : (pwmRelease s).mem = s.mem := rfl
@[simp] theorem pwmRelease_stale : (pwmRelease s).stale = s.stale := rfl
@[simp] theorem pwmRelease_acq : (pwmRelease s).acq = s.acq := rfl
@[simp] theorem pwmRelease_out : (pwmRelease s).out = s.out := rfl
@[simp] theorem pwmRelease_fault : (pwmRelease s).fault = s.fault := rfl
@[simp] theorem pwmRelease_refused : (pwmRelease s).refused = s.refused := rfl
@[simp] theorem pwmRelease_dev : (pwmRelease s).dev = s.dev := rfl
@[simp] theorem pwmRelease_pulse : (pwmRelease s).pulse = s.pulse := rfl
@[simp] theorem pwmRelease_result : (pwmRelease s).result = s.result := rfl
@[simp] theorem pwmRelease_ctl : (pwmRelease s).ctl = s.ctl := rfl
@[simp] theorem pwmRelease_pending : (pwmRelease s).pending = s.pending := rfl
@[simp] theorem pwmRelease_calls : (pwmRelease s).calls = s.calls := rfl
@[simp] theorem pwmRelease_env : (pwmRelease s).env = s.env := rfl
@[simp] theorem pwmRelease_launch : (pwmRelease s).launch = s.launch := rfl

/-! ### What unsetting the offload leaves -/

@[simp] theorem oflUnset_devState : (oflUnset s).devState = s.devState := rfl
@[simp] theorem oflUnset_alloc : (oflUnset s).alloc = s.alloc := rfl
@[simp] theorem oflUnset_xport : (oflUnset s).xport = s.xport := rfl
@[simp] theorem oflUnset_cs : (oflUnset s).cs = s.cs := rfl
@[simp] theorem oflUnset_log : (oflUnset s).log = s.log := rfl
@[simp] theorem oflUnset_pwm : (oflUnset s).pwm = s.pwm := rfl
@[simp] theorem oflUnset_ofl : (oflUnset s).ofl = { s.ofl with initialized := false } := rfl
@[simp] theorem oflUnset_msg : (oflUnset s).msg = s.msg := rfl
@[simp] theorem oflUnset_engine : (oflUnset s).engine = s.engine := rfl
@[simp] theorem oflUnset_inflight : (oflUnset s).inflight = s.inflight := rfl
@[simp] theorem oflUnset_landBy : (oflUnset s).landBy = s.landBy := rfl
@[simp] theorem oflUnset_mem : (oflUnset s).mem = s.mem := rfl
@[simp] theorem oflUnset_stale : (oflUnset s).stale = s.stale := rfl
@[simp] theorem oflUnset_acq : (oflUnset s).acq = s.acq := rfl
@[simp] theorem oflUnset_out : (oflUnset s).out = s.out := rfl
@[simp] theorem oflUnset_fault : (oflUnset s).fault = s.fault := rfl
@[simp] theorem oflUnset_refused : (oflUnset s).refused = s.refused := rfl
@[simp] theorem oflUnset_dev : (oflUnset s).dev = s.dev := rfl
@[simp] theorem oflUnset_pulse : (oflUnset s).pulse = s.pulse := rfl
@[simp] theorem oflUnset_result : (oflUnset s).result = s.result := rfl
@[simp] theorem oflUnset_ctl : (oflUnset s).ctl = s.ctl := rfl
@[simp] theorem oflUnset_pending : (oflUnset s).pending = s.pending := rfl
@[simp] theorem oflUnset_calls : (oflUnset s).calls = s.calls := rfl
@[simp] theorem oflUnset_env : (oflUnset s).env = s.env := rfl
@[simp] theorem oflUnset_launch : (oflUnset s).launch = s.launch := rfl

/-! ### What the parameter word leaves -/

@[simp] theorem setParam_devState (w : Word) (g : Option Nat) : (setParam w g s).devState = s.devState := rfl
@[simp] theorem setParam_alloc (w : Word) (g : Option Nat) : (setParam w g s).alloc = s.alloc := rfl
@[simp] theorem setParam_xport (w : Word) (g : Option Nat) : (setParam w g s).xport = s.xport := rfl
@[simp] theorem setParam_cs (w : Word) (g : Option Nat) : (setParam w g s).cs = s.cs := rfl
@[simp] theorem setParam_log (w : Word) (g : Option Nat) : (setParam w g s).log = s.log := rfl
@[simp] theorem setParam_pwm (w : Word) (g : Option Nat) : (setParam w g s).pwm = s.pwm := rfl
@[simp] theorem setParam_ofl (w : Word) (g : Option Nat) : (setParam w g s).ofl = s.ofl := rfl
@[simp] theorem setParam_msg (w : Word) (g : Option Nat) : (setParam w g s).msg =
    { s.msg with param := w, paramValid := true, channelTag := g } := rfl
@[simp] theorem setParam_engine (w : Word) (g : Option Nat) : (setParam w g s).engine = s.engine := rfl
@[simp] theorem setParam_inflight (w : Word) (g : Option Nat) : (setParam w g s).inflight = s.inflight := rfl
@[simp] theorem setParam_landBy (w : Word) (g : Option Nat) : (setParam w g s).landBy = s.landBy := rfl
@[simp] theorem setParam_mem (w : Word) (g : Option Nat) : (setParam w g s).mem = s.mem := rfl
@[simp] theorem setParam_stale (w : Word) (g : Option Nat) : (setParam w g s).stale = s.stale := rfl
@[simp] theorem setParam_acq (w : Word) (g : Option Nat) : (setParam w g s).acq = s.acq := rfl
@[simp] theorem setParam_out (w : Word) (g : Option Nat) : (setParam w g s).out = s.out := rfl
@[simp] theorem setParam_fault (w : Word) (g : Option Nat) : (setParam w g s).fault = s.fault := rfl
@[simp] theorem setParam_refused (w : Word) (g : Option Nat) : (setParam w g s).refused = s.refused := rfl
@[simp] theorem setParam_dev (w : Word) (g : Option Nat) : (setParam w g s).dev = s.dev := rfl
@[simp] theorem setParam_pulse (w : Word) (g : Option Nat) : (setParam w g s).pulse = s.pulse := rfl
@[simp] theorem setParam_result (w : Word) (g : Option Nat) : (setParam w g s).result = s.result := rfl
@[simp] theorem setParam_ctl (w : Word) (g : Option Nat) : (setParam w g s).ctl = s.ctl := rfl
@[simp] theorem setParam_pending (w : Word) (g : Option Nat) : (setParam w g s).pending = s.pending := rfl
@[simp] theorem setParam_calls (w : Word) (g : Option Nat) : (setParam w g s).calls = s.calls := rfl
@[simp] theorem setParam_env (w : Word) (g : Option Nat) : (setParam w g s).env = s.env := rfl
@[simp] theorem setParam_launch (w : Word) (g : Option Nat) : (setParam w g s).launch = s.launch := rfl

/-! ### What a cache invalidate leaves -/

@[simp] theorem cacheInvalidate_devState (a n : Nat) : (cacheInvalidate a n s).devState = s.devState := rfl
@[simp] theorem cacheInvalidate_alloc (a n : Nat) : (cacheInvalidate a n s).alloc = s.alloc := rfl
@[simp] theorem cacheInvalidate_xport (a n : Nat) : (cacheInvalidate a n s).xport = s.xport := rfl
@[simp] theorem cacheInvalidate_cs (a n : Nat) : (cacheInvalidate a n s).cs = s.cs := rfl
@[simp] theorem cacheInvalidate_log (a n : Nat) : (cacheInvalidate a n s).log = s.log := rfl
@[simp] theorem cacheInvalidate_pwm (a n : Nat) : (cacheInvalidate a n s).pwm = s.pwm := rfl
@[simp] theorem cacheInvalidate_ofl (a n : Nat) : (cacheInvalidate a n s).ofl = s.ofl := rfl
@[simp] theorem cacheInvalidate_msg (a n : Nat) : (cacheInvalidate a n s).msg = s.msg := rfl
@[simp] theorem cacheInvalidate_engine (a n : Nat) : (cacheInvalidate a n s).engine = s.engine := rfl
@[simp] theorem cacheInvalidate_inflight (a n : Nat) : (cacheInvalidate a n s).inflight = s.inflight := rfl
@[simp] theorem cacheInvalidate_landBy (a n : Nat) : (cacheInvalidate a n s).landBy = s.landBy := rfl
@[simp] theorem cacheInvalidate_mem (a n : Nat) : (cacheInvalidate a n s).mem = s.mem := rfl
@[simp] theorem cacheInvalidate_stale (a n : Nat) : (cacheInvalidate a n s).stale = markFresh s.stale a n := rfl
@[simp] theorem cacheInvalidate_acq (a n : Nat) : (cacheInvalidate a n s).acq = s.acq := rfl
@[simp] theorem cacheInvalidate_out (a n : Nat) : (cacheInvalidate a n s).out = s.out := rfl
@[simp] theorem cacheInvalidate_fault (a n : Nat) : (cacheInvalidate a n s).fault = s.fault := rfl
@[simp] theorem cacheInvalidate_refused (a n : Nat) : (cacheInvalidate a n s).refused = s.refused := rfl
@[simp] theorem cacheInvalidate_dev (a n : Nat) : (cacheInvalidate a n s).dev = s.dev := rfl
@[simp] theorem cacheInvalidate_pulse (a n : Nat) : (cacheInvalidate a n s).pulse = s.pulse := rfl
@[simp] theorem cacheInvalidate_result (a n : Nat) : (cacheInvalidate a n s).result = s.result := rfl
@[simp] theorem cacheInvalidate_ctl (a n : Nat) : (cacheInvalidate a n s).ctl = s.ctl := rfl
@[simp] theorem cacheInvalidate_pending (a n : Nat) : (cacheInvalidate a n s).pending = s.pending := rfl
@[simp] theorem cacheInvalidate_calls (a n : Nat) : (cacheInvalidate a n s).calls = s.calls ++ [.cacheInvalidate a n] := rfl
@[simp] theorem cacheInvalidate_env (a n : Nat) : (cacheInvalidate a n s).env = s.env := rfl
@[simp] theorem cacheInvalidate_launch (a n : Nat) : (cacheInvalidate a n s).launch = s.launch := rfl

end Sys2Proof.Machine
end

