-- ==== Sys2Proof/Laws/Ops.lean ====
section
/-! SUPPORT. What each shared operation can do, said once: sequencing, draws and primitives, the exchange of a frame, a pulse
generator access. -/

namespace Sys2Proof.Machine

/-! ### Sequencing -/

section
variable {α β : Type} (s : State) (f : α → State → Res β × State) (g : ErrCode → Cause → State → Res α × State)

@[simp] theorem andThen_ok (v : α) : andThen (.ok v, s) f = f v s := rfl
@[simp] theorem andThen_err (e : ErrCode) (c : Cause) : andThen (.err e c, s) f = (.err e c, s) := rfl
@[simp] theorem andThen_fault (r : Fault) : andThen (.fault r, s) f = (.fault r, s) := rfl
@[simp] theorem andThen_refuse (r : Refusal) : andThen (.refuse r, s) f = (.refuse r, s) := rfl
@[simp] theorem andThen_stuck : andThen (.stuck, s) f = (.stuck, s) := rfl

@[simp] theorem onErr_ok (v : α) : onErr (.ok v, s) g = (.ok v, s) := rfl
@[simp] theorem onErr_err (e : ErrCode) (c : Cause) : onErr (.err e c, s) g = g e c s := rfl
@[simp] theorem onErr_fault (r : Fault) : onErr (.fault r, s) g = (.fault r, s) := rfl
@[simp] theorem onErr_refuse (r : Refusal) : onErr (.refuse r, s) g = (.refuse r, s) := rfl
@[simp] theorem onErr_stuck : onErr (.stuck, s) g = (.stuck, s) := rfl

@[simp] theorem finish_ok (v : DWord) : finish (.ok v, s) = .next (giveResult (okResult v) s) := rfl
@[simp] theorem finish_err (e : ErrCode) (c : Cause) : finish (.err e c, s) = .next (giveResult (errResult e c) s) := rfl
@[simp] theorem finish_fault (r : Fault) : finish (.fault r, s) = .next (recordFault r s) := rfl
@[simp] theorem finish_refuse (r : Refusal) : finish (.refuse r, s) = .next (recordRefusal r s) := rfl
@[simp] theorem finish_stuck : finish (.stuck, s) = .next (hang s) := rfl

end

section
variable {α β : Type} {P : State → Prop}

/-- A sequence keeps what its parts keep. -/
theorem andThen_keeps {x : Res α × State} {f : α → State → Res β × State} (hx : P x.2)
    (hf : ∀ v s, P s → P (f v s).2) : P (andThen x f).2 := by
  obtain ⟨r, s⟩ := x
  cases r <;> first | exact hf _ _ hx | exact hx

/-- A cleanup path keeps what its parts keep. -/
theorem onErr_keeps {x : Res α × State} {f : ErrCode → Cause → State → Res α × State} (hx : P x.2)
    (hf : ∀ e c s, P s → P (f e c s).2) : P (onErr x f).2 := by
  obtain ⟨r, s⟩ := x
  cases r <;> first | exact hf _ _ _ hx | exact hx

/-- A sequence that is `Ok` ran both parts to `Ok`. -/
theorem andThen_eq_ok {x : Res α × State} {f : α → State → Res β × State} {w : β} {t : State}
    (h : andThen x f = (.ok w, t)) : ∃ v s, x = (.ok v, s) ∧ f v s = (.ok w, t) := by
  obtain ⟨r, s⟩ := x
  cases r with
  | ok v => exact ⟨v, s, rfl, h⟩
  | _ => simp at h

/-- A sequence that is `Err` failed in its first part, or ran it and failed in the second. -/
theorem andThen_eq_err {x : Res α × State} {f : α → State → Res β × State} {e : ErrCode} {c : Cause} {t : State}
    (h : andThen x f = (.err e c, t)) : x = (.err e c, t) ∨ ∃ v s, x = (.ok v, s) ∧ f v s = (.err e c, t) := by
  obtain ⟨r, s⟩ := x
  cases r with
  | ok v => exact .inr ⟨v, s, rfl, h⟩
  | err e' c' =>
    simp only [andThen_err, Prod.mk.injEq, Res.err.injEq] at h
    obtain ⟨⟨rfl, rfl⟩, rfl⟩ := h
    exact .inl rfl
  | _ => simp at h

end

/-- An operation always answers a next state (R18, R230). -/
theorem finish_next (x : Res DWord × State) : ∃ t, finish x = .next t := by
  obtain ⟨r, s⟩ := x
  cases r <;> exact ⟨_, rfl⟩

/-- Everything the end of an operation does: it touches the marks, the result and CTL's position, no other field. -/
theorem finish_frame {x : Res DWord × State} {t : State} (h : finish x = .next t) :
    t = { x.2 with fault := t.fault, refused := t.refused, result := t.result, ctl := t.ctl } := by
  obtain ⟨r, s⟩ := x
  cases r <;> cases h <;> rfl

/-- A returned result is `Ok` or `Err` (R89). -/
theorem finish_result {x : Res DWord × State} {t : State} {r : Result} (h : finish x = .next t) (hr : t.result = some r) :
    (∃ v s, x = (.ok v, s) ∧ r = okResult v ∧ t = giveResult r s)
      ∨ ∃ e c s, x = (.err e c, s) ∧ r = errResult e c ∧ t = giveResult r s := by
  obtain ⟨y, s⟩ := x
  cases y with
  | ok v =>
    cases h
    cases hr
    exact .inl ⟨v, s, rfl, rfl, rfl⟩
  | err e c =>
    cases h
    cases hr
    exact .inr ⟨e, c, s, rfl, rfl, rfl⟩
  | fault r => cases h; cases hr
  | refuse r => cases h; cases hr
  | stuck => cases h; cases hr

/-- An error status is not 0 (R231). -/
theorem errResult_st (e : ErrCode) (c : Cause) : (errResult e c).st ≠ 0#64 := by
  cases e <;> cases c <;> decide

@[simp] theorem okResult_st (v : DWord) : (okResult v).st = 0#64 := rfl
@[simp] theorem okResult_val (v : DWord) : (okResult v).val = v := rfl
@[simp] theorem errResult_val (e : ErrCode) (c : Cause) : (errResult e c).val = 0#64 := rfl

/-! ### Draws and primitives (R17) -/

@[simp] theorem drawNat_fst (s : State) : (drawNat s).1 = s.env.head := rfl

@[simp] theorem advance_faultFree (e : Env) : e.advance.faultFree = e.faultFree := rfl

/-- Under TransportFaultFree a primitive succeeds, without a draw. -/
theorem attempt_of_faultFree {s : State} (c : Call) (h : s.env.faultFree = true) : attempt c s = (true, perform c s) := by
  simp [attempt, drawOk, h]

/-- Otherwise its result is a draw. -/
theorem attempt_of_draw {s : State} (c : Call) (h : s.env.faultFree = false) :
    attempt c s = (s.env.head % 2 == 0, (drawNat (perform c s)).2) := by
  simp [attempt, drawOk, h, drawBool]

/-- Everything a primitive with a result can do: it is recorded, and a draw may be taken. -/
theorem attempt_state (c : Call) (s : State) :
    (attempt c s).2 = perform c s ∨ (attempt c s).2 = (drawNat (perform c s)).2 := by
  cases h : s.env.faultFree
  · exact .inr (by rw [attempt_of_draw c h])
  · exact .inl (by rw [attempt_of_faultFree c h])

/-- A predicate that recording a call and a draw keep is kept by a primitive. -/
theorem attempt_keeps {P : State → Prop} (hp : ∀ c s, P s → P (perform c s)) (hd : ∀ s, P s → P (drawNat s).2)
    (c : Call) {s : State} (h : P s) : P (attempt c s).2 := by
  rcases attempt_state c s with e | e <;> rw [e]
  · exact hp _ _ h
  · exact hd _ (hp _ _ h)

theorem drawBus_of_faultFree {s : State} (h : s.env.faultFree = true) : drawBus s = (.ok, s) := by simp [drawBus, h]

theorem drawBus_of_draw {s : State} (h : s.env.faultFree = false) :
    drawBus s = (BusResult.ofDraw s.env.head, (drawNat s).2) := by simp [drawBus, h]

/-! ### Exchanges (R16, R118 to R122) -/

theorem rxBytes_getD (p : Params) (n : Nat) (b : Option Byte) (h : p.rxDataIndex < n) :
    (rxBytes p n b).getD p.rxDataIndex none = b := by
  simp [rxBytes, List.getD_eq_getElem?_getD, h]

/-- The data byte of a received frame. -/
theorem rxData_rxBytes {s : State} {p : Params} {n : Nat} (b : Option Byte) (hp : s.launch.params = p)
    (h : p.rxDataIndex < n) :
    rxData (rxBytes p n b) s = match b with
      | some v => (v, s)
      | none => drawByte s := by
  subst hp
  have e := rxBytes_getD s.launch.params n b h
  cases b <;> simp only [rxData, e]

/-- An exchange of a read frame that is ok (R118). -/
theorem busExchange_read {s : State} {a : Half} (hv : s.launch.params.Valid = true)
    (he : addrEncodable s.launch.params a = true) (hr : (drawBus (perform (.busExchange (readFrame s.launch.params a)) s)).1 = .ok) :
    busExchange (readFrame s.launch.params a) s =
      let t := (drawBus (perform (.busExchange (readFrame s.launch.params a)) s)).2
      { res := .ok, rx := rxBytes s.launch.params 3 (deviceAnswer a t).1, state := (deviceAnswer a t).2 } := by
  have hl : (drawBus (perform (.busExchange (readFrame s.launch.params a)) s)).2.launch = s.launch := by
    unfold drawBus
    split <;> rfl
  simp only [busExchange, hr, deviceFrame, hl, decodeFrame_readFrame hv he, readFrame_length]

/-- An exchange of a write frame that is ok (R120). -/
theorem busExchange_write {s : State} {a : Half} {v : Byte} (hv : s.launch.params.Valid = true)
    (he : addrEncodable s.launch.params a = true)
    (hr : (drawBus (perform (.busExchange (writeFrame s.launch.params a v)) s)).1 = .ok) :
    busExchange (writeFrame s.launch.params a v) s =
      let t := (drawBus (perform (.busExchange (writeFrame s.launch.params a v)) s)).2
      { res := .ok, rx := rxBytes s.launch.params 3 none, state := deviceWrite a v t } := by
  have hl : (drawBus (perform (.busExchange (writeFrame s.launch.params a v)) s)).2.launch = s.launch := by
    unfold drawBus
    split <;> rfl
  simp only [busExchange, hr, deviceFrame, hl, decodeFrame_writeFrame v hv he, writeFrame_length]

/-- An exchange that fails: nothing comes back, and the device may have taken a write (R122). -/
theorem busExchange_fail {s : State} {tx : List Byte} (hf : s.env.faultFree = false) (h : s.env.head % 3 = 1) :
    busExchange tx s = { res := .fail, rx := [], state := deviceFrameFailed tx (drawNat (perform (.busExchange tx) s)).2 } := by
  unfold busExchange
  rw [drawBus_of_draw (by exact hf)]
  simp [BusResult.ofDraw, h]

/-- An exchange that hangs: only the call and the draw are recorded (log 24). -/
theorem busExchange_hang {s : State} {tx : List Byte} (hf : s.env.faultFree = false) (h : s.env.head % 3 = 2) :
    busExchange tx s = { res := .hang, rx := [], state := (drawNat (perform (.busExchange tx) s)).2 } := by
  unfold busExchange
  rw [drawBus_of_draw (by exact hf)]
  simp [BusResult.ofDraw, h]

/-! ### The device's registers (R43) -/

theorem half_toNat_inj {a b : Half} : a.toNat = b.toNat ↔ a = b := BitVec.toNat_inj

@[simp] theorem devReg_setDevReg (s : State) (a x : Half) (v : Byte) :
    devReg (setDevReg a v s) x = if x = a then some v else devReg s x := by
  simp [devReg, Memory.read_write, half_toNat_inj]

@[simp] theorem devReg_clearDevReg (s : State) (a x : Half) :
    devReg (clearDevReg a s) x = if x = a then none else devReg s x := by
  simp [devReg, Memory.read_erase, half_toNat_inj]

@[simp] theorem devReg_setFraming (s : State) (f : Framing) (x : Half) : devReg (setFraming f s) x = devReg s x := rfl
@[simp] theorem devReg_perform (s : State) (c : Call) (x : Half) : devReg (perform c s) x = devReg s x := rfl
@[simp] theorem devReg_drawNat (s : State) (x : Half) : devReg (drawNat s).2 x = devReg s x := rfl
@[simp] theorem devReg_giveResult (s : State) (r : Result) (x : Half) : devReg (giveResult r s) x = devReg s x := rfl

/-- A guarded register access that passes the guard. -/
theorem regGuard_open {α : Type} {a : Half} {s : State} (h : RegOpen a s) (f : State → Res α × State) :
    regGuard a s f = f s := by
  simp [regGuard, h.encodable, h.initialized, h.width, h.framing]

/-- A register access either passes its guard or stops with the state unchanged (R115, R116). -/
theorem regGuard_keeps {α : Type} {P : State → Prop} {a : Half} {s : State} {f : State → Res α × State} (h : P s)
    (hf : P (f s).2) : P (regGuard a s f).2 := by
  unfold regGuard
  split
  · exact h
  split
  · exact h
  split
  · exact h
  · exact hf

end Sys2Proof.Machine
end

