-- ==== Sys2Proof/Laws/Offload.lean ====
section
/-! SUPPORT. What a transfer can do, said once (spec/43_offload.md R184, R185): the exchanges it issues, in order, and how it can
stop in the middle; what decoding a buffer gives (R188). -/

namespace Sys2Proof.Machine

/-! ### A number of exchanges -/

/-- The response to an exchange, for the draw that comes next (R191). -/
def responseWord (p : Params) (e : Env) : Word := BitVec.ofNat 32 (e.head % 2 ^ p.xferWidth)

/-- Result words captured from index `first` of the transfer on, where they land (R185). -/
def landings (base first : Nat) (ws : List Word) : List (Nat × Word) :=
  (ws.zipIdx first).map fun c => (base + c.2 * Config.wordSize, c.1)

theorem landings_append (base first : Nat) (xs ys : List Word) :
    landings base first (xs ++ ys) = landings base first xs ++ landings base (first + xs.length) ys := by
  simp [landings, List.zipIdx_append]

/-- The places and words of a capture, one by one. -/
theorem landings_map (base first n : Nat) (f : Nat → Word) :
    landings base first ((List.range n).map f) = (List.range n).map fun j => (base + (first + j) * Config.wordSize, f j) := by
  apply List.ext_getElem
  · simp [landings]
  · intro i _ _
    simp [landings]

/-- How many draws an exchange of a transfer takes: its response, and in a run whose collaborators may fail its result before that
(R17, R191). -/
def exchangeDraws (e : Env) : Nat := if e.faultFree then 1 else 2

/-- The words that `n` exchanges capture, for the draws left before the first one (R185, R191). -/
def capturedWords (p : Params) (n : Nat) (e : Env) : List Word :=
  (List.range n).map fun j => responseWord p (Env.advance^[exchangeDraws e * j + (exchangeDraws e - 1)] e)

@[simp] theorem capturedWords_length (p : Params) (n : Nat) (e : Env) : (capturedWords p n e).length = n := by
  simp [capturedWords]

theorem capturedWords_add {p : Params} {a b : Nat} {e e' : Env} (hd : e' = Env.advance^[exchangeDraws e * a] e)
    (hf : e'.faultFree = e.faultFree) : capturedWords p (a + b) e = capturedWords p a e ++ capturedWords p b e' := by
  have hn : exchangeDraws e' = exchangeDraws e := by simp only [exchangeDraws, hf]
  simp only [capturedWords, hn, List.range_add, List.map_append, List.map_map]
  congr 1
  refine List.map_congr_left fun j _ => ?_
  rw [hd, ← Function.iterate_add_apply]
  simp only [Function.comp, Nat.mul_add]
  congr 2
  omega

/-- `t` is `s` after `n` exchanges of the engine's word, the first capturing result word `first` of the transfer. -/
structure Issued (first n : Nat) (s t : State) : Prop where
  frame : t = { s with
    cs := t.cs, engine := t.engine, inflight := t.inflight, dev := { s.dev with sel := t.dev.sel }, calls := t.calls, env :=
        t.env }
  param : t.engine.param = s.engine.param
  reps : t.engine.reps = s.engine.reps
  captured : t.inflight = s.inflight ++ landings s.ofl.rxAddr first (capturedWords s.launch.params n s.env)
  sel : t.dev.sel = if n = 0 then s.dev.sel else some s.engine.param
  calls : t.calls = s.calls ++ List.replicate n (.convExchange s.engine.param)
  faultFree : t.env.faultFree = s.env.faultFree
  env : t.env = Env.advance^[exchangeDraws s.env * n] s.env
  answered : s.env.faultFree = false → ∀ j, j < n → (Env.advance^[2 * j] s.env).head % 2 = 0

theorem Issued.words {first n : Nat} {s t : State} (h : Issued first n s t) :
    ∃ ws : List Word, ws.length = n ∧ t.inflight = s.inflight ++ landings s.ofl.rxAddr first ws :=
  ⟨_, capturedWords_length _ _ _, h.captured⟩

/-- Under TransportFaultFree each exchange takes one draw, its response. -/
theorem Issued.exact {first n : Nat} {s t : State} (h : Issued first n s t) (hf : s.env.faultFree = true) :
    t.env = Env.advance^[n] s.env ∧ t.inflight = s.inflight
      ++ landings s.ofl.rxAddr first ((List.range n).map fun j => responseWord s.launch.params (Env.advance^[j] s.env)) := by
  have hd : exchangeDraws s.env = 1 := by simp only [exchangeDraws, hf, if_true]
  have he := h.env
  have hi := h.captured
  simp only [capturedWords, hd, Nat.one_mul, Nat.sub_self, Nat.add_zero] at he hi
  exact ⟨he, hi⟩

/-- Otherwise each takes two, its result and its response. -/
theorem capturedWords_of_draws {p : Params} {n : Nat} {e : Env} (h : e.faultFree = false) :
    capturedWords p n e = (List.range n).map fun j => responseWord p (Env.advance^[2 * j + 1] e) := by
  simp [capturedWords, exchangeDraws, h]

theorem issued_refl (first : Nat) (s : State) : Issued first 0 s s :=
  ⟨rfl, rfl, rfl, by simp [landings, capturedWords], rfl, by simp, rfl, rfl, fun _ j hj => absurd hj (Nat.not_lt_zero j)⟩

theorem issued_trans {first a b : Nat} {s t u : State} (h : Issued first a s t) (k : Issued (first + a) b t u) :
    Issued first (a + b) s u := by
  have hr : t.ofl = s.ofl := by rw [h.frame]
  have hl : t.launch = s.launch := by rw [h.frame]
  have hn : exchangeDraws t.env = exchangeDraws s.env := by simp only [exchangeDraws, h.faultFree]
  refine ⟨?_, k.param.trans h.param, k.reps.trans h.reps, ?_, ?_, ?_, k.faultFree.trans h.faultFree, ?_, fun hf j hj => ?_⟩
  · rw [k.frame, h.frame]
  · rw [k.captured, h.captured, hr, hl, capturedWords_add h.env h.faultFree, landings_append, capturedWords_length,
      List.append_assoc]
  · rw [k.sel, h.sel, h.param]
    by_cases ha : a = 0 <;> by_cases hb : b = 0 <;> simp [ha, hb]
  · rw [k.calls, h.calls, h.param, List.append_assoc, List.replicate_append_replicate]
  · rw [k.env, hn, h.env, ← Function.iterate_add_apply, Nat.mul_add, Nat.add_comm]
  · by_cases hja : j < a
    · exact h.answered hf j hja
    · have := k.answered (h.faultFree.trans hf) (j - a) (by omega)
      rw [h.env, exchangeDraws, hf, if_neg (by simp), ← Function.iterate_add_apply, ← Nat.mul_add,
        Nat.sub_add_cancel (Nat.not_lt.1 hja)] at this
      exact this

/-- `t` is `s` after exchange `k`, the first being exchange 0, hung: the words of those before it are in flight, and nothing else
has changed but what the engine has done on the way (R185, R235). -/
structure Broken (first k : Nat) (s t : State) : Prop where
  frame : t = { s with
    cs := t.cs, engine := t.engine, inflight := t.inflight, dev := { s.dev with sel := t.dev.sel }, calls := t.calls, env :=
        t.env }
  param : t.engine.param = s.engine.param
  reps : t.engine.reps = s.engine.reps
  captured : t.inflight = s.inflight ++ landings s.ofl.rxAddr first (capturedWords s.launch.params k s.env)
  sel : t.dev.sel = if k = 0 then s.dev.sel else some s.engine.param
  calls : t.calls = s.calls ++ List.replicate (k + 1) (.convExchange s.engine.param)
  drawn : s.env.faultFree = false
  faultFree : t.env.faultFree = s.env.faultFree
  env : t.env = Env.advance^[2 * k + 1] s.env
  hangs : HangsAt k s.env

theorem Broken.words {first k : Nat} {s t : State} (h : Broken first k s t) :
    ∃ ws : List Word, ws.length = k ∧ t.inflight = s.inflight ++ landings s.ofl.rxAddr first ws :=
  ⟨_, capturedWords_length _ _ _, h.captured⟩

theorem broken_of_issued {first a k : Nat} {s t u : State} (h : Issued first a s t) (b : Broken (first + a) k t u) :
    Broken first (a + k) s u := by
  have hr : t.ofl = s.ofl := by rw [h.frame]
  have hl : t.launch = s.launch := by rw [h.frame]
  have hf : s.env.faultFree = false := h.faultFree ▸ b.drawn
  have ht : t.env = Env.advance^[2 * a] s.env := by rw [h.env, exchangeDraws, hf]; rfl
  refine ⟨?_, b.param.trans h.param, b.reps.trans h.reps, ?_, ?_, ?_, hf, b.faultFree.trans h.faultFree, ?_, fun j hj => ?_, ?_⟩
  · rw [b.frame, h.frame]
  · rw [b.captured, h.captured, hr, hl, capturedWords_add h.env h.faultFree, landings_append, capturedWords_length,
      List.append_assoc]
  · rw [b.sel, h.sel, h.param]
    by_cases ha : a = 0 <;> by_cases hk : k = 0 <;> simp [ha, hk]
  · rw [b.calls, h.calls, h.param, List.append_assoc, List.replicate_append_replicate, Nat.add_assoc]
  · rw [b.env, ht, ← Function.iterate_add_apply]
    congr 1
    omega
  · by_cases hja : j < a
    · exact h.answered hf j hja
    · have := b.hangs.1 (j - a) (by omega)
      rw [ht, ← Function.iterate_add_apply, ← Nat.mul_add, Nat.sub_add_cancel (Nat.not_lt.1 hja)] at this
      exact this
  · have := b.hangs.2
    rw [ht, ← Function.iterate_add_apply, ← Nat.mul_add, Nat.add_comm k] at this
    exact this

/-- The exchange that hangs is one only. -/
theorem hangsAt_unique {k k' : Nat} {e : Env} (h : HangsAt k e) (h' : HangsAt k' e) : k = k' := by
  rcases Nat.lt_trichotomy k k' with hk | hk | hk
  · have := h'.1 k hk
    have := h.2
    omega
  · exact hk
  · have := h.1 k' hk
    have := h'.2
    omega

/-- How a part of a transfer ends: all of its exchanges are issued and the state meets `P`, or one of them hangs and it meets
`Q`. -/
structure Issues (first n : Nat) (s : State) (x : Res Unit × State) (P Q : State → Prop) : Prop where
  ends : (∃ t, x = (.ok (), t) ∧ Issued first n s t ∧ P t) ∨ ∃ t k, x = (.stuck, t) ∧ k < n ∧ Broken first k s t ∧ Q t

theorem issues_bind {first a b : Nat} {s : State} {x : Res Unit × State} {f : Unit → State → Res Unit × State}
    {P Q P' Q' : State → Prop} (h : Issues first a s x P Q) (hq : ∀ t, Q t → Q' t)
    (k : ∀ t, Issued first a s t → P t → Issues (first + a) b t (f () t) P' Q') :
    Issues first (a + b) s (andThen x f) P' Q' := by
  obtain ⟨t, rfl, ht, hp⟩ | ⟨t, k, rfl, hk, ht, hh⟩ := h.ends
  · obtain ⟨u, hu, hi, hp'⟩ | ⟨u, k, hu, hk, hb, hh⟩ := (k t ht hp).ends
    · exact ⟨.inl ⟨u, hu, issued_trans ht hi, hp'⟩⟩
    · exact ⟨.inr ⟨u, a + k, hu, by omega, broken_of_issued ht hb, hh⟩⟩
  · exact ⟨.inr ⟨t, k, rfl, by omega, ht, hq t hh⟩⟩

/-- The state after an exchange that answers. -/
def afterExchange (idx : Nat) (s : State) : State :=
  let d := deviceConv s.engine.param (attempt (.convExchange s.engine.param) s).2
  { d.2 with inflight := d.2.inflight ++ [(captureAddr d.2 idx, d.1)] }

theorem exchangeWords_succ (k idx : Nat) (s : State) :
    exchangeWords (k + 1) idx s = if (attempt (.convExchange s.engine.param) s).1 = true
      then exchangeWords k (idx + 1) (afterExchange idx s) else (.stuck, (attempt (.convExchange s.engine.param) s).2) := rfl

/-- One exchange that answers: the response is in flight for its place (R185, R191). -/
theorem exchange_issued {idx : Nat} {s : State} (h : (attempt (.convExchange s.engine.param) s).1 = true) :
    Issued (s.engine.rep * resultWords s.msg.template + idx) 1 s (afterExchange idx s)
      ∧ (afterExchange idx s).cs = s.cs ∧ (afterExchange idx s).engine = s.engine := by
  cases hf : s.env.faultFree
  · rw [attempt_of_draw _ hf] at h
    have hd : exchangeDraws s.env = 2 := by simp [exchangeDraws, hf]
    simp only [afterExchange, attempt_of_draw _ hf]
    refine ⟨⟨rfl, rfl, rfl, ?_, rfl, rfl, rfl, by rw [hd]; rfl, fun _ j hj => ?_⟩, rfl, rfl⟩
    · rw [capturedWords, hd]
      rfl
    · obtain rfl : j = 0 := by omega
      simpa using h
  · have hd : exchangeDraws s.env = 1 := by simp [exchangeDraws, hf]
    simp only [afterExchange, attempt_of_faultFree _ hf]
    refine ⟨⟨rfl, rfl, rfl, ?_, rfl, rfl, rfl, by rw [hd]; rfl, fun h => ?_⟩, rfl, rfl⟩
    · rw [capturedWords, hd]
      rfl
    · rw [hf] at h
      cases h

/-- An exchange that hangs (R16, R185). -/
theorem exchange_broken {s : State} (h : (attempt (.convExchange s.engine.param) s).1 = false) (first : Nat) :
    Broken first 0 s (attempt (.convExchange s.engine.param) s).2
      ∧ (attempt (.convExchange s.engine.param) s).2.cs = s.cs
      ∧ (attempt (.convExchange s.engine.param) s).2.engine = s.engine := by
  cases hf : s.env.faultFree
  · rw [attempt_of_draw _ hf] at h ⊢
    refine ⟨⟨rfl, rfl, rfl, ?_, rfl, rfl, hf, rfl, rfl, fun j hj => absurd hj (Nat.not_lt_zero j), ?_⟩, rfl, rfl⟩
    · simp [landings, capturedWords, perform, drawNat]
    · have : ¬ s.env.head % 2 = 0 := by simpa using h
      show s.env.head % 2 = 1
      omega
  · rw [attempt_of_faultFree _ hf] at h
    cases h

/-- The exchanges of one XFER (R185, R197): chip-select and the engine's position stay. -/
theorem exchangeWords_issues (k idx : Nat) (s : State) :
    Issues (s.engine.rep * resultWords s.msg.template + idx) k s (exchangeWords k idx s)
      (fun t => t.cs = s.cs ∧ t.engine = s.engine) (fun t => t.cs = s.cs ∧ t.engine = s.engine) := by
  induction k generalizing idx s with
  | zero => exact ⟨.inl ⟨s, rfl, issued_refl _ s, rfl, rfl⟩⟩
  | succ k ih =>
    rw [exchangeWords_succ]
    by_cases hx : (attempt (.convExchange s.engine.param) s).1 = true
    · obtain ⟨h1, hcs, he⟩ := exchange_issued (idx := idx) hx
      rw [if_pos hx]
      generalize afterExchange idx s = u at h1 hcs he ⊢
      have hm : u.msg = s.msg := by rw [h1.frame]
      have := ih (idx + 1) u
      rw [he, hm, ← Nat.add_assoc] at this
      obtain ⟨t, hu, hi, hq⟩ | ⟨t, j, hu, hj, hb, hq⟩ := this.ends
      · exact ⟨.inl ⟨t, hu, Nat.add_comm 1 k ▸ issued_trans h1 hi, hq.1.trans hcs, hq.2⟩⟩
      · exact ⟨.inr ⟨t, 1 + j, hu, by omega, broken_of_issued h1 hb, hq.1.trans hcs, hq.2⟩⟩
    · rw [if_neg hx]
      obtain ⟨hb, hq⟩ := exchange_broken (by simpa using hx) (s.engine.rep * resultWords s.msg.template + idx)
      exact ⟨.inr ⟨_, 0, rfl, Nat.succ_pos k, hb, hq⟩⟩

/-! ### The engine (R185) -/

/-- The engine past a micro-operation. -/
def engineNext (s : State) : Engine :=
  if s.engine.tpc + 1 < s.msg.template.length then { s.engine with tpc := s.engine.tpc + 1 }
  else
    { s.engine with
      tpc := 0
      rep := s.engine.rep + 1
      busy := s.engine.busy && decide (s.engine.rep + 1 < s.engine.reps) }

theorem engineAdvance_eq (s : State) : engineAdvance s = { s with engine := engineNext s } := by
  unfold engineAdvance engineNext
  split <;> rfl

theorem engineNext_param (s : State) : (engineNext s).param = s.engine.param := by
  unfold engineNext
  split <;> rfl

theorem engineNext_reps (s : State) : (engineNext s).reps = s.engine.reps := by
  unfold engineNext
  split <;> rfl

/-- A micro-operation that issues no exchange. -/
theorem issued_engine (first : Nat) (s : State) (b : Bool) :
    Issued first 0 s { s with cs := b, engine := engineNext s } :=
  ⟨rfl, engineNext_param s, engineNext_reps s, by simp [landings, capturedWords], rfl, by simp, rfl, rfl,
    fun _ j hj => absurd hj (Nat.not_lt_zero j)⟩

/-- Where the engine stands when an exchange hangs: chip-select is asserted, and of the engine only the position has moved. -/
def StoppedInside (s t : State) : Prop :=
  t.cs = true ∧ t.engine = { s.engine with tpc := t.engine.tpc, rep := t.engine.rep }

/-- One micro-operation of a well-formed template (R185, R196 to R198). -/
theorem engineStep_issues {s : State} {u : Half} {rest : List Half} {a : Bool} (hu : s.msg.template[s.engine.tpc]? = some u)
    (hw : scanTemplate (u :: rest) a = true) (ha : a = true → s.cs = true) :
    Issues (s.engine.rep * resultWords s.msg.template + wordIndex s) (microWords u) s (engineStep s)
      (fun t => t.engine = engineNext s ∧ scanTemplate rest t.cs = true) (StoppedInside s) := by
  unfold engineStep
  rw [hu]
  unfold scanTemplate at hw
  cases hm : microOf u with
  | none => simp [hm] at hw
  | some o =>
    simp only [hm] at hw
    cases o with
    | assert =>
      rw [Bool.and_eq_true] at hw
      simp only [Option.bind_some, hm, microAssert, engineAdvance_eq, microWords]
      exact ⟨.inl ⟨_, rfl, issued_engine _ s true, rfl, hw.2⟩⟩
    | deassert =>
      rw [Bool.and_eq_true] at hw
      simp only [Option.bind_some, hm, microDeassert, engineAdvance_eq, microWords]
      exact ⟨.inl ⟨_, rfl, issued_engine _ s false, rfl, hw.2⟩⟩
    | xfer n =>
      simp only [Bool.and_eq_true, bne_iff_ne, ne_eq] at hw
      simp only [Option.bind_some, hm, microXfer, if_neg hw.1.2, microWords]
      refine issues_bind (b := 0) (exchangeWords_issues n.toNat (wordIndex s) s)
        (fun t h => ⟨h.1.trans (ha hw.1.1), by rw [h.2]⟩) fun t ht hp => ?_
      rw [engineAdvance_eq]
      have hn : engineNext t = engineNext s := by
        have hm : t.msg = s.msg := by rw [ht.frame]
        simp only [engineNext, hp.2, hm]
      refine ⟨.inl ⟨_, rfl, issued_engine _ t t.cs, hn, ?_⟩⟩
      have hc : t.cs = true := by rw [hp.1]; exact ha hw.1.1
      exact hc ▸ hw.2

theorem resultWords_append (l k : List Half) : resultWords (l ++ k) = resultWords l + resultWords k := by
  induction l with
  | nil => simp [resultWords]
  | cons a l ih => simp [resultWords, ih, Nat.add_assoc]

/-- The rest of a repetition, from the micro-operation at `tpc` on (R185). -/
theorem engineRun_rest (m : Nat) (s : State) {a : Bool} (hm : s.engine.tpc + (m + 1) = s.msg.template.length)
    (hw : scanTemplate (s.msg.template.drop s.engine.tpc) a = true) (ha : a = true → s.cs = true) :
    Issues (s.engine.rep * resultWords s.msg.template + wordIndex s) (resultWords (s.msg.template.drop s.engine.tpc)) s
      (engineRun (m + 1) s)
      (fun t => t.cs = false ∧ t.engine = { s.engine with
        tpc := 0, rep := s.engine.rep + 1, busy := s.engine.busy && decide (s.engine.rep + 1 < s.engine.reps) })
      (StoppedInside s) := by
  induction m generalizing s a with
  | zero =>
    have hlt : s.engine.tpc < s.msg.template.length := by omega
    have hd := List.drop_eq_getElem_cons hlt
    have hnil : s.msg.template.drop (s.engine.tpc + 1) = [] := List.drop_eq_nil_of_le (by omega)
    rw [hd, hnil] at hw
    rw [hd, hnil]
    refine issues_bind (engineStep_issues (List.getElem?_eq_getElem hlt) hw ha) (fun _ h => h) fun t ht hp => ?_
    refine ⟨.inl ⟨t, rfl, issued_refl _ t, ?_, ?_⟩⟩
    · simpa [scanTemplate] using hp.2
    · rw [hp.1, engineNext, if_neg (by omega)]
  | succ m ih =>
    have hlt : s.engine.tpc < s.msg.template.length := by omega
    have hd := List.drop_eq_getElem_cons hlt
    rw [hd] at hw
    rw [hd]
    refine issues_bind (engineStep_issues (List.getElem?_eq_getElem hlt) hw ha) (fun _ h => h) fun t ht hp => ?_
    have hmsg : t.msg = s.msg := by rw [ht.frame]
    have he : t.engine = { s.engine with tpc := s.engine.tpc + 1 } := by rw [hp.1, engineNext, if_pos (by omega)]
    have := ih t (by rw [he, hmsg]; dsimp only; omega) (by rw [he, hmsg]; exact hp.2) id
    simp only [wordIndex, he, hmsg] at this ⊢
    rw [List.take_succ_eq_append_getElem hlt, resultWords_append, ← Nat.add_assoc] at this
    refine ⟨this.ends.imp_right fun ⟨u, k, hu, hk, hb, hq⟩ => ⟨u, k, hu, hk, hb, hq.1, hq.2.trans ?_⟩⟩
    rw [he]

/-- One repetition of a well-formed template. -/
theorem engineRun_repetition {s : State} (hw : templateWf s.msg.template = true) (ht : s.engine.tpc = 0) :
    Issues (s.engine.rep * resultWords s.msg.template) (resultWords s.msg.template) s
      (engineRun s.msg.template.length s)
      (fun t => t.cs = false ∧ t.engine = { s.engine with
        tpc := 0, rep := s.engine.rep + 1, busy := s.engine.busy && decide (s.engine.rep + 1 < s.engine.reps) })
      (StoppedInside s) := by
  simp only [templateWf, Bool.and_eq_true, decide_eq_true_eq] at hw
  obtain ⟨m, hm⟩ : ∃ m, s.msg.template.length = m + 1 := ⟨s.msg.template.length - 1, by omega⟩
  have := engineRun_rest m s (a := false) (by omega) (by rw [ht]; exact hw.1.2) (by simp)
  simpa [wordIndex, ht, hm, resultWords] using this

theorem engineRun_add (a b : Nat) (s : State) :
    engineRun (a + b) s = andThen (engineRun a s) fun _ t => engineRun b t := by
  induction a generalizing s with
  | zero => simp [engineRun]
  | succ a ih =>
    rw [Nat.add_right_comm, engineRun, engineRun]
    generalize engineStep s = x
    obtain ⟨r, t⟩ := x
    cases r with
    | ok v => simp [ih]
    | _ => rfl

/-- `k` repetitions, the engine at the start of one (R184, R185). -/
theorem engineRun_repetitions (k : Nat) (s : State) (hw : templateWf s.msg.template = true) (ht : s.engine.tpc = 0)
    (hb : s.engine.busy = decide (s.engine.rep < s.engine.reps)) (hk : s.engine.rep + k ≤ s.engine.reps) :
    Issues (s.engine.rep * resultWords s.msg.template) (k * resultWords s.msg.template) s
      (engineRun (k * s.msg.template.length) s)
      (fun t => (k ≠ 0 → t.cs = false) ∧ t.engine = { s.engine with
        tpc := 0, rep := s.engine.rep + k, busy := decide (s.engine.rep + k < s.engine.reps) })
      (StoppedInside s) := by
  induction k generalizing s with
  | zero =>
    rw [Nat.zero_mul, Nat.zero_mul]
    refine ⟨.inl ⟨s, rfl, issued_refl _ s, fun h => absurd rfl h, ?_⟩⟩
    rw [Nat.add_zero, ← hb, ← ht]
  | succ k ih =>
    rw [Nat.succ_mul, Nat.succ_mul, Nat.add_comm, Nat.add_comm (k * s.msg.template.length), engineRun_add]
    refine issues_bind (engineRun_repetition hw ht) (fun _ h => h) fun t hi hp => ?_
    have hmsg : t.msg = s.msg := by rw [hi.frame]
    have hlt : decide (s.engine.rep < s.engine.reps) = true := decide_eq_true (by omega)
    have := ih t (hmsg ▸ hw) (by rw [hp.2]) (by rw [hp.2, hb, hlt]; rfl) (by rw [hp.2]; dsimp only; omega)
    simp only [hp.2, hmsg, Nat.add_assoc, Nat.succ_mul] at this ⊢
    rw [Nat.add_comm 1 k] at this
    refine ⟨this.ends.imp (fun ⟨u, hu, hi', hq⟩ => ⟨u, hu, hi', fun _ => ?_, hq.2⟩)
      fun ⟨u, j, hu, hj, hb', hq⟩ => ⟨u, j, hu, hj, hb', hq.1, ?_⟩⟩
    · by_cases hk0 : k = 0
      · subst hk0
        rw [Nat.zero_mul, engineRun] at hu
        cases hu
        exact hp.1
      · exact hq.1 hk0
    · have hpos : k ≠ 0 := by
        rintro rfl
        rw [Nat.zero_mul] at hj
        exact Nat.not_lt_zero j hj
      have hlt' : decide (s.engine.rep + 1 < s.engine.reps) = true := decide_eq_true (by omega)
      have hte := hp.2
      rw [hlt', Bool.and_true] at hte
      exact hq.2.trans (by rw [hte])

/-- A transfer of `reps` repetitions (R184, R185). -/
theorem transfer_issues (w : Word) (reps : Nat) {s : State} (hw : templateWf s.msg.template = true) :
    Issues 0 (reps * resultWords s.msg.template)
      { s with engine := { busy := decide (0 < reps), tpc := 0, rep := 0, param := w, reps := reps } } (transfer w reps s)
      (fun t => (reps ≠ 0 → t.cs = false) ∧ t.engine = { busy := false, tpc := 0, rep := reps, param := w, reps := reps })
      (fun t => t.cs = true ∧ t.engine = { busy := true, tpc := t.engine.tpc, rep := t.engine.rep, param := w, reps := reps }) := by
  have := engineRun_repetitions reps
    { s with engine := { busy := decide (0 < reps), tpc := 0, rep := 0, param := w, reps := reps } } hw rfl rfl (by simp)
  simp only [Nat.zero_mul, Nat.zero_add, Nat.lt_irrefl, decide_false] at this
  refine ⟨this.ends.imp_right fun ⟨t, k, ht, hk, hb, hc, he⟩ => ⟨t, k, ht, hk, hb, hc, he.trans ?_⟩⟩
  have hpos : 0 < reps := by
    refine Nat.pos_of_ne_zero fun h => ?_
    rw [h, Nat.zero_mul] at hk
    exact Nat.not_lt_zero k hk
  rw [decide_eq_true hpos]

/-! ### OFL.XFER (R184) -/

/-- A transfer that passes every check. -/
theorem oflXfer_of_open {s : State} {reps : Nat} (h : XferOpen reps s) :
    oflXfer reps s =
      let x := attempt (.offloadTrigger s.msg.template reps) s
      if x.1 then transfer s.msg.param reps x.2
      else
        andThen (transfer s.msg.param (drawBelow reps x.2).1 (drawBelow reps x.2).2) fun _ s =>
          (.err .offloadTransferError .none, s) := by
  have := h.fits
  simp [oflXfer, oflGuard, h.ready, h.initialized, h.template, h.param, h.width, h.framing, h.clock, Nat.not_lt.2 this]

/-- A transfer that fails a check changes nothing, and is not `Ok`; an error is `OffloadTransferError`. -/
theorem oflXfer_of_closed {s : State} {reps : Nat} (h : ¬ XferOpen reps s) :
    (oflXfer reps s).2 = s ∧ (oflXfer reps s).1 ≠ .ok ()
      ∧ ∀ e c, (oflXfer reps s).1 = .err e c → e = .offloadTransferError ∧ c = .none := by
  have close : ∀ r : Res Unit, oflXfer reps s = (r, s) → r ≠ .ok () → (∀ e c, r = .err e c → e = .offloadTransferError
      ∧ c = .none) →
      (oflXfer reps s).2 = s ∧ (oflXfer reps s).1 ≠ .ok ()
        ∧ ∀ e c, (oflXfer reps s).1 = .err e c → e = .offloadTransferError ∧ c = .none := by
    intro r hr h1 h2
    rw [hr]
    exact ⟨rfl, h1, h2⟩
  by_cases h1 : s.devState = .ready
  swap
  · exact close (.fault .notReady) (if_pos h1) (by simp) (by simp)
  by_cases h2 : s.ofl.initialized = true
  swap
  · exact close (.fault .offloadNotInitialized) (by simp [oflXfer, oflGuard, h1, h2]) (by simp) (by simp)
  by_cases h3 : templateWf s.msg.template = true
  swap
  · exact close (.refuse .templateNotAdmitted) (by simp [oflXfer, oflGuard, h1, h2, h3]) (by simp) (by simp)
  by_cases h4 : s.msg.paramValid = true
  swap
  · exact close (.err .offloadTransferError .none) (by simp [oflXfer, oflGuard, h1, h2, h3, h4]) (by simp) (by simp)
  by_cases h5 : s.ofl.rxLen < reps * resultWords s.msg.template * Config.wordSize
  · exact close (.fault .bufferOverrun) (by simp [oflXfer, oflGuard, h1, h2, h3, h4, h5]) (by simp) (by simp)
  by_cases h6 : s.xport.wordWidth ≠ s.launch.params.xferWidth ∨ s.dev.framing ≠ .conversion
  · exact close (.fault .framingHazard) (by simp [oflXfer, oflGuard, h1, h2, h3, h4, h5, h6]) (by simp) (by simp)
  by_cases h7 : s.pwm.state = .enabled
  swap
  · exact close .stuck (by simp [oflXfer, oflGuard, h1, h2, h3, h4, h5, h6, h7]) (by simp) (by simp)
  simp only [not_or, not_not] at h6
  exact absurd ⟨h1, h2, h3, h4, Nat.le_of_not_lt h5, h6.1, h6.2, h7⟩ h

/-- The state in which a transfer of `k` repetitions starts. -/
def transferStart (k : Nat) (s t : State) : State :=
  { s with
    calls := t.calls
    env := t.env
    engine := { busy := decide (0 < k), tpc := 0, rep := 0, param := s.msg.param, reps := k } }

/-- How a transfer that passes every check ends: all its repetitions are issued and it is `Ok`, the trigger fails and a prefix of
them is issued, or an exchange hangs. -/
inductive XferEnds (reps : Nat) (s : State) : Res Unit × State → Prop
  | ok {t u : State} (hu : (s.env.faultFree = true ∧ u = perform (.offloadTrigger s.msg.template reps) s)
      ∨ (s.env.faultFree = false ∧ s.env.head % 2 = 0 ∧ u = (drawNat (perform (.offloadTrigger s.msg.template reps) s)).2))
      (hi : Issued 0 (reps * resultWords s.msg.template) (transferStart reps s u) t) (hc : reps ≠ 0 → t.cs = false)
      (he : t.engine = { busy := false, tpc := 0, rep := reps, param := s.msg.param, reps := reps }) : XferEnds reps s (.ok (), t)
  | failed {t u : State} {k : Nat} (hf : s.env.faultFree = false) (hk : k < reps ∨ reps = 0)
      (hu : u = (drawBelow reps (drawNat (perform (.offloadTrigger s.msg.template reps) s)).2).2)
      (hi : Issued 0 (k * resultWords s.msg.template) (transferStart k s u) t) (hc : k ≠ 0 → t.cs = false)
      (he : t.engine = { busy := false, tpc := 0, rep := k, param := s.msg.param, reps := k }) :
      XferEnds reps s (.err .offloadTransferError .none, t)
  | stuck {t u : State} {k j : Nat} (hf : s.env.faultFree = false)
      (hu : (s.env.head % 2 = 0 ∧ k = reps ∧ u = (drawNat (perform (.offloadTrigger s.msg.template reps) s)).2)
        ∨ (s.env.head % 2 = 1 ∧ (k < reps ∨ reps = 0)
          ∧ u = (drawBelow reps (drawNat (perform (.offloadTrigger s.msg.template reps) s)).2).2))
      (hj : j < k * resultWords s.msg.template) (hb : Broken 0 j (transferStart k s u) t) (hc : t.cs = true)
      (he : t.engine = { busy := true, tpc := t.engine.tpc, rep := t.engine.rep, param := s.msg.param, reps := k }) :
      XferEnds reps s (.stuck, t)

theorem oflXfer_ends {s : State} {reps : Nat} (h : XferOpen reps s) : XferEnds reps s (oflXfer reps s) := by
  rw [oflXfer_of_open h]
  cases hf : s.env.faultFree
  · rw [attempt_of_draw _ hf]
    dsimp only
    split
    · next hd =>
      obtain ⟨t, ht, hi, hc, he⟩ | ⟨t, j, ht, hj, hb, hc, he⟩ := (transfer_issues s.msg.param reps
        (s := (drawNat (perform (.offloadTrigger s.msg.template reps) s)).2) h.template).ends
      · rw [ht]
        exact .ok (.inr ⟨hf, by simpa using hd, rfl⟩) hi hc he
      · rw [ht]
        exact .stuck hf (.inl ⟨by simpa using hd, rfl, rfl⟩) hj hb hc he
    · next hd =>
      have hodd : s.env.head % 2 = 1 := by
        have : ¬ s.env.head % 2 = 0 := by simpa using hd
        omega
      have hk : (drawBelow reps (drawNat (perform (.offloadTrigger s.msg.template reps) s)).2).1 < reps
          ∨ reps = 0 := by
        by_cases h0 : reps = 0
        · exact .inr h0
        · exact .inl (Nat.mod_lt _ (Nat.pos_of_ne_zero h0))
      obtain ⟨t, ht, hi, hc, he⟩ | ⟨t, j, ht, hj, hb, hc, he⟩ := (transfer_issues s.msg.param
        (drawBelow reps (drawNat (perform (.offloadTrigger s.msg.template reps) s)).2).1
        (s := (drawBelow reps (drawNat (perform (.offloadTrigger s.msg.template reps) s)).2).2) h.template).ends
      · rw [ht]
        exact .failed hf hk rfl hi hc he
      · rw [ht]
        exact .stuck hf (.inr ⟨hodd, hk, rfl⟩) hj hb hc he
  · rw [attempt_of_faultFree _ hf]
    dsimp only
    rw [if_pos rfl]
    obtain ⟨t, ht, hi, hc, he⟩ | ⟨t, j, ht, hj, hb, -⟩ := (transfer_issues s.msg.param reps
        (s := perform (.offloadTrigger s.msg.template reps) s) h.template).ends
    · rw [ht]
      exact .ok (.inl ⟨hf, rfl⟩) hi hc he
    · exact absurd hf (by simp [show s.env.faultFree = false from hb.drawn])

end Sys2Proof.Machine
end

