-- ==== Sys2Proof/Laws/Consumer.lean ====
section
/-! SUPPORT. The consumer side (spec/43_offload.md R186 to R188): what reads, landings and decoding a buffer give. -/

namespace Sys2Proof.Machine

/-! ### Reads (R66) -/

/-- The word in memory at an address (R61). -/
def memWord (s : State) (a : Nat) : Word :=
  wordOfBytes (memByte s a) (memByte s (a + 1)) (memByte s (a + 2)) (memByte s (a + 3))

/-- The four bytes of a word are Fresh. -/
def FreshWord (s : State) (a : Nat) : Prop := ∀ k, k < 4 → isStale s (a + k) = false

theorem readByte_fresh {s : State} {a : Nat} (h : isStale s a = false) : readByte a s = (memByte s a, s) := by
  simp [readByte, h]

theorem readByte_state (a : Nat) (s : State) : (readByte a s).2 = { s with env := (readByte a s).2.env } := by
  unfold readByte
  split <;> rfl

theorem readByte_faultFree (a : Nat) (s : State) : (readByte a s).2.env.faultFree = s.env.faultFree := by
  unfold readByte
  split <;> rfl

/-- A read of a Fresh word is exact and draws nothing. -/
theorem memRead_fresh {s : State} {a : Nat} (h : FreshWord s a) : memRead a s = (memWord s a, s) := by
  have h0 := readByte_fresh (h 0 (by omega))
  have h1 := readByte_fresh (h 1 (by omega))
  have h2 := readByte_fresh (h 2 (by omega))
  have h3 := readByte_fresh (h 3 (by omega))
  rw [Nat.add_zero] at h0
  simp only [memRead, h0, h1, h2, h3, memWord]

theorem memRead_state (a : Nat) (s : State) : (memRead a s).2 = { s with env := (memRead a s).2.env } := by
  simp only [memRead]
  rw [readByte_state (a + 3), readByte_state (a + 2), readByte_state (a + 1), readByte_state a]

theorem memRead_faultFree (a : Nat) (s : State) : (memRead a s).2.env.faultFree = s.env.faultFree := by
  simp only [memRead, readByte_faultFree]

/-! ### Landings (R65, R75) -/

/-- Two words in flight that share no byte. -/
def Apart (c d : Nat × Word) : Prop := c.1 + 4 ≤ d.1 ∨ d.1 + 4 ≤ c.1

/-- Byte `x` of `t` is a byte of a word that was in flight in `s`. -/
def Holds (s t : State) (x : Nat) : Prop :=
  ∃ d ∈ s.inflight, ∃ m : Nat, m < 4 ∧ d.1 + m = x ∧ t.mem.read x = some (wordByte d.2 m)

theorem Holds.mono {s t u v : State} {x : Nat} (h : Holds s t x) (hs : s.inflight.Sublist u.inflight)
    (ht : v.mem.read x = t.mem.read x) : Holds u v x := by
  obtain ⟨d, hd, m, hm, hx, hr⟩ := h
  exact ⟨d, hs.subset hd, m, hm, hx, ht.trans hr⟩

/-- `t` is `s` after landings: everything a landing does, and nothing else. -/
structure Landed (s t : State) : Prop where
  frame : t = { s with inflight := t.inflight, landBy := t.landBy, mem := t.mem, stale := t.stale, env := t.env }
  left : t.inflight.Sublist s.inflight
  outside : ∀ x : Nat, (∀ c ∈ s.inflight, x < c.1 ∨ c.1 + 4 ≤ x) →
    t.mem.read x = s.mem.read x ∧ isStale t x = isStale s x
  stale : ∀ x : Nat, isStale s x = true → isStale t x = true
  landed : ∀ c ∈ s.inflight, c ∈ t.inflight ∨ ∀ k, k < 4 → isStale t (c.1 + k) = true
  kept : ∀ x : Nat, t.mem.read x = s.mem.read x ∨ Holds s t x
  held : ∀ c ∈ s.inflight, c ∈ t.inflight ∨ ∀ k, k < 4 → Holds s t (c.1 + k)
  placed : s.inflight.Pairwise Apart → ∀ c ∈ s.inflight, c ∈ t.inflight
    ∨ ∀ k, k < 4 → t.mem.read (c.1 + k) = some (wordByte c.2 k)
  faultFree : t.env.faultFree = s.env.faultFree
  oldest : (t.landBy = none ∧ t.inflight.Sublist s.inflight.tail)
    ∨ (t.landBy = s.landBy ∧ t.inflight.head? = s.inflight.head?)

theorem landed_draw (s t : State) (h : t = { s with env := t.env }) (hf : t.env.faultFree = s.env.faultFree) : Landed s t := by
  rw [h]
  exact ⟨rfl, List.Sublist.refl _, fun _ _ => ⟨rfl, rfl⟩, fun _ h => h, fun _ h => .inl h, fun _ => .inl rfl, fun _ h => .inl h,
    fun _ _ h => .inl h, hf, .inr ⟨rfl, rfl⟩⟩

theorem landed_trans {s t u : State} (h : Landed s t) (k : Landed t u) : Landed s u := by
  have later : ∀ x : Nat, Holds s t x → Holds s u x := by
    intro x hx
    rcases k.kept x with hk | hk
    · exact hx.mono (List.Sublist.refl _) hk
    · exact hk.mono h.left rfl
  refine ⟨by rw [k.frame, h.frame], k.left.trans h.left, fun x hx => ?_, fun x hx => k.stale x (h.stale x hx), fun c hc => ?_,
    fun x => ?_, fun c hc => ?_, fun hp c hc => ?_, k.faultFree.trans h.faultFree, ?_⟩
  · have h1 := h.outside x hx
    have h2 := k.outside x fun c hc => hx c (h.left.subset hc)
    exact ⟨h2.1.trans h1.1, h2.2.trans h1.2⟩
  · rcases h.landed c hc with hc | hc
    · exact k.landed c hc
    · exact .inr fun i hi => k.stale _ (hc i hi)
  · rcases k.kept x with hk | hk
    · rcases h.kept x with hh | hh
      · exact .inl (hk.trans hh)
      · exact .inr (later x hh)
    · exact .inr (hk.mono h.left rfl)
  · rcases h.held c hc with hc | hc
    · exact (k.held c hc).imp_right fun hh i hi => (hh i hi).mono h.left rfl
    · exact .inr fun i hi => later _ (hc i hi)
  · by_cases hu : c ∈ u.inflight
    · exact .inl hu
    · right
      by_cases ht : c ∈ t.inflight
      · exact ((k.placed (hp.sublist h.left)) c ht).resolve_left hu
      · intro i hi
        rw [(k.outside (c.1 + i) fun d hd => ?_).1]
        · exact ((h.placed hp c hc).resolve_left ht) i hi
        · have hd' := h.left.subset hd
          have hne : c ≠ d := fun e => ht (e ▸ hd)
          have ha : Apart c d ∨ Apart d c := by
            have hsym : Std.Symm Apart := ⟨fun _ _ h => Or.symm h⟩
            exact .inl (hp.forall hc hd' hne)
          rcases ha with (ha | ha) | (ha | ha) <;> omega
  · rcases k.oldest with ⟨hk, hk'⟩ | ⟨hk, hk'⟩
    · exact .inl ⟨hk, hk'.trans h.left.tail⟩
    · rcases h.oldest with ⟨hh, hh'⟩ | ⟨hh, hh'⟩
      · exact .inl ⟨hk.trans hh, k.left.trans hh'⟩
      · exact .inr ⟨hk.trans hh, hk'.trans hh'⟩

/-- Recording a call before the landings or after them is the same. -/
theorem Landed.perform {s t : State} (c : Call) (h : Landed s t) : Landed (perform c s) (perform c t) :=
  ⟨congrArg (Machine.perform c) h.frame, h.left, h.outside, h.stale, h.landed, h.kept, h.held, h.placed, h.faultFree, h.oldest⟩

/-- One landing (R65). -/
theorem landed_land (i : Nat) (s : State) : Landed s (land i s) := by
  cases h : s.inflight[i]? with
  | none => exact landed_draw _ _ (by rw [land_of_none h]) (by rw [land_of_none h])
  | some c =>
    obtain ⟨a, w⟩ := c
    rw [land_of_getElem h]
    have hmem := List.mem_of_getElem? h
    obtain ⟨hi, he⟩ := List.getElem?_eq_some_iff.1 h
    have key : ∀ c ∈ s.inflight, c ∈ s.inflight.eraseIdx i ∨ c = (a, w) := by
      intro c hc
      obtain ⟨j, hj, hc⟩ := List.getElem_of_mem hc
      by_cases hij : j = i
      · subst hij
        exact .inr (hc.symm.trans he)
      · refine .inl (List.mem_eraseIdx_iff_getElem.2 ⟨j, hj, hij, hc⟩)
    refine ⟨rfl, List.eraseIdx_sublist _ _, fun x hx => ?_, fun x hx => ?_, fun c hc => ?_, fun x => ?_, fun c hc => ?_,
      fun _ c hc => ?_, rfl, ?_⟩
    · have := hx _ hmem
      constructor
      · rw [Memory.read_writeWord, if_neg (by dsimp only at this; omega)]
      · rw [Bool.eq_iff_iff, isStale_iff, isStale_iff]
        simp only [mem_markStale]
        dsimp only at this
        constructor
        · rintro (h | h)
          · omega
          · exact h
        · exact .inr
    · rw [isStale_iff] at hx ⊢
      exact mem_markStale.2 (.inr hx)
    · rcases key c hc with h | rfl
      · exact .inl h
      · exact .inr fun k hk => isStale_iff.2 (mem_markStale.2 (.inl (by dsimp only; omega)))
    · by_cases hx : a ≤ x ∧ x < a + 4
      · exact .inr ⟨_, hmem, x - a, by omega, by dsimp only; omega, by rw [Memory.read_writeWord, if_pos hx]⟩
      · exact .inl (by rw [Memory.read_writeWord, if_neg hx])
    · rcases key c hc with h | rfl
      · exact .inl h
      · refine .inr fun k hk => ⟨_, hmem, k, hk, rfl, ?_⟩
        rw [Memory.read_writeWord, if_pos (by dsimp only; omega)]
        simp
    · rcases key c hc with h | rfl
      · exact .inl h
      · refine .inr fun k hk => ?_
        rw [Memory.read_writeWord, if_pos (by dsimp only; omega)]
        simp
    · by_cases h0 : i = 0
      · subst h0
        exact .inl ⟨rfl, by rw [List.eraseIdx_zero]⟩
      · refine .inr ⟨if_neg h0, ?_⟩
        rw [List.head?_eq_getElem?, List.head?_eq_getElem?, List.getElem?_eraseIdx, if_pos (Nat.pos_of_ne_zero h0)]

theorem landed_drawBelow (n : Nat) (s : State) : Landed s (drawBelow n s).2 := landed_draw _ _ rfl rfl

theorem landed_dmaRun (k : Nat) (s : State) : Landed s (dmaRun k s) := by
  induction k generalizing s with
  | zero => exact landed_draw _ _ rfl rfl
  | succ k ih =>
    rw [dmaRun]
    split
    · exact landed_draw _ _ rfl rfl
    · dsimp only
      split
      · exact landed_drawBelow _ s
      · exact landed_trans (landed_trans (landed_drawBelow _ s) (landed_land _ _)) (ih _)

theorem landed_dmaDrain (k : Nat) (s : State) : Landed s (dmaDrain k s) := by
  induction k generalizing s with
  | zero => exact landed_draw _ _ rfl rfl
  | succ k ih =>
    rw [dmaDrain]
    split
    · exact landed_draw _ _ rfl rfl
    · exact landed_trans (landed_trans (landed_drawBelow _ s) (landed_land _ _)) (ih _)

/-- The landings at one point of an operation. -/
theorem landed_dmaMoves (s : State) : Landed s (dmaMoves s) := landed_dmaRun _ s

/-- SETTLE's body: the wait is recorded, and words may land. -/
theorem landed_settle (ms : Nat) (s : State) : Landed (perform (.waitMs ms) s) (settle ms s) := by
  unfold settle
  dsimp only
  split
  · exact landed_draw _ _ rfl rfl
  · exact landed_dmaDrain _ _

/-- Under `ASSUMED` nothing is left in flight after SETTLE's body (R186). -/
theorem settle_inflight {ms : Nat} {s : State} (h : s.launch.params.settleMode = .assumed) : (settle ms s).inflight = [] := by
  unfold settle
  simp only [perform_launch, h]
  exact dmaDrain_inflight _ _ (Nat.le_refl _)

/-- The word at an address is the one whose bytes are there (R61). -/
theorem memWord_of_bytes {s : State} {a : Nat} {w : Word} (h : ∀ k, k < 4 → s.mem.read (a + k) = some (wordByte w k)) :
    memWord s a = w := by
  have h0 := h 0 (by omega)
  rw [Nat.add_zero] at h0
  simp only [memWord, memByte, h0, h 1 (by omega), h 2 (by omega), h 3 (by omega), Option.getD_some]
  exact wordOfBytes_wordByte w

/-! ### Samples (R188) -/

/-- Without sign extension a sample is the word masked. -/
theorem decodeSample_unsigned {p : Params} (h : p.signExtend = false) (w : Word) : decodeSample p w = w &&& sampleMask p := by
  simp [decodeSample, h]

theorem sampleMask_toNat {p : Params} (hv : p.Valid = true) : (sampleMask p).toNat = 2 ^ p.resBits - 1 := by
  rcases (Params.valid_widths hv).2.2 with h | h | h <;> rw [sampleMask, h] <;> decide

/-- An unsigned sample has `RES_BITS` bits. -/
theorem decodeSample_le {p : Params} (hv : p.Valid = true) (h : p.signExtend = false) (w : Word) :
    (decodeSample p w).toNat ≤ 2 ^ p.resBits - 1 := by
  rw [decodeSample_unsigned h, ← sampleMask_toNat hv, BitVec.toNat_and]
  exact Nat.and_le_right

/-- A sample is the low `RES_BITS` bits of its word, extended as `SIGN_EXTEND` says. -/
theorem decodeSample_eq {p : Params} (hv : p.Valid = true) (w : Word) :
    decodeSample p w = if p.signExtend = true then (w.setWidth p.resBits).signExtend 32 else (w.setWidth p.resBits).setWidth 32 := by
  have key : ∀ n : Nat, 0 < n → n < 32 → ∀ i, i < 32 → (BitVec.ofNat 32 (2 ^ n - 1)).getLsbD i = decide (i < n) := by
    intro n _ hn i _
    have hlt : 2 ^ n - 1 < 2 ^ 32 := by
      have := Nat.pow_lt_pow_right (a := 2) (by omega) hn
      omega
    rw [BitVec.getLsbD, BitVec.toNat_ofNat, Nat.mod_eq_of_lt hlt, Nat.testBit_two_pow_sub_one]
  have hr : 0 < p.resBits ∧ p.resBits < 32 := by rcases (Params.valid_widths hv).2.2 with h | h | h <;> omega
  apply BitVec.eq_of_getLsbD_eq
  intro i hi
  have hk := key p.resBits hr.1 hr.2
  cases hs : p.signExtend
  · simp only [decodeSample, hs, Bool.false_and, Bool.false_eq_true, if_false, sampleMask, BitVec.getLsbD_and, hk i hi,
      BitVec.getLsbD_setWidth]
    simp [hi, Bool.and_comm]
  · have hmsb : (w.setWidth p.resBits).msb = (w &&& sampleMask p).getLsbD (p.resBits - 1) := by
      rw [BitVec.msb_eq_getLsbD_last, BitVec.getLsbD_setWidth, BitVec.getLsbD_and, sampleMask, hk _ (by omega)]
      simp [hr.1, Bool.and_comm]
    simp only [decodeSample, hs, Bool.true_and, if_true, BitVec.getLsbD_signExtend, hmsb, hi, decide_true]
    cases hb : (w &&& sampleMask p).getLsbD (p.resBits - 1)
    · simp only [Bool.false_eq_true, if_false, BitVec.getLsbD_and, sampleMask, hk i hi, BitVec.getLsbD_setWidth]
      by_cases h : i < p.resBits <;> simp [h]
    · simp only [if_true, BitVec.getLsbD_or, BitVec.getLsbD_and, BitVec.getLsbD_not, sampleMask, hk i hi, BitVec.getLsbD_setWidth]
      by_cases h : i < p.resBits <;> simp [h, hi]

/-! ### Decoding a buffer (R188) -/

@[simp] theorem decodeWords_length (n a : Nat) (s : State) : (decodeWords n a s).1.length = n := by
  induction n generalizing a s with
  | zero => rfl
  | succ n ih => simp [decodeWords, ih]

theorem decodeWords_state (n a : Nat) (s : State) : (decodeWords n a s).2 = { s with env := (decodeWords n a s).2.env } := by
  induction n generalizing a s with
  | zero => rfl
  | succ n ih =>
    simp only [decodeWords]
    rw [ih, memRead_state]

theorem decodeWords_faultFree (n a : Nat) (s : State) : (decodeWords n a s).2.env.faultFree = s.env.faultFree := by
  induction n generalizing a s with
  | zero => rfl
  | succ n ih => simp only [decodeWords, ih, memRead_faultFree]

/-- Every element is a decoded sample. -/
theorem mem_decodeWords {n a : Nat} {s : State} {x : Word} (h : x ∈ (decodeWords n a s).1) :
    ∃ w, x = decodeSample s.launch.params w := by
  induction n generalizing a s with
  | zero => cases h
  | succ n ih =>
    simp only [decodeWords, List.mem_cons] at h
    rcases h with rfl | h
    · exact ⟨_, rfl⟩
    · obtain ⟨w, hw⟩ := ih h
      rw [memRead_state] at hw
      exact ⟨w, hw⟩

/-- Where every byte is Fresh, the elements are the words of the buffer, and nothing is drawn. -/
theorem decodeWords_fresh {n a : Nat} {s : State} (h : ∀ j, j < n → FreshWord s (a + 4 * j)) :
    decodeWords n a s = ((List.range n).map fun j => decodeSample s.launch.params (memWord s (a + 4 * j)), s) := by
  induction n generalizing a with
  | zero => rfl
  | succ n ih =>
    have h0 := h 0 (by omega)
    rw [Nat.mul_zero, Nat.add_zero] at h0
    simp only [decodeWords, memRead_fresh h0]
    rw [ih (a := a + Config.wordSize) (fun j hj => by
      have := h (j + 1) (by omega)
      rwa [show a + 4 * (j + 1) = a + Config.wordSize + 4 * j by simp only [Config.wordSize]; omega] at this)]
    rw [List.range_succ_eq_map, List.map_cons, List.map_map]
    simp only [Nat.mul_zero, Nat.add_zero, Prod.mk.injEq, List.cons.injEq, true_and, and_true]
    refine List.map_congr_left fun j _ => ?_
    simp only [Function.comp, Config.wordSize]
    rw [show a + 4 + 4 * j = a + 4 * (j + 1) by omega]

end Sys2Proof.Machine
end

