-- ==== Sys2Proof/Laws/Acquire.lean ====
section
/-! SUPPORT. The acquisition loop (spec/44_acquisition.md R210 to R212): what an iteration does after its transfer,
    and how it ends. -/

namespace Sys2Proof.Machine

/-- The words an iteration decodes (R210). -/
def iterationWords (s : State) : Nat := s.launch.params.sampleCount * resultWords s.msg.template

/-- Everything an iteration does after its transfer, when the buffer holds its words: landings, the wait, the invalidation of the
range, one list emitted, the channel and the count. -/
structure Consumed (s t : State) (l : List Word) : Prop where
  frame : t = { s with
    inflight := t.inflight
    landBy := t.landBy
    mem := t.mem
    stale := t.stale
    acq := { s.acq with channel := otherChannel s.acq.channel, iter := s.acq.iter + 1 }
    out := s.out ++ [l]
    calls := s.calls ++ [.waitMs Config.settleMs, .cacheInvalidate s.ofl.rxAddr (iterationWords s * Config.wordSize)]
    env := t.env }
  length : l.length = iterationWords s
  samples : ∀ x ∈ l, ∃ w, x = decodeSample s.launch.params w
  left : t.inflight.Sublist s.inflight
  oldest : (t.landBy = none ∧ t.inflight.Sublist s.inflight.tail)
    ∨ (t.landBy = s.landBy ∧ t.inflight.head? = s.inflight.head?)
  outside : ∀ x : Nat, (∀ c ∈ s.inflight, x < c.1 ∨ c.1 + 4 ≤ x) → t.mem.read x = s.mem.read x
    ∧ (x < s.ofl.rxAddr ∨ s.ofl.rxAddr + iterationWords s * Config.wordSize ≤ x → isStale t x = isStale s x)
  drained : s.launch.params.settleMode = .assumed → t.inflight = []
  exact : s.launch.params.settleMode = .assumed → s.inflight.Pairwise Apart → ∀ j, j < iterationWords s → ∀ w : Word,
    (s.ofl.rxAddr + 4 * j, w) ∈ s.inflight → l[j]? = some (decodeSample s.launch.params w)
  faultFree : t.env.faultFree = s.env.faultFree

/-- An iteration whose words fit in the buffer is `Ok` once its transfer is (R210). -/
theorem acqConsume_ok {s : State} (hi : s.ofl.initialized = true) (hl : iterationWords s * Config.wordSize ≤ s.ofl.rxLen) :
    ∃ t l, acqConsume s = (.ok (), t) ∧ Consumed s t l := by
  let t := settle Config.settleMs (dmaMoves s)
  have h2 : Landed (perform (.waitMs Config.settleMs) s) t :=
    landed_trans ((landed_dmaMoves s).perform _) (landed_settle Config.settleMs (dmaMoves s))
  have hlaunch : (dmaMoves s).launch = s.launch := by rw [(landed_dmaMoves s).frame]
  let i := cacheInvalidate t.ofl.rxAddr (iterationWords s * Config.wordSize) t
  have h3 := landed_dmaMoves i
  let u := dmaMoves i
  have ht : t = { s with
      inflight := t.inflight, landBy := t.landBy, mem := t.mem, stale := t.stale, env := t.env
      calls := s.calls ++ [.waitMs Config.settleMs] } := h2.frame
  have hofl : t.ofl = s.ofl := by rw [ht]
  have hu : u = { s with
      inflight := u.inflight, landBy := u.landBy, mem := u.mem, stale := u.stale, env := u.env
      calls := s.calls ++ [.waitMs Config.settleMs, .cacheInvalidate s.ofl.rxAddr (iterationWords s * Config.wordSize)] } := by
    have hi : i = perform (.cacheInvalidate s.ofl.rxAddr (iterationWords s * Config.wordSize)) { t with stale := i.stale } := by
      simp only [i, cacheInvalidate, hofl]
      rfl
    have := h3.frame.trans (congrArg (fun m => { m with
      inflight := u.inflight, landBy := u.landBy, mem := u.mem, stale := u.stale, env := u.env }) (hi.trans (congrArg (fun m =>
        perform (.cacheInvalidate s.ofl.rxAddr (iterationWords s * Config.wordSize)) { m with stale := i.stale }) ht)))
    rw [perform, List.append_assoc] at this
    exact this
  have fresh : ∀ x : Nat, isStale i x = true ↔ isStale t x = true
      ∧ (x < s.ofl.rxAddr ∨ s.ofl.rxAddr + iterationWords s * Config.wordSize ≤ x) := by
    intro x
    rw [isStale_iff, isStale_iff, ← hofl]
    exact mem_markFresh
  have hmem : ∀ x : Nat, (∀ c ∈ s.inflight, x < c.1 ∨ c.1 + 4 ≤ x) → u.mem.read x = s.mem.read x
      ∧ (x < s.ofl.rxAddr ∨ s.ofl.rxAddr + iterationWords s * Config.wordSize ≤ x → isStale u x = isStale s x) := by
    intro x hx
    have a2 := h2.outside x hx
    have a3 := h3.outside x fun c hc => hx c (h2.left.subset hc)
    refine ⟨a3.1.trans a2.1, fun ho => a3.2.trans (Eq.trans ?_ a2.2)⟩
    rw [Bool.eq_iff_iff, fresh]
    exact and_iff_left ho
  have hold : (u.landBy = none ∧ u.inflight.Sublist s.inflight.tail)
      ∨ (u.landBy = s.landBy ∧ u.inflight.head? = s.inflight.head?) := by
    rcases h3.oldest with ⟨a, b⟩ | ⟨a, b⟩
    · exact .inl ⟨a, b.trans (List.Sublist.tail h2.left)⟩
    rcases h2.oldest with ⟨c, d⟩ | ⟨c, d⟩
    · exact .inl ⟨a.trans c, h3.left.trans d⟩
    exact .inr ⟨a.trans c, b.trans d⟩
  have hnil : s.launch.params.settleMode = .assumed → t.inflight = [] := fun hs => settle_inflight (by rw [hlaunch]; exact hs)
  have hdrain : s.launch.params.settleMode = .assumed → u = i := fun hs => dmaMoves_nil (s := i) (hnil hs)
  have huo : u.ofl = s.ofl := by rw [hu]
  have hul : u.launch = s.launch := by rw [hu]
  have hdec : decodeBuffer (iterationWords s) u = (.ok (), { (decodeWords (iterationWords s) u.ofl.rxAddr u).2 with
      out := (decodeWords (iterationWords s) u.ofl.rxAddr u).2.out ++ [(decodeWords (iterationWords s) u.ofl.rxAddr u).1] }) := by
    unfold decodeBuffer
    rw [huo, hi, if_neg (by simp), if_neg (Nat.not_lt.2 hl)]
  have hx : acqConsume s = andThen (decodeBuffer (iterationWords s) u) fun _ v =>
      (.ok (), { v with acq := { v.acq with channel := otherChannel v.acq.channel, iter := v.acq.iter + 1 } }) := rfl
  rw [hx, hdec]
  refine ⟨_, (decodeWords (iterationWords s) u.ofl.rxAddr u).1, rfl, ?_⟩
  have hf := decodeWords_faultFree (iterationWords s) u.ofl.rxAddr u
  obtain ⟨e, he⟩ : ∃ e, (decodeWords (iterationWords s) u.ofl.rxAddr u).2 = { u with env := e } :=
    ⟨_, decodeWords_state (iterationWords s) u.ofl.rxAddr u⟩
  rw [he] at hf ⊢
  refine ⟨?_, decodeWords_length _ _ _, fun x hx => ?_, h3.left.trans h2.left, hold, hmem, fun hs => ?_,
    fun hs hp j hj w hw => ?_, hf.trans (h3.faultFree.trans h2.faultFree)⟩
  · exact congrArg (fun m : State => { m with
      acq := { m.acq with channel := otherChannel m.acq.channel, iter := m.acq.iter + 1 }
      out := m.out ++ [(decodeWords (iterationWords s) u.ofl.rxAddr u).1]
      env := e }) hu
  · obtain ⟨w, hw⟩ := mem_decodeWords hx
    exact ⟨w, hul ▸ hw⟩
  · show u.inflight = []
    rw [hdrain hs]
    exact hnil hs
  · have hu' := hdrain hs
    have hfresh : ∀ j, j < iterationWords s → FreshWord u (u.ofl.rxAddr + 4 * j) := by
      intro j hj k hk
      rw [Bool.eq_false_iff, hu', ne_eq, fresh]
      rw [← hu', huo]
      simp only [Config.wordSize]
      omega
    rw [decodeWords_fresh hfresh, List.getElem?_map, List.getElem?_range hj, Option.map_some, hul, huo]
    rw [memWord_of_bytes (w := w) fun k hk => ?_]
    rw [hu']
    exact (h2.placed hp _ hw).resolve_left (by rw [hnil hs]; simp) k hk

/-! ### How an iteration begins (R210, R214) -/

theorem acqIter_of_terminated {s : State} (h : s.acq.terminated = true) : acqIter s = (.fault .acqTerminated, s) := by
  simp [acqIter, h]

theorem acqIter_of_running {s : State} (h : s.acq.terminated = false) :
    acqIter s = andThen (onErr (oflXfer s.launch.params.sampleCount (selectChannel s.acq.channel.val s)) acqTerminate)
      fun _ s => acqConsume s := by
  simp [acqIter, h]

end Sys2Proof.Machine
end

