-- ==== Sys2Proof/Laws/Pwm.lean ====
section
/-! SUPPORT. The tick quantizer and the pulse generator bodies (R131, R136 to R146): what each can do, and what it does when every
collaborator answers. -/

namespace Sys2Proof.Machine

/-! ### Ticks (R131) -/

/-- A tick count that is defined, as a formula. -/
theorem ticks_eq_some {ns r : DWord} {t : Word} (h : ticks ns r = some t) :
    r.toNat / 1000 * ns.toNat < 2 ^ 64 ∧ (r.toNat / 1000 * ns.toNat + 999999) / 1000000 < 2 ^ 32
      ∧ t.toNat = (r.toNat / 1000 * ns.toNat + 999999) / 1000000 := by
  unfold ticks ceilDiv Config.mulW Config.pwmRegW at h
  simp only at h
  split at h
  · cases h
  split at h
  · cases h
  · cases h
    refine ⟨by omega, by omega, ?_⟩
    rw [BitVec.toNat_ofNat, Nat.mod_eq_of_lt (by omega)]
    omega

/-- Where both values fit, the tick count is defined. -/
theorem ticks_of_lt {ns r : DWord} (h1 : r.toNat / 1000 * ns.toNat < 2 ^ 64)
    (h2 : (r.toNat / 1000 * ns.toNat + 999999) / 1000000 < 2 ^ 32) :
    ticks ns r = some (BitVec.ofNat 32 ((r.toNat / 1000 * ns.toNat + 999999) / 1000000)) := by
  unfold ticks ceilDiv Config.mulW Config.pwmRegW
  simp only
  have e : r.toNat / 1000 * ns.toNat + 1000000 - 1 = r.toNat / 1000 * ns.toNat + 999999 := by omega
  rw [if_neg (by omega), if_neg (by omega), e]

/-- Where one does not fit, it is refused. -/
theorem ticks_of_le {ns r : DWord}
    (h : 2 ^ 64 ≤ r.toNat / 1000 * ns.toNat ∨ 2 ^ 32 ≤ (r.toNat / 1000 * ns.toNat + 999999) / 1000000) :
    ticks ns r = none := by
  unfold ticks ceilDiv Config.mulW Config.pwmRegW
  simp only
  split
  · rfl
  · rw [if_pos (by omega)]

theorem clampDuty_toNat (ns period : DWord) : (clampDuty ns period).toNat = min ns.toNat period.toNat := by
  unfold clampDuty
  split <;> omega

/-! ### Registers (R48) -/

/-- A register write that succeeds. -/
theorem mmioWrite_of_faultFree {s : State} (r : PwmReg) (v : Word) (hf : s.env.faultFree = true) :
    mmioWrite r v s =
      (true, setPwmReg r (some v) (perform (.mmioWrite (s.pwm.base + pwmOffset s.launch.params r) v) s)) := by
  simp only [mmioWrite, attempt_of_faultFree _ hf, if_true]

/-- A register write that fails leaves the register unspecified (D20). -/
theorem mmioWrite_of_fail {s : State} (r : PwmReg) (v : Word) (hf : s.env.faultFree = false) (hd : s.env.head % 2 = 1) :
    mmioWrite r v s =
      (false, setPwmReg r none (drawNat (perform (.mmioWrite (s.pwm.base + pwmOffset s.launch.params r) v) s)).2) := by
  have : (s.env.head % 2 == 0) = false := by simp [hd]
  simp only [mmioWrite, attempt_of_draw _ hf, this, Bool.false_eq_true, if_false]

/-- A read of a register whose content is known. -/
theorem mmioRead_of_known {s : State} {r : PwmReg} {v : Word} (hf : s.env.faultFree = true)
    (hc : s.launch.params.pwmConnected = true) (hr : pwmReg s r = some v) :
    mmioRead r s = (some v, perform (.mmioRead (s.pwm.base + pwmOffset s.launch.params r)) s) := by
  have : pwmReg (perform (.mmioRead (s.pwm.base + pwmOffset s.launch.params r)) s) r = pwmReg s r := by cases r <;> rfl
  simp only [mmioRead, attempt_of_faultFree _ hf, if_true, perform_launch, hc, this, hr]

/-! ### What the bodies touch -/

/-- Only the pulse generator's flag, its descriptor, its registers, the trace and the draws differ. -/
structure PulseOnly (s t : State) : Prop where
  frame : t = { s with
    alloc := { s.alloc with pwm := t.alloc.pwm }
    pwm := t.pwm
    pulse := t.pulse
    calls := t.calls
    env := t.env }
  calls : s.calls <+: t.calls
  faultFree : t.env.faultFree = s.env.faultFree

theorem PulseOnly.refl (s : State) : PulseOnly s s := ⟨rfl, List.prefix_refl _, rfl⟩

theorem PulseOnly.trans {s t u : State} (h : PulseOnly s t) (k : PulseOnly t u) : PulseOnly s u := by
  refine ⟨?_, h.calls.trans k.calls, k.faultFree.trans h.faultFree⟩
  have h' := h.frame
  have k' := k.frame
  rw [h'] at k'
  exact k'

theorem PulseOnly.launch {s t : State} (h : PulseOnly s t) : t.launch = s.launch := by rw [h.frame]

theorem pulseOnly_perform (c : Call) (s : State) : PulseOnly s (perform c s) := ⟨rfl, List.prefix_append _ _, rfl⟩

theorem pulseOnly_drawNat (s : State) : PulseOnly s (drawNat s).2 := ⟨rfl, List.prefix_refl _, rfl⟩

theorem pulseOnly_attempt (c : Call) (s : State) : PulseOnly s (attempt c s).2 := by
  rcases attempt_state c s with e | e <;> rw [e]
  · exact pulseOnly_perform c s
  · exact (pulseOnly_perform c s).trans (pulseOnly_drawNat _)

theorem pulseOnly_setPwmReg (r : PwmReg) (v : Option Word) (s : State) : PulseOnly s (setPwmReg r v s) := by
  cases r <;> exact ⟨rfl, List.prefix_refl _, rfl⟩

theorem pulseOnly_setRun (r : Option PulseRun) (s : State) : PulseOnly s (setRun r s) := ⟨rfl, List.prefix_refl _, rfl⟩

theorem pulseOnly_setPwmState (p : PwmState) (s : State) : PulseOnly s (setPwmState p s) :=
  ⟨rfl, List.prefix_refl _, rfl⟩

theorem pulseOnly_pwmRelease (s : State) : PulseOnly s (pwmRelease s) := ⟨rfl, List.prefix_refl _, rfl⟩

theorem pulseOnly_pwmClaim (s : State) : PulseOnly s (pwmClaim s) := ⟨rfl, List.prefix_refl _, rfl⟩

/-- Everything a register write can do. -/
theorem pulseOnly_mmioWrite (r : PwmReg) (v : Word) (s : State) : PulseOnly s (mmioWrite r v s).2 := by
  unfold mmioWrite
  simp only
  split <;> exact (pulseOnly_attempt _ _).trans (pulseOnly_setPwmReg _ _ _)

/-- Everything a register read can do. -/
theorem pulseOnly_mmioRead (r : PwmReg) (s : State) : PulseOnly s (mmioRead r s).2 := by
  have h := pulseOnly_attempt (.mmioRead (s.pwm.base + pwmOffset s.launch.params r)) s
  unfold mmioRead
  simp only
  by_cases ha : (attempt (.mmioRead (s.pwm.base + pwmOffset s.launch.params r)) s).1 = true
  · rw [if_pos ha]
    split
    · exact h
    · exact h.trans (pulseOnly_drawNat _)
  · rw [if_neg ha]
    exact h

theorem pulseOnly_setPeriod (ns : DWord) (s : State) : PulseOnly s (setPeriod ns s).2 := by
  unfold setPeriod
  split
  · exact .refl s
  · next t _ =>
    have h := pulseOnly_mmioWrite .period t s
    simp only
    split
    · exact h.trans ⟨rfl, List.prefix_refl _, rfl⟩
    · exact h

theorem pulseOnly_setDuty (ns : DWord) (s : State) : PulseOnly s (setDuty ns s).2 := by
  unfold setDuty
  simp only
  split
  · exact .refl s
  · next t _ =>
    have h := pulseOnly_mmioWrite .width t s
    split
    · exact h.trans ⟨rfl, List.prefix_refl _, rfl⟩
    · exact h

theorem pulseOnly_pwmEnable (s : State) : PulseOnly s (pwmEnable s).2 := by
  have h := pulseOnly_mmioWrite .config s.launch.params.cfgLoad s
  unfold pwmEnable
  simp only
  split
  · exact h.trans ((pulseOnly_setRun _ _).trans (pulseOnly_setPwmState _ _))
  · exact h.trans (pulseOnly_setRun _ _)

theorem pulseOnly_pwmDisable (s : State) : PulseOnly s (pwmDisable s).2 := by
  have h := pulseOnly_mmioWrite .config s.launch.params.cfgReset s
  unfold pwmDisable
  simp only
  split
  · exact h.trans ((pulseOnly_setRun _ _).trans (pulseOnly_setPwmState _ _))
  · exact h.trans (pulseOnly_setRun _ _)

/-- Everything PWM.TD's body can do. -/
theorem pulseOnly_pwmTeardown (s : State) : PulseOnly s (pwmTeardown s).2 := by
  have h := pulseOnly_mmioWrite .config s.launch.params.cfgReset s
  unfold pwmTeardown
  simp only
  split
  · exact .refl s
  · split <;> exact h.trans ((pulseOnly_setRun _ _).trans (pulseOnly_pwmRelease _))

theorem pulseOnly_pwmSelfTest (s : State) : PulseOnly s (pwmSelfTest s).2 := by
  have h := pulseOnly_mmioWrite .scratch s.launch.params.pwmTestPattern s
  unfold pwmSelfTest
  simp only
  split
  · have k := h.trans (pulseOnly_mmioRead .scratch _)
    split
    · exact k
    · split <;> exact k
  · exact h

theorem pulseOnly_pwmProgram (s : State) : PulseOnly s (pwmProgram s).2 := by
  unfold pwmProgram
  refine andThen_keeps (P := PulseOnly s) ?_ fun _ t ht => andThen_keeps (P := PulseOnly s) ?_ fun _ u hu => ?_
  · exact onErr_keeps (P := PulseOnly s) (pulseOnly_setPeriod _ _) fun _ _ _ h => h.trans (pulseOnly_pwmRelease _)
  · exact onErr_keeps (P := PulseOnly s) (ht.trans (pulseOnly_setDuty _ _)) fun _ _ _ h => h.trans (pulseOnly_pwmRelease _)
  · exact onErr_keeps (P := PulseOnly s) (hu.trans ((pulseOnly_setPwmState _ _).trans (pulseOnly_pwmEnable _)))
      fun _ _ _ h => h.trans (pulseOnly_pwmRelease _)

/-- Everything PWM.INIT's body can do. -/
theorem pulseOnly_pwmInit (s : State) : PulseOnly s (pwmInit s).2 := by
  have h := pulseOnly_attempt .allocPwm s
  unfold pwmInit
  simp only
  split
  · exact .refl s
  split
  · refine andThen_keeps (P := PulseOnly s) ?_ fun _ t ht => ht.trans (pulseOnly_pwmProgram t)
    exact onErr_keeps (P := PulseOnly s) (h.trans ((pulseOnly_pwmClaim _).trans (pulseOnly_pwmSelfTest _)))
      fun _ _ _ h => h.trans (pulseOnly_pwmRelease _)
  · exact h

/-! ### The outcomes of the bodies -/

/-- A register write succeeds and sets the register, or fails and leaves it unspecified; before that only the trace and the draws
have moved. -/
theorem mmioWrite_cases (r : PwmReg) (v : Word) (s : State) :
    ∃ u : State, u = { s with calls := u.calls, env := u.env }
      ∧ (mmioWrite r v s = (true, setPwmReg r (some v) u) ∨ mmioWrite r v s = (false, setPwmReg r none u)) := by
  refine ⟨(attempt (.mmioWrite (s.pwm.base + pwmOffset s.launch.params r) v) s).2, ?_, ?_⟩
  · rcases attempt_state (.mmioWrite (s.pwm.base + pwmOffset s.launch.params r) v) s with e | e <;> rw [e] <;> rfl
  · unfold mmioWrite
    simp only
    split
    · exact .inl rfl
    · exact .inr rfl

/-- A register read fails or gives a value; only the trace and the draws have moved. -/
theorem mmioRead_cases (r : PwmReg) (s : State) :
    ∃ (v : Option Word) (u : State), u = { s with calls := u.calls, env := u.env } ∧ mmioRead r s = (v, u) := by
  refine ⟨(mmioRead r s).1, (mmioRead r s).2, ?_, rfl⟩
  have h : ∀ c, (attempt c s).2 = { s with calls := (attempt c s).2.calls, env := (attempt c s).2.env } := by
    intro c
    rcases attempt_state c s with e | e <;> rw [e] <;> rfl
  have k := h (.mmioRead (s.pwm.base + pwmOffset s.launch.params r))
  unfold mmioRead
  simp only
  split
  · split
    · exact k
    · simp only [drawWord]
      rw [k]
      rfl
  · exact k

/-- SetPeriod: refused, or the register is written and the period stored, or the write fails and the period stays (R139). -/
theorem setPeriod_cases (ns : DWord) (s : State) :
    setPeriod ns s = (.refuse .tickOverflow, s) ∨ ∃ (u : State) (v : Word), u = { s with calls := u.calls, env := u.env } ∧
      (setPeriod ns s = (.ok (), { u with
          pwm := { s.pwm with periodNs := ns }, pulse := { s.pulse with period := some v } })
        ∨ setPeriod ns s = (.err .transportError .none, { u with pulse := { s.pulse with period := none } })) := by
  unfold setPeriod
  split
  · exact .inl rfl
  · next t _ =>
    obtain ⟨u, hu, e | e⟩ := mmioWrite_cases .period t s <;> refine .inr ⟨u, t, hu, ?_⟩ <;> rw [e] <;> rw [hu]
    · exact .inl rfl
    · exact .inr rfl

/-- SetDuty: the same with the clamped duty cycle (R141). -/
theorem setDuty_cases (ns : DWord) (s : State) :
    setDuty ns s = (.refuse .tickOverflow, s) ∨ ∃ (u : State) (v : Word), u = { s with calls := u.calls, env := u.env } ∧
      (setDuty ns s = (.ok (), { u with
          pwm := { s.pwm with dutyNs := clampDuty ns s.pwm.periodNs }, pulse := { s.pulse with width := some v } })
        ∨ setDuty ns s = (.err .transportError .none, { u with pulse := { s.pulse with width := none } })) := by
  unfold setDuty
  simp only
  split
  · exact .inl rfl
  · next t _ =>
    obtain ⟨u, hu, e | e⟩ := mmioWrite_cases .width t s <;> refine .inr ⟨u, t, hu, ?_⟩ <;> rw [e] <;> rw [hu]
    · exact .inl rfl
    · exact .inr rfl

/-- Enable: the source started and the descriptor enabled, or the write failed and the source unknown (R143). -/
theorem pwmEnable_cases (s : State) : ∃ u : State, u = { s with calls := u.calls, env := u.env } ∧
    (pwmEnable s = (.ok (), { u with
        pwm := { s.pwm with state := .enabled }
        pulse := { s.pulse with
          config := some s.launch.params.cfgLoad
          run := some { running := true, period := s.pulse.period, width := s.pulse.width } } })
      ∨ pwmEnable s = (.err .transportError .none, { u with pulse := { s.pulse with config := none, run := none } })) := by
  unfold pwmEnable
  obtain ⟨u, hu, e | e⟩ := mmioWrite_cases .config s.launch.params.cfgLoad s <;> refine ⟨u, hu, ?_⟩ <;> rw [e] <;> rw [hu]
  · exact .inl rfl
  · exact .inr rfl

/-- PWM.DIS: the source stopped and the descriptor disabled, or the write failed and the source unknown (R144). -/
theorem pwmDisable_cases (s : State) : ∃ u : State, u = { s with calls := u.calls, env := u.env } ∧
    (pwmDisable s = (.ok (), { u with
        pwm := { s.pwm with state := .disabled }
        pulse := { s.pulse with config := some s.launch.params.cfgReset, run := some stopped } })
      ∨ pwmDisable s = (.err .transportError .none, { u with pulse := { s.pulse with config := none, run := none } })) := by
  unfold pwmDisable
  obtain ⟨u, hu, e | e⟩ := mmioWrite_cases .config s.launch.params.cfgReset s <;> refine ⟨u, hu, ?_⟩ <;> rw [e] <;> rw [hu]
  · exact .inl rfl
  · exact .inr rfl

/-- PWM.TD: nothing held, or the descriptor released whatever the write did (R145). -/
theorem pwmTeardown_cases (s : State) :
    (s.alloc.pwm = false ∧ pwmTeardown s = (.ok (), s)) ∨ (s.alloc.pwm = true ∧ ∃ (u : State) (p : Pulse) (r : Res Unit),
      u = { s with calls := u.calls, env := u.env } ∧ (r = .ok () ∨ r = .err .transportError .none) ∧
      pwmTeardown s = (r, { u with alloc := { s.alloc with pwm := false }, pwm := PwmDesc.reset, pulse := p })) := by
  unfold pwmTeardown
  cases ha : s.alloc.pwm
  · exact .inl ⟨rfl, rfl⟩
  · right
    refine ⟨rfl, ?_⟩
    simp only [Bool.not_true, Bool.false_eq_true, if_false]
    obtain ⟨u, hu, e | e⟩ := mmioWrite_cases .config s.launch.params.cfgReset s <;> rw [e]
    · refine ⟨u, { s.pulse with config := some s.launch.params.cfgReset, run := some stopped }, _, hu, .inl rfl, ?_⟩
      rw [hu]
      rfl
    · refine ⟨u, { s.pulse with config := none, run := none }, _, hu, .inr rfl, ?_⟩
      rw [hu]
      rfl

/-- The self-test passes, or fails with one of two errors; the descriptor and its flag are untouched (R137). -/
theorem pwmSelfTest_cases (s : State) : ∃ (u : State) (r : Res Unit), u = { s with pulse := u.pulse, calls := u.calls, env := u.env } ∧
    (r = .ok () ∨ r = .err .initError .transportError ∨ r = .err .selfTestFailure .none) ∧ pwmSelfTest s = (r, u) := by
  unfold pwmSelfTest
  obtain ⟨u, hu, e | e⟩ := mmioWrite_cases .scratch s.launch.params.pwmTestPattern s <;> rw [e]
  · obtain ⟨v, w, hw, e2⟩ := mmioRead_cases .scratch (setPwmReg .scratch (some s.launch.params.pwmTestPattern) u)
    have k : w = { s with pulse := w.pulse, calls := w.calls, env := w.env } := by
      rw [hu] at hw
      rw [hw]
      rfl
    simp only [if_true, e2]
    cases v with
    | none => exact ⟨w, _, k, .inr (.inl rfl), rfl⟩
    | some x =>
      by_cases hx : x = s.launch.params.pwmTestPattern
      · exact ⟨w, _, k, .inl rfl, if_pos hx⟩
      · exact ⟨w, _, k, .inr (.inr rfl), if_neg hx⟩
  · refine ⟨_, _, ?_, .inr (.inl rfl), rfl⟩
    rw [hu]
    rfl

/-! ### The bodies when every collaborator answers -/

theorem setPeriod_of_faultFree {s : State} {ns : DWord} {t : Word} (hf : s.env.faultFree = true)
    (ht : ticks ns s.pwm.refHz = some t) :
    setPeriod ns s = (.ok (), { s with
      pwm := { s.pwm with periodNs := ns }
      pulse := { s.pulse with period := some t }
      calls := s.calls ++ [.mmioWrite (s.pwm.base + s.launch.params.offPeriod) t] }) := by
  simp only [setPeriod, ht, mmioWrite_of_faultFree _ _ hf, if_true]
  rfl

theorem setDuty_of_faultFree {s : State} {ns : DWord} {t : Word} (hf : s.env.faultFree = true)
    (ht : ticks (clampDuty ns s.pwm.periodNs) s.pwm.refHz = some t) :
    setDuty ns s = (.ok (), { s with
      pwm := { s.pwm with dutyNs := clampDuty ns s.pwm.periodNs }
      pulse := { s.pulse with width := some t }
      calls := s.calls ++ [.mmioWrite (s.pwm.base + s.launch.params.offWidth) t] }) := by
  simp only [setDuty, ht, mmioWrite_of_faultFree _ _ hf, if_true]
  rfl

theorem pwmEnable_of_faultFree {s : State} (hf : s.env.faultFree = true) :
    pwmEnable s = (.ok (), { s with
      pwm := { s.pwm with state := .enabled }
      pulse := { s.pulse with
        config := some s.launch.params.cfgLoad
        run := some { running := true, period := s.pulse.period, width := s.pulse.width } }
      calls := s.calls ++ [.mmioWrite (s.pwm.base + s.launch.params.offConfig) s.launch.params.cfgLoad] }) := by
  simp only [pwmEnable, mmioWrite_of_faultFree _ _ hf, if_true]
  rfl

theorem pwmDisable_of_faultFree {s : State} (hf : s.env.faultFree = true) :
    pwmDisable s = (.ok (), { s with
      pwm := { s.pwm with state := .disabled }
      pulse := { s.pulse with config := some s.launch.params.cfgReset, run := some stopped }
      calls := s.calls ++ [.mmioWrite (s.pwm.base + s.launch.params.offConfig) s.launch.params.cfgReset] }) := by
  simp only [pwmDisable, mmioWrite_of_faultFree _ _ hf, if_true]
  rfl

theorem pwmSelfTest_of_faultFree {s : State} (hf : s.env.faultFree = true) (hc : s.launch.params.pwmConnected = true) :
    pwmSelfTest s = (.ok (), { s with
      pulse := { s.pulse with scratch := some s.launch.params.pwmTestPattern }
      calls := s.calls ++ [.mmioWrite (s.pwm.base + s.launch.params.offScratch) s.launch.params.pwmTestPattern,
        .mmioRead (s.pwm.base + s.launch.params.offScratch)] }) := by
  simp only [pwmSelfTest, mmioWrite_of_faultFree _ _ hf, if_true]
  rw [mmioRead_of_known (v := s.launch.params.pwmTestPattern) (by exact hf) (by exact hc) (by rfl)]
  simp [perform, setPwmReg, pwmOffset]

/-- PWM.INIT's body when every collaborator answers (R136). -/
theorem pwmInit_of_faultFree {s : State} {tp td : Word} (hf : s.env.faultFree = true)
    (hc : s.launch.params.pwmConnected = true) (hs : s.pwm.state = .uninitialized) (ha : s.alloc.pwm = false)
    (hp : ticks s.launch.cfg.pwmPeriodNs s.launch.cfg.pwmRefHz = some tp)
    (hd : ticks (clampDuty s.launch.cfg.pwmDutyNs s.launch.cfg.pwmPeriodNs) s.launch.cfg.pwmRefHz = some td) :
    pwmInit s = (.ok (), { s with
      alloc := { s.alloc with pwm := true }
      pwm :=
        { state := .enabled
          base := s.launch.cfg.pwmBase
          refHz := s.launch.cfg.pwmRefHz
          periodNs := s.launch.cfg.pwmPeriodNs
          dutyNs := clampDuty s.launch.cfg.pwmDutyNs s.launch.cfg.pwmPeriodNs }
      pulse :=
        { scratch := some s.launch.params.pwmTestPattern
          config := some s.launch.params.cfgLoad
          period := some tp
          width := some td
          run := some { running := true, period := some tp, width := some td } }
      calls := s.calls ++ [.allocPwm,
        .mmioWrite (s.launch.cfg.pwmBase + s.launch.params.offScratch) s.launch.params.pwmTestPattern,
        .mmioRead (s.launch.cfg.pwmBase + s.launch.params.offScratch),
        .mmioWrite (s.launch.cfg.pwmBase + s.launch.params.offPeriod) tp,
        .mmioWrite (s.launch.cfg.pwmBase + s.launch.params.offWidth) td,
        .mmioWrite (s.launch.cfg.pwmBase + s.launch.params.offConfig) s.launch.params.cfgLoad] }) := by
  unfold pwmInit
  rw [if_neg (by simp [hs, ha])]
  simp only [attempt_of_faultFree _ hf, if_true]
  rw [pwmSelfTest_of_faultFree (by exact hf) (by exact hc)]
  simp only [onErr_ok, andThen_ok, pwmProgram]
  rw [setPeriod_of_faultFree (t := tp) (by exact hf) (by exact hp)]
  simp only [onErr_ok, andThen_ok]
  rw [setDuty_of_faultFree (t := td) (by exact hf) (by exact hd)]
  simp only [onErr_ok, andThen_ok]
  rw [pwmEnable_of_faultFree (by exact hf)]
  simp [perform, setPwmState, pwmClaim]

end Sys2Proof.Machine
end

