-- ==== Sys2Proof/Laws/Registers.lean ====
section
/-! SUPPORT. Register access: everything an exchange and a register access can do (R110, R117 to R127). -/

namespace Sys2Proof.Machine

/-- The block's side is untouched: only the device, the trace of calls and the draws differ, and of the device not the last
conversion word. -/
structure DeviceOnly (s t : State) : Prop where
  frame : t = { s with dev := t.dev, calls := t.calls, env := t.env }
  sel : t.dev.sel = s.dev.sel
  calls : s.calls <+: t.calls
  faultFree : t.env.faultFree = s.env.faultFree

theorem DeviceOnly.refl (s : State) : DeviceOnly s s := ⟨rfl, rfl, List.prefix_refl _, rfl⟩

theorem DeviceOnly.trans {s t u : State} (h : DeviceOnly s t) (k : DeviceOnly t u) : DeviceOnly s u := by
  refine ⟨?_, k.sel.trans h.sel, h.calls.trans k.calls, k.faultFree.trans h.faultFree⟩
  have h' := h.frame
  have k' := k.frame
  rw [h'] at k'
  exact k'

theorem DeviceOnly.launch {s t : State} (h : DeviceOnly s t) : t.launch = s.launch := by rw [h.frame]

theorem deviceOnly_perform (c : Call) (s : State) : DeviceOnly s (perform c s) :=
  ⟨rfl, rfl, List.prefix_append _ _, rfl⟩

theorem deviceOnly_drawNat (s : State) : DeviceOnly s (drawNat s).2 := ⟨rfl, rfl, List.prefix_refl _, rfl⟩

theorem deviceOnly_setFraming (f : Framing) (s : State) : DeviceOnly s (setFraming f s) :=
  ⟨rfl, rfl, List.prefix_refl _, rfl⟩

theorem deviceOnly_framingUnknown (s : State) : DeviceOnly s (framingUnknown s) :=
  (deviceOnly_drawNat s).trans (deviceOnly_setFraming _ _)

theorem deviceOnly_setDevReg (a : Half) (v : Byte) (s : State) : DeviceOnly s (setDevReg a v s) :=
  ⟨rfl, rfl, List.prefix_refl _, rfl⟩

theorem deviceOnly_clearDevReg (a : Half) (s : State) : DeviceOnly s (clearDevReg a s) :=
  ⟨rfl, rfl, List.prefix_refl _, rfl⟩

theorem deviceOnly_deviceForget (s : State) : DeviceOnly s (deviceForget s) :=
  DeviceOnly.trans (t := { s with dev := { s.dev with reg := [] } }) ⟨rfl, rfl, List.prefix_refl _, rfl⟩
    (deviceOnly_framingUnknown _)

theorem deviceOnly_interfaceEffect (v : Byte) (s : State) : DeviceOnly s (interfaceEffect v s) := by
  unfold interfaceEffect
  simp only
  split
  · exact deviceOnly_setFraming _ _
  split
  · exact .refl s
  · exact deviceOnly_framingUnknown _

theorem deviceOnly_deviceWrite (a : Half) (v : Byte) (s : State) : DeviceOnly s (deviceWrite a v s) := by
  unfold deviceWrite
  split
  · split
    · exact (deviceOnly_setDevReg _ _ _).trans (deviceOnly_interfaceEffect _ _)
    · exact deviceOnly_setDevReg _ _ _
  · exact deviceOnly_clearDevReg _ _

theorem deviceOnly_deviceWriteUnknown (a : Half) (s : State) : DeviceOnly s (deviceWriteUnknown a s) := by
  unfold deviceWriteUnknown
  split
  · exact (deviceOnly_clearDevReg _ _).trans (deviceOnly_framingUnknown _)
  · exact deviceOnly_clearDevReg _ _

theorem deviceOnly_deviceAnswer (a : Half) (s : State) : DeviceOnly s (deviceAnswer a s).2 := by
  unfold deviceAnswer
  split
  · split
    · exact .refl s
    split
    · exact deviceOnly_drawNat s
    · exact .refl s
  · exact .refl s

theorem deviceOnly_rxData (rx : List (Option Byte)) (s : State) : DeviceOnly s (rxData rx s).2 := by
  unfold rxData
  split
  · exact .refl s
  · exact deviceOnly_drawNat s

theorem deviceOnly_drawBus (s : State) : DeviceOnly s (drawBus s).2 := by
  unfold drawBus
  split
  · exact .refl s
  · exact deviceOnly_drawNat s

/-- Everything an exchange can do to the state. -/
theorem deviceOnly_busExchange (tx : List Byte) (s : State) : DeviceOnly s (busExchange tx s).state := by
  have h := (deviceOnly_perform (.busExchange tx) s).trans (deviceOnly_drawBus _)
  unfold busExchange
  simp only
  split
  · refine h.trans ?_
    simp only [deviceFrame]
    split
    · exact deviceOnly_deviceAnswer _ _
    · exact deviceOnly_deviceWrite _ _ _
    · exact deviceOnly_deviceForget _
  · refine h.trans ?_
    simp only [deviceFrameFailed]
    split
    · exact .refl _
    · exact deviceOnly_deviceWriteUnknown _ _
    · exact deviceOnly_deviceForget _
  · exact h

/-- Everything REG.RD's body can do to the state. -/
theorem deviceOnly_regRead (a : Half) (s : State) : DeviceOnly s (regRead a s).2 := by
  unfold regRead
  refine regGuard_keeps (P := DeviceOnly s) (.refl s) ?_
  simp only
  split
  · exact deviceOnly_busExchange _ _
  · exact deviceOnly_busExchange _ _
  · exact (deviceOnly_busExchange _ _).trans (deviceOnly_rxData _ _)

/-- Everything REG.WR's body can do to the state. -/
theorem deviceOnly_regWrite (a : Half) (v : Byte) (s : State) : DeviceOnly s (regWrite a v s).2 := by
  unfold regWrite
  refine regGuard_keeps (P := DeviceOnly s) (.refl s) ?_
  simp only
  split <;> exact deviceOnly_busExchange _ _

theorem deviceOnly_regWriteBack (a : Half) (new : Byte) (b : Bool) (s : State) :
    DeviceOnly s (regWriteBack a new b s).2 := by
  unfold regWriteBack
  simp only
  split
  · exact deviceOnly_busExchange _ _
  · exact deviceOnly_busExchange _ _
  · split <;> exact deviceOnly_busExchange _ _

/-- Everything REG.WRM's body can do to the state. -/
theorem deviceOnly_regWriteMasked (a : Half) (m v : Byte) (s : State) : DeviceOnly s (regWriteMasked a m v s).2 := by
  unfold regWriteMasked
  refine regGuard_keeps (P := DeviceOnly s) (.refl s) ?_
  have h := deviceOnly_busExchange (readFrame s.launch.params a) s
  simp only
  split
  · exact h
  · split
    · exact h
    · exact h.trans ((deviceOnly_drawNat _).trans (deviceOnly_regWriteBack _ _ _ _))
  · exact h.trans ((deviceOnly_rxData _ _).trans (deviceOnly_regWriteBack _ _ _ _))

theorem deviceOnly_regReadMasked (a : Half) (m : Byte) (s : State) : DeviceOnly s (regReadMasked a m s).2 :=
  andThen_keeps (P := DeviceOnly s) (deviceOnly_regRead a s) fun _ _ h => h

/-! ### The registers after a write (R120 to R122) -/

/-- The written register holds the byte; without a device nothing is known of it. -/
theorem devReg_deviceWrite_same (a : Half) (v : Byte) (s : State) :
    devReg (deviceWrite a v s) a = if s.launch.params.devConnected = true then some v else none := by
  unfold deviceWrite interfaceEffect
  split
  · split
    · simp only
      split
      · simp
      split
      · simp
      · simp [framingUnknown, drawFraming]
    · simp
  · simp

/-- Every other register is as before. -/
theorem devReg_deviceWrite_other {a x : Half} (v : Byte) (s : State) (h : x ≠ a) :
    devReg (deviceWrite a v s) x = devReg s x := by
  unfold deviceWrite interfaceEffect
  split
  · split
    · simp only
      split
      · rw [devReg_setFraming, devReg_setDevReg, if_neg h]
      split
      · rw [devReg_setDevReg, if_neg h]
      · simp only [framingUnknown, drawFraming]
        rw [devReg_setFraming, devReg_drawNat, devReg_setDevReg, if_neg h]
    · rw [devReg_setDevReg, if_neg h]
  · rw [devReg_clearDevReg, if_neg h]

/-- The framing after a write (R121): a write of any register but the setup register leaves it. -/
theorem framing_deviceWrite_other {a : Half} (v : Byte) {s : State} (h : a ≠ s.launch.params.addrSetup) :
    (deviceWrite a v s).dev.framing = s.dev.framing ∧ (deviceWrite a v s).env = s.env := by
  unfold deviceWrite
  rw [if_neg h]
  split <;> exact ⟨rfl, rfl⟩

/-- REG.WR's body when every collaborator answers (R119). -/
theorem regWrite_of_faultFree {s : State} {a : Half} (v : Byte) (hv : s.launch.params.Valid = true)
    (hf : s.env.faultFree = true) (ho : RegOpen a s) :
    regWrite a v s = (.ok (), deviceWrite a v (perform (.busExchange (writeFrame s.launch.params a v)) s)) := by
  have hr : (drawBus (perform (.busExchange (writeFrame s.launch.params a v)) s)).1 = .ok := by
    rw [drawBus_of_faultFree (by exact hf)]
  have hx := busExchange_write hv ho.encodable hr
  rw [drawBus_of_faultFree (by exact hf)] at hx
  unfold regWrite
  rw [regGuard_open ho]
  simp only [hx]

/-- REG.RD's body when every collaborator answers and the register's content is known (R117, R118). -/
theorem regRead_of_known {s : State} {a : Half} {b : Byte} (hv : s.launch.params.Valid = true)
    (hf : s.env.faultFree = true) (ho : RegOpen a s) (hc : s.launch.params.devConnected = true) (hb : devReg s a = some b) :
    regRead a s = (.ok b, perform (.busExchange (readFrame s.launch.params a)) s) := by
  have hr : (drawBus (perform (.busExchange (readFrame s.launch.params a)) s)).1 = .ok := by
    rw [drawBus_of_faultFree (by exact hf)]
  have hx := busExchange_read hv ho.encodable hr
  rw [drawBus_of_faultFree (by exact hf)] at hx
  unfold regRead
  rw [regGuard_open ho]
  simp only [hx, deviceAnswer, perform_launch, hc, if_true, devReg_perform, hb]
  rw [rxData_rxBytes (some b) (by rfl) (Params.valid_frames hv).2.2]

/-- The byte a read frame gives when every collaborator answers (R118): the register's content where it is known, otherwise a draw,
which for the setup register shows register framing. -/
structure ReadGives (s : State) (a : Half) (b : Byte) : Prop where
  known : ∀ v, s.launch.params.devConnected = true → devReg s a = some v → b = v
  setup : s.launch.params.devConnected = true → devReg s a = none → a = s.launch.params.addrSetup →
    b &&& s.launch.params.setupIfMask = s.launch.params.ifValReg

theorem setupUnknown_field {p : Params} (hv : p.Valid = true) (d : Byte) :
    setupUnknown p d &&& p.setupIfMask = p.ifValReg := by
  have h := (Params.valid_interface hv).2.2.1
  apply BitVec.eq_of_getElem_eq
  intro i hi
  have hb := congrArg (fun x => x.getLsbD i) h
  simp [hi] at hb
  simp [setupUnknown]
  cases hm : p.setupIfMask[i] <;> simp_all

theorem deviceAnswer_known {s : State} {a : Half} {b : Byte} (hc : s.launch.params.devConnected = true)
    (hb : devReg s a = some b) : deviceAnswer a s = (some b, s) := by simp [deviceAnswer, hc, hb]

theorem deviceAnswer_setup {s : State} {a : Half} (hc : s.launch.params.devConnected = true) (hb : devReg s a = none)
    (ha : a = s.launch.params.addrSetup) :
    deviceAnswer a s = (some (setupUnknown s.launch.params (drawByte s).1), (drawByte s).2) := by
  simp only [deviceAnswer, hc, if_true, hb, ← ha]

theorem deviceAnswer_unknown {s : State} {a : Half}
    (h : s.launch.params.devConnected = false ∨ (devReg s a = none ∧ a ≠ s.launch.params.addrSetup)) :
    deviceAnswer a s = (none, s) := by
  unfold deviceAnswer
  rcases h with h | ⟨h, ha⟩
  · simp [h]
  · simp [h, ha]

/-- The data byte of a read frame that is answered, and the draws left after it (R118). -/
theorem rxData_answeredByte {s : State} {a : Half} {n : Nat} (h : s.launch.params.rxDataIndex < n) :
    rxData (rxBytes s.launch.params n (deviceAnswer a s).1) (deviceAnswer a s).2
      = ((answeredByte s a s.env).1, { s with env := (answeredByte s a s.env).2 }) := by
  have hl : (deviceAnswer a s).2.launch = s.launch := (deviceOnly_deviceAnswer a s).launch
  rw [rxData_rxBytes _ (by rw [hl]) h]
  unfold answeredByte
  by_cases hc : s.launch.params.devConnected = true
  · cases hb : devReg s a with
    | some b => simp [deviceAnswer_known hc hb, hc]
    | none =>
      by_cases ha : a = s.launch.params.addrSetup
      · rw [deviceAnswer_setup hc hb ha]
        simp [hc, ha, setupUnknown, drawByte, drawNat]
      · rw [deviceAnswer_unknown (.inr ⟨hb, ha⟩)]
        simp [hc, ha, drawByte, drawNat]
  · rw [deviceAnswer_unknown (.inl (by simpa using hc))]
    simp [hc, drawByte, drawNat]

/-- What is answered depends on the device and the parameters alone. -/
theorem answeredByte_congr {s t : State} (hl : t.launch = s.launch) (hd : t.dev = s.dev) (a : Half) (e : Env) :
    answeredByte t a e = answeredByte s a e := by
  simp only [answeredByte, hl, devReg, hd]

/-- The read half of a register access whose frame is answered: the frame is sent, the data byte comes back, the device is as
before. -/
theorem readFrame_answered {s : State} {a : Half} (hv : s.launch.params.Valid = true)
    (he : addrEncodable s.launch.params a = true) {e : Env}
    (hr : drawBus (perform (.busExchange (readFrame s.launch.params a)) s)
      = (.ok, { perform (.busExchange (readFrame s.launch.params a)) s with env := e })) :
    ∃ x : Exchange, busExchange (readFrame s.launch.params a) s = x ∧ x.res = .ok
      ∧ rxData x.rx x.state = ((answeredByte s a e).1,
        { s with calls := s.calls ++ [.busExchange (readFrame s.launch.params a)], env := (answeredByte s a e).2 }) := by
  have hx := busExchange_read hv he (by rw [hr])
  rw [hr] at hx
  refine ⟨_, hx, rfl, ?_⟩
  have h := rxData_answeredByte (s := { perform (.busExchange (readFrame s.launch.params a)) s with env := e }) (a := a)
    (Params.valid_frames hv).2.2
  exact h

/-- What is known of the byte that is answered. -/
theorem readGives_answeredByte {s : State} (hv : s.launch.params.Valid = true) (a : Half) (e : Env) :
    ReadGives s a (answeredByte s a e).1 := by
  refine ⟨fun v hc hb => by simp [answeredByte, hc, hb], fun hc hb ha => ?_⟩
  subst ha
  simp only [answeredByte, hc, hb, if_true, and_self]
  exact setupUnknown_field hv _

theorem answeredByte_faultFree (s : State) (a : Half) (e : Env) : (answeredByte s a e).2.faultFree = e.faultFree := by
  unfold answeredByte
  dsimp only
  split <;> rfl

/-- The same when every collaborator answers. -/
theorem readFrame_of_faultFree {s : State} {a : Half} (hv : s.launch.params.Valid = true) (hf : s.env.faultFree = true)
    (he : addrEncodable s.launch.params a = true) :
    ∃ x : Exchange, busExchange (readFrame s.launch.params a) s = x ∧ x.res = .ok
      ∧ rxData x.rx x.state = ((answeredByte s a s.env).1,
        { s with calls := s.calls ++ [.busExchange (readFrame s.launch.params a)], env := (answeredByte s a s.env).2 }) :=
  readFrame_answered hv he (by rw [drawBus_of_faultFree (by exact hf)]; rfl)

/-! ### The framing after a write (R121, R122) -/

/-- A write frame that the device took. -/
theorem framingAfterWrite_deviceWrite {s : State} (hv : s.launch.params.Valid = true) (a : Half) (v : Byte)
    (h : s.dev.framing = .register) : FramingAfterWrite s.launch.params a v s.env (deviceWrite a v s) := by
  have hne := (Params.valid_interface hv).2.2.2
  unfold FramingAfterWrite deviceWrite
  dsimp only
  by_cases hc : s.launch.params.devConnected = true <;> by_cases ha : a = s.launch.params.addrSetup <;>
    simp only [hc, ha, if_true, if_false, true_and, false_and, and_true, and_false, not_true, not_false_eq_true,
      Bool.false_eq_true, false_implies, true_or, true_implies, false_or]
  · unfold interfaceEffect
    by_cases h1 : v &&& s.launch.params.setupIfMask = s.launch.params.ifValConv
    · simp [h1, hne]
    · by_cases h2 : v &&& s.launch.params.setupIfMask = s.launch.params.ifValReg
      · simp [h2, hne.symm, h]
      · simp only [setDevReg_launch, h1, h2, if_false, false_implies, true_and]
        exact fun _ => ⟨rfl, rfl⟩
  · simp [h]
  · simp [h]
  · simp [h]

/-- A write frame that failed. -/
theorem framingAfterFailure_deviceWriteUnknown {s : State} (a : Half) (h : s.dev.framing = .register) :
    FramingAfterFailure s.launch.params a s.env (deviceWriteUnknown a s) := by
  unfold FramingAfterFailure deviceWriteUnknown
  by_cases ha : a = s.launch.params.addrSetup
  · simp [ha, framingUnknown, drawFraming, setFraming]
  · simp [ha, h]

theorem devReg_deviceWriteUnknown (a x : Half) (s : State) :
    devReg (deviceWriteUnknown a s) x = if x = a then none else devReg s x := by
  unfold deviceWriteUnknown
  split
  · simp [framingUnknown, drawFraming]
  · simp

/-! ### The register accesses when every collaborator answers -/

/-- REG.WRM's body when every collaborator answers (R124): the device takes `(old & ~m) | v`, `old` the byte answered. -/
theorem regWriteMasked_answered {s : State} {a : Half} (m v : Byte) (hv : s.launch.params.Valid = true)
    (hf : s.env.faultFree = true) (ho : RegOpen a s) :
    let r := answeredByte s a s.env
    regWriteMasked a m v s = (.ok (), deviceWrite a (maskedValue r.1 m v)
      { s with
        calls := s.calls ++ [.busExchange (readFrame s.launch.params a),
          .busExchange (writeFrame s.launch.params a (maskedValue r.1 m v))]
        env := r.2 }) := by
  intro r
  obtain ⟨x, hx, hok, hrx⟩ := readFrame_of_faultFree hv hf ho.encodable
  have hff : r.2.faultFree = true := (answeredByte_faultFree s a s.env).trans hf
  unfold regWriteMasked
  rw [regGuard_open ho]
  simp only [hx, hok, hrx]
  unfold regWriteBack
  rw [busExchange_write (by exact hv) (by exact ho.encodable) (by rw [drawBus_of_faultFree (by exact hff)]),
    drawBus_of_faultFree (by exact hff)]
  simp only [perform, List.append_assoc]
  rfl

/-- The same, as far as the steps of DEV.INIT need it. -/
theorem regWriteMasked_of_faultFree {s : State} {a : Half} (m v : Byte) (hv : s.launch.params.Valid = true)
    (hf : s.env.faultFree = true) (ho : RegOpen a s) :
    ∃ (old : Byte) (u : State), ReadGives s a old ∧ u = { s with calls := u.calls, env := u.env }
      ∧ u.env.faultFree = true ∧ regWriteMasked a m v s = (.ok (), deviceWrite a (maskedValue old m v) u) :=
  ⟨_, _, readGives_answeredByte hv a s.env, rfl, (answeredByte_faultFree s a s.env).trans hf,
    regWriteMasked_answered m v hv hf ho⟩

/-- REG.RD's body when every collaborator answers (R117): the byte answered. -/
theorem regRead_answered {s : State} {a : Half} (hv : s.launch.params.Valid = true) (hf : s.env.faultFree = true)
    (ho : RegOpen a s) :
    regRead a s = (.ok (answeredByte s a s.env).1,
      { s with
        calls := s.calls ++ [.busExchange (readFrame s.launch.params a)], env := (answeredByte s a s.env).2 }) := by
  obtain ⟨x, hx, hok, hrx⟩ := readFrame_of_faultFree hv hf ho.encodable
  unfold regRead
  rw [regGuard_open ho]
  simp only [hx, hok, hrx]

end Sys2Proof.Machine
end

