-- ==== Sys2Proof/Laws/DevConfig.lean ====
section
/-! SUPPORT. Device configuration (spec/42_device_config.md): what a register access of DEV.INIT leaves when every collaborator
answers, what steps 1 and 3 to 6 do then (R151, R153 to R156), and what DevTeardown does (R161). -/

namespace Sys2Proof.Machine

/-! ### Register accesses when every collaborator answers -/

theorem deviceWrite_calls (a : Half) (v : Byte) (s : State) : (deviceWrite a v s).calls = s.calls := by
  unfold deviceWrite interfaceEffect
  split
  · split
    · simp only
      split
      · rfl
      split
      · rfl
      · rfl
    · rfl
  · rfl

/-- A write frame that is answered (R120, R121): the register holds the byte, or nothing is known of it without a device; the
others are as before; the framing follows the interface-mode field of a connected device's setup register. -/
structure Wrote (a : Half) (v : Byte) (s t : State) : Prop where
  only : DeviceOnly s t
  same : devReg t a = if s.launch.params.devConnected = true then some v else none
  other : ∀ x : Half, x ≠ a → devReg t x = devReg s x
  stays : a ≠ s.launch.params.addrSetup ∨ s.launch.params.devConnected = false
    ∨ v &&& s.launch.params.setupIfMask = s.launch.params.ifValReg → t.dev.framing = s.dev.framing
  toConv : a = s.launch.params.addrSetup → s.launch.params.devConnected = true →
    v &&& s.launch.params.setupIfMask = s.launch.params.ifValConv → t.dev.framing = .conversion

theorem wrote_deviceWrite {a : Half} {v : Byte} {s u : State} (hv : s.launch.params.Valid = true)
    (hu : u = { s with calls := u.calls, env := u.env }) (hl : s.calls <+: u.calls) (hf : u.env.faultFree = s.env.faultFree)
    (hr : s.dev.framing = .register) : Wrote a v s (deviceWrite a v u) := by
  have hul : u.launch = s.launch := by rw [hu]
  have hud : u.dev = s.dev := by rw [hu]
  have hso : DeviceOnly s u := ⟨by rw [hu], by rw [hud], hl, hf⟩
  obtain ⟨f1, f2, -⟩ := framingAfterWrite_deviceWrite (s := u) (by rw [hul]; exact hv) a v (by rw [hud]; exact hr)
  rw [hul] at f1 f2
  refine ⟨hso.trans (deviceOnly_deviceWrite a v u), ?_, fun x hx => ?_, fun h => ?_, fun ha hc hm => (f1 ⟨⟨ha, hc⟩, hm⟩).1⟩
  · rw [devReg_deviceWrite_same, hul]
  · rw [devReg_deviceWrite_other v u hx, devReg, hud, devReg]
  · rw [hr]
    refine (f2 ?_).1
    rcases h with h | h | h
    · exact .inl fun k => h k.1
    · exact .inl fun k => by rw [h] at k; exact absurd k.2 (by simp)
    · exact .inr h

/-- A register access of a step that is `Ok`. -/
@[simp] theorem stepAccess_ok {α : Type} (v : α) (s : State) : stepAccess (.ok v, s) = (.ok v, s) := rfl

/-! ### The steps of DEV.INIT when every collaborator answers (R151 to R157) -/

theorem collaborate_of_faultFree {c : Call} {s : State} (f : State → Res Unit × State) (h : s.env.faultFree = true) :
    collaborate c s f = f (perform c s) := by
  simp [collaborate, attempt_of_faultFree c h]

/-- Step 1 (R151): the reset pulse, where the drawn line is there, puts the device into register framing. -/
theorem step1_of_faultFree {s : State} (hf : s.env.faultFree = true) :
    ∃ t, step1 s = (.ok (), t)
      ∧ t = { s with alloc := { s.alloc with gpio := t.alloc.gpio }, dev := t.dev, calls := t.calls, env := t.env }
      ∧ t.env = (if s.launch.cfg.resetLinePresent = true then s.env.advance else s.env)
      ∧ (s.launch.cfg.resetLinePresent = true ∧ s.env.head % 2 = 0 →
        t.alloc.gpio = true ∧ t.dev = { reg := [], framing := .register, sel := none })
      ∧ (¬ (s.launch.cfg.resetLinePresent = true ∧ s.env.head % 2 = 0) → t.alloc = s.alloc ∧ t.dev = s.dev) := by
  unfold step1
  by_cases hr : s.launch.cfg.resetLinePresent = true
  · have hn : (!s.launch.cfg.resetLinePresent) = false := by simp [hr]
    rw [hn, if_neg (by simp), collaborate_of_faultFree _ hf, if_pos hr]
    dsimp only
    by_cases hh : s.env.head % 2 = 0
    · have hb : (drawBool (perform .gpioGetOptional s)).1 = true := by
        show (s.env.head % 2 == 0) = true
        simp [hh]
      rw [hb, if_neg (by simp)]
      rw [collaborate_of_faultFree _ (by exact hf), collaborate_of_faultFree _ (by exact hf)]
      exact ⟨_, rfl, rfl, rfl, fun _ => ⟨rfl, rfl⟩, fun h => absurd ⟨hr, hh⟩ h⟩
    · have hb : (drawBool (perform .gpioGetOptional s)).1 = false := by
        show (s.env.head % 2 == 0) = false
        simp [hh]
      rw [hb, if_pos (by simp)]
      exact ⟨_, rfl, rfl, rfl, fun h => absurd h.2 hh, fun _ => ⟨rfl, rfl⟩⟩
  · have hn : (!s.launch.cfg.resetLinePresent) = true := by simp [hr]
    rw [hn, if_pos rfl, if_neg hr]
    exact ⟨_, rfl, rfl, rfl, fun h => absurd h.1 hr, fun _ => ⟨rfl, rfl⟩⟩

/-! ### Steps 3 to 6 when every collaborator answers (R153 to R156) -/

/-- What holds between two register accesses of steps 3 to 6: the guards of R116 pass, and a known setup register of a connected
device shows register framing. -/
structure RegisterPhase (l : Launch) (t : State) : Prop where
  launch : t.launch = l
  valid : l.params.Valid = true
  faultFree : t.env.faultFree = true
  initialized : t.xport.initialized = true
  width : t.xport.wordWidth = 8
  framing : t.dev.framing = .register
  field : ∀ b : Byte, l.params.devConnected = true → devReg t l.params.addrSetup = some b →
    b &&& l.params.setupIfMask = l.params.ifValReg

/-- What steps 3 to 6 have no business with is as before. -/
def OnDevice (s t : State) : Prop :=
  t = { s with devState := t.devState, log := t.log, dev := t.dev, calls := t.calls, env := t.env }

theorem OnDevice.trans {s t u : State} (h : OnDevice s t) (k : OnDevice t u) : OnDevice s u := by
  unfold OnDevice at *
  rw [k, h]

theorem DeviceOnly.onDevice {s t : State} (h : DeviceOnly s t) : OnDevice s t := by
  unfold OnDevice
  rw [h.frame]

theorem DeviceOnly.log {s t : State} (h : DeviceOnly s t) : t.log = s.log := by rw [h.frame]

variable {l : Launch} {s : State}

theorem RegisterPhase.open {a : Half} (h : RegisterPhase l s) (he : addrEncodable l.params a = true) : RegOpen a s :=
  ⟨by rw [h.launch]; exact he, h.initialized, h.width, h.framing⟩

/-- An access that leaves the framing and a known setup register as they must be. -/
theorem RegisterPhase.next {t : State} (h : RegisterPhase l s) (ho : OnDevice s t) (hf : t.env.faultFree = true)
    (hr : t.dev.framing = .register) (hs : ∀ b : Byte, l.params.devConnected = true → devReg t l.params.addrSetup = some b →
      b &&& l.params.setupIfMask = l.params.ifValReg) : RegisterPhase l t := by
  refine ⟨?_, h.valid, hf, ?_, ?_, hr, hs⟩ <;> rw [ho]
  · exact h.launch
  · exact h.initialized
  · exact h.width

theorem RegisterPhase.wrote {t : State} {a : Half} {v : Byte} (h : RegisterPhase l s) (w : Wrote a v s t)
    (hv : a = l.params.addrSetup → l.params.devConnected = true → v &&& l.params.setupIfMask = l.params.ifValReg) :
    RegisterPhase l t := by
  have hl := h.launch
  refine h.next w.only.onDevice (w.only.faultFree.trans h.faultFree) ?_ fun b hc hb => ?_
  · refine (w.stays ?_).trans h.framing
    rw [hl]
    by_cases ha : a = l.params.addrSetup
    · cases hc : l.params.devConnected
      · exact .inr (.inl rfl)
      · exact .inr (.inr (hv ha hc))
    · exact .inl ha
  · by_cases ha : a = l.params.addrSetup
    · rw [← ha, w.same, hl, if_pos hc] at hb
      cases hb
      exact hv ha hc
    · rw [w.other _ (Ne.symm ha)] at hb
      exact h.field b hc hb

theorem regWrite_wrote {a : Half} (v : Byte) (h : RegisterPhase l s) (he : addrEncodable l.params a = true) :
    ∃ t, regWrite a v s = (.ok (), t) ∧ Wrote a v s t ∧ (a ≠ l.params.addrSetup → t.env = s.env) := by
  have hv : s.launch.params.Valid = true := by rw [h.launch]; exact h.valid
  refine ⟨_, regWrite_of_faultFree v hv h.faultFree (h.open he), wrote_deviceWrite hv rfl (List.prefix_append _ _) rfl h.framing, ?_⟩
  intro ha
  exact (framing_deviceWrite_other v (by rw [← h.launch] at ha; exact ha)).2

theorem regWriteMasked_wrote {a : Half} (m v : Byte) (h : RegisterPhase l s) (he : addrEncodable l.params a = true) :
    ∃ old t, regWriteMasked a m v s = (.ok (), t) ∧ Wrote a (maskedValue old m v) s t
      ∧ (∀ b : Byte, l.params.devConnected = true → devReg s a = some b → old = b)
      ∧ (l.params.devConnected = true → a = l.params.addrSetup → old &&& l.params.setupIfMask = l.params.ifValReg) := by
  have hv : s.launch.params.Valid = true := by rw [h.launch]; exact h.valid
  obtain ⟨old, u, hr, hu, huf, hx⟩ := regWriteMasked_of_faultFree m v hv h.faultFree (h.open he)
  have hl : s.calls <+: u.calls := by
    have := (deviceOnly_regWriteMasked a m v s).calls
    rwa [hx, deviceWrite_calls] at this
  refine ⟨old, _, hx, wrote_deviceWrite hv hu hl (huf.trans h.faultFree.symm) h.framing, fun b hc => ?_, fun hc ha => ?_⟩
  · exact hr.known b (by rw [h.launch]; exact hc)
  · cases hb : devReg s a with
    | some b => rw [hr.known b (by rw [h.launch]; exact hc) hb]; exact h.field b hc (ha ▸ hb)
    | none =>
      have := hr.setup (by rw [h.launch]; exact hc) hb (by rw [h.launch]; exact ha)
      rwa [h.launch] at this

/-- The self-test of step 3 (R153): the scratch register is written and read back; the byte answered is the sentinel where the
device is connected, else a draw. -/
theorem selfTest_of_faultFree (h : RegisterPhase l s) (he : addrEncodable l.params l.params.addrScratch = true) :
    ∃ t, RegisterPhase l t ∧ DeviceOnly s t
      ∧ devReg t l.params.addrScratch = (if l.params.devConnected = true then some l.params.sentinel else none)
      ∧ (∀ x : Half, x ≠ l.params.addrScratch → devReg t x = devReg s x)
      ∧ step3 s =
        let b : Byte := if l.params.devConnected = true then l.params.sentinel else BitVec.ofNat 8 s.env.head
        if b = l.params.sentinel then (.ok (), t)
        else
          let u : State := { t with log := t.log ++ [.selfTestMismatch b] }
          match l.params.selfTestPolicy with
          | .strict => (.err .initError .selfTestFailure, u)
          | .lenient => (.ok (), u) := by
  have n1 := (Params.valid_addrs h.valid).1
  obtain ⟨t, hx, hw, ht⟩ := regWrite_wrote l.params.sentinel h he
  have hp := h.wrote hw fun k => absurd k n1
  have hr := regRead_answered (by rw [hp.launch]; exact hp.valid) hp.faultFree (hp.open he)
  have hsame := hw.same
  rw [h.launch] at hsame
  have hb : (answeredByte t l.params.addrScratch t.env).1
      = if l.params.devConnected = true then l.params.sentinel else BitVec.ofNat 8 s.env.head := by
    unfold answeredByte
    simp only [hp.launch, hsame, ht n1]
    by_cases hc : l.params.devConnected = true <;> simp [hc]
  have hd : DeviceOnly t (regRead l.params.addrScratch t).2 := deviceOnly_regRead _ _
  rw [hr] at hd
  refine ⟨_, hp.next hd.onDevice (hd.faultFree.trans hp.faultFree) hp.framing hp.field, hw.only.trans hd, hsame, hw.other, ?_⟩
  unfold step3
  rw [h.launch, hx]
  simp only [stepAccess_ok, andThen_ok, hp.launch]
  rw [hr]
  simp only [stepAccess_ok, andThen_ok, hp.launch, hb]
  all_goals rfl

/-- Step 4 with single-cycle sequencing (R154): both fields are cleared. -/
theorem step4_of_faultFree (h : RegisterPhase l s) (hq : l.cfg.seqMode = .singleCycle)
    (e2 : addrEncodable l.params l.params.addrSeqCtrl = true) (e3 : addrEncodable l.params l.params.addrSetup = true) :
    ∃ (t : State) (seq setup : Byte), step4 s = (.ok (), t) ∧ RegisterPhase l t ∧ DeviceOnly s t
      ∧ devReg t l.params.addrSeqCtrl = (if l.params.devConnected = true then some seq else none)
      ∧ devReg t l.params.addrSetup = (if l.params.devConnected = true then some setup else none)
      ∧ seq &&& Config.seqCycMask = 0#8 ∧ setup &&& Config.setupSeqMask = 0#8
      ∧ (∀ b : Byte, l.params.devConnected = true → devReg s l.params.addrSeqCtrl = some b →
        seq &&& ~~~Config.seqCycMask = b &&& ~~~Config.seqCycMask)
      ∧ (∀ b n : Byte, l.params.devConnected = true → devReg s l.params.addrSetup = some b → Config.setupSeqMask &&& n = 0#8 →
        setup &&& n = b &&& n)
      ∧ ∀ x : Half, x ≠ l.params.addrSeqCtrl → x ≠ l.params.addrSetup → devReg t x = devReg s x := by
  have n2 := (Params.valid_addrs h.valid).2.1
  have i1 := (Params.valid_interface h.valid).1
  obtain ⟨o4, t4, x4, w4, k4, -⟩ := regWriteMasked_wrote Config.seqCycMask 0x00#8 h e2
  have h4 := h.wrote w4 fun k => absurd k n2
  obtain ⟨o5, t5, x5, w5, k5, r5⟩ := regWriteMasked_wrote Config.setupSeqMask 0x00#8 h4 e3
  have h5 := h4.wrote w5 fun _ hc => by
    rw [maskedValue_apart (by rw [BitVec.and_comm]; exact i1) (by simp)]
    exact r5 hc rfl
  have s4 := w4.same
  have s5 := w5.same
  rw [h.launch] at s4
  rw [h4.launch] at s5
  refine ⟨t5, maskedValue o4 Config.seqCycMask 0#8, maskedValue o5 Config.setupSeqMask 0#8, ?_, h5, w4.only.trans w5.only,
    (w5.other _ n2).trans s4, s5, maskedValue_inside (by simp), maskedValue_inside (by simp),
    fun b hc hb => ?_, fun b n hc hb hn => ?_, fun x hx hy => (w5.other x hy).trans (w4.other x hx)⟩
  rotate_left
  · rw [maskedValue_elsewhere (by simp) (by simp), k4 b hc hb]
  · rw [maskedValue_elsewhere (by simp) hn, k5 b hc ((w4.other _ (Ne.symm n2)).trans hb)]
  unfold step4
  simp only [h.launch, hq]
  rw [x4]
  simp only [stepAccess_ok, andThen_ok, h4.launch]
  rw [x5]
  rfl

/-- Step 4 with another sequencing mode (R154): accepted as it is, or refused, and nothing is written. -/
theorem step4_of_unimplemented (hl : s.launch = l) (hq : l.cfg.seqMode ≠ .singleCycle) :
    step4 s = (match l.params.unimplSeqPolicy with
      | .reject => .err .initError .unimplementedMode
      | .accept => .ok (), s) := by
  unfold step4
  rw [hl]
  cases hm : l.cfg.seqMode
  · exact absurd hm hq
  all_goals cases l.params.unimplSeqPolicy <;> rfl

/-- Step 5 (R155): the enable bit is set, and then the select field. -/
theorem step5_of_faultFree (h : RegisterPhase l s) (e4 : addrEncodable l.params l.params.addrGpMode = true) :
    ∃ (t : State) (gp : Byte), step5 s = (.ok (), t) ∧ RegisterPhase l t ∧ DeviceOnly s t
      ∧ devReg t l.params.addrGpMode = (if l.params.devConnected = true then some gp else none)
      ∧ (l.params.devConnected = true → gp &&& l.params.gpBusyEnMask = l.params.gpBusyEnMask)
      ∧ gp &&& l.params.gpBusySelMask = l.params.busySelOf l.cfg.busyPin
      ∧ (∀ b : Byte, l.params.devConnected = true → devReg s l.params.addrGpMode = some b →
        gp &&& ~~~(l.params.gpBusyEnMask ||| l.params.gpBusySelMask)
          = b &&& ~~~(l.params.gpBusyEnMask ||| l.params.gpBusySelMask))
      ∧ ∀ x : Half, x ≠ l.params.addrGpMode → devReg t x = devReg s x := by
  have n3 := (Params.valid_addrs h.valid).2.2
  obtain ⟨b1, b2⟩ := Params.valid_busy h.valid
  obtain ⟨o6, t6, x6, w6, r6, -⟩ := regWriteMasked_wrote l.params.gpBusyEnMask l.params.gpBusyEnMask h e4
  have h6 := h.wrote w6 fun k => absurd k n3
  obtain ⟨o7, t7, x7, w7, r7, -⟩ := regWriteMasked_wrote l.params.gpBusySelMask (l.params.busySelOf l.cfg.busyPin) h6 e4
  have h7 := h6.wrote w7 fun k => absurd k n3
  have s6 := w6.same
  have s7 := w7.same
  rw [h.launch] at s6
  rw [h6.launch] at s7
  refine ⟨t7, maskedValue o7 l.params.gpBusySelMask (l.params.busySelOf l.cfg.busyPin), ?_, h7, w6.only.trans w7.only, s7,
    fun hc => ?_, maskedValue_inside (b2 _), fun b hc hb => ?_, fun x hx => (w7.other x hx).trans (w6.other x hx)⟩
  · unfold step5
    simp only [h.launch]
    rw [x6]
    simp only [stepAccess_ok, andThen_ok, h6.launch]
    rw [x7]
    rfl
  · have hsel := apart_of_inside (b2 l.cfg.busyPin) (by rw [BitVec.and_comm]; exact b1)
    rw [maskedValue_apart (by rw [BitVec.and_comm]; exact b1) hsel, r7 _ hc (by rw [s6, if_pos hc])]
    exact maskedValue_inside (by simp)
  · rw [maskedValue_elsewhere (b2 _) (outside_right _ _), r7 _ hc (by rw [s6, if_pos hc]),
      maskedValue_elsewhere (by simp) (outside_left _ _), r6 b hc hb]

/-- Step 6 (R156): the interface-mode field of the requested mode is written, and a connected device frames by it. -/
theorem step6_of_faultFree (h : RegisterPhase l s) (e3 : addrEncodable l.params l.params.addrSetup = true) :
    ∃ (t : State) (setup : Byte), step6 s = (.ok (), t) ∧ DeviceOnly s t
      ∧ t.dev.framing = (if l.params.devConnected = true ∧ l.cfg.ifMode = .conversion then .conversion else .register)
      ∧ devReg t l.params.addrSetup = (if l.params.devConnected = true then some setup else none)
      ∧ setup &&& l.params.setupIfMask = interfaceValue l
      ∧ (∀ b n : Byte, l.params.devConnected = true → devReg s l.params.addrSetup = some b →
        l.params.setupIfMask &&& n = 0#8 → setup &&& n = b &&& n)
      ∧ ∀ x : Half, x ≠ l.params.addrSetup → devReg t x = devReg s x := by
  obtain ⟨-, i2, i3, -⟩ := Params.valid_interface h.valid
  have hin : interfaceValue l &&& ~~~l.params.setupIfMask = 0#8 := by
    unfold interfaceValue
    cases l.cfg.ifMode
    · exact i2
    · exact i3
  obtain ⟨o8, t8, x8, w8, r8, -⟩ := regWriteMasked_wrote l.params.setupIfMask (interfaceValue l) h e3
  have s8 := w8.same
  have hst := w8.stays
  have hco := w8.toConv
  rw [h.launch] at s8 hst hco
  have hm := maskedValue_inside (old := o8) hin
  refine ⟨t8, maskedValue o8 l.params.setupIfMask (interfaceValue l), ?_, w8.only, ?_, s8, hm, fun b n hc hb hn => ?_, w8.other⟩
  · unfold step6
    rw [h.launch, x8]
    rfl
  · cases hc : l.params.devConnected
    · simpa using (hst (.inr (.inl hc))).trans h.framing
    · cases hi : l.cfg.ifMode
      · simpa using hco rfl hc (hm.trans (by simp [interfaceValue, hi]))
      · simpa using (hst (.inr (.inr (hm.trans (by simp [interfaceValue, hi]))))).trans h.framing
  · rw [maskedValue_elsewhere hin hn, r8 b hc hb]

/-- Steps 3 to 6 (R153 to R156). -/
def registerSteps (s : State) : Res Unit × State :=
  andThen (runStep step3 .identityVerified s) fun _ s =>
  andThen (runStep step4 .sequencingConfigured s) fun _ s =>
  andThen (runStep step5 .busySignalConfigured s) fun _ s =>
  runStep step6 .interfaceModeConfigured s

theorem devSteps_eq (s : State) :
    devSteps s = andThen (runStep step1 .gpioReady s) fun _ s => andThen (runStep step2 .busReady s) fun _ s =>
      andThen (registerSteps s) fun _ s => runStep step7 .ready s := by
  have assoc : ∀ {α β γ : Type} (x : Res α × State) (f : α → State → Res β × State) (g : β → State → Res γ × State),
      andThen (andThen x f) g = andThen x fun v s => andThen (f v s) g := by
    intro α β γ x f g
    obtain ⟨r, s⟩ := x
    cases r <;> rfl
  simp only [devSteps, registerSteps, assoc]

theorem RegisterPhase.devState (h : RegisterPhase l s) (d : DevState) : RegisterPhase l { s with devState := d } :=
  ⟨h.launch, h.valid, h.faultFree, h.initialized, h.width, h.framing, h.field⟩

/-- Steps 3 to 6 when none of them stops: what the four registers hold, the framing and the log; every other register and the last
conversion word are as before. -/
theorem registerSteps_of_faultFree (h : RegisterPhase l s) (hq : l.cfg.seqMode = .singleCycle ∨ l.params.unimplSeqPolicy = .accept)
    (ht : l.params.devConnected = true ∨ BitVec.ofNat 8 s.env.head = l.params.sentinel ∨ l.params.selfTestPolicy = .lenient)
    (e1 : addrEncodable l.params l.params.addrScratch = true)
    (e2 : l.cfg.seqMode = .singleCycle → addrEncodable l.params l.params.addrSeqCtrl = true)
    (e3 : addrEncodable l.params l.params.addrSetup = true) (e4 : addrEncodable l.params l.params.addrGpMode = true) :
    ∃ t : State, registerSteps s = (.ok (), t) ∧ OnDevice s t ∧ t.devState = .interfaceModeConfigured
      ∧ t.env.faultFree = true
      ∧ t.log = s.log ++ (if l.params.devConnected = true ∨ BitVec.ofNat 8 s.env.head = l.params.sentinel then []
        else [.selfTestMismatch (BitVec.ofNat 8 s.env.head)])
      ∧ t.dev.framing = (if l.params.devConnected = true ∧ l.cfg.ifMode = .conversion then .conversion else .register)
      ∧ t.dev.sel = s.dev.sel
      ∧ (∀ x : Half, x ≠ l.params.addrScratch → x ≠ l.params.addrSetup → x ≠ l.params.addrGpMode →
        (x ≠ l.params.addrSeqCtrl ∨ l.cfg.seqMode ≠ .singleCycle) → devReg t x = devReg s x)
      ∧ (l.params.devConnected = false → devReg t l.params.addrScratch = none ∧ devReg t l.params.addrSetup = none
        ∧ devReg t l.params.addrGpMode = none ∧ (l.cfg.seqMode = .singleCycle → devReg t l.params.addrSeqCtrl = none))
      ∧ (l.params.devConnected = true → ∃ setup gp : Byte, devReg t l.params.addrScratch = some l.params.sentinel
        ∧ devReg t l.params.addrSetup = some setup ∧ setup &&& l.params.setupIfMask = interfaceValue l
        ∧ (∀ b : Byte, devReg s l.params.addrSetup = some b →
          setup &&& ~~~(l.params.setupIfMask ||| Config.setupSeqMask) = b &&& ~~~(l.params.setupIfMask ||| Config.setupSeqMask)
            ∧ (l.cfg.seqMode ≠ .singleCycle → setup &&& Config.setupSeqMask = b &&& Config.setupSeqMask))
        ∧ devReg t l.params.addrGpMode = some gp ∧ gp &&& l.params.gpBusyEnMask = l.params.gpBusyEnMask
        ∧ gp &&& l.params.gpBusySelMask = l.params.busySelOf l.cfg.busyPin
        ∧ (∀ b : Byte, devReg s l.params.addrGpMode = some b →
          gp &&& ~~~(l.params.gpBusyEnMask ||| l.params.gpBusySelMask)
            = b &&& ~~~(l.params.gpBusyEnMask ||| l.params.gpBusySelMask))
        ∧ (l.cfg.seqMode = .singleCycle → setup &&& Config.setupSeqMask = 0#8
          ∧ ∃ seq : Byte, devReg t l.params.addrSeqCtrl = some seq ∧ seq &&& Config.seqCycMask = 0#8
            ∧ ∀ b : Byte, devReg s l.params.addrSeqCtrl = some b →
              seq &&& ~~~Config.seqCycMask = b &&& ~~~Config.seqCycMask)) := by
  obtain ⟨n1, n2, n3⟩ := Params.valid_addrs h.valid
  obtain ⟨n4, n5, n6⟩ := Params.valid_addrs_apart h.valid
  -- step 3
  obtain ⟨t3, p3, d3, r3, o3, x3⟩ := selfTest_of_faultFree h e1
  obtain ⟨u3, y3, q3, k3, g3, v3⟩ : ∃ u : State, step3 s = (.ok (), u) ∧ RegisterPhase l u ∧ OnDevice s u
      ∧ u.log = s.log ++ (if l.params.devConnected = true ∨ BitVec.ofNat 8 s.env.head = l.params.sentinel then []
        else [.selfTestMismatch (BitVec.ofNat 8 s.env.head)]) ∧ u.dev = t3.dev := by
    rw [x3]
    by_cases hb : l.params.devConnected = true ∨ BitVec.ofNat 8 s.env.head = l.params.sentinel
    · refine ⟨t3, ?_, p3, d3.onDevice, by rw [if_pos hb, List.append_nil]; exact d3.log, rfl⟩
      dsimp only
      rw [if_pos]
      split
      · rfl
      · exact hb.resolve_left ‹_›
    · have hc : ¬ l.params.devConnected = true := fun k => hb (.inl k)
      have hd : ¬ BitVec.ofNat 8 s.env.head = l.params.sentinel := fun k => hb (.inr k)
      have hp := (ht.resolve_left hc).resolve_left hd
      refine ⟨{ t3 with log := t3.log ++ [.selfTestMismatch (BitVec.ofNat 8 s.env.head)] }, ?_,
        p3.next rfl p3.faultFree p3.framing p3.field, d3.onDevice.trans rfl, ?_, rfl⟩
      · simp only [if_neg hc, if_neg hd, hp]
      · rw [if_neg hb, ← d3.log]
  -- step 4
  have q3' := q3.devState .identityVerified
  obtain ⟨t4, x4, p4, d4, l4, c4, w4, s4, g4, o4⟩ : ∃ t : State,
      step4 { u3 with devState := .identityVerified } = (.ok (), t) ∧ RegisterPhase l t
      ∧ DeviceOnly { u3 with devState := .identityVerified } t
      ∧ (l.cfg.seqMode ≠ .singleCycle → devReg t l.params.addrSeqCtrl = devReg u3 l.params.addrSeqCtrl)
      ∧ (l.cfg.seqMode = .singleCycle → l.params.devConnected = false → devReg t l.params.addrSeqCtrl = none)
      ∧ (l.cfg.seqMode = .singleCycle → l.params.devConnected = true →
        ∃ seq : Byte, devReg t l.params.addrSeqCtrl = some seq ∧ seq &&& Config.seqCycMask = 0#8
          ∧ ∀ b : Byte, devReg u3 l.params.addrSeqCtrl = some b → seq &&& ~~~Config.seqCycMask = b &&& ~~~Config.seqCycMask)
      ∧ (l.cfg.seqMode = .singleCycle → l.params.devConnected = true →
        ∃ setup : Byte, devReg t l.params.addrSetup = some setup ∧ setup &&& Config.setupSeqMask = 0#8)
      ∧ (∀ b n : Byte, l.params.devConnected = true → devReg u3 l.params.addrSetup = some b →
        (l.cfg.seqMode = .singleCycle → Config.setupSeqMask &&& n = 0#8) →
        ∃ setup : Byte, devReg t l.params.addrSetup = some setup ∧ setup &&& n = b &&& n)
      ∧ ∀ x : Half, x ≠ l.params.addrSeqCtrl → x ≠ l.params.addrSetup → devReg t x = devReg u3 x := by
    by_cases hs : l.cfg.seqMode = .singleCycle
    · obtain ⟨t, seq, setup, x, p, d, a, b, c1, c2, m1, m2, o⟩ := step4_of_faultFree q3' hs (e2 hs) e3
      refine ⟨t, x, p, d, fun k => absurd hs k, fun _ hc => by rw [a, hc]; rfl,
        fun _ hc => ⟨seq, by rw [a, hc]; rfl, c1, fun y => m1 y hc⟩, fun _ hc => ⟨setup, by rw [b, hc]; rfl, c2⟩,
        fun y n hc hb hn => ⟨setup, by rw [b, hc]; rfl, m2 y n hc hb (hn hs)⟩, o⟩
    · refine ⟨_, ?_, q3', DeviceOnly.refl _, fun _ => rfl, fun k => absurd k hs, fun k => absurd k hs, fun k => absurd k hs,
        fun y n _ hb _ => ⟨y, hb, rfl⟩, fun _ _ _ => rfl⟩
      rw [step4_of_unimplemented q3'.launch hs, hq.resolve_left hs]
  -- steps 5 and 6
  obtain ⟨t5, gp, x5, p5, d5, r5, b5, c5, g5, o5⟩ := step5_of_faultFree (p4.devState .sequencingConfigured) e4
  obtain ⟨t6, setup, x6, d6, f6, r6, m6, k6, o6⟩ := step6_of_faultFree (p5.devState .busySignalConfigured) e3
  have frame4 : OnDevice s t4 := (k3.trans rfl : OnDevice s { u3 with devState := .identityVerified }).trans d4.onDevice
  have frame5 : OnDevice s t5 := (frame4.trans rfl : OnDevice s { t4 with devState := .sequencingConfigured }).trans d5.onDevice
  have frame6 : OnDevice s t6 := (frame5.trans rfl : OnDevice s { t5 with devState := .busySignalConfigured }).trans d6.onDevice
  have scratch : devReg t6 l.params.addrScratch = if l.params.devConnected = true then some l.params.sentinel else none := by
    refine (o6 _ n1).trans ((o5 _ n5).trans ((o4 _ n4 n1).trans ?_))
    rw [devReg, v3]
    exact r3
  have seqCtrl : devReg t6 l.params.addrSeqCtrl = devReg t4 l.params.addrSeqCtrl := (o6 _ n2).trans (o5 _ n6)
  have gpMode : devReg t6 l.params.addrGpMode = if l.params.devConnected = true then some gp else none := (o6 _ n3).trans r5
  have other3 : ∀ x : Half, x ≠ l.params.addrScratch → devReg u3 x = devReg s x := by
    intro x hx
    rw [devReg, v3]
    exact o3 x hx
  refine ⟨{ t6 with devState := .interfaceModeConfigured }, ?_, frame6.trans rfl, rfl, ?_, ?_, f6, ?_, fun x h1 h2 h3 h4 => ?_,
    fun hc => ?_, fun hc => ?_⟩
  · unfold registerSteps runStep
    rw [y3]
    simp only [andThen_ok]
    rw [x4]
    simp only [andThen_ok]
    rw [x5]
    simp only [andThen_ok]
    rw [x6]
    rfl
  · exact d6.faultFree.trans p5.faultFree
  · show t6.log = _
    exact d6.log.trans (d5.log.trans (d4.log.trans g3))
  · show t6.dev.sel = _
    rw [d6.sel, show t5.dev.sel = _ from d5.sel, show t4.dev.sel = _ from d4.sel]
    exact (congrArg Dev.sel v3).trans d3.sel
  · refine (o6 x h2).trans ((o5 x h3).trans (Eq.trans ?_ (other3 x h1)))
    by_cases hx : x = l.params.addrSeqCtrl
    · rw [hx] at h4 ⊢
      exact l4 (h4.resolve_left fun k => k rfl)
    · exact o4 x hx h2
  · exact ⟨scratch.trans (by simp [hc]), r6.trans (by simp [hc]), gpMode.trans (by simp [hc]),
      fun hs => seqCtrl.trans (c4 hs hc)⟩
  · have i1 := (Params.valid_interface h.valid).1
    have keeps : ∀ b n : Byte, devReg s l.params.addrSetup = some b → l.params.setupIfMask &&& n = 0#8 →
        (l.cfg.seqMode = .singleCycle → Config.setupSeqMask &&& n = 0#8) → setup &&& n = b &&& n := by
      intro b n hb hi hn
      obtain ⟨y, hy, he⟩ := g4 b n hc ((other3 _ (Ne.symm n1)).trans hb) hn
      exact (k6 y n hc ((o5 _ (Ne.symm n3)).trans hy) hi).trans he
    refine ⟨setup, gp, scratch.trans (if_pos hc), r6.trans (if_pos hc), m6,
      fun b hb => ⟨keeps b _ hb (outside_left _ _) fun _ => outside_right _ _, fun hs => keeps b _ hb i1 fun k => absurd k hs⟩,
      gpMode.trans (if_pos hc), b5 hc, c5, fun b hb => g5 b hc ?_, fun hs => ⟨?_, ?_⟩⟩
    · exact (o4 _ (Ne.symm n6) n3).trans ((other3 _ (Ne.symm n5)).trans hb)
    · obtain ⟨b, hb, hz⟩ := s4 hs hc
      rw [k6 b _ hc ((o5 _ (Ne.symm n3)).trans hb) i1]
      exact hz
    · obtain ⟨b, hb, hz, hk⟩ := w4 hs hc
      exact ⟨b, seqCtrl.trans hb, hz, fun y hy => hk y ((other3 _ (Ne.symm n4)).trans hy)⟩

/-! ### DevTeardown (R161, R240) -/

theorem mmioWrite_calls (r : PwmReg) (v : Word) (s : State) :
    (mmioWrite r v s).2.calls = s.calls ++ [.mmioWrite (s.pwm.base + pwmOffset s.launch.params r) v] := by
  have h : ∀ (o : Option Word) (u : State), (setPwmReg r o u).calls = u.calls := by
    intro o u
    cases r <;> rfl
  simp only [mmioWrite]
  split <;> rw [h] <;>
    rcases attempt_state (.mmioWrite (s.pwm.base + pwmOffset s.launch.params r) v) s with e | e <;> rw [e] <;> rfl

/-- PWM.TD performs one register write when a descriptor is held, and nothing otherwise (R145). -/
theorem pwmTeardown_calls (s : State) :
    (pwmTeardown s).2.calls = s.calls ++ if s.alloc.pwm = true then
      [.mmioWrite (s.pwm.base + s.launch.params.offConfig) s.launch.params.cfgReset] else [] := by
  unfold pwmTeardown
  cases ha : s.alloc.pwm
  · simp
  · simp only [Bool.not_true, Bool.false_eq_true, if_false, if_true]
    have h := mmioWrite_calls .config s.launch.params.cfgReset s
    split <;> exact h

/-- Everything PWM.TD does. -/
theorem pwmTeardown_eq (s : State) : ∃ (p : Pulse) (e : Env), (pwmTeardown s).2 = { s with
    alloc := { s.alloc with pwm := false }
    pwm := if s.alloc.pwm = true then PwmDesc.reset else s.pwm
    pulse := p
    calls := s.calls ++ if s.alloc.pwm = true then
      [.mmioWrite (s.pwm.base + s.launch.params.offConfig) s.launch.params.cfgReset] else []
    env := e } := by
  rw [← pwmTeardown_calls]
  rcases pwmTeardown_cases s with ⟨ha, h⟩ | ⟨ha, u, p, r, hu, -, h⟩
  · refine ⟨s.pulse, s.env, ?_⟩
    rw [h]
    have hal : { s.alloc with pwm := false } = s.alloc := by rw [← ha]
    rw [hal, ha]
    rfl
  · refine ⟨p, u.env, ?_⟩
    rw [h, ha, hu]
    rfl

/-- Everything DevTeardown does: it releases what is held, and nothing else changes but the pulse generator's registers. -/
theorem devTeardown_eq (s : State) : ∃ (p : Pulse) (e : Env), devTeardown s = { s with
    devState := .absent
    alloc := { handle := false, gpio := false, xport := false, clkgen := false, pwm := false }
    xport := { s.xport with initialized := false }
    ofl := { s.ofl with initialized := false }
    pwm := if s.alloc.pwm = true then PwmDesc.reset else s.pwm
    pulse := p
    calls := s.calls ++ (if s.alloc.xport = true then [.xportRemove] else [])
      ++ (if s.alloc.pwm = true then [.mmioWrite (s.pwm.base + s.launch.params.offConfig) s.launch.params.cfgReset] else [])
      ++ (if s.alloc.clkgen = true then [.clkRemove] else []) ++ (if s.alloc.gpio = true then [.gpioRemove] else [])
    env := e } := by
  obtain ⟨p, e, h⟩ := pwmTeardown_eq
    { releaseIf s.alloc.xport .xportRemove (fun a => { a with xport := false }) s with
      xport := { (releaseIf s.alloc.xport .xportRemove (fun a => { a with xport := false }) s).xport with initialized := false } }
  refine ⟨p, e, ?_⟩
  unfold devTeardown
  dsimp only
  rw [h]
  cases hx : s.alloc.xport <;> cases hc : s.alloc.clkgen <;> cases hg : s.alloc.gpio <;> simp [releaseIf, perform, hx, hc, hg]

end Sys2Proof.Machine
end

