-- ==== Sys2Proof/Laws/Encode.lean ====
section
/-! SUPPORT. Header words field by field (R83): what the fields of an assembled header are, and which headers a mask accepts. -/

namespace Sys2Proof

/-- A header of format RA with its reserved bits 0 (R83). -/
def raHeader (c : Byte) (a : Half) (m v : Byte) : DWord :=
  c.setWidth 64 ||| a.setWidth 64 <<< 16 ||| m.setWidth 64 <<< 32 ||| v.setWidth 64 <<< 40

/-- Bit `i` of a header. -/
theorem raHeader_getLsbD (c : Byte) (a : Half) (m v : Byte) (i : Nat) (hi : i < 64) :
    (raHeader c a m v).getLsbD i =
      if i < 16 then c.getLsbD i else if i < 32 then a.getLsbD (i - 16)
      else if i < 40 then m.getLsbD (i - 32) else v.getLsbD (i - 40) := by
  simp only [raHeader, BitVec.getLsbD_or, BitVec.getLsbD_shiftLeft, BitVec.getLsbD_setWidth]
  interval_cases i <;> simp

/-- Two bytes agree if their bits do; a proof over literals. -/
theorem field_ext {w : Nat} {x y : BitVec w} (h : ∀ i, i < w → x.getLsbD i = y.getLsbD i) : x = y :=
  BitVec.eq_of_getLsbD_eq (fun i hi => h i hi)

theorem headerOp_raHeader (c : Byte) (a : Half) (m v : Byte) : headerOp (raHeader c a m v) = c := by
  refine field_ext fun i hi => ?_
  rw [headerOp, BitVec.getLsbD_extractLsb', raHeader_getLsbD _ _ _ _ _ (by omega)]
  interval_cases i <;> simp

theorem headerA_raHeader (c : Byte) (a : Half) (m v : Byte) : headerA (raHeader c a m v) = a := by
  refine field_ext fun i hi => ?_
  rw [headerA, BitVec.getLsbD_extractLsb', raHeader_getLsbD _ _ _ _ _ (by omega)]
  interval_cases i <;> simp

theorem headerM_raHeader (c : Byte) (a : Half) (m v : Byte) : headerM (raHeader c a m v) = m := by
  refine field_ext fun i hi => ?_
  rw [headerM, BitVec.getLsbD_extractLsb', raHeader_getLsbD _ _ _ _ _ (by omega)]
  interval_cases i <;> simp

theorem headerV_raHeader (c : Byte) (a : Half) (m v : Byte) : headerV (raHeader c a m v) = v := by
  refine field_ext fun i hi => ?_
  rw [headerV, BitVec.getLsbD_extractLsb', raHeader_getLsbD _ _ _ _ _ (by omega)]
  interval_cases i <;> simp

/-- A header is its fields and its reserved bits. -/
theorem header_eq (h : DWord) :
    h = raHeader (headerOp h) (headerA h) (headerM h) (headerV h) ||| (h.extractLsb' 8 8).setWidth 64 <<< 8
      ||| (h.extractLsb' 48 16).setWidth 64 <<< 48 := by
  refine field_ext fun i hi => ?_
  simp only [BitVec.getLsbD_or, raHeader_getLsbD _ _ _ _ _ hi, BitVec.getLsbD_shiftLeft, BitVec.getLsbD_setWidth,
    BitVec.getLsbD_extractLsb', headerOp, headerA, headerM, headerV]
  interval_cases i <;> simp

/-- A header whose reserved bits are 0 is the header of its fields. -/
theorem header_of_reserved {h : DWord} (h1 : h.extractLsb' 8 8 = 0#8) (h2 : h.extractLsb' 48 16 = 0#16) :
    h = raHeader (headerOp h) (headerA h) (headerM h) (headerV h) := by
  have := header_eq h
  rw [h1, h2] at this
  simpa using this

/-- The encodings of the four register accesses are headers. -/
theorem encode_regRd (a : Half) : (0x01#64 ||| a.setWidth 64 <<< 16) = raHeader 0x01#8 a 0#8 0#8 := by simp [raHeader]

theorem encode_regWr (a : Half) (v : Byte) :
    (0x02#64 ||| a.setWidth 64 <<< 16 ||| v.setWidth 64 <<< 40) = raHeader 0x02#8 a 0#8 v := by simp [raHeader]

theorem encode_regRdm (a : Half) (m : Byte) :
    (0x03#64 ||| a.setWidth 64 <<< 16 ||| m.setWidth 64 <<< 32) = raHeader 0x03#8 a m 0#8 := by simp [raHeader]

theorem encode_regWrm (a : Half) (m v : Byte) :
    (0x04#64 ||| a.setWidth 64 <<< 16 ||| m.setWidth 64 <<< 32 ||| v.setWidth 64 <<< 40) = raHeader 0x04#8 a m v := by
  simp [raHeader]

/-! ### What a mask accepts (R85) -/

/-- The bits a mask keeps. -/
theorem getLsbD_of_and_mask {h m c : DWord} (e : h &&& m = c) {i : Nat} (hm : m.getLsbD i = true) :
    h.getLsbD i = c.getLsbD i := by
  have := congrArg (fun x => x.getLsbD i) e
  simpa [hm] using this

/-- A field above the opcode that the mask covers is 0 in an accepted header. -/
theorem field_of_and_mask {h m : DWord} {c : Byte} (e : h &&& m = c.setWidth 64) {lo w : Nat} (hlo : 8 ≤ lo)
    (hm : ∀ i < w, m.getLsbD (lo + i) = true) : h.extractLsb' lo w = 0#w := by
  refine field_ext fun i hi => ?_
  rw [BitVec.getLsbD_extractLsb', getLsbD_of_and_mask e (hm i hi)]
  have : 8 ≤ lo + i := by omega
  simp [hi, BitVec.getLsbD_of_ge c _ this]

/-- An accepted header has its reserved bits and its unused fields 0. -/
theorem reserved_of_accepted {h : DWord} {o : Op} (e : h &&& o.mask = o.code.setWidth 64) :
    h.extractLsb' 8 8 = 0#8 ∧ h.extractLsb' 48 16 = 0#16
      ∧ (o ∉ [.regRd, .regWr, .regRdm, .regWrm] → headerA h = 0#16)
      ∧ (o ∉ [.regRdm, .regWrm] → headerM h = 0#8) ∧ (o ∉ [.regWr, .regWrm] → headerV h = 0#8) := by
  refine ⟨field_of_and_mask e (by omega) ?_, field_of_and_mask e (by omega) ?_,
    fun hm => field_of_and_mask e (by omega) ?_, fun hm => field_of_and_mask e (by omega) ?_,
    fun hm => field_of_and_mask e (by omega) ?_⟩
  · clear e
    cases o <;> decide
  · clear e
    cases o <;> decide
  all_goals
    clear e
    revert hm
    cases o <;> decide

/-- A header with the opcode of an operation, its reserved bits and its unused fields 0 is accepted. -/
theorem accepted_of_reserved {h : DWord} {o : Op} (ho : headerOp h = o.code) (h1 : h.extractLsb' 8 8 = 0#8)
    (h2 : h.extractLsb' 48 16 = 0#16) (hA : o ∉ [.regRd, .regWr, .regRdm, .regWrm] → headerA h = 0#16)
    (hM : o ∉ [.regRdm, .regWrm] → headerM h = 0#8) (hV : o ∉ [.regWr, .regWrm] → headerV h = 0#8) :
    h &&& o.mask = o.code.setWidth 64 := by
  rw [header_of_reserved h1 h2, ho]
  generalize headerA h = a at *
  generalize headerM h = m at *
  generalize headerV h = v at *
  cases o
  case regRd =>
    rw [hM (by decide), hV (by decide)]
    refine field_ext fun i hi => ?_
    rw [BitVec.getLsbD_and, raHeader_getLsbD _ _ _ _ _ hi]
    interval_cases i <;> simp [Op.mask, Op.code]
  case regWr =>
    rw [hM (by decide)]
    refine field_ext fun i hi => ?_
    rw [BitVec.getLsbD_and, raHeader_getLsbD _ _ _ _ _ hi]
    interval_cases i <;> simp [Op.mask, Op.code]
  case regRdm =>
    rw [hV (by decide)]
    refine field_ext fun i hi => ?_
    rw [BitVec.getLsbD_and, raHeader_getLsbD _ _ _ _ _ hi]
    interval_cases i <;> simp [Op.mask, Op.code]
  case regWrm =>
    refine field_ext fun i hi => ?_
    rw [BitVec.getLsbD_and, raHeader_getLsbD _ _ _ _ _ hi]
    interval_cases i <;> simp [Op.mask, Op.code]
  all_goals
    rw [hA (by decide), hM (by decide), hV (by decide)]
    decide

/-! ### The opcode map (R86) -/

theorem ofCode_code (o : Op) : Op.ofCode o.code = some o := by cases o <;> decide

theorem code_of_ofCode {c : Byte} {o : Op} (h : Op.ofCode c = some o) : o.code = c := by
  have := List.find?_some h
  simpa using this

/-- Every accepted header has the opcode of its operation and passes its mask. -/
theorem decodeHeader_eq_ok {h : DWord} {o : Op} (e : decodeHeader h = .ok o) :
    headerOp h = o.code ∧ h &&& o.mask = o.code.setWidth 64 := by
  unfold decodeHeader at e
  split at e
  · cases e
  · next o' ho =>
    split at e
    · next hm =>
      cases e
      exact ⟨(code_of_ofCode ho).symm, hm⟩
    · cases e

/-- A header of an operation with its unused fields 0 decodes to the operation. -/
theorem decodeHeader_raHeader {o : Op} {a : Half} {m v : Byte} (hA : o ∉ [.regRd, .regWr, .regRdm, .regWrm] → a = 0#16)
    (hM : o ∉ [.regRdm, .regWrm] → m = 0#8) (hV : o ∉ [.regWr, .regWrm] → v = 0#8) :
    decodeHeader (raHeader o.code a m v) = .ok o := by
  have hm : raHeader o.code a m v &&& o.mask = o.code.setWidth 64 := by
    apply accepted_of_reserved (headerOp_raHeader _ _ _ _)
    · refine field_ext fun i hi => ?_
      rw [BitVec.getLsbD_extractLsb', raHeader_getLsbD _ _ _ _ _ (by omega)]
      interval_cases i <;> simp
    · refine field_ext fun i hi => ?_
      rw [BitVec.getLsbD_extractLsb', raHeader_getLsbD _ _ _ _ _ (by omega)]
      interval_cases i <;> simp
    · rwa [headerA_raHeader]
    · rwa [headerM_raHeader]
    · rwa [headerV_raHeader]
  simp only [decodeHeader, headerOp_raHeader, ofCode_code, hm, if_true]

end Sys2Proof
end

