-- ==== Sys2Proof/Laws/PerInstr.lean ====
section
/-! SUPPORT. Per instruction: "A decoder knows the length from the first word" (spec/30_encoding.md R82). -/

namespace Sys2Proof.Laws.RequestLength

/-- The first word of an instruction's request tells how many words the request has; a micro-operation has none. -/
def Statement (i : Instr) : Prop :=
  match encodeRequest i with
  | [] => i.isMicro = true
  | h :: rest => i.isMicro = false ∧ requestLength h = 1 + rest.length

/-- The length of a request whose header carries an operation. -/
theorem requestLength_raHeader (o : Op) (a : Half) (m v : Byte) :
    requestLength (raHeader o.code a m v) = 1 + o.operands := by
  rw [requestLength, headerOp_raHeader, ofCode_code]

theorem regRd (a : Half) : Statement (.regRd a) :=
  ⟨rfl, by rw [encode_regRd]; exact requestLength_raHeader .regRd a 0#8 0#8⟩

theorem regWr (a : Half) (v : Byte) : Statement (.regWr a v) :=
  ⟨rfl, by rw [encode_regWr]; exact requestLength_raHeader .regWr a 0#8 v⟩

theorem regRdm (a : Half) (m : Byte) : Statement (.regRdm a m) :=
  ⟨rfl, by rw [encode_regRdm]; exact requestLength_raHeader .regRdm a m 0#8⟩

theorem regWrm (a : Half) (m v : Byte) : Statement (.regWrm a m v) :=
  ⟨rfl, by rw [encode_regWrm]; exact requestLength_raHeader .regWrm a m v⟩

theorem pwmInit : Statement .pwmInit := ⟨rfl, rfl⟩

theorem pwmSetp (ns : DWord) : Statement (.pwmSetp ns) := ⟨rfl, rfl⟩

theorem pwmSetd (ns : DWord) : Statement (.pwmSetd ns) := ⟨rfl, rfl⟩

theorem pwmEn : Statement .pwmEn := ⟨rfl, rfl⟩

theorem pwmDis : Statement .pwmDis := ⟨rfl, rfl⟩

theorem pwmTd : Statement .pwmTd := ⟨rfl, rfl⟩

theorem pwmGetp : Statement .pwmGetp := ⟨rfl, rfl⟩

theorem devInit : Statement .devInit := ⟨rfl, rfl⟩

theorem devTd : Statement .devTd := ⟨rfl, rfl⟩

theorem oflInit (rxAddr rxLen flags : DWord) : Statement (.oflInit rxAddr rxLen flags) := ⟨rfl, rfl⟩

theorem msgSetp (w : DWord) : Statement (.msgSetp w) := ⟨rfl, rfl⟩

theorem msgSetch (ch : DWord) : Statement (.msgSetch ch) := ⟨rfl, rfl⟩

theorem oflXfer (reps : DWord) : Statement (.oflXfer reps) := ⟨rfl, rfl⟩

theorem settle (ms : DWord) : Statement (.settle ms) := ⟨rfl, rfl⟩

theorem cinv (addr len : DWord) : Statement (.cinv addr len) := ⟨rfl, rfl⟩

theorem decodeBuf (n : DWord) : Statement (.decodeBuf n) := ⟨rfl, rfl⟩

theorem acqIter : Statement .acqIter := ⟨rfl, rfl⟩

theorem acqRun : Statement .acqRun := ⟨rfl, rfl⟩

theorem csAssert : Statement .csAssert := rfl

theorem xfer (n : BitVec 12) : Statement (.xfer n) := rfl

theorem csDeassert : Statement .csDeassert := rfl

end Sys2Proof.Laws.RequestLength
end

