-- ==== Sys2Proof/Laws/Turn.lean ====
section
/-! SUPPORT. Whose turn it is, said once: what the host's step does (spec/00_scope.md R5, spec/30_encoding.md R82), and how the
turns of CTL, HOST and the DMA agent follow from the draws (spec/20_memory.md R65, spec/60_exceptions.md R248). -/

namespace Sys2Proof.Machine

/-! ### The step of the host (R5, R82) -/

@[simp] theorem drawDWords_length (k : Nat) (e : Env) : (drawDWords k e).1.length = k := by
  induction k generalizing e with
  | zero => rfl
  | succ k ih => simp [drawDWords, ih]

@[simp] theorem drawDWords_faultFree (k : Nat) (e : Env) : (drawDWords k e).2.faultFree = e.faultFree := by
  induction k generalizing e with
  | zero => rfl
  | succ k ih => rw [drawDWords]; exact ih _

/-- A request is still incomplete exactly while its header has not come, or fewer operand words than it opens (R82). -/
theorem decodeRequest_incomplete {ws : List DWord} :
    decodeRequest ws = .incomplete ↔
      ws = [] ∨ ∃ h rest o, ws = h :: rest ∧ decodeHeader h = .ok o ∧ rest.length < o.operands := by
  cases ws with
  | nil => simp [decodeRequest]
  | cons h rest =>
    unfold decodeRequest
    cases hd : decodeHeader h with
    | error e => simp [hd]
    | ok o =>
      dsimp only
      split <;> simp_all

theorem requestLength_of_decodeHeader {h : DWord} {o : Op} (e : decodeHeader h = .ok o) : requestLength h = 1 + o.operands := by
  rw [requestLength, show headerOp h = o.code from (decodeHeader_eq_ok e).1, ofCode_code]

/-- A header with all the words it opens is a whole request: it is decoded or refused, and no word is left. -/
theorem decodeRequest_whole {h : DWord} {ws : List DWord} (hl : ws.length = requestLength h - 1) :
    decodeRequest (h :: ws) ≠ .incomplete ∧ ∀ i rest, decodeRequest (h :: ws) = .instr i rest → rest = [] := by
  cases hd : decodeHeader h with
  | error e => simp [decodeRequest, hd]
  | ok o =>
    have ho : ws.length = o.operands := by rw [hl, requestLength_of_decodeHeader hd]; omega
    simp only [decodeRequest, hd]
    rw [if_neg (Nat.not_lt.2 (Nat.le_of_eq ho.symm))]
    refine ⟨nofun, fun i rest h => ?_⟩
    cases h
    exact List.drop_eq_nil_iff.2 (Nat.le_of_eq ho)

/-- Everything the host's choice does while a request is incomplete: nothing yet (an odd draw), or the words that make it whole. -/
theorem hostChoice_cases {ws : List DWord} (e : Env) (hi : decodeRequest ws = .incomplete) :
    (e.head % 2 = 1 → hostChoice ws e = (ws, e.advance))
      ∧ (e.head % 2 = 0 → ∃ (new : List DWord) (e' : Env), hostChoice ws e = (ws ++ new, e') ∧ new ≠ []
        ∧ decodeRequest (ws ++ new) ≠ .incomplete
        ∧ ∀ i rest, decodeRequest (ws ++ new) = .instr i rest → rest = []) := by
  refine ⟨fun hd => by rw [hostChoice, if_neg (by omega)], fun hd => ?_⟩
  rw [hostChoice, if_pos hd]
  rcases decodeRequest_incomplete.1 hi with rfl | ⟨h, rest, o, rfl, ho, hl⟩
  · exact ⟨_, _, rfl, nofun, decodeRequest_whole (drawDWords_length _ _)⟩
  · refine ⟨(drawDWords (requestLength h - (rest.length + 1)) e.advance).1, _, rfl, fun hn => ?_,
      decodeRequest_whole (ws := rest ++ _) ?_⟩
    · have := congrArg List.length hn
      rw [drawDWords_length, requestLength_of_decodeHeader ho] at this
      simp at this
      omega
    · rw [List.length_append, drawDWords_length, requestLength_of_decodeHeader ho]
      omega

/-- The host's step touches the request words and the draws, no other field. -/
theorem hostStep_frame (s : State) : hostStep s = { s with pending := (hostStep s).pending, env := (hostStep s).env } := rfl

theorem hostStep_faultFree (s : State) : (hostStep s).env.faultFree = s.env.faultFree := by
  show (hostChoice s.pending s.env).2.faultFree = _
  unfold hostChoice hostIssue
  split
  · split <;> simp
  · rfl

/-! ### The turns (R65, R235, R248) -/

theorem turn_of_unmarked {s : State} (hf : s.fault = none) (hr : s.refused = none) : turn s = agentTurn s := by
  simp only [turn, hf, hr]

theorem agentTurn_quiet {s : State} (h : s.inflight = []) : agentTurn s = ctlTurn s := if_pos h

theorem agentTurn_stuck {s : State} (h : s.inflight ≠ []) (hc : s.ctl = .stuck) :
    agentTurn s = .moves (land (s.env.head % s.inflight.length) { s with env := s.env.advance }) := by
  unfold agentTurn
  rw [if_neg h, if_pos hc]
  rfl

/-- The turns that the oldest word may wait are drawn first (log 34). -/
theorem agentTurn_undrawn {s : State} (h : s.inflight ≠ []) (hc : s.ctl ≠ .stuck) (hb : s.landBy = none) :
    agentTurn s = .moves { s with landBy := some s.env.head, env := s.env.advance } := by
  unfold agentTurn
  rw [if_neg h, if_neg hc, hb]
  rfl

/-- When none is left, it lands. -/
theorem agentTurn_due {s : State} (h : s.inflight ≠ []) (hc : s.ctl ≠ .stuck) (hb : s.landBy = some 0) :
    agentTurn s = .moves (land 0 s) := by
  unfold agentTurn
  rw [if_neg h, if_neg hc, hb]

/-- Otherwise the draw gives the turn to CTL or HOST, or lands a word. -/
theorem agentTurn_free {s : State} {k : Nat} (h : s.inflight ≠ []) (hc : s.ctl ≠ .stuck) (hb : s.landBy = some (k + 1)) :
    agentTurn s =
      let t : State := { s with landBy := some k, env := s.env.advance }
      if s.env.head % (s.inflight.length + 1) = 0 then ctlTurn t
      else .moves (land (s.env.head % (s.inflight.length + 1) - 1) t) := by
  unfold agentTurn
  rw [if_neg h, if_neg hc, hb]
  rfl

/-- What a landing does to the turns: the oldest word takes them with it, another leaves them. -/
theorem land_landBy {s : State} {i : Nat} (h : i < s.inflight.length) :
    (land i s).landBy = if i = 0 then none else s.landBy := by
  rw [land_of_getElem (List.getElem?_eq_getElem h)]

end Sys2Proof.Machine
end

