-- ==== Sys2Proof/Tests/Slice0.lean ====
section
/-! SUPPORT. Tests and witnesses. Expected results are taken from spec/95_test_vectors.md (T1 to T12, P1),
    which is derived from the
rules, or from the encodings of spec/30_encoding.md. A witness shows a state and operands that meet the hypotheses of an obligation. -/

namespace Sys2Proof.Tests

open Sys2Proof Sys2Proof.Machine

set_option maxRecDepth 100000

/-! ### Small states -/

/-- The launch record CFG1 (95_test_vectors.md Part 1). -/
def cfg1 : DevCfg :=
  { resetLinePresent := true, regSpeedHz := 1000000, bulkSpeedHz := 20000000, busMode := 0, seqMode := .singleCycle
    ifMode := .conversion, busyPin := 1, identityTag := 0, clkParams := 0, clkRateHz := 160000000, pwmBase := 0x40000000
    pwmRefHz := 100000000#64, pwmPeriodNs := 1000#64, pwmDutyNs := 500#64 }

/-- CleanLaunch under EX1 and CFG1 and TransportFaultFree, with the given draws to come. -/
def clean (script : List Nat) : State :=
  { State.boot { params := Params.ex1, cfg := cfg1 } with env := { faultFree := true, script := script, drawn := 0 } }

/-- The same state in a run whose collaborators may fail. -/
def faulty (script : List Nat) (s : State) : State := { s with env := { faultFree := false, script := script, drawn := 0 } }

/-- The same state under other parameters. -/
def withParams (p : Params) (s : State) : State := { s with launch := { s.launch with params := p } }

/-- Register access is open (the start of T3), one register known. -/
def regState (a : Half) (v : Byte) : State :=
  { clean [] with
    xport := { initialized := true, speedHz := 1000000, wordWidth := 8 }
    dev := { reg := [(a.toNat, v)], framing := .register, sel := none } }

/-- The pulse generator after PWM.INIT under CFG1 (T5). -/
def pwmOn (s : State) : State :=
  { s with
    alloc := { s.alloc with pwm := true }
    pwm := { state := .enabled, base := 0x40000000, refHz := 100000000#64, periodNs := 1000#64, dutyNs := 500#64 }
    pulse :=
      { scratch := some 0xA5A5A5A5#32, config := some 2#32, period := some 100#32, width := some 50#32
        run := some { running := true, period := some 100#32, width := some 50#32 } } }

/-- The state after DEV.INIT (P1), the device registers left out. -/
def readyState (script : List Nat) : State :=
  { pwmOn (clean script) with
    devState := .ready
    alloc := { handle := true, gpio := true, xport := true, clkgen := true, pwm := true }
    xport := { initialized := true, speedHz := 20000000, wordWidth := 16 }
    dev := { reg := [], framing := .conversion, sel := none } }

/-- The same with a receive buffer at 0x1000 (T8). -/
def oflState (len : Nat) (script : List Nat) : State :=
  { readyState script with ofl := { initialized := true, rxAddr := 0x1000, rxLen := len, rxEn := true } }

/-- The same with the parameter slot populated (T8). -/
def xferState (len : Nat) (script : List Nat) : State :=
  { oflState len script with
    msg := { template := Params.ex1.template, param := 0x1234#32, paramValid := true, channelTag := none } }

/-- A word in flight that may wait three turns. -/
def flying (a : Nat) (w : Word) (s : State) : State := { s with inflight := [(a, w)], landBy := some 3 }

/-- What a test looks at in the answer of an instruction or a step. -/
def after {α : Type} (f : State → α) (o : Host.Outcome State Fault Refusal) : Option α :=
  match o with
  | .next s => some (f s)
  | .fault _ => none
  | .refused _ => none

/-- The result words as a pair. -/
def words (s : State) : Option (DWord × DWord) := s.result.map fun r => (r.st, r.val)

/-! ### Well-formedness (R88, R96): one ill-formed term for each check -/

theorem test_wf_boundaries : ([.msgSetp 0xFFFF#64, .msgSetch 15#64, .oflXfer 1#64, .oflXfer 0xFFFFFFFF#64,
    .cinv 0xFFFFFFFC#64 4#64, .decodeBuf 1#64, .settle 0#64, .xfer 1#12] : List Instr).all
      (fun i => i.WellFormed Params.ex1) = true := by decide

theorem test_wf_refuses_wide_parameter : Instr.WellFormed Params.ex1 (.msgSetp 0x10000#64) = false := by decide
theorem test_wf_refuses_channel : Instr.WellFormed Params.ex1 (.msgSetch 16#64) = false := by decide
theorem test_wf_refuses_zero_reps : Instr.WellFormed Params.ex1 (.oflXfer 0#64) = false := by decide
theorem test_wf_refuses_many_reps : Instr.WellFormed Params.ex1 (.oflXfer 0x100000000#64) = false := by decide
theorem test_wf_refuses_span : Instr.WellFormed Params.ex1 (.cinv 0xFFFFFFFC#64 8#64) = false := by decide
theorem test_wf_refuses_zero_count : Instr.WellFormed Params.ex1 (.decodeBuf 0#64) = false := by decide
theorem test_wf_refuses_zero_words : Instr.WellFormed Params.ex1 (.xfer 0#12) = false := by decide

/-! ### Decoding: a word of each constructor, written out from R83, R86, R96 (T1) -/

theorem test_decode_regRd : decodeRequest [0x0000000001230001#64] = .instr (.regRd 0x0123#16) [] := by decide
theorem test_decode_regWr : decodeRequest [0x0000A50001230002#64] = .instr (.regWr 0x0123#16 0xA5#8) [] := by decide
theorem test_decode_regRdm : decodeRequest [0x000000C001230003#64] = .instr (.regRdm 0x0123#16 0xC0#8) [] := by decide
theorem test_decode_regWrm : decodeRequest [0x0000202000200004#64] = .instr (.regWrm 0x0020#16 0x20#8 0x20#8) [] := by decide
theorem test_decode_pwmInit : decodeRequest [0x10#64] = .instr .pwmInit [] := by decide
theorem test_decode_pwmSetp : decodeRequest [0x11#64, 0x3E8#64] = .instr (.pwmSetp 1000#64) [] := by decide
theorem test_decode_pwmSetd : decodeRequest [0x12#64, 0x1F4#64] = .instr (.pwmSetd 500#64) [] := by decide
theorem test_decode_pwmEn : decodeRequest [0x13#64] = .instr .pwmEn [] := by decide
theorem test_decode_pwmDis : decodeRequest [0x14#64] = .instr .pwmDis [] := by decide
theorem test_decode_pwmTd : decodeRequest [0x15#64] = .instr .pwmTd [] := by decide
theorem test_decode_pwmGetp : decodeRequest [0x16#64] = .instr .pwmGetp [] := by decide
theorem test_decode_devInit : decodeRequest [0x20#64] = .instr .devInit [] := by decide
theorem test_decode_devTd : decodeRequest [0x21#64, 0x20#64] = .instr .devTd [0x20#64] := by decide
theorem test_decode_oflInit :
    decodeRequest [0x30#64, 0x1000#64, 0xFA0#64, 1#64] = .instr (.oflInit 0x1000#64 4000#64 1#64) [] := by decide
theorem test_decode_msgSetp : decodeRequest [0x31#64, 0x1234#64] = .instr (.msgSetp 0x1234#64) [] := by decide
theorem test_decode_msgSetch : decodeRequest [0x32#64, 1#64] = .instr (.msgSetch 1#64) [] := by decide
theorem test_decode_oflXfer : decodeRequest [0x33#64, 3#64] = .instr (.oflXfer 3#64) [] := by decide
theorem test_decode_settle : decodeRequest [0x34#64, 0x7D0#64] = .instr (.settle 2000#64) [] := by decide
theorem test_decode_cinv :
    decodeRequest [0x35#64, 0x1000#64, 0xFA0#64, 7#64] = .instr (.cinv 0x1000#64 4000#64) [7#64] := by decide
theorem test_decode_decodeBuf : decodeRequest [0x36#64, 0x3E8#64] = .instr (.decodeBuf 1000#64) [] := by decide
theorem test_decode_acqIter : decodeRequest [0x40#64] = .instr .acqIter [] := by decide
theorem test_decode_acqRun : decodeRequest [0x41#64] = .instr .acqRun [] := by decide
theorem test_decode_csAssert : decodeMicro 0x1000#16 = some .csAssert := by decide
theorem test_decode_xfer : decodeMicro 0x2FFF#16 = some (.xfer 0xFFF#12) := by decide
theorem test_decode_csDeassert : decodeMicro 0x3000#16 = some .csDeassert := by decide

/-- Refused words (T1): the opcode comes before the reserved bits. -/
theorem test_decode_reserved_opcode : decodeRequest [0#64] = .refused .reservedOpcode
    ∧ decodeRequest [0x117#64] = .refused .reservedOpcode ∧ decodeRequest [0x42#64] = .refused .reservedOpcode := by decide
theorem test_decode_reserved_bits : decodeRequest [0x110#64] = .refused .reservedBits
    ∧ decodeRequest [0x0001000000000010#64] = .refused .reservedBits ∧ decodeRequest [0x10010#64] = .refused .reservedBits
    ∧ decodeRequest [0x000000FF01230001#64] = .refused .reservedBits := by decide
theorem test_decode_incomplete : decodeRequest [] = .incomplete ∧ decodeRequest [0x35#64, 1#64] = .incomplete := by decide
/-- Reserved micro-operations (T7). -/
theorem test_decode_micro_reserved : decodeMicro 0x1001#16 = none ∧ decodeMicro 0x3001#16 = none ∧ decodeMicro 0x4001#16 = none
    ∧ decodeMicro 0x0000#16 = none := by decide
/-- Opcode-table words: a header whose operand words are zeros, and a micro-operation. -/
theorem test_decode_table_word : decodeTableWord 64 0x30 = some (.oflInit 0#64 0#64 0#64)
    ∧ decodeTableWord 16 0x2001 = some (.xfer 1#12) ∧ decodeTableWord 128 (0x33 + 5 * 2 ^ 64) = some (.oflXfer 5#64) := by decide
/-- The assembler (R99, R100). -/
theorem test_assemble : assemble "REG.SETB" [0x20, 0x04] = some [.regWrm 0x20#16 0x04#8 0x04#8]
    ∧ assemble "PWM.CFG" [1000, 500] = some [.pwmSetp 1000#64, .pwmSetd 500#64] ∧ assemble "XFER" [4096] = none := by decide

/-! ### The step -/

/-- The first instruction after reset: DEV.TD is a no-op that returns 0/0 (T6), and is taken from the host's words. -/
theorem test_fetch_devTd : after words (step (State.reset.withFetchWord 64 0x21)) = some (some (0#64, 0#64))
    ∧ after (fun t => t.pending) (step (State.reset.withFetchWord 64 0x21)) = some [] := by decide
/-- A micro-operation placed in the engine runs next. -/
theorem test_fetch_csAssert : after (fun t => (t.cs, t.engine.busy)) (step (State.reset.withFetchWord 16 0x1000))
    = some (true, false) := by decide
/-- A reserved opcode is recorded (R87), and then no agent has a step (R38). -/
theorem test_step_refused : after
    (fun t => t.refused) (step ((clean []).withFetchWord 64 0x117)) = some (some .reservedOpcode) := by
  decide

/-! ### Operand forms -/

/-- Frames (T2). -/
theorem test_frames : readFrame Params.ex1 0x0123#16 = [0x81#8, 0x23#8, 0x00#8]
    ∧ writeFrame Params.ex1 0x3FFF#16 0x12#8 = [0x7F#8, 0xFF#8, 0x12#8]
    ∧ addrEncodable Params.ex1 0x4000#16 = false ∧ addrEncodable Params.ex1 0x3FFF#16 = true
    ∧ decodeFrame Params.ex1 [0x41#8, 0x23#8, 7#8] = .write 0x0123#16 7#8 ∧ decodeFrame Params.ex1 [0xC1#8, 0#8,
        0#8] = .other := by
  decide
/-- Ticks (T4). -/
theorem test_ticks : ticks 1000#64 100000000#64 = some 100#32 ∧ ticks 1#64 100000000#64 = some 1#32
    ∧ ticks 11#64 100000000#64 = some 2#32 ∧ ticks 10000000000#64 200000000#64 = some 2000000000#32
    ∧ ticks 30000000000#64 200000000#64 = none ∧ ticks 100000000000#64 1000000000000#64 = none
    ∧ ticks 1000000#64 4294967295000#64 = some 4294967295#32 := by decide
/-- Templates (T7). -/
theorem test_templates : templateWf [0x1000#16, 0x2001#16, 0x2002#16, 0x3000#16] = true
    ∧ resultWords [0x1000#16, 0x2001#16, 0x2002#16, 0x3000#16] = 3 ∧ templateWf [0x2001#16] = false
    ∧ templateWf [0x1000#16, 0x3000#16] = false ∧ templateWf [0x1000#16, 0x2001#16] = false
    ∧ templateWf [0x1000#16, 0x2000#16, 0x3000#16] = false ∧ templateWf [] = false := by decide
/-- Samples (T10). -/
theorem test_samples : decodeSample Params.ex1 0xFFF12345#32 = 74565#32
    ∧ decodeSample { Params.ex1 with resBits := 16 } 0x0001ABCD#32 = 43981#32
    ∧ decodeSample { Params.ex1 with signExtend := true } 0x00080000#32 = 0xFFF80000#32
    ∧ decodeSample { Params.ex1 with signExtend := true } 0x0007FFFF#32 = 0x0007FFFF#32 := by decide

/-! ### Register access (T2, T3, T12) -/

theorem test_regRd : after words (exec (.regRd 0x0123#16) (regState 0x0123#16 0xA5#8)) = some (some (0#64, 0xA5#64)) := by decide
/-- A failed frame: TransportError, the value 0. -/
theorem test_regRd_fail : after words (exec (.regRd 0x0123#16) (faulty [1] (regState 0x0123#16 0x11#8)))
    = some (some (1#64, 0#64)) := by decide
/-- A write of the setup register switches the framing. -/
theorem test_regWr : after (fun t => (devReg t 0x0020#16,
    t.dev.framing)) (exec (.regWr 0x0020#16 0x04#8) (regState 0x0020#16 0#8))
    = some (some 0x04#8, .conversion) := by decide
/-- A failed write leaves the register unknown. -/
theorem test_regWr_fail : after (fun t => (devReg t 0x0123#16, words t))
    (exec (.regWr 0x0123#16 0x22#8) (faulty [1] (regState 0x0123#16 0x11#8))) = some (none, some (1#64, 0#64)) := by decide
theorem test_regRdm : after words (exec (.regRdm 0x0123#16 0xC0#8) (regState 0x0123#16 0xA5#8)) = some (some (0#64,
    0x80#64)) := by
  decide
/-- Stray bits of the value outside the mask are set (C2). -/
theorem test_regWrm : after (fun t => devReg t 0x0123#16) (exec (.regWrm 0x0123#16 0x0F#8 0x30#8) (regState 0x0123#16 0#8))
    = some (some 0x30#8) := by decide
/-- After a failed read the write frame still goes out, from a drawn base (0x5C). -/
theorem test_regWrm_failOpen : after (fun t => (devReg t 0x0123#16, words t))
    (exec (.regWrm 0x0123#16 0xF0#8 0x30#8) (faulty [1, 0x5C, 0] (regState 0x0123#16 0x11#8)))
    = some (some 0x3C#8, some (1#64, 0#64)) := by decide

/-! ### The pulse generator (T5) -/

theorem test_pwmInit : after (fun t => (t.pwm, t.pulse, words t)) (exec .pwmInit (clean []))
    = some ((pwmOn (clean [])).pwm, (pwmOn (clean [])).pulse, some (0#64, 0#64)) := by decide
/-- A block that is not connected fails the self-test (the read draws 0). -/
theorem test_pwmInit_selfTest : after (fun t => (t.pwm.state, t.alloc.pwm, t.pulse.scratch, words t))
    (exec .pwmInit (withParams { Params.ex1 with pwmConnected := false } (clean [0])))
    = some (.uninitialized, false, some 0xA5A5A5A5#32, some (2#64, 0#64)) := by decide
/-- The duty cycle is not clamped again (R30), the source is not reloaded (R277). -/
theorem test_pwmSetp : after (fun t => (t.pwm.periodNs, t.pwm.dutyNs, t.pulse.period,
    t.pulse.run)) (exec (.pwmSetp 15#64) (pwmOn (clean [])))
    = some (15#64, 500#64, some 2#32, (pwmOn (clean [])).pulse.run) := by decide
theorem test_pwmSetd_clamps : after (fun t => (t.pwm.dutyNs, t.pulse.width)) (exec (.pwmSetd 5000#64) (pwmOn (clean [])))
    = some (1000#64, some 100#32) := by decide
theorem test_pwmEn : after (fun t => (t.pwm.state, t.pulse.run))
    (exec .pwmEn { pwmOn (clean []) with pulse := { (pwmOn (clean [])).pulse with period := some 40#32, width := none } })
    = some (.enabled, some { running := true, period := some 40#32, width := none }) := by decide
theorem test_pwmDis : after (fun t => (t.pwm.state, t.pulse.config)) (exec .pwmDis (pwmOn (clean []))) = some (.disabled,
    some 1#32) := by
  decide
/-- A failed CONFIG write: the descriptor is released all the same. -/
theorem test_pwmTd_fail : after (fun t => (t.pwm.state, t.alloc.pwm, t.pulse.run,
    words t)) (exec .pwmTd (faulty [1] (pwmOn (clean []))))
    = some (.uninitialized, false, none, some (1#64, 0#64)) := by decide
theorem test_pwmGetp : after words (exec .pwmGetp (pwmOn (clean []))) = some (some (0#64, 1000#64)) := by decide

/-! ### Device configuration (P1, T6) -/

theorem test_devInit_registers :
    after (fun t => (t.devState, t.dev.framing, t.dev.reg)) (exec .devInit (clean [0, 0xC3, 0x2B, 0x40]))
      = some (.ready, .conversion, [(0x0A, 0xAA#8), (0x20, 0x0F#8), (0x24, 0x03#8), (0x27, 0x70#8)]) := by decide
/-- The failure of the interface-mode write (step 6): InitError, cause TransportError, and everything released. -/
theorem test_devInit_step6_fails : after (fun t => (words t, t.devState, t.alloc.xport, t.xport.initialized))
    (exec .devInit (faulty [0, 0, 0, 0, 0, 0, 0, 0, 0, 0xC3, 0, 0, 0x2B, 0, 0, 0x40, 0, 0, 0, 0, 1, 0] (clean [])))
    = some (some (0x0103#64, 0#64), .absent, false, false) := by decide
theorem test_devTd : after (fun t => (t.devState, t.alloc.gpio, t.pulse.config, t.dev.framing)) (exec .devTd (readyState []))
    = some (.absent, false, some 1#32, .conversion) := by decide

/-! ### Offload (T8 to T10) -/

theorem test_oflInit : after (fun t => (t.ofl, words t)) (exec (.oflInit 0x1000#64 4000#64 1#64) (readyState []))
    = some ({ initialized := true, rxAddr := 0x1000, rxLen := 4000, rxEn := true }, some (0#64, 0#64)) := by decide
/-- A reserved flag bit. -/
theorem test_oflInit_flags : after words (exec (.oflInit 0x1000#64 16#64 3#64) (readyState [])) = some (some (4#64,
    0#64)) := by decide
theorem test_msgSetp : after (fun t => (t.msg.param, t.msg.paramValid, t.msg.channelTag)) (exec (.msgSetp 0xFFFF#64) (clean []))
    = some (0xFFFF#32, true, none) := by decide
theorem test_msgSetch : after (fun t => (t.msg.param, t.msg.channelTag)) (exec (.msgSetch 1#64) (clean []))
    = some (0x8100#32, some 1) := by decide
theorem test_oflXfer : after (fun t => (t.inflight, t.dev.sel, t.engine.rep, t.cs)) (exec (.oflXfer 3#64) (xferState 4000 [7,
    8, 0x10009]))
    = some ([(0x1000, 7#32), (0x1004, 8#32), (0x1008, 9#32)], some 0x1234#32, 3, false) := by decide
/-- The trigger fails after three repetitions. -/
theorem test_oflXfer_prefix : after (fun t => (t.inflight.map Prod.fst, words t))
    (exec (.oflXfer 4#64) (faulty [1, 3, 0, 7, 0, 8, 0, 9] (xferState 4000 []))) = some ([0x1000, 0x1004, 0x1008],
        some (5#64, 0#64)) := by
  decide
theorem test_settle_assumed : after (fun t => (t.inflight, t.mem, t.stale))
    (exec (.settle 2000#64) (withParams { Params.ex1 with settleMode := .assumed } (flying 0x1000 0x12345678#32 (clean [0]))))
    = some ([], [(0x1000, 0x78#8), (0x1001, 0x56#8), (0x1002, 0x34#8), (0x1003, 0x12#8)], [0x1000, 0x1001, 0x1002,
        0x1003]) := by decide
theorem test_cinv : after (fun t => t.stale) (exec (.cinv 0x1000#64 2#64)
    { clean [] with stale := [0x1000, 0x1001, 0x1002, 0x1003] })
    = some [0x1002, 0x1003] := by decide
/-- A landed and invalidated word, masked to 20 bits. -/
theorem test_decodeBuf : after (fun t => (t.out, words t)) (exec (.decodeBuf 1#64) { oflState 4000 [] with
    mem := [(0x1000, 0x78#8), (0x1001, 0x56#8), (0x1002, 0x34#8), (0x1003, 0x12#8)] })
    = some ([[284280#32]], some (0#64, 1#64)) := by decide
/-- Stale bytes are draws (here 0xAA and 0xBB for bytes 2 and 3, of which 20 bits remain). -/
theorem test_decodeBuf_stale : after (fun t => t.out) (exec (.decodeBuf 1#64) { oflState 4000 [0xAA, 0xBB] with
    mem := [(0x1000, 0x78#8), (0x1001, 0x56#8), (0x1002, 0x34#8), (0x1003, 0x12#8)], stale := [0x1002, 0x1003] })
    = some [[0xA5678#32]] := by decide

/-! ### The acquisition loop (T11) -/

/-- Four responses in flight land, or not, as drawn; the channel flips. -/
theorem test_acqIter : after (fun t => (t.dev.sel, t.acq, t.out.map List.length,
    words t)) (exec .acqIter (oflState 16 (List.replicate 64 0)))
    = some (some 0x8000#32, { channel := 1, iter := 1, terminated := false }, [4], some (0#64, 0#64)) := by decide
theorem test_acqIter_small_buffer : after
    (fun t => t.fault) (exec .acqIter (oflState 8 [])) = some (some .bufferOverrun) := by decide
/-- The trigger fails: the loop ends, the block is torn down. -/
theorem test_acqRun_fails : after (fun t => (t.acq.terminated, t.devState, words t)) (exec .acqRun (faulty [1, 0,
    0] (oflState 16 [])))
    = some (true, .absent, some (5#64, 0#64)) := by decide

/-! ### The micro-operations (T8) -/

/-- The engine in the first repetition of two. -/
def engineState (tpc : Nat) : State :=
  { xferState 4000 [5] with engine := { busy := true, tpc := tpc, rep := 0, param := 0x1234#32, reps := 2 } }

theorem test_csAssert : after (fun t => (t.cs, t.engine.tpc)) (exec .csAssert (engineState 0)) = some (true, 1) := by decide
theorem test_xfer : after (fun t => (t.inflight, t.dev.sel, t.engine.tpc)) (exec (.xfer 1#12) (engineState 1))
    = some ([(0x1000, 5#32)], some 0x1234#32, 2) := by decide
theorem test_csDeassert : after (fun t => (t.cs, t.engine.tpc, t.engine.rep, t.engine.busy)) (exec .csDeassert (engineState 2))
    = some (false, 0, 1, true) := by decide

/-! ### Witnesses: a state and operands that meet the hypotheses of each obligation, clause by clause -/

/-- A next state with a property, from an evaluated answer. -/
theorem of_after {α : Type} {f : State → α} {o : Host.Outcome State Fault Refusal} {v : α} (h : after f o = some v) :
    ∃ t, o = .next t ∧ f t = v := by
  cases o with
  | next t => exact ⟨t, rfl, Option.some.inj h⟩
  | fault r => cases h
  | refused r => cases h

/-- CTL waits for a request that has come. -/
theorem waiting_with (ws : List DWord) : Waiting { clean [] with pending := ws } := ⟨rfl, rfl, rfl, rfl, rfl⟩

theorem regOpen_regState {a : Half} (v : Byte) (h : addrEncodable Params.ex1 a = true) (b : Half) : RegOpen a (regState b v) :=
  ⟨h, rfl, rfl, rfl⟩

theorem xferOpen_xferState {reps len : Nat} (script : List Nat) (h : reps * 1 * 4 ≤ len) : XferOpen reps (xferState len script) :=
  ⟨rfl, rfl, show templateWf Params.ex1.template = true by decide, rfl, h, rfl, rfl, rfl⟩

/-- The block invariant at power-on, whatever the draws. -/
theorem blockInv_clean (e : Env) : BlockInv { clean [] with env := e } :=
  { params := Params.ex1_valid
    template := rfl
    absent := fun _ => ⟨rfl, rfl, rfl, rfl, rfl, rfl⟩
    ready := nofun
    offload := nofun
    descriptor := fun _ => rfl
    inflight := nofun
    deadline := fun _ => rfl
    param := show 0 < 2 ^ 16 by decide
    settled := fun _ => ⟨.inl rfl, rfl, rfl, nofun, nofun⟩ }

theorem test_witness_DecodeInvertsEncode : Instr.isMicro .devInit = false ∧ Instr.isMicro .csAssert = true := by decide
theorem test_witness_DecodedWordsAreTheEncoding : decodeRequest [0x20#64] = .instr .devInit []
    ∧ decodeMicro 0x1000#16 = some .csAssert := by
  decide
theorem test_witness_ReservedOpcodesRefused (c : Byte) (_ : c ∈ [0x00#8, 0x05#8, 0x0F#8, 0x17#8, 0x42#8, 0xFF#8]) :
    Waiting { clean [] with pending := [c.setWidth 64] } := waiting_with _
theorem test_witness_ReservedOpcodesRefused_codes : ∀ c ∈ [0x00#8, 0x05#8, 0x0F#8, 0x17#8, 0x1F#8, 0x22#8, 0x2F#8, 0x37#8,
    0x3F#8, 0x42#8, 0xFF#8],
    headerOp (c.setWidth 64) ∉ [0x01#8, 0x02#8, 0x03#8, 0x04#8, 0x10#8, 0x11#8, 0x12#8, 0x13#8, 0x14#8, 0x15#8, 0x16#8,
        0x20#8, 0x21#8,
        0x30#8, 0x31#8, 0x32#8, 0x33#8, 0x34#8, 0x35#8, 0x36#8, 0x40#8, 0x41#8] := by decide
theorem test_witness_ReservedBitsRefused : Op.ofCode (headerOp 0x110#64) = some .pwmInit ∧ (0x110#64).extractLsb' 8 8 ≠ 0#8
    ∧ Op.ofCode (headerOp 0x10#64) = some .pwmInit ∧ Waiting { clean [] with pending := [0x110#64] } :=
  ⟨by decide, by decide, by decide, waiting_with _⟩
theorem test_witness_IllFormedOperandsRefused : Instr.WellFormed (clean []).launch.params (.oflXfer 0#64) = false
    ∧ Instr.WellFormed (clean []).launch.params (.xfer 0#12) = false := by decide
theorem test_witness_StepRunsTheDecodedInstruction :
    (decodeRequest { clean [] with pending := [0x21#64] }.pending = .instr .devTd [] ∧ (clean []).inflight = [])
      ∧ (decodeRequest (clean [0]).pending = .incomplete ∧ (clean [0]).env.head % 2 = 0 ∧ (clean [1]).env.head % 2 = 1)
      ∧ ((engineState 0).engine.busy = true ∧ (engineState 0).msg.template[(engineState 0).engine.tpc]? = some 0x1000#16)
      ∧ (flying 0x1000 1#32 (clean [2])).landBy = some (2 + 1)
      ∧ (flying 0x1000 1#32 (clean [2])).env.head % ((flying 0x1000 1#32 (clean [2])).inflight.length + 1) = 0 := by decide
/-- HOST issues a whole request, header and operand words, and completes one that is out in part (R5). -/
theorem test_host_issues : after (fun t => t.pending) (step (clean [0, 0x30, 0x1000, 4000, 1]))
    = some [0x30#64, 0x1000#64, 4000#64, 1#64] := by decide
theorem test_host_completes : after (fun t => t.pending) (step { clean [0, 500] with pending := [0x12#64] })
    = some [0x12#64, 500#64] := by decide
theorem test_witness_RunEndsAtAMark : { clean [] with fault := some .noTransport }.fault = some .noTransport
    ∧ { clean [] with refused := some .operandRange }.refused = some .operandRange ∧ ∃ t, step (clean [1]) = .next t :=
  ⟨rfl, rfl, (of_after (f := fun t => t.cs) (v := false) (by decide)).imp fun _ h => h.1⟩
/-- An operation has returned `Ok` (R267). -/
def returned (script : List Nat) : State := { clean script with result := some { st := 0#64, val := 0#64 } }
theorem returned_returned (script : List Nat) : Returned (returned script) := ⟨rfl, rfl, rfl, rfl, rfl, nofun⟩
/-- The end of a run, and an operation that leads there; a stuck run, and one inside ACQ.RUN. -/
theorem test_witness_RunEndsAtAMark_end : RunEnded (returned []) ∧ NoFaultRecorded (clean [])
    ∧ ((clean []).engine.busy = false ∧ (clean []).pending = [])
    ∧ (∃ t, exec .devTd (clean []) = .next t ∧ t.result = some { st := 0#64, val := 0#64 })
    ∧ (∃ t, step (hang (flying 0x1000 1#32 (clean [0]))) = .next t ∧ t.inflight = [])
    ∧ { clean [] with ctl := .acqRun }.ctl = .acqRun :=
  ⟨⟨returned_returned [], rfl⟩, ⟨rfl, rfl⟩, ⟨rfl, rfl⟩, of_after (f := fun t => t.result) (by decide),
    of_after (f := fun t => t.inflight) (by decide), rfl⟩
/-- A run of two steps from a word in flight: the turns are drawn (0), and it lands. -/
theorem test_witness_RunEndsAtAMark_run : Returned { returned [0] with inflight := [(0x1000, 1#32)] }
    ∧ ∃ t u : State, step { returned [0] with inflight := [(0x1000, 1#32)] } = .next t ∧ step t = .next u
      ∧ (t.pending, t.landBy, u.pending, u.landBy, u.inflight) = ([], some 0, [], none, []) :=
  ⟨⟨rfl, rfl, rfl, rfl, rfl, nofun⟩, _, _, rfl, rfl, by decide⟩
theorem test_witness_RegisterReadReturnsContent : (regState 0x0123#16 0xA5#8).launch.params.Valid = true
    ∧ TransportFaultFree (regState 0x0123#16 0xA5#8) ∧ RegOpen 0x0123#16 (regState 0x0123#16 0xA5#8)
    ∧ devReg (regState 0x0123#16 0xA5#8) 0x0123#16 = some 0xA5#8 := ⟨by decide, rfl, regOpen_regState _ (by decide) _, by decide⟩
/-- Unspecified, unspecified setup register, no device. -/
theorem test_witness_UnknownRegisterReadsDraw : (RegOpen 0x0124#16 (regState 0x0123#16 0#8)
    ∧ devReg (regState 0x0123#16 0#8) 0x0124#16 = none)
    ∧ (RegOpen 0x0020#16 (regState 0x0123#16 0#8) ∧ devReg (regState 0x0123#16 0#8) 0x0020#16 = none)
    ∧ (withParams { Params.ex1 with devConnected := false } (regState 0x0123#16 0#8)).launch.params.Valid = true :=
  ⟨⟨regOpen_regState _ (by decide) _, by decide⟩, ⟨regOpen_regState _ (by decide) _, by decide⟩, by decide⟩
/-- A setup value for conversion framing, one for register framing, and (under a wider field) one that is neither. -/
theorem test_witness_RegisterWriteTakesEffect : RegOpen 0x0020#16 (regState 0x0020#16 0#8)
    ∧ 0x04#8 &&& Params.ex1.setupIfMask = Params.ex1.ifValConv ∧ 0xFB#8 &&& Params.ex1.setupIfMask = Params.ex1.ifValReg
    ∧ (let p := { Params.ex1 with setupIfMask := 0x0C#8 }
      p.Valid = true ∧ 0x08#8 &&& p.setupIfMask ≠ p.ifValConv ∧ 0x08#8 &&& p.setupIfMask ≠ p.ifValReg) :=
  ⟨regOpen_regState _ (by decide) _, by decide, by decide, by decide⟩
theorem test_witness_MaskedWriteLaw : RegOpen 0x0123#16 (regState 0x0123#16 0xA5#8)
    ∧ devReg (regState 0x0123#16 0xA5#8) 0x0123#16 = some 0xA5#8
    ∧ 0x00#8 &&& ~~~0xC0#8 = 0#8 ∧ 0x30#8 &&& ~~~0x0F#8 ≠ 0#8 := ⟨regOpen_regState _ (by decide) _, by decide, by decide,
        by decide⟩
/-- Unspecified content, and no device: the byte read is the draw, and a device that is not there keeps nothing (R118, R120). -/
theorem test_witness_MaskedWriteLaw_unspecified : after (fun t => (devReg t 0x0124#16, words t))
    (exec (.regWrm 0x0124#16 0x0F#8 0x02#8) { regState 0x0123#16 0#8 with env := (clean [0xA5]).env })
    = some (some 0xA2#8, some (0#64, 0#64)) := by decide
theorem test_witness_MaskedWriteLaw_no_device : after (fun t => (devReg t 0x0123#16, words t)) (exec (.regWrm 0x0123#16 0x0F#8 0x02#8)
    (withParams { Params.ex1 with devConnected := false } { regState 0x0123#16 7#8 with env := (clean [0xA5]).env }))
    = some (none, some (0#64, 0#64)) := by decide
/-- The setup register: the framing follows the field that is written (R121). -/
theorem test_witness_MaskedWriteLaw_setup : RegOpen 0x0020#16 (regState 0x0020#16 0x80#8)
    ∧ after (fun t => (devReg t 0x0020#16, t.dev.framing, words t)) (exec (.regWrm 0x0020#16 0x04#8 0x04#8) (regState 0x0020#16 0x80#8))
      = some (some 0x84#8, .conversion, some (0#64, 0#64)) :=
  ⟨regOpen_regState _ (by decide) _, by decide⟩
theorem test_witness_FailedFrameReportsTransportError : (faulty [1] (regState 0x0020#16 0#8)).env.head % 3 = 1
    ∧ RegOpen 0x0020#16 (faulty [1] (regState 0x0020#16 0#8)) ∧ RegOpen 0x0021#16 (faulty [1] (regState 0x0020#16 0#8)) :=
  ⟨by decide, ⟨by decide, rfl, rfl, rfl⟩, ⟨by decide, rfl, rfl, rfl⟩⟩
theorem test_witness_MaskedWriteAfterFailedRead : (faulty [1, 0x5C, 0] (regState 0x0123#16 0#8)).env.head % 3 = 1
    ∧ (faulty [1, 0x5C, 0] (regState 0x0123#16 0#8)).env.advance.advance.head % 3 = 0
    ∧ { Params.ex1 with maskedWritePolicy := .failFast }.Valid = true ∧ RegOpen 0x0123#16 (faulty [1, 0x5C,
        0] (regState 0x0123#16 0#8)) :=
  ⟨by decide, by decide, by decide, ⟨by decide, rfl, rfl, rfl⟩⟩
/-- A good read frame and a write frame that fails or hangs; both frames fail. -/
theorem test_witness_MaskedWriteAfterFailedRead_write :
    let s := fun l : List Nat => faulty l (regState 0x0123#16 0#8)
    ((s [0, 1]).env.head % 3 = 0 ∧ (answeredByte (s [0, 1]) 0x0123#16 (s [0, 1]).env.advance).2.head % 3 = 1)
      ∧ (answeredByte (s [0, 2]) 0x0123#16 (s [0, 2]).env.advance).2.head % 3 = 2
      ∧ ((s [1, 9, 1]).env.head % 3 = 1 ∧ (s [1, 9, 1]).env.advance.advance.head % 3 = 1
        ∧ (s []).launch.params.maskedWritePolicy = .failOpen) := by decide
/-- The highest address that fits and the lowest that does not; no transport; a wrong width; conversion framing. -/
theorem test_witness_RegisterAccessGuard :
    (0x4000#16).extractLsb' 8 8 &&& ~~~(clean []).launch.params.addrHiMask ≠ 0#8
      ∧ ((0x3FFF#16).extractLsb' 8 8 &&& ~~~(clean []).launch.params.addrHiMask = 0#8 ∧ (clean []).xport.initialized = false)
      ∧ ((readyState []).xport.initialized = true ∧ (readyState []).xport.wordWidth ≠ 8)
      ∧ (setFraming .conversion (regState 0#16 0#8)).dev.framing ≠ .register := by decide
theorem test_witness_RegisterAccessFrame : ∃ t, exec (.regRd 0x0123#16) (regState 0x0123#16 0xA5#8) = .next t :=
  (of_after (f := words) test_regRd).imp fun _ h => h.1
theorem test_witness_HangLeavesLandingsOnly : ((faulty [2] (regState 0#16 0#8)).env.head % 3 = 2
    ∧ RegOpen 0#16 (faulty [2] (regState 0#16 0#8)))
    ∧ (hang (clean [])).ctl = .stuck ∧ (hang (clean [])).inflight = [] ∧ (hang (flying 0x1000 1#32 (clean []))).inflight ≠ [] :=
  ⟨⟨by decide, ⟨by decide, rfl, rfl, rfl⟩⟩, rfl, rfl, by decide⟩
/-- The third exchange of OFL.XFER 4 hangs: two words in flight (T8). -/
theorem test_oflXfer_hangs : after (fun t => (t.inflight, t.ctl, t.result, t.cs))
    (exec (.oflXfer 4#64) (faulty [0, 0, 7, 0, 8, 1] (xferState 4000 [])))
    = some ([(0x1000, 7#32), (0x1004, 8#32)], .stuck, none, true) := by decide
/-- In OFL.XFER, after a trigger that is ok and after one that failed; in ACQ.RUN; in a micro-operation. -/
theorem test_witness_HangLeavesLandingsOnly_transfer :
    (XferOpen 4 (faulty [0, 0, 7, 0, 8, 1] (xferState 4000 []))
        ∧ HangsAt 2 (faulty [0, 0, 7, 0, 8, 1] (xferState 4000 [])).env.advance)
      ∧ ((faulty [1, 3, 0, 7, 1] (xferState 4000 [])).env.head % 2 = 1
        ∧ (faulty [1, 3, 0, 7, 1] (xferState 4000 [])).env.advance.head % 4 = 3
        ∧ HangsAt 1 (faulty [1, 3, 0, 7, 1] (xferState 4000 [])).env.advance.advance)
      ∧ (XferOpen (oflState 16 []).launch.params.sampleCount (selectChannel 0 (faulty [0, 1] (oflState 16 [])))
        ∧ HangsAt 0 (faulty [0, 1] (oflState 16 [])).env.advance)
      ∧ HangsAt 1 (faulty [0, 7, 1] (engineState 1)).env ∧ 1 < (3#12).toNat :=
  ⟨⟨⟨rfl, rfl, by decide, rfl, by decide, rfl, rfl, rfl⟩, by decide, by decide⟩, ⟨by decide, by decide, by decide, by decide⟩,
    ⟨⟨rfl, rfl, by decide, rfl, by decide, rfl, rfl, rfl⟩, by decide, by decide⟩, ⟨by decide, by decide⟩, by decide⟩
theorem test_witness_TicksMatchTheIdeal : ticks 11#64 100000000#64 = some 2#32 ∧ (100000000#64).toNat % 1000 = 0
    ∧ ticks 1000000#64 1234567#64 = some 1234#32 := by decide
theorem test_witness_TicksMonotonic : (999#64).toNat < (1000#64).toNat ∧ ticks 999#64 100000000#64 = some 100#32
    ∧ ticks 1000#64 100000000#64 = some 100#32 ∧ (999#64).toNat < 1000 := by decide
theorem test_witness_TicksFitWithinTheBounds : (200000000#64).toNat ≤ 200000000 ∧ (10000000000#64).toNat ≤ 10000000000
    ∧ ticks 10000000000#64 200000000#64 = some 2000000000#32 := by decide
/-- The intermediate product overflows; the tick count overflows; and by the clamped duty cycle. -/
theorem test_witness_TickOverflowRefused : (pwmOn (clean [])).pwm.state ≠ .uninitialized
    ∧ 2 ^ 64 ≤ 1000000000000 / 1000 * (100000000000#64).toNat
    ∧ 2 ^ 32 ≤ (200000000 / 1000 * (30000000000#64).toNat + 999999) / 1000000
    ∧ 2 ^ 32 ≤ (200000000 / 1000 * min (40000000000#64).toNat (30000000000#64).toNat + 999999) / 1000000
    ∧ ((clean []).launch.params.pwmConnected = true ∧ (clean []).alloc.pwm = false) := by decide
theorem test_witness_PwmInitEnables : TransportFaultFree (clean []) ∧ (clean []).pwm.state = .uninitialized
    ∧ (clean []).alloc.pwm = false
    ∧ ticks 1000#64 cfg1.pwmRefHz = some 100#32 ∧ ticks 500#64 cfg1.pwmRefHz = some 50#32 := ⟨rfl, rfl, rfl, by decide, by decide⟩
/-- A failed self-test, a failed allocation, a failed period write. -/
theorem test_witness_PwmInitErrorReleases :
    (∃ t, exec .pwmInit (withParams { Params.ex1 with pwmConnected := false } (clean [0])) = .next t
        ∧ t.result = some { st := 2#64, val := 0#64 })
      ∧ (∃ t, exec .pwmInit (faulty [1] (clean [])) = .next t ∧ t.result = some { st := 6#64, val := 0#64 })
      ∧ ∃ t, exec .pwmInit (faulty [0, 0, 0, 1] (clean [])) = .next t ∧ t.result = some { st := 0x103#64, val := 0#64 } :=
  ⟨of_after (f := fun t => t.result) (by decide), of_after (f := fun t => t.result) (by decide),
    of_after (f := fun t => t.result) (by decide)⟩
theorem test_witness_UninitializedPulseGeneratorFaults : (clean []).pwm.state = .uninitialized := rfl
theorem test_witness_SecondInitFaults : (pwmOn (clean [])).pwm.state ≠ .uninitialized
    ∧ (readyState []).devState ≠ .absent := by decide
/-- The largest tick count that fits, and a clamped and an unclamped duty cycle. -/
theorem test_witness_PeriodAndDutyAreStored : TransportFaultFree (pwmOn (clean []))
    ∧ (4294967295000 / 1000 * (1000000#64).toNat < 2 ^ 64
        ∧ (4294967295000 / 1000 * (1000000#64).toNat + 999999) / 1000000 < 2 ^ 32)
    ∧ (1000#64).toNat ≤ (pwmOn (clean [])).pwm.periodNs.toNat ∧ ¬ (1001#64).toNat ≤ (pwmOn (clean [])).pwm.periodNs.toNat :=
  ⟨rfl, by decide, by decide, by decide⟩
theorem test_witness_PeriodAndDutyAreKeptInNanoseconds :
    (∃ t, exec (.pwmSetp 15#64) (pwmOn (clean [])) = .next t ∧ t.result = some { st := 0#64, val := 0#64 })
      ∧ (∃ t, exec (.pwmSetp 2000#64) (faulty [1] (pwmOn (clean []))) = .next t ∧ t.result = some { st := 1#64, val := 0#64 })
      ∧ (∃ t, exec (.pwmSetd 5000#64) (pwmOn (clean [])) = .next t ∧ t.result = some { st := 0#64, val := 0#64 })
      ∧ (pwmOn (clean [])).pwm.periodNs.toNat < (5000#64).toNat :=
  ⟨of_after (f := fun t => t.result) (by decide), of_after (f := fun t => t.result) (by decide),
    of_after (f := fun t => t.result) (by decide),
    by decide⟩
theorem test_witness_EnableAndDisableSwitchTheSource : TransportFaultFree (pwmOn (clean []))
    ∧ (pwmOn (clean [])).pwm.state ≠ .uninitialized :=
  ⟨rfl, by decide⟩
theorem test_witness_PwmTeardownReleases : (TransportFaultFree (pwmOn (clean [])) ∧ (pwmOn (clean [])).alloc.pwm = true)
    ∧ (clean []).alloc.pwm = false := ⟨⟨rfl, rfl⟩, rfl⟩
theorem test_witness_FailedPulseGeneratorWriteReports : (faulty [1] (pwmOn (clean []))).env.head % 2 = 1
    ∧ ticks 2000#64 (pwmOn (clean [])).pwm.refHz = some 200#32 ∧ ticks 1000#64 (pwmOn (clean [])).pwm.refHz = some 100#32
    ∧ (pwmOn (clean [])).alloc.pwm = true := by decide
theorem test_witness_GetPeriodReturnsTheStoredPeriod : (pwmOn (clean [])).pwm.state ≠ .uninitialized
    ∧ (clean []).pwm.state = .uninitialized := by
  decide
theorem test_witness_PulseGeneratorFrame : ∃ t, exec .pwmGetp (pwmOn (clean [])) = .next t :=
  (of_after (f := words) test_pwmGetp).imp fun _ h => h.1
/-- A new period, and the PWM.EN that takes it over. -/
theorem test_witness_NewPeriodNeedsReload : ∃ t, exec (.pwmSetp 15#64) (pwmOn (clean [])) = .next t
    ∧ after (fun u => u.result) (exec .pwmEn t) = some (some { st := 0#64, val := 0#64 }) :=
  of_after (f := fun t => after (fun u => u.result) (exec .pwmEn t)) (by decide)
/-- With a reset pulse, and without a reset line in register framing. -/
theorem test_witness_DevInitReachesReady : (clean []).launch.params.Valid = true ∧ DeviceConnected (clean [])
    ∧ cfg1.seqMode = .singleCycle ∧ (clean []).devState = .absent
    ∧ addrEncodable Params.ex1 Params.ex1.addrScratch = true ∧ addrEncodable Params.ex1 Params.ex1.addrSeqCtrl = true
    ∧ addrEncodable Params.ex1 Params.ex1.addrSetup = true ∧ addrEncodable Params.ex1 Params.ex1.addrGpMode = true
    ∧ (cfg1.resetLinePresent = true ∧ (clean [0]).env.head % 2 = 0)
    ∧ (clean []).dev.framing = .register ∧ devReg (clean []) Params.ex1.addrSetup = none :=
  ⟨by decide, ⟨rfl, rfl⟩, rfl, rfl, by decide, by decide, by decide, by decide, by decide, rfl, by decide⟩
/-- Without a reset line: another register and the last conversion word are as before, and so are the bits outside the fields. -/
theorem test_witness_DevInitReachesReady_keeps :
    let s : State := { clean [0xC3, 0x2B] with
      launch := { params := Params.ex1, cfg := { cfg1 with resetLinePresent := false } }
      dev := { reg := [(0x27, 0x81#8), (0x123, 9#8)], framing := .register, sel := some 5#32 } }
    (s.dev.framing = .register ∧ devReg s Params.ex1.addrSetup = none)
      ∧ after (fun t => (t.dev, t.alloc.gpio)) (exec .devInit s) = some
        ({ reg := [(0x0A, 0xAA#8), (0x20, 0x0F#8), (0x24, 0x03#8), (0x27, 0xB1#8), (0x123, 9#8)], framing := .conversion
           sel := some 5#32 }, false) := by decide
/-- CFG1 with another sequencing mode and register framing, under parameters whose policy for such modes is given. -/
def otherModes (policy : UnimplSeqPolicy) (script : List Nat) : State :=
  { clean script with
    launch :=
      { params := { Params.ex1 with unimplSeqPolicy := policy }
        cfg := { cfg1 with seqMode := .standardSequence, ifMode := .register, resetLinePresent := false } } }
theorem test_witness_DevInitReachesReady_modes : (otherModes .accept []).launch.params.Valid = true
    ∧ (otherModes .accept []).launch.cfg.seqMode ≠ .singleCycle
    ∧ (otherModes .accept []).launch.params.unimplSeqPolicy = .accept := by decide
/-- A device that is not there, and a drawn byte that is not the sentinel, without a reset line (R153, S8). -/
def noDevice (policy : SelfTestPolicy) : State :=
  withParams { Params.ex1 with devConnected := false, selfTestPolicy := policy }
    { clean [0x12] with launch := { params := Params.ex1, cfg := { cfg1 with resetLinePresent := false } } }
theorem test_witness_DevInitReachesReady_mismatch : (noDevice .lenient).launch.params.Valid = true
    ∧ BitVec.ofNat 8 (noDevice .lenient).env.head ≠ (noDevice .lenient).launch.params.sentinel
    ∧ (noDevice .lenient).launch.params.pwmConnected = true ∧ (noDevice .lenient).dev.framing = .register := by decide
/-- The event is logged and DEV.INIT goes on (LENIENT), or ends (STRICT). -/
theorem test_witness_DevInitErrorTearsDown_strict :
    after (fun t => (t.log, words t, t.devState)) (exec .devInit (noDevice .strict)) = some ([.selfTestMismatch 0x12#8], some (0x203#64, 0#64), .absent) := by decide
theorem test_witness_DevInitErrorTearsDown_reject :
    after words (exec .devInit (otherModes .reject [])) = some (some (0x703#64, 0#64)) := by decide
/-- The handle allocation fails; the transport fails. -/
theorem test_witness_DevInitErrorTearsDown :
    (BlockInv (faulty [1] (clean [])) ∧ ∃ t, exec .devInit (faulty [1] (clean [])) = .next t ∧ t.result = some
        { st := 0x603#64, val := 0#64 })
      ∧ BlockInv (faulty [0, 1] (clean [])) ∧ ∃ t, exec .devInit (faulty [0, 1] (clean [])) = .next t
          ∧ t.result = some { st := 0x803#64, val := 0#64 } :=
  ⟨⟨blockInv_clean _, of_after (f := fun t => t.result) (by decide)⟩, blockInv_clean _, of_after (f := fun t => t.result)
      (by decide)⟩
theorem test_witness_DevTdReleasesWhatIsHeld : ((clean []).devState = .absent ∧ (clean []).alloc.pwm = false)
    ∧ (readyState []).devState ≠ .absent
    ∧ ((faulty [1] (readyState [])).env.faultFree = false ∧ (faulty [1] (readyState [])).env.head % 2 = 1) := by decide
theorem test_witness_ReinitializationNeedsAReset :
    let s : State :=
        { setFraming .conversion (clean []) with launch := { params := Params.ex1, cfg := { cfg1 with resetLinePresent := false } } }
    TransportFaultFree s ∧ s.devState = .absent ∧ s.launch.cfg.resetLinePresent = false ∧ s.dev.framing = .conversion
      ∧ addrEncodable s.launch.params s.launch.params.addrScratch = true := ⟨rfl, rfl, rfl, rfl, by decide⟩
/-- REG.WR of the setup register, and a DEV.INIT that resets the device. -/
theorem test_witness_ConversionFramingLastsUntilReset :
    (∃ t, exec (.regWr 0x0020#16 0x04#8) (regState 0x0020#16 0#8) = .next t ∧ t.dev.framing = .conversion)
      ∧ ∃ t, step ((faulty [0, 0, 0, 0, 0, 1] (setFraming .conversion (clean []))).withFetchWord 64 0x20) = .next t
          ∧ t.dev.framing = .register :=
  ⟨of_after (f := fun t => t.dev.framing) (by decide), of_after (f := fun t => t.dev.framing) (by decide)⟩
/-- Outside ready; misconfigured at the end of memory; the last buffer that fits; a transport that fails. -/
theorem test_witness_OffloadInitChecksAndStores : (clean []).devState ≠ .ready ∧ (readyState []).devState = .ready
    ∧ 2 ^ (readyState []).launch.params.memAddrW < (0xFFFFFFF0#64).toNat + (32#64).toNat
    ∧ ¬ 2 ^ (readyState []).launch.params.memAddrW < (0xFFFFFFF0#64).toNat + (16#64).toNat
    ∧ (faulty [1] (readyState [])).env.head % 2 = 1 := by decide
theorem test_witness_SetParameterStoresTheWord : (0xFFFF#64).toNat < 2 ^ (clean []).launch.params.xferWidth
    ∧ 2 ^ (clean []).launch.params.xferWidth ≤ (0x10000#64).toNat := by decide
theorem test_witness_SetChannelStoresItsWord : (15#64).toNat < (clean []).launch.params.nch
    ∧ (clean []).launch.params.nch ≤ (16#64).toNat
    ∧ (clean []).launch.params.Valid = true := by decide
/-- A transfer that fills the buffer exactly. -/
theorem test_witness_TransferIssuesEveryRepetition : TransportFaultFree (xferState 4000 []) ∧ XferOpen 1000 (xferState 4000 []) :=
  ⟨rfl, xferOpen_xferState _ (by decide)⟩
/-- A state for each check, and one past them all. -/
theorem test_witness_TransferChecksInOrder : (clean []).devState ≠ .ready ∧ (readyState []).ofl.initialized = false
    ∧ templateWf [0x2001#16] = false ∧ (oflState 4000 []).msg.paramValid = false
        ∧ (xferState 4000 []).ofl.rxLen < 1001 * resultWords (xferState 4000 []).msg.template * 4
    ∧ (setFraming .register (xferState 4000 [])).dev.framing ≠ .conversion
        ∧ (setPwmState .disabled (xferState 4000 [])).pwm.state ≠ .enabled
    ∧ XferOpen 1000 (xferState 4000 []) :=
  ⟨by decide, by decide, by decide, by decide, by decide, by decide, by decide, xferOpen_xferState _ (by decide)⟩
theorem test_witness_FailedTriggerIssuesAPrefix : XferOpen 4 (faulty [1, 3, 0, 7, 0, 8, 0, 9] (xferState 4000 []))
    ∧ (faulty [1, 3, 0, 7, 0, 8, 0, 9] (xferState 4000 [])).env.head % 2 = 1
    ∧ ∃ t, exec (.oflXfer 4#64) (faulty [1, 3, 0, 7, 0, 8, 0, 9] (xferState 4000 [])) = .next t ∧ t.result = some
        { st := 5#64, val := 0#64 } :=
  ⟨⟨rfl, rfl, by decide, rfl, by decide, rfl, rfl, rfl⟩, by decide, of_after (f := fun t => t.result) (by decide)⟩
/-- Before the end of the template, and at its end. -/
theorem test_witness_MicroOperationsComplete : TransportFaultFree (engineState 0) ∧ 1#12 ≠ 0#12 ∧ 0xFFF#12 ≠ 0#12
    ∧ (engineState 1).engine.tpc + 1 < (engineState 1).msg.template.length
        ∧ ¬ (engineState 2).engine.tpc + 1 < (engineState 2).msg.template.length :=
  ⟨rfl, by decide, by decide, by decide, by decide⟩
theorem test_witness_LandingWritesItsWord : (flying 0x1000 0x12345678#32 (clean [1])).inflight[0]? = some (0x1000, 0x12345678#32)
    ∧ (flying 0x1000 0x12345678#32 (clean [1])).landBy = some (2 + 1)
    ∧ (flying 0x1000 0x12345678#32 (clean [1])).env.head
      % ((flying 0x1000 0x12345678#32 (clean [1])).inflight.length + 1) ≠ 0 := by decide
/-- A landing between operations, and a landing inside an iteration. -/
theorem test_witness_MemoryChangesOnlyByLandings :
    (∃ t, step (flying 0x1000 0x12345678#32 (clean [1])) = .next t ∧ t.mem.read 0x1000 = some 0x78#8)
      ∧ ∃ t, step ((oflState 16 ([7, 0, 0, 0, 1] ++ List.replicate 64 0)).withFetchWord 64 0x40) = .next t
          ∧ t.mem.read 0x1000 = some 7#8 :=
  ⟨of_after (f := fun t => t.mem.read 0x1000) (by decide), of_after (f := fun t => t.mem.read 0x1000) (by decide)⟩
theorem test_witness_SettleDrainsWhenAssumed : (clean []).launch.params.settleMode = .conservative
    ∧ (withParams { Params.ex1 with settleMode := .assumed } (clean [])).launch.params.settleMode = .assumed := by decide
/-- A word whose turns are not drawn; one that CTL's turn leaves waiting; one that must land now, a run of one step. -/
theorem test_witness_SettleDrainsWhenAssumed_fairness :
    (after (fun t => t.landBy) (step { flying 0x1000 1#32 (clean [7]) with landBy := none }) = some (some 7))
      ∧ (after (fun t => (t.landBy, t.inflight)) (step (flying 0x1000 1#32 (clean [2, 1]))) = some (some 2, [(0x1000, 1#32)]))
      ∧ (after (fun t => (t.landBy, t.inflight)) (step { flying 0x1000 1#32 (clean []) with landBy := some 0 })
        = some (none, [])) := by decide
/-- Two words in flight that overlap; the oldest word lands inside an iteration of ACQ.RUN. -/
theorem test_witness_SettleDrainsWhenAssumed_landings :
    (after (fun t => (t.inflight, t.mem)) (exec (.settle 0#64) (withParams { Params.ex1 with settleMode := .assumed }
        { clean [0, 0] with inflight := [(0x1000, 0x01020304#32), (0x1002, 0x05060708#32)] }))
      = some ([], [(0x1000, 4#8), (0x1001, 3#8), (0x1002, 8#8), (0x1003, 7#8), (0x1004, 6#8), (0x1005, 5#8)]))
      ∧ after (fun t => (t.landBy, t.inflight.map Prod.fst))
          (step { flying 0x5000 1#32 (oflState 16 [0, 7, 8, 9, 10, 1, 0, 0]) with ctl := .acqRun })
        = some (none, [0x1000, 0x1004, 0x1008, 0x100C]) := by decide
/-- The last range of memory. -/
theorem test_witness_InvalidateMakesTheRangeFresh :
    (0xFFFFFFFC#64).toNat + (4#64).toNat ≤ 2 ^ (clean []).launch.params.memAddrW := by decide
/-- No offload, one word too many, and a buffer decoded whole. -/
theorem test_witness_DecodeEmitsTheBuffer : (clean []).ofl.initialized = false
    ∧ (oflState 4000 []).ofl.rxLen < (1001#64).toNat * 4
    ∧ (1000#64).toNat * 4 ≤ (oflState 4000 []).ofl.rxLen ∧ (oflState 4000 []).stale = [] := by decide
theorem test_witness_FullTransferCycle : TransportFaultFree (xferState 4000 []) ∧ XferOpen 1000 (xferState 4000 [])
    ∧ NothingInFlight (xferState 4000 []) ∧ (0x1000#64).toNat = (xferState 4000 []).ofl.rxAddr
    ∧ (1000#64).toNat = 1000 * resultWords (xferState 4000 []).msg.template ∧ (4000#64).toNat = 4 * (1000#64).toNat
    ∧ SettleAssumed (withParams { Params.ex1 with settleMode := .assumed } (xferState 4000 [])) :=
  ⟨rfl, xferOpen_xferState _ (by decide), rfl, by decide, by decide, by decide, rfl⟩
/-- A buffer that holds the four words of an iteration exactly. -/
theorem test_witness_IterationCompletes : TransportFaultFree (oflState 16 []) ∧ (oflState 16 []).acq.terminated = false
    ∧ XferOpen (oflState 16 []).launch.params.sampleCount (selectChannel (oflState 16 []).acq.channel.val (oflState 16 [])) :=
  ⟨rfl, rfl, ⟨rfl, rfl, by decide, rfl, by decide, rfl, rfl, rfl⟩⟩
/-- Under ASSUMED, with nothing in flight: the responses, of `XFER_WIDTH` bits each, are the samples. -/
theorem test_witness_IterationCompletes_assumed :
    let s := withParams { Params.ex1 with settleMode := .assumed } (oflState 16 ([7, 8, 0x10009, 10] ++ List.replicate 16 0))
    (SettleAssumed s ∧ NothingInFlight s ∧ XferOpen s.launch.params.sampleCount (selectChannel s.acq.channel.val s))
      ∧ after (fun t => (t.out, t.inflight)) (exec .acqIter s) = some ([[7#32, 8#32, 9#32, 10#32]], []) :=
  ⟨⟨rfl, rfl, rfl, rfl, by decide, rfl, by decide, rfl, rfl, rfl⟩, by decide⟩
/-- Two iterations that are Ok. -/
theorem test_witness_ChannelsAlternate : ∃ t, exec .acqIter (oflState 16 (List.replicate 64 0)) = .next t
    ∧ (t.result, after (fun u => u.result) (exec .acqIter t)) = (some { st := 0#64, val := 0#64 }, some (some
        { st := 0#64, val := 0#64 })) :=
  of_after (f := fun t => (t.result, after (fun u => u.result) (exec .acqIter t))) (by decide)
/-- An iteration that returns an error, and a step of a terminated loop. -/
theorem test_witness_TerminationIsFinal :
    (∃ t, exec .acqRun (faulty [1, 0, 0] (oflState 16 [])) = .next t ∧ t.result = some { st := 5#64, val := 0#64 })
      ∧ ∃ t, step { clean [] with acq := { channel := 0, iter := 2, terminated := true } } = .next t ∧ t.acq.iter = 2 :=
  ⟨of_after (f := fun t => t.result) (by decide), of_after (f := fun t => t.acq.iter) (by decide)⟩
/-- The state with a request to run, memory listed. -/
theorem test_witness_StepKeepsStorageCanonical :
    StorageInv { clean [] with mem := [(1, 2#8), (3, 4#8)], stale := [1, 3], pending := [0x21#64] }
      ∧ ∃ t, step { clean [] with mem := [(1, 2#8), (3, 4#8)], stale := [1, 3], pending := [0x21#64] } = .next t
          ∧ t.pending = [] :=
  ⟨⟨by decide, by decide, by decide⟩, of_after (f := fun t => t.pending) (by decide)⟩
theorem test_witness_StepKeepsBlockInvariant : BlockInv (clean [1]) ∧ ∃ t, step (clean [1]) = .next t ∧ t.devState = .absent :=
  ⟨blockInv_clean _, of_after (f := fun t => t.devState) (by decide)⟩
theorem test_witness_InvariantsHoldAtReset : Params.ex1.Valid = true := by decide
theorem test_witness_HistoryOnlyGrows : ∃ t, step ((xferState 4000 []).withFetchWord 64 0x21) = .next t
    ∧ t.msg.paramValid = true :=
  of_after (f := fun t => t.msg.paramValid) (by decide)

end Sys2Proof.Tests
end

section
/-! SUPPORT. What every operation and every step leaves of the history and of the marks (spec/00_scope.md R11, R12,
spec/10_state.md R27, R32, R36 to R38, spec/20_memory.md R72), said once for each body. -/

namespace Sys2Proof.Machine

/-! ### History that only grows -/

/-- `t` is later than `s`: the launch and the template stay, the logs and the trace are continued. A field that is not named when
this is built is unchanged. -/
structure Grows (s t : State) : Prop where
  launch : t.launch = s.launch := by rfl
  template : t.msg.template = s.msg.template := by rfl
  log : s.log <+: t.log := by exact List.prefix_refl _
  out : s.out <+: t.out := by exact List.prefix_refl _
  calls : s.calls <+: t.calls := by exact List.prefix_refl _
  param : s.msg.paramValid = true → t.msg.paramValid = true := by exact id
  iter : s.acq.iter ≤ t.acq.iter := by exact Nat.le_refl _
  faultFree : t.env.faultFree = s.env.faultFree := by rfl

theorem Grows.trans {s t u : State} (h : Grows s t) (k : Grows t u) : Grows s u where
  launch := k.launch.trans h.launch
  template := k.template.trans h.template
  log := h.log.trans k.log
  out := h.out.trans k.out
  calls := h.calls.trans k.calls
  param := k.param ∘ h.param
  iter := h.iter.trans k.iter
  faultFree := k.faultFree.trans h.faultFree

/-- `t` is reached from `s` inside one operation: beside the history, the marks and the request words stay. -/
structure Within (s t : State) : Prop extends Grows s t where
  fault : t.fault = s.fault := by rfl
  refused : t.refused = s.refused := by rfl
  pending : t.pending = s.pending := by rfl

theorem Within.trans {s t u : State} (h : Within s t) (k : Within t u) : Within s u where
  toGrows := h.toGrows.trans k.toGrows
  fault := k.fault.trans h.fault
  refused := k.refused.trans h.refused
  pending := k.pending.trans h.pending

/-- The same, and the engine stays too: no transfer was part of it. -/
structure Quiet (s t : State) : Prop extends Within s t where
  engine : t.engine = s.engine := by rfl

theorem Quiet.refl (s : State) : Quiet s s := {}

theorem Quiet.trans {s t u : State} (h : Quiet s t) (k : Quiet t u) : Quiet s u where
  toWithin := h.toWithin.trans k.toWithin
  engine := k.engine.trans h.engine

theorem quiet_perform (c : Call) (s : State) : Quiet s (perform c s) := { calls := List.prefix_append _ _ }

theorem quiet_attempt (c : Call) (s : State) : Quiet s (attempt c s).2 :=
  attempt_keeps (P := Quiet s) (fun c t h => h.trans (quiet_perform c t)) (fun _ h => h.trans {}) c (.refl s)

theorem DeviceOnly.quiet {s t : State} (h : DeviceOnly s t) : Quiet s t := by
  rw [h.frame]
  exact { calls := h.calls, faultFree := h.faultFree }

theorem PulseOnly.quiet {s t : State} (h : PulseOnly s t) : Quiet s t := by
  rw [h.frame]
  exact { calls := h.calls, faultFree := h.faultFree }

theorem Landed.quiet {s t : State} (h : Landed s t) : Quiet s t := by
  rw [h.frame]
  exact { faultFree := h.faultFree }

/-! ### Device configuration (R150 to R162) -/

theorem quiet_collaborate {c : Call} {r s : State} {f : State → Res Unit × State} (h : Quiet r s)
    (hf : ∀ t, Quiet r t → Quiet r (f t).2) : Quiet r (collaborate c s f).2 := by
  have ha := h.trans (quiet_attempt c s)
  unfold collaborate
  dsimp only
  split
  · exact hf _ ha
  · exact ha

theorem quiet_stepAccess {α : Type} {s : State} {x : Res α × State} (h : Quiet s x.2) : Quiet s (stepAccess x).2 :=
  onErr_keeps (P := Quiet s) h fun _ _ _ => id

theorem quiet_regRead (a : Half) (s : State) : Quiet s (stepAccess (regRead a s)).2 :=
  quiet_stepAccess (deviceOnly_regRead a s).quiet

theorem quiet_regWrite (a : Half) (v : Byte) (s : State) : Quiet s (stepAccess (regWrite a v s)).2 :=
  quiet_stepAccess (deviceOnly_regWrite a v s).quiet

theorem quiet_regWriteMasked (a : Half) (m v : Byte) (s : State) : Quiet s (stepAccess (regWriteMasked a m v s)).2 :=
  quiet_stepAccess (deviceOnly_regWriteMasked a m v s).quiet

theorem quiet_andThen {α β : Type} {r : State} {x : Res α × State} {f : α → State → Res β × State} (hx : Quiet r x.2)
    (hf : ∀ v t, Quiet t (f v t).2) : Quiet r (andThen x f).2 :=
  andThen_keeps (P := Quiet r) hx fun v t h => h.trans (hf v t)

theorem quiet_onErr {α : Type} {r : State} {x : Res α × State} {f : ErrCode → Cause → State → Res α × State}
    (hx : Quiet r x.2) (hf : ∀ e c t, Quiet t (f e c t).2) : Quiet r (onErr x f).2 :=
  onErr_keeps (P := Quiet r) hx fun e c t h => h.trans (hf e c t)

theorem quiet_step1 (s : State) : Quiet s (step1 s).2 := by
  unfold step1
  split
  · exact .refl s
  refine quiet_collaborate (.refl s) fun t ht => ?_
  have hd : Quiet s (drawBool t).2 := ht.trans {}
  dsimp only
  split
  · exact hd
  refine quiet_collaborate (hd.trans {}) fun u hu => quiet_collaborate ?_ fun v hv => ?_
  · exact (hu.trans (u := deviceResetAssert u) {}).trans (quiet_perform _ _)
  · exact hv.trans (quiet_perform _ _)

theorem quiet_step2 (s : State) : Quiet s (step2 s).2 :=
  quiet_collaborate (.refl s) fun _ h => h.trans {}

theorem quiet_step3 (s : State) : Quiet s (step3 s).2 := by
  refine quiet_andThen (quiet_regWrite _ _ s) fun _ t => quiet_andThen (quiet_regRead _ t) fun b u => ?_
  have hlog : Quiet u { u with log := u.log ++ [.selfTestMismatch b] } := { log := List.prefix_append _ _ }
  dsimp only
  split
  · exact .refl u
  split
  · exact hlog
  · exact hlog

theorem quiet_step4 (s : State) : Quiet s (step4 s).2 := by
  unfold step4
  split
  · exact quiet_andThen (quiet_regWriteMasked _ _ _ s) fun _ t => quiet_regWriteMasked _ _ _ t
  all_goals split <;> exact .refl s

theorem quiet_step5 (s : State) : Quiet s (step5 s).2 :=
  quiet_andThen (quiet_regWriteMasked _ _ _ s) fun _ t => quiet_regWriteMasked _ _ _ t

theorem quiet_step6 (s : State) : Quiet s (step6 s).2 := quiet_regWriteMasked _ _ _ s

theorem quiet_step7 (s : State) : Quiet s (step7 s).2 := by
  refine quiet_collaborate (.refl s) fun t ht => quiet_collaborate (ht.trans {}) fun u hu => ?_
  refine quiet_collaborate hu fun v hv => quiet_collaborate (hv.trans {}) fun w hw => ?_
  exact quiet_onErr ((hw.trans {}).trans (pulseOnly_pwmInit _).quiet) fun _ _ t => .refl t

theorem releaseIf_env (b : Bool) (c : Call) (f : Alloc → Alloc) (s : State) : (releaseIf b c f s).env = s.env := by
  unfold releaseIf
  split <;> rfl

theorem devTeardown_faultFree (s : State) : (devTeardown s).env.faultFree = s.env.faultFree := by
  unfold devTeardown
  simp only [releaseIf_env, (pulseOnly_pwmTeardown _).faultFree]

theorem quiet_devTeardown (s : State) : Quiet s (devTeardown s) := by
  have hf := devTeardown_faultFree s
  obtain ⟨p, e, h⟩ := devTeardown_eq s
  rw [h] at hf ⊢
  simp only [List.append_assoc]
  exact { calls := List.prefix_append _ _, faultFree := hf }

theorem quiet_runStep {f : State → Res Unit × State} (next : DevState) (hf : ∀ s, Quiet s (f s).2) (s : State) :
    Quiet s (runStep f next s).2 :=
  quiet_andThen (hf s) fun _ _ => {}

theorem quiet_devSteps (s : State) : Quiet s (devSteps s).2 :=
  quiet_andThen (quiet_runStep _ quiet_step1 s) fun _ s => quiet_andThen (quiet_runStep _ quiet_step2 s) fun _ s =>
  quiet_andThen (quiet_runStep _ quiet_step3 s) fun _ s => quiet_andThen (quiet_runStep _ quiet_step4 s) fun _ s =>
  quiet_andThen (quiet_runStep _ quiet_step5 s) fun _ s => quiet_andThen (quiet_runStep _ quiet_step6 s) fun _ s =>
  quiet_runStep _ quiet_step7 s

theorem quiet_devInit (s : State) : Quiet s (devInit s).2 := by
  have ha := quiet_attempt .allocHandle s
  unfold devInit
  dsimp only
  split
  · exact .refl s
  split
  · exact quiet_onErr ((ha.trans {}).trans (quiet_devSteps _)) fun _ c t =>
      Quiet.trans (t := { t with devState := .failed }) {} (quiet_devTeardown _)
  · exact ha

/-! ### The offload and the loop, but for the transfers (R181 to R188, R210, R211) -/

theorem quiet_oflInit (a len flags : DWord) (s : State) : Quiet s (oflInit a len flags s).2 := by
  have ha := quiet_attempt (.offloadInit a.toNat true) s
  unfold oflInit oflGuard
  split
  · exact .refl s
  dsimp only
  split
  · exact {}
  split <;> exact ha.trans {}

theorem quiet_setParam (w : Word) (tag : Option Nat) (s : State) : Quiet s (setParam w tag s) := { param := fun _ => rfl }

theorem quiet_settle (ms : Nat) (s : State) : Quiet s (settle ms s) :=
  (quiet_perform _ s).trans (landed_settle ms s).quiet

theorem quiet_cacheInvalidate (a n : Nat) (s : State) : Quiet s (cacheInvalidate a n s) :=
  { calls := List.prefix_append _ _ }

theorem quiet_decodeBuffer (n : Nat) (s : State) : Quiet s (decodeBuffer n s).2 := by
  unfold decodeBuffer
  dsimp only
  split
  · exact .refl s
  split
  · exact .refl s
  rw [decodeWords_state n s.ofl.rxAddr s]
  exact { out := List.prefix_append _ _, faultFree := decodeWords_faultFree n s.ofl.rxAddr s }

theorem quiet_acqConsume (s : State) : Quiet s (acqConsume s).2 := by
  have h := (landed_dmaMoves s).quiet.trans (quiet_settle Config.settleMs _)
  unfold acqConsume
  refine quiet_andThen (Quiet.trans ?_ (quiet_decodeBuffer _ _)) fun _ _ => { iter := Nat.le_succ _ }
  exact (h.trans (quiet_cacheInvalidate _ _ _)).trans (landed_dmaMoves _).quiet

theorem quiet_acqTerminate (e : ErrCode) (c : Cause) (s : State) : Quiet s (acqTerminate e c s).2 := by
  have h : Quiet s (if s.pwm.state = .uninitialized then s else (pwmDisable s).2) := by
    split
    · exact .refl s
    · exact (pulseOnly_pwmDisable s).quiet
  exact (h.trans (quiet_devTeardown _)).trans {}

/-! ### Operations with a transfer (R184, R210) -/

theorem Issued.within {first n : Nat} {s t : State} (h : Issued first n s t) : Within s t := by
  have hf := h.faultFree
  have hc : s.calls <+: t.calls := ⟨_, h.calls.symm⟩
  rw [h.frame]
  exact { calls := hc, faultFree := hf }

theorem Broken.within {first k : Nat} {s t : State} (h : Broken first k s t) : Within s t := by
  have hf := h.faultFree
  have hc : s.calls <+: t.calls := ⟨_, h.calls.symm⟩
  rw [h.frame]
  exact { calls := hc, faultFree := hf }

/-- How a body leaves the machine: unless it is stuck, an engine that was idle is idle again. -/
structure Ran {α : Type} (s : State) (x : Res α × State) : Prop where
  within : Within s x.2
  idle : x.1 ≠ .stuck → s.engine.busy = false → x.2.engine.busy = false

section
variable {α β : Type} {s t : State} {x : Res α × State}

theorem Quiet.ran (h : Quiet s x.2) : Ran s x := ⟨h.toWithin, fun _ hb => h.engine ▸ hb⟩

theorem Ran.after (k : Ran t x) (h : Quiet s t) : Ran s x :=
  ⟨h.toWithin.trans k.within, fun hx hb => k.idle hx (h.engine ▸ hb)⟩

/-- What follows an outcome that is not stuck. -/
theorem Ran.next {y : Res β × State} (h : Ran s x) (hx : x.1 ≠ .stuck) (k : Quiet x.2 y.2) : Ran s y :=
  ⟨h.within.trans k.toWithin, fun _ hb => k.engine ▸ h.idle hx hb⟩

theorem Ran.andThen {f : α → State → Res β × State} (h : Ran s x) (hf : ∀ v t, Quiet t (f v t).2) :
    Ran s (andThen x f) := by
  obtain ⟨r, t⟩ := x
  cases r with
  | ok v => exact h.next nofun (hf v t)
  | stuck => exact ⟨h.within, fun hs => absurd rfl hs⟩
  | _ => exact h.next nofun (.refl t)

theorem Ran.onErr {f : ErrCode → Cause → State → Res α × State} (h : Ran s x) (hf : ∀ e c t, Quiet t (f e c t).2) :
    Ran s (onErr x f) := by
  obtain ⟨r, t⟩ := x
  cases r with
  | err e c => exact h.next nofun (hf e c t)
  | _ => exact h

end

theorem within_transferStart {k : Nat} {s t : State} (h : Quiet s t) : Within s (transferStart k s t) :=
  { calls := h.calls, faultFree := h.faultFree }

theorem quiet_drawBelow {s t : State} (n : Nat) (h : Quiet s t) : Quiet s (drawBelow n t).2 := h.trans {}

theorem ran_oflXfer (reps : Nat) (s : State) : Ran s (oflXfer reps s) := by
  have hp := quiet_perform (.offloadTrigger s.msg.template reps) s
  have hd : Quiet s (drawNat (perform (.offloadTrigger s.msg.template reps) s)).2 := hp.trans {}
  by_cases h : XferOpen reps s
  · have hx := oflXfer_ends h
    generalize oflXfer reps s = x at hx ⊢
    cases hx with
    | ok hu hi _ he =>
      refine ⟨.trans (within_transferStart ?_) hi.within, fun _ _ => by rw [he]⟩
      rcases hu with ⟨-, rfl⟩ | ⟨-, -, rfl⟩
      · exact hp
      · exact hd
    | failed _ _ hu hi _ he =>
      exact ⟨.trans (within_transferStart (hu ▸ quiet_drawBelow _ hd)) hi.within, fun _ _ => by rw [he]⟩
    | stuck _ hu _ hb _ _ =>
      refine ⟨.trans (within_transferStart ?_) hb.within, fun hs => absurd rfl hs⟩
      rcases hu with ⟨-, -, rfl⟩ | ⟨-, -, rfl⟩
      · exact hd
      · exact quiet_drawBelow _ hd
  · refine Quiet.ran ?_
    rw [(oflXfer_of_closed h).1]
    exact .refl s

theorem ran_acqIter (s : State) : Ran s (acqIter s) := by
  unfold acqIter
  split
  · exact Quiet.ran (.refl s)
  · exact ((ran_oflXfer _ _).after (quiet_setParam _ _ s)).onErr quiet_acqTerminate |>.andThen fun _ => quiet_acqConsume

theorem within_microXfer (n : BitVec 12) (s : State) : Within s (microXfer n s).2 := by
  unfold microXfer
  split
  · exact {}
  obtain ⟨t, hx, hi, -⟩ | ⟨t, k, hx, -, hb, -⟩ := (exchangeWords_issues n.toNat (wordIndex s) s).ends <;> rw [hx]
  · rw [andThen_ok, engineAdvance_eq]
    exact hi.within.trans {}
  · exact hb.within

/-! ### Every instruction -/

theorem quiet_pwmGuard {α : Type} {s : State} {f : State → Res α × State} (hf : Quiet s (f s).2) :
    Quiet s (pwmGuard s f).2 := by
  unfold pwmGuard
  split
  · exact .refl s
  · exact hf

theorem ran_operandGuard {b : Bool} {s : State} {f : State → Res DWord × State} (hf : Ran s (f s)) :
    Ran s (operandGuard b s f) := by
  unfold operandGuard
  split
  · exact hf
  · exact Quiet.ran (.refl s)

/-- A host operation but ACQ.RUN ends as `finish` says, after a body that leaves the machine as `Ran` says. -/
theorem exec_host {i : Instr} (s : State) (h : i.isMicro = false) (hi : i ≠ .acqRun) :
    ∃ x : Res DWord × State, exec i s = finish x ∧ Ran s x := by
  have ok : ∀ {α : Type} {x : Res α × State} (f : α → DWord), Quiet s x.2 →
      Ran s (andThen x fun v t => (.ok (f v), t)) := fun f hx => (Quiet.ran hx).andThen fun _ => .refl
  cases i with
  | regRd a => exact ⟨_, rfl, ok _ (deviceOnly_regRead a s).quiet⟩
  | regWr a v => exact ⟨_, rfl, ok _ (deviceOnly_regWrite a v s).quiet⟩
  | regRdm a m => exact ⟨_, rfl, ok _ (deviceOnly_regReadMasked a m s).quiet⟩
  | regWrm a m v => exact ⟨_, rfl, ok _ (deviceOnly_regWriteMasked a m v s).quiet⟩
  | pwmInit => exact ⟨_, rfl, ok _ (pulseOnly_pwmInit s).quiet⟩
  | pwmSetp ns => exact ⟨_, rfl, ok _ (quiet_pwmGuard (pulseOnly_setPeriod ns s).quiet)⟩
  | pwmSetd ns => exact ⟨_, rfl, ok _ (quiet_pwmGuard (pulseOnly_setDuty ns s).quiet)⟩
  | pwmEn => exact ⟨_, rfl, ok _ (quiet_pwmGuard (pulseOnly_pwmEnable s).quiet)⟩
  | pwmDis => exact ⟨_, rfl, ok _ (quiet_pwmGuard (pulseOnly_pwmDisable s).quiet)⟩
  | pwmTd => exact ⟨_, rfl, ok _ (pulseOnly_pwmTeardown s).quiet⟩
  | pwmGetp => exact ⟨_, rfl, Quiet.ran (quiet_pwmGuard (.refl s))⟩
  | devInit => exact ⟨_, rfl, ok _ (quiet_devInit s)⟩
  | devTd =>
    refine ⟨_, rfl, Quiet.ran ?_⟩
    dsimp only
    split
    · exact .refl s
    · exact quiet_devTeardown s
  | oflInit a len flags => exact ⟨_, rfl, ok _ (quiet_oflInit a len flags s)⟩
  | msgSetp w => exact ⟨_, rfl, ran_operandGuard (Quiet.ran (quiet_setParam _ _ s))⟩
  | msgSetch ch => exact ⟨_, rfl, ran_operandGuard (Quiet.ran (quiet_setParam _ _ s))⟩
  | oflXfer reps => exact ⟨_, rfl, ran_operandGuard ((ran_oflXfer _ s).andThen fun _ => .refl)⟩
  | settle ms => exact ⟨_, rfl, Quiet.ran (quiet_settle _ s)⟩
  | cinv a len => exact ⟨_, rfl, ran_operandGuard (Quiet.ran (quiet_cacheInvalidate _ _ s))⟩
  | decodeBuf n =>
    exact ⟨_, rfl, ran_operandGuard (Quiet.ran (quiet_andThen (quiet_decodeBuffer _ s) fun _ => .refl))⟩
  | acqIter => exact ⟨_, rfl, (ran_acqIter s).andThen fun _ => .refl⟩
  | acqRun => exact absurd rfl hi
  | csAssert | xfer _ | csDeassert => cases h

theorem grows_ended (x : Res DWord × State) : Grows x.2 (ended x) := by
  obtain ⟨r, s⟩ := x
  cases r <;> exact {}

theorem grows_endedRun (x : Res Unit × State) : Grows x.2 (endedRun x) := by
  obtain ⟨r, s⟩ := x
  cases r <;> exact {}

theorem grows_endedMicro (x : Res Unit × State) : Grows x.2 (endedMicro x) := by
  obtain ⟨r, s⟩ := x
  cases r <;> exact {}

theorem within_engineAdvance (s : State) : Within s (engineAdvance s) := by
  rw [engineAdvance_eq]
  exact {}

/-- No instruction rewrites the history. -/
theorem exec_grows {i : Instr} {s t : State} (h : exec i s = .next t) : Grows s t := by
  cases hm : i.isMicro with
  | true =>
    have micro : ∀ {x : Res Unit × State}, Within s x.2 → finishMicro x = .next t → Grows s t := by
      rintro x hx ⟨⟩
      exact hx.toGrows.trans (grows_endedMicro x)
    cases i with
    | csAssert => exact micro (.trans (t := { s with cs := true }) {} (within_engineAdvance _)) h
    | xfer n => exact micro (within_microXfer n s) h
    | csDeassert => exact micro (.trans (t := { s with cs := false }) {} (within_engineAdvance _)) h
    | _ => cases hm
  | false =>
    by_cases hr : i = .acqRun
    · subst hr
      cases h
      exact (ran_acqIter s).within.toGrows.trans (grows_endedRun _)
    · obtain ⟨x, hx, hran⟩ := exec_host s hm hr
      rw [hx] at h
      cases h
      exact hran.within.toGrows.trans (grows_ended x)

/-! ### The marks (R38) -/

theorem step_of_fault {s : State} {r : Fault} (h : s.fault = some r) : step s = .fault r := by simp only [step, turn, h]

theorem step_of_refused {s : State} {r : Refusal} (hf : s.fault = none) (h : s.refused = some r) : step s = .refused r := by
  simp only [step, turn, hf, h]

/-- A step starts without marks. -/
theorem unmarked_of_step {s t : State} (h : step s = .next t) : s.fault = none ∧ s.refused = none := by
  cases hf : s.fault with
  | some r => simp [step_of_fault hf] at h
  | none =>
    cases hr : s.refused with
    | some r => simp [step_of_refused hf hr] at h
    | none => exact ⟨rfl, rfl⟩

/-! ### What a turn answers -/

/-- The answer of a step whose turn is given. -/
def Turn.answer : Turn → Host.Outcome State Fault Refusal
  | .faulted r => .fault r
  | .refused r => .refused r
  | .moves t => .next t
  | .runs i t => exec i t

theorem step_eq {s : State} (hf : s.fault = none) (hr : s.refused = none) : step s = (agentTurn s).answer := by
  rw [step, turn_of_unmarked hf hr]
  cases agentTurn s <;> rfl

/-! ### Every turn -/

/-- The states that a turn leads to, before an instruction it runs is executed, meet `P`. -/
def Turn.Leads (P : State → Prop) : Turn → Prop
  | .moves t | .runs _ t => P t
  | .faulted _ | .refused _ => True

theorem Turn.Leads.imp {P Q : State → Prop} (h : ∀ t, P t → Q t) {x : Turn} (hx : x.Leads P) : x.Leads Q := by
  cases x with
  | moves t => exact h t hx
  | runs i t => exact h t hx
  | faulted r => trivial
  | refused r => trivial

theorem ctlTurn_grows (s : State) : (ctlTurn s).Leads (Grows s) := by
  unfold ctlTurn
  split
  · trivial
  · exact {}
  split
  · unfold engineTurn
    split <;> exact {}
  · unfold hostTurn
    split
    · exact { faultFree := hostStep_faultFree s }
    · exact {}
    · exact {}

theorem agentTurn_grows (s : State) : (agentTurn s).Leads (Grows s) := by
  have landing : ∀ (t : State) (i : Nat), Grows s t → Grows s (land i t) :=
    fun t i h => h.trans (landed_land i t).quiet.toGrows
  by_cases hq : s.inflight = []
  · rw [agentTurn_quiet hq]
    exact ctlTurn_grows s
  by_cases hc : s.ctl = .stuck
  · rw [agentTurn_stuck hq hc]
    exact landing _ _ {}
  cases hb : s.landBy with
  | none =>
    rw [agentTurn_undrawn hq hc hb]
    exact {}
  | some k =>
    cases k with
    | zero =>
      rw [agentTurn_due hq hc hb]
      exact landing _ _ {}
    | succ k =>
      rw [agentTurn_free hq hc hb]
      dsimp only
      have ht : Grows s { s with landBy := some k, env := s.env.advance } := {}
      split
      · exact (ctlTurn_grows _).imp fun _ => ht.trans
      · exact landing _ _ ht

theorem Turn.Leads.grows {s t : State} {x : Turn} (hx : x.Leads (Grows s)) (h : x.answer = .next t) : Grows s t := by
  cases x with
  | moves u => exact Host.Outcome.next.inj h ▸ hx
  | runs i u => exact Grows.trans hx (exec_grows h)
  | faulted r => cases h
  | refused r => cases h

theorem step_grows {s t : State} (h : step s = .next t) : Grows s t := by
  obtain ⟨hf, hr⟩ := unmarked_of_step h
  rw [step_eq hf hr] at h
  exact (agentTurn_grows s).grows h

/-- Settles O60: what a turn does and what an instruction does each continue the history. -/
theorem historyOnlyGrows : Obligations.HistoryOnlyGrows := fun _ _ h =>
  have g := step_grows h
  ⟨g.launch, g.template, g.log, g.out, g.calls, g.param, g.iter, g.faultFree⟩

end Sys2Proof.Machine
end

section
/-! SUPPORT. The step of CTL and HOST (spec/00_scope.md R5, spec/30_encoding.md R82) and the end of a run
(spec/70_reset_and_hazards.md R267). -/

namespace Sys2Proof.Machine

/-! ### What CTL and HOST do with a turn -/

theorem ctlTurn_stuck {s : State} (h : s.ctl = .stuck) : ctlTurn s = .faulted .stuck := by simp only [ctlTurn, h]

theorem ctlTurn_acqRun {s : State} (h : s.ctl = .acqRun) : ctlTurn s = .runs .acqRun s := by simp only [ctlTurn, h]

theorem ctlTurn_engine {s : State} (hc : s.ctl = .idle) (hb : s.engine.busy = true) : ctlTurn s = engineTurn s := by
  simp only [ctlTurn, hc, hb, if_true]

theorem ctlTurn_host {s : State} (hc : s.ctl = .idle) (hb : s.engine.busy = false) : ctlTurn s = hostTurn s := by
  simp only [ctlTurn, hc, hb, Bool.false_eq_true, if_false]

theorem hostTurn_instr {s : State} {i : Instr} {rest : List DWord} (h : decodeRequest s.pending = .instr i rest) :
    hostTurn s = .runs i { s with pending := rest } := by simp only [hostTurn, h]

theorem hostTurn_incomplete {s : State} (h : decodeRequest s.pending = .incomplete) :
    hostTurn s = .moves (hostStep s) := by simp only [hostTurn, h]

theorem engineTurn_micro {s : State} {u : Half} {i : Instr} (hu : s.msg.template[s.engine.tpc]? = some u)
    (hi : decodeMicro u = some i) : engineTurn s = .runs i s := by
  simp only [engineTurn, hu, Option.bind_some, hi]

/-- What the host's step does while no whole request is out: nothing yet, or all the words of one. -/
theorem hostStep_cases {s : State} (h : decodeRequest s.pending = .incomplete) :
    (s.env.head % 2 = 1 → hostStep s = { s with env := s.env.advance })
      ∧ (s.env.head % 2 = 0 → ∃ (ws : List DWord) (e : Env), hostStep s = { s with pending := s.pending ++ ws, env := e }
        ∧ ws ≠ [] ∧ decodeRequest (s.pending ++ ws) ≠ .incomplete
        ∧ ∀ i rest, decodeRequest (s.pending ++ ws) = .instr i rest → rest = []) := by
  obtain ⟨odd, even⟩ := hostChoice_cases s.env h
  refine ⟨fun hd => by rw [hostStep, odd hd], fun hd => ?_⟩
  obtain ⟨ws, e, hc, hw⟩ := even hd
  exact ⟨ws, e, by rw [hostStep, hc], hw⟩

/-! ### The turn of CTL or HOST (R65, R75) -/

/-- The state in which CTL or HOST takes a turn that was drawn among the agents: where words are in flight, the draw is taken and
the oldest may wait one turn less. -/
def turnTaken (s : State) : State :=
  if s.inflight = [] then s else { s with landBy := s.landBy.map (· - 1), env := s.env.advance }

theorem turnTaken_eq (s : State) : turnTaken s = { s with landBy := (turnTaken s).landBy, env := (turnTaken s).env } := by
  unfold turnTaken
  split <;> rfl

theorem step_of_turnTaken {s : State} (hf : s.fault = none) (hr : s.refused = none) (hc : s.ctl ≠ .stuck)
    (h : s.inflight = [] ∨ ((∃ k, s.landBy = some (k + 1)) ∧ s.env.head % (s.inflight.length + 1) = 0)) :
    step s = (ctlTurn (turnTaken s)).answer := by
  rw [step_eq hf hr, turnTaken]
  by_cases hq : s.inflight = []
  · rw [agentTurn_quiet hq, if_pos hq]
  · obtain ⟨⟨k, hk⟩, hd⟩ := h.resolve_left hq
    rw [agentTurn_free hq hc hk, if_neg hq, hk]
    exact congrArg Turn.answer (if_pos hd)

/-- Settles O7: the turn is CTL's or HOST's, and what it does follows CTL's position. -/
theorem stepRunsTheDecodedInstruction : Obligations.StepRunsTheDecodedInstruction := by
  intro s hf hr ht t
  have hstep : s.ctl ≠ .stuck → step s = (ctlTurn t).answer := fun hc => step_of_turnTaken hf hr hc ht
  have heq : t = { s with landBy := t.landBy, env := t.env } := turnTaken_eq s
  have hctl : t.ctl = s.ctl := by rw [heq]
  have hengine : t.engine = s.engine := by rw [heq]
  have hmsg : t.msg = s.msg := by rw [heq]
  have hpending : t.pending = s.pending := by rw [heq]
  have host : s.ctl = .idle → s.engine.busy = false → step s = (hostTurn t).answer := fun hc hb => by
    rw [hstep (by rw [hc]; nofun), ctlTurn_host (hctl.trans hc) (hengine ▸ hb)]
  refine ⟨fun hc hb i rest hd => ?_, fun hc hb hd => ?_, fun hc hb u i hu hi => ?_, fun hc => ?_⟩
  · rw [host hc hb, hostTurn_instr (hpending ▸ hd)]
    rfl
  · rw [host hc hb, hostTurn_incomplete (hpending ▸ hd)]
    obtain ⟨odd, even⟩ := hostStep_cases (hpending ▸ hd : decodeRequest t.pending = .incomplete)
    rw [hpending] at even
    refine ⟨fun h => congrArg Host.Outcome.next (odd h), fun h => ?_⟩
    obtain ⟨ws, e, hw, hrest⟩ := even h
    exact ⟨ws, e, congrArg Host.Outcome.next hw, hrest⟩
  · rw [hstep (by rw [hc]; nofun), ctlTurn_engine (hctl.trans hc) (hengine ▸ hb),
      engineTurn_micro (by rw [hmsg, hengine]; exact hu) hi]
    rfl
  · rw [hstep (by rw [hc]; nofun), ctlTurn_acqRun (hctl.trans hc)]
    rfl

/-! ### A stuck CTL (R235) -/

/-- A stuck CTL leaves landings only, and then no step. -/
theorem step_stuck {s : State} (hf : s.fault = none) (hr : s.refused = none) (hc : s.ctl = .stuck) :
    (s.inflight = [] → step s = .fault .stuck)
      ∧ (s.inflight ≠ [] →
        step s = .next (land (s.env.head % s.inflight.length) { s with env := s.env.advance })) := by
  rw [step_eq hf hr]
  refine ⟨fun hq => ?_, fun hq => ?_⟩
  · rw [agentTurn_quiet hq, ctlTurn_stuck hc]
    rfl
  · rw [agentTurn_stuck hq hc]
    rfl

theorem land_ctl (i : Nat) (s : State) : (land i s).ctl = s.ctl := by rw [(landed_land i s).frame]

theorem stuck_of_step {s t : State} (hc : s.ctl = .stuck) (h : step s = .next t) : t.ctl = .stuck := by
  obtain ⟨hf, hr⟩ := unmarked_of_step h
  obtain ⟨quiet, landing⟩ := step_stuck hf hr hc
  by_cases hq : s.inflight = []
  · simp [quiet hq] at h
  · rw [landing hq] at h
    cases h
    exact (land_ctl _ _).trans hc

/-! ### An operation that returns (R89) -/

/-- A host operation that returns result words leaves no mark, CTL waiting, and an engine that was idle idle again. -/
theorem returned_of_exec {i : Instr} {s t : State} (hi : i.isMicro = false) (hn : NoFaultRecorded s)
    (hb : s.engine.busy = false) (hp : s.pending = []) (h : exec i s = .next t) (hr : t.result ≠ none) : Returned t := by
  obtain ⟨hf, hg⟩ := hn
  have back : ∀ {α : Type} {x : Res α × State} (r : Result), Ran s x → x.1 ≠ .stuck → t = giveResult r x.2 → Returned t := by
    rintro α x r hx hs rfl
    exact ⟨hx.within.fault.trans hf, hx.within.refused.trans hg, rfl, hx.idle hs hb, hx.within.pending.trans hp, nofun⟩
  by_cases hrun : i = .acqRun
  · subst hrun
    have hx := ran_acqIter s
    have ht : t = endedRun (acqIter s) := (Host.Outcome.next.inj h).symm
    generalize acqIter s = x at hx ht
    obtain ⟨r, u⟩ := x
    cases r with
    | err e c => exact back _ hx nofun ht
    | _ => exact absurd (by rw [ht]; rfl) hr
  · obtain ⟨x, hx, hran⟩ := exec_host s hi hrun
    rw [hx] at h
    obtain ⟨r, hr'⟩ := Option.ne_none_iff_exists'.1 hr
    obtain ⟨v, u, rfl, -, ht⟩ | ⟨e, c, u, rfl, -, ht⟩ := finish_result h hr'
    · exact back r hran nofun ht
    · exact back r hran nofun ht

/-! ### The way to the end (R248, R267) -/

/-- What a step does in a state where the last operation has returned, while the host issues nothing more. -/
inductive Idles (s : State) : State → Prop
  /-- Nothing is in flight: the host issues nothing. -/
  | host (e : Env) (hq : s.inflight = []) : Idles s { s with env := e }
  /-- The turns that the oldest word may wait are drawn. -/
  | drawn (hq : s.inflight ≠ []) (hb : s.landBy = none) :
      Idles s { s with landBy := some s.env.head, env := s.env.advance }
  /-- The oldest word has waited for its turns, and lands. -/
  | due (hq : s.inflight ≠ []) (hb : s.landBy = some 0) : Idles s (land 0 s)
  /-- One turn is waited, by HOST. -/
  | waited (e : Env) (k : Nat) (hq : s.inflight ≠ []) (hb : s.landBy = some (k + 1)) :
      Idles s { s with landBy := some k, env := e }
  /-- One turn is waited, and a word lands. -/
  | landed (i k : Nat) (hi : i < s.inflight.length) (hb : s.landBy = some (k + 1)) :
      Idles s (land i { s with landBy := some k, env := s.env.advance })

/-- HOST's turn with no request word out, when none is out after it either. -/
theorem hostTurn_silent {s t : State} (hp : s.pending = []) (h : (hostTurn s).answer = .next t) (ht : t.pending = []) :
    t = { s with env := s.env.advance } := by
  have hi : decodeRequest s.pending = .incomplete := by rw [hp]; rfl
  rw [hostTurn_incomplete hi] at h
  obtain ⟨odd, even⟩ := hostStep_cases hi
  obtain rfl : hostStep s = t := Host.Outcome.next.inj h
  rcases Nat.mod_two_eq_zero_or_one s.env.head with hd | hd
  · obtain ⟨ws, e, hw, hne, -⟩ := even hd
    rw [hw] at ht
    exact absurd (List.append_eq_nil_iff.1 ht).2 hne
  · exact odd hd

theorem idles_of_step {s t : State} (h : Returned s) (hs : step s = .next t) (ht : t.pending = []) : Idles s t := by
  have hc : s.ctl ≠ .stuck := by rw [h.ctl]; nofun
  rw [step_eq h.fault h.refused] at hs
  by_cases hq : s.inflight = []
  · rw [agentTurn_quiet hq, ctlTurn_host h.ctl h.engine] at hs
    rw [hostTurn_silent h.pending hs ht]
    exact .host _ hq
  cases hb : s.landBy with
  | none =>
    rw [agentTurn_undrawn hq hc hb] at hs
    cases hs
    exact .drawn hq hb
  | some k =>
    cases k with
    | zero =>
      rw [agentTurn_due hq hc hb] at hs
      cases hs
      exact .due hq hb
    | succ k =>
      rw [agentTurn_free hq hc hb] at hs
      dsimp only at hs
      split at hs
      · rw [ctlTurn_host (by exact h.ctl) (by exact h.engine)] at hs
        rw [hostTurn_silent (by exact h.pending) hs ht]
        exact .waited _ k hq hb
      · next hd =>
        cases hs
        have : s.env.head % (s.inflight.length + 1) < s.inflight.length + 1 := Nat.mod_lt _ (Nat.succ_pos _)
        exact .landed _ k (by omega) hb

/-- Only landings change the state. -/
theorem Idles.frame {s t : State} (h : Idles s t) : t.inflight.Sublist s.inflight
    ∧ t = { s with inflight := t.inflight, landBy := t.landBy, mem := t.mem, stale := t.stale, env := t.env } := by
  cases h with
  | host | drawn | waited => exact ⟨List.Sublist.refl _, rfl⟩
  | due => exact ⟨(landed_land 0 s).left, (landed_land 0 s).frame⟩
  | landed i k =>
    have hl := landed_land i { s with landBy := some k, env := s.env.advance }
    exact ⟨hl.left, hl.frame⟩

theorem Idles.returned {s t : State} (h : Idles s t) (hs : Returned s) : Returned t := by
  rw [h.frame.2]
  exact ⟨hs.fault, hs.refused, hs.ctl, hs.engine, hs.pending, hs.result⟩

/-- The steps left until every word in flight has landed, at most, when none waits more than `b` turns: for the oldest word the
turns it still has, for every other word all of them; `b + 2` stands for the draw, the turns and the landing. -/
def stepsLeft (b : Nat) (s : State) : Nat :=
  match s.inflight, s.landBy with
  | [], _ => 0
  | _ :: l, none => l.length * (b + 2) + (b + 2)
  | _ :: l, some k => l.length * (b + 2) + (k + 1)

theorem stepsLeft_nil {b : Nat} {s : State} (h : s.inflight = []) : stepsLeft b s = 0 := by simp only [stepsLeft, h]

theorem stepsLeft_none {b : Nat} {s : State} (h : s.landBy = none) : stepsLeft b s = s.inflight.length * (b + 2) := by
  cases hl : s.inflight with
  | nil => simp [stepsLeft, hl]
  | cons c l => simp [stepsLeft, hl, h, Nat.succ_mul]

theorem stepsLeft_some {b k : Nat} {s : State} (hq : s.inflight ≠ []) (h : s.landBy = some k) :
    stepsLeft b s = (s.inflight.length - 1) * (b + 2) + (k + 1) := by
  obtain ⟨c, l, hl⟩ := List.exists_cons_of_ne_nil hq
  simp [stepsLeft, hl, h]

theorem stepsLeft_waiting (b k : Nat) {s : State} (e : Env) (hq : s.inflight ≠ []) :
    stepsLeft b { s with landBy := some k, env := e } = (s.inflight.length - 1) * (b + 2) + (k + 1) :=
  stepsLeft_some (s := { s with landBy := some k, env := e }) hq rfl

theorem stepsLeft_le {b : Nat} {s : State} (h : ∀ k, s.landBy = some k → k ≤ b) :
    stepsLeft b s ≤ s.inflight.length * (b + 2) := by
  by_cases hq : s.inflight = []
  · rw [stepsLeft_nil hq]
    exact Nat.zero_le _
  cases hb : s.landBy with
  | none => exact (stepsLeft_none hb).le
  | some k =>
    have hk := h k hb
    rw [stepsLeft_some hq hb]
    obtain ⟨n, hn⟩ := Nat.exists_eq_succ_of_ne_zero (List.length_pos_iff.2 hq).ne'
    rw [hn, Nat.succ_mul, Nat.succ_sub_one]
    omega

/-- A landing with the turns of the oldest word still running: the words left need no more steps than before it. -/
theorem stepsLeft_land {b i k : Nat} {s : State} (hi : i < s.inflight.length) (hb : s.landBy = some k) :
    stepsLeft b (land i s) < stepsLeft b s := by
  have hq : s.inflight ≠ [] := List.ne_nil_of_length_pos (Nat.zero_lt_of_lt hi)
  have hl : (land i s).inflight.length = s.inflight.length - 1 := by
    rw [land_of_getElem (List.getElem?_eq_getElem hi)]
    exact List.length_eraseIdx_of_lt hi
  rw [stepsLeft_some hq hb]
  by_cases h0 : i = 0
  · rw [stepsLeft_none (by rw [land_landBy hi, if_pos h0]), hl]
    omega
  · rw [stepsLeft_some (List.ne_nil_of_length_pos (by omega)) (by rw [land_landBy hi, if_neg h0, hb]), hl]
    have := Nat.mul_lt_mul_of_pos_right (show s.inflight.length - 1 - 1 < s.inflight.length - 1 by omega)
      (show 0 < b + 2 by omega)
    omega

theorem Idles.stepsLeft_lt {b : Nat} {s t : State} (h : Idles s t) (hq : s.inflight ≠ [])
    (hb : ∀ k, t.landBy = some k → k ≤ b) : stepsLeft b t < stepsLeft b s := by
  cases h with
  | host e hn => exact absurd hn hq
  | drawn _ hn =>
    have hk := hb _ rfl
    rw [stepsLeft_none hn, stepsLeft_waiting b _ _ hq]
    obtain ⟨n, hl⟩ := Nat.exists_eq_succ_of_ne_zero (List.length_pos_iff.2 hq).ne'
    rw [hl, Nat.succ_mul, Nat.succ_sub_one]
    omega
  | due _ hk => exact stepsLeft_land (List.length_pos_iff.2 hq) hk
  | waited e k _ hk =>
    rw [stepsLeft_some hq hk, stepsLeft_waiting b k e hq]
    exact Nat.lt_succ_self _
  | landed i k hi hk =>
    refine (stepsLeft_land (s := { s with landBy := some k, env := s.env.advance }) hi rfl).trans ?_
    rw [stepsLeft_some hq hk, stepsLeft_waiting b k _ hq]
    exact Nat.lt_succ_self _

section
variable {r : Nat → State} {m : Nat} (h0 : Returned (r 0))
  (hs : ∀ j : Nat, j < m → step (r j) = .next (r (j + 1)) ∧ (r (j + 1)).pending = [])
include h0 hs

theorem returned_of_run (n : Nat) (hn : n ≤ m) : Returned (r n) := by
  induction n with
  | zero => exact h0
  | succ n ih =>
    have hr := ih (Nat.le_of_succ_le hn)
    exact (idles_of_step hr (hs n hn).1 (hs n hn).2).returned hr

/-- The words in flight land, in a run that goes on long enough. -/
theorem exists_runEnded {b : Nat} (hb : ∀ j k : Nat, j ≤ m → (r j).landBy = some k → k ≤ b)
    (hm : (r 0).inflight.length * (b + 2) ≤ m) : ∃ n : Nat, n ≤ m ∧ RunEnded (r n) := by
  by_contra hno
  have flying : ∀ n, n ≤ m → (r n).inflight ≠ [] := fun n hn hq => hno ⟨n, hn, returned_of_run h0 hs n hn, hq⟩
  have count : ∀ n, n ≤ m → stepsLeft b (r n) + n ≤ stepsLeft b (r 0) := by
    intro n hn
    induction n with
    | zero => exact Nat.le_refl _
    | succ n ih =>
      have hr := returned_of_run h0 hs n (Nat.le_of_succ_le hn)
      have := (idles_of_step hr (hs n hn).1 (hs n hn).2).stepsLeft_lt (flying n (Nat.le_of_succ_le hn)) (hb _ · hn)
      have := ih (Nat.le_of_succ_le hn)
      omega
  have hlast : 0 < stepsLeft b (r m) := by
    have hq := flying m (Nat.le_refl m)
    cases hk : (r m).landBy with
    | none =>
      rw [stepsLeft_none hk]
      exact Nat.mul_pos (List.length_pos_iff.2 hq) (Nat.succ_pos _)
    | some k =>
      rw [stepsLeft_some hq hk]
      exact Nat.succ_pos _
  have := count m (Nat.le_refl m)
  have := stepsLeft_le (hb 0 · (Nat.zero_le m))
  omega

end

/-- At the end of a run only HOST has a step. -/
theorem step_of_runEnded {s : State} (h : RunEnded s) :
    ∃ t : State, step s = .next t ∧ t = { s with pending := t.pending, env := t.env } := by
  obtain ⟨hr, hq⟩ := h
  refine ⟨hostStep s, ?_, hostStep_frame s⟩
  rw [step_eq hr.fault hr.refused, agentTurn_quiet hq, ctlTurn_host hr.ctl hr.engine,
    hostTurn_incomplete (by rw [hr.pending]; rfl)]
  rfl

theorem not_runEnded {s : State} (h : s.fault ≠ none ∨ s.refused ≠ none ∨ s.ctl = .stuck ∨ s.ctl = .acqRun) :
    ¬ RunEnded s := by
  rintro ⟨hr, -⟩
  rcases h with h | h | h | h
  · exact h hr.fault
  · exact h hr.refused
  · exact absurd (h.symm.trans hr.ctl) nofun
  · exact absurd (h.symm.trans hr.ctl) nofun

/-- Settles O8: the marks stop the machine, and from a returned operation on `stepsLeft` falls with every step. -/
theorem runEndsAtAMark : Obligations.RunEndsAtAMark :=
  ⟨fun _ _ => step_of_fault, fun _ _ => step_of_refused, fun _ _ => unmarked_of_step, rfl, rfl,
    fun _ _ _ => returned_of_exec,
    fun _ _ hr hs ht => have h := idles_of_step hr hs ht; ⟨h.returned hr, h.frame⟩,
    fun _ _ _ h0 hs hb hm => exists_runEnded h0 hs hb hm,
    fun _ => step_of_runEnded, fun _ => not_runEnded, fun _ _ => stuck_of_step, fun h => h.1.result rfl⟩

end Sys2Proof.Machine
end

section
/-! SUPPORT. Transfers whose trigger fails, and exchanges that hang (spec/00_scope.md R16 to R18, spec/43_offload.md R184, R185, R197,
spec/60_exceptions.md R235). -/

namespace Sys2Proof.Machine

/-! ### The trigger (R184) -/

/-- The state in which the engine starts, after a trigger whose draws leave `e`. -/
def triggerDrawn (reps : Nat) (e : Env) (s : State) : State :=
  { perform (.offloadTrigger s.msg.template reps) s with env := e }

section
variable {s : State} {reps : Nat} (h : XferOpen reps s) (hf : s.env.faultFree = false)
include h hf

/-- A trigger that draws ok issues every repetition. -/
theorem oflXfer_of_trigger (hd : s.env.head % 2 = 0) :
    oflXfer reps s = transfer s.msg.param reps (triggerDrawn reps s.env.advance s) := by
  rw [oflXfer_of_open h, attempt_of_draw _ hf]
  exact if_pos (beq_iff_eq.2 hd)

/-- A trigger that draws a failure issues a drawn number of them, and is reported. -/
theorem oflXfer_of_failedTrigger (hd : s.env.head % 2 = 1) :
    oflXfer reps s = andThen (transfer s.msg.param (s.env.advance.head % reps)
      (triggerDrawn reps s.env.advance.advance s)) fun _ t => (.err .offloadTransferError .none, t) := by
  rw [oflXfer_of_open h, attempt_of_draw _ hf]
  exact if_neg (by simp [hd])

end

theorem repsInRange_iff {reps : DWord} : repsInRange reps = true ↔ 1 ≤ reps.toNat ∧ reps.toNat ≤ Config.repsMax := by
  simp [repsInRange]

theorem exec_oflXfer {s : State} {reps : DWord} (h1 : 1 ≤ reps.toNat) (h2 : reps.toNat ≤ Config.repsMax) :
    exec (.oflXfer reps) s = finish (andThen (oflXfer reps.toNat s) fun _ t => (.ok 0#64, t)) :=
  congrArg finish (if_pos (repsInRange_iff.2 ⟨h1, h2⟩))

/-- Settles O45: after a trigger that fails, `transfer` runs for the drawn number of repetitions, and its `Ok` becomes the error. -/
theorem failedTriggerIssuesAPrefix : Obligations.FailedTriggerIssuesAPrefix := by
  intro s t reps r h h1 h2 hf hd hx hr
  rw [exec_oflXfer h1 h2, oflXfer_of_failedTrigger h hf hd] at hx
  obtain ⟨u, hu, hi, -, he⟩ | ⟨u, k, hu, -⟩ := (transfer_issues s.msg.param (s.env.advance.head % reps.toNat)
    (s := triggerDrawn reps.toNat s.env.advance.advance s) h.template).ends
  · rw [hu] at hx
    cases hx
    cases hr
    obtain ⟨ws, hl, hw⟩ := hi.words
    have hmem : u.mem = s.mem := by rw [hi.frame]; rfl
    refine ⟨rfl, congrArg Engine.busy he, hmem, ws, hl, hw.trans (congrArg (s.inflight ++ ·) ?_)⟩
    simp only [landings, Config.wordSize, Nat.mul_comm]
    rfl
  · rw [hu] at hx
    cases hx
    cases hr

/-! ### An exchange that hangs (R185, R235) -/

/-- A part of a transfer one of whose exchanges hangs is stuck there, with the words captured before it in flight. -/
theorem Issues.hangs {first n k : Nat} {s : State} {x : Res Unit × State} {P Q : State → Prop}
    (h : Issues first n s x P Q) (hf : s.env.faultFree = false) (hh : HangsAt k s.env) (hk : k < n) :
    ∃ t, x = (.stuck, t) ∧ Broken first k s t ∧ Q t := by
  obtain ⟨t, -, hi, -⟩ | ⟨t, j, hx, -, hb, hq⟩ := h.ends
  · have := hi.answered hf k hk
    have := hh.2
    omega
  · exact ⟨t, hx, hangsAt_unique hb.hangs hh ▸ hb, hq⟩

/-- The words in flight after a hang, written out. -/
theorem Broken.inflight_eq {first k : Nat} {s t : State} (h : Broken first k s t) :
    t.inflight = s.inflight ++ (List.range k).map fun j => (s.ofl.rxAddr + (first + j) * 4,
      BitVec.ofNat 32 ((Env.advance^[2 * j + 1] s.env).head % 2 ^ s.launch.params.xferWidth)) := by
  rw [h.captured, capturedWords_of_draws h.drawn, landings_map]
  rfl

/-- A transfer that hangs at exchange `k`, `e` the draws left after the trigger. -/
theorem oflXfer_hangs {s : State} {reps k : Nat} (h : XferOpen reps s) (hf : s.env.faultFree = false) :
    let triggered := s.env.head % 2 = 0
    let issued := if triggered then reps else s.env.advance.head % reps
    let e := if triggered then s.env.advance else s.env.advance.advance
    HangsAt k e → k < issued * resultWords s.msg.template →
    ∃ t : State, oflXfer reps s = (.stuck, t)
      ∧ Broken 0 k { triggerDrawn reps e s with
          engine := { busy := decide (0 < issued), tpc := 0, rep := 0, param := s.msg.param, reps := issued } } t
      ∧ t.cs = true
      ∧ t.engine = { busy := true, tpc := t.engine.tpc, rep := t.engine.rep, param := s.msg.param, reps := issued } := by
  intro triggered issued e hh hk
  have hi := transfer_issues s.msg.param issued (s := triggerDrawn reps e s) h.template
  have he : e.faultFree = false := by
    dsimp only [e]
    split <;> exact hf
  obtain ⟨t, ht, hb, hq⟩ := hi.hangs he hh hk
  refine ⟨t, ?_, hb, hq⟩
  by_cases hd : s.env.head % 2 = 0
  · rw [oflXfer_of_trigger h hf hd, ← ht]
    dsimp only [issued, e, triggered]
    rw [if_pos hd, if_pos hd]
  · have : s.env.head % 2 = 1 := by omega
    dsimp only [issued, e, triggered] at ht
    rw [if_neg hd, if_neg hd] at ht
    rw [oflXfer_of_failedTrigger h hf this, ht]
    rfl

theorem finish_of_stuck {α : Type} {x : Res α × State} {t : State} (h : x = (.stuck, t))
    (f : α → State → Res DWord × State) : finish (andThen x f) = .next (hang t) := by
  rw [h]
  rfl

/-! ### A frame that hangs (R16, R117, R119, R124) -/

section
variable {s : State} {a : Half} (hf : s.env.faultFree = false) (hd : s.env.head % 3 = 2) (ho : RegOpen a s)
include hf hd ho

theorem regRead_hangs : regRead a s = (.stuck, (drawNat (perform (.busExchange (readFrame s.launch.params a)) s)).2) := by
  rw [regRead, regGuard_open ho, busExchange_hang hf hd]

theorem regReadMasked_hangs (m : Byte) :
    regReadMasked a m s = (.stuck, (drawNat (perform (.busExchange (readFrame s.launch.params a)) s)).2) := by
  rw [regReadMasked, regRead_hangs hf hd ho, andThen_stuck]

theorem regWrite_hangs (v : Byte) :
    regWrite a v s = (.stuck, (drawNat (perform (.busExchange (writeFrame s.launch.params a v)) s)).2) := by
  rw [regWrite, regGuard_open ho, busExchange_hang hf hd]

theorem regWriteMasked_hangs (m v : Byte) :
    regWriteMasked a m v s = (.stuck, (drawNat (perform (.busExchange (readFrame s.launch.params a)) s)).2) := by
  rw [regWriteMasked, regGuard_open ho, busExchange_hang hf hd]

/-- A register access whose first frame hangs. -/
theorem exec_regAccess_hangs {m v : Byte} {i : Instr} (hi : i ∈ [.regRd a, .regWr a v, .regRdm a m, .regWrm a m v]) :
    ∃ frame : List Byte, exec i s = .next (hang (drawNat (perform (.busExchange frame) s)).2) := by
  simp only [List.mem_cons, List.not_mem_nil, or_false] at hi
  obtain rfl | rfl | rfl | rfl := hi
  · exact ⟨_, finish_of_stuck (regRead_hangs hf hd ho) _⟩
  · exact ⟨_, finish_of_stuck (regWrite_hangs hf hd ho v) _⟩
  · exact ⟨_, finish_of_stuck (regReadMasked_hangs hf hd ho m) _⟩
  · exact ⟨_, finish_of_stuck (regWriteMasked_hangs hf hd ho m v) _⟩

end

/-! ### The instructions with a transfer that hangs -/

/-- The micro-operation XFER that hangs at exchange `k` (R197). -/
theorem microXfer_hangs {s : State} {n : BitVec 12} {k : Nat} (hf : s.env.faultFree = false) (hh : HangsAt k s.env)
    (hk : k < n.toNat) : ∃ t, microXfer n s = (.stuck, t)
      ∧ Broken (s.engine.rep * resultWords s.msg.template + wordIndex s) k s t ∧ t.cs = s.cs ∧ t.engine = s.engine := by
  obtain ⟨t, ht, hb⟩ := (exchangeWords_issues n.toNat (wordIndex s) s).hangs hf hh hk
  refine ⟨t, ?_, hb⟩
  have hn : n ≠ 0#12 := by
    rintro rfl
    exact absurd hk (Nat.not_lt_zero k)
  rw [microXfer, if_neg hn, ht]
  rfl

/-- An instruction whose transfer is stuck ends stuck. -/
theorem exec_of_stuckTransfer {s u t : State} {i : Instr} {n : Nat}
    (hi : (∃ reps : DWord, i = .oflXfer reps ∧ n = reps.toNat ∧ 1 ≤ n ∧ n ≤ Config.repsMax ∧ u = s)
      ∨ (i ∈ [.acqIter, .acqRun] ∧ s.acq.terminated = false ∧ n = s.launch.params.sampleCount
        ∧ u = selectChannel s.acq.channel.val s)) (hx : oflXfer n u = (.stuck, t)) : exec i s = .next (hang t) := by
  obtain ⟨reps, rfl, rfl, h1, h2, rfl⟩ | ⟨hmem, ht, rfl, rfl⟩ := hi
  · rw [exec_oflXfer h1 h2]
    exact finish_of_stuck hx _
  · have hiter : acqIter s = (.stuck, t) := by rw [acqIter_of_running ht, hx, onErr_stuck, andThen_stuck]
    simp only [List.mem_cons, List.not_mem_nil, or_false] at hmem
    obtain rfl | rfl := hmem
    · exact finish_of_stuck hiter _
    · exact congrArg (fun x => Host.Outcome.next (endedRun x)) hiter

/-- Settles O17: the exchange that hangs stops the operation where it is. -/
theorem hangLeavesLandingsOnly : Obligations.HangLeavesLandingsOnly := by
  refine ⟨fun s a m v i hi hf hd ho => exec_regAccess_hangs hf hd ho hi, ?_, ?_, fun s => step_stuck⟩
  · intro s u i n k hf hi ho triggered issued e word hh hk
    obtain ⟨msg, hm, rfl⟩ : ∃ msg : Msg, msg.template = s.msg.template ∧ u = { s with msg := msg } := by
      obtain ⟨_, -, -, -, -, rfl⟩ | ⟨-, -, -, rfl⟩ := hi
      · exact ⟨u.msg, rfl, rfl⟩
      · exact ⟨(selectChannel s.acq.channel.val s).msg, rfl, rfl⟩
    rw [← hm] at hk ⊢
    obtain ⟨t, hx, hb, hc, he⟩ := oflXfer_hangs ho hf hh hk
    refine ⟨hang t, exec_of_stuckTransfer hi hx, ?_⟩
    have hframe := hb.frame
    rw [hc, he, hb.sel, hb.calls, hb.env, hb.inflight_eq] at hframe
    simp only [Nat.zero_add, Nat.mul_comm _ 4] at hframe
    exact congrArg hang hframe
  · intro s n k hf hh hk first word
    obtain ⟨t, hx, hb, hc, he⟩ := microXfer_hangs hf hh hk
    refine (congrArg finishMicro hx).trans (congrArg Host.Outcome.next ?_)
    have hframe := hb.frame
    rw [hc, he, hb.sel, hb.calls, hb.env, hb.inflight_eq] at hframe
    exact congrArg hang hframe

end Sys2Proof.Machine
end

section
/-! SUPPORT. What a step can do, said once: it runs an instruction, or it is a move of another agent (spec/00_scope.md R5,
spec/20_memory.md R65, R75, spec/60_exceptions.md R248). -/

namespace Sys2Proof.Machine

theorem build_isMicro (o : Op) (h w1 w2 w3 : DWord) : (o.build h w1 w2 w3).isMicro = false := by cases o <;> rfl

/-- A request is never a micro-operation (R83, R96). -/
theorem isMicro_of_decodeRequest {ws rest : List DWord} {i : Instr} (h : decodeRequest ws = .instr i rest) :
    i.isMicro = false := by
  unfold decodeRequest at h
  split at h
  · cases h
  split at h
  · cases h
  split at h
  · cases h
  · cases h
    exact build_isMicro _ _ _ _ _

/-- `t` is `s` but for the request words, the draws, and the turns that the oldest word in flight may wait. -/
structure Turned (s t : State) : Prop where
  frame : t = { s with landBy := t.landBy, pending := t.pending, env := t.env } := by rfl
  deadline : s.inflight = [] → t.landBy = s.landBy := by exact fun _ => rfl

theorem Turned.trans {s t u : State} (h : Turned s t) (k : Turned t u) : Turned s u where
  frame := by rw [k.frame, h.frame]
  deadline hq := (k.deadline (by rw [h.frame]; exact hq)).trans (h.deadline hq)

/-- What a step that runs no instruction does: an agent waits or the host puts out words, a word lands, or a request is refused. -/
inductive Moves (s : State) : State → Prop
  | waits {t : State} (h : Turned s t) : Moves s t
  | lands {t : State} (i : Nat) (h : Turned s t) : Moves s (land i t)
  | refuses {t : State} (r : Refusal) (h : Turned s t) : Moves s (recordRefusal r t)

/-- What a turn of `s` can be: only a busy engine gives a micro-operation, and a stuck CTL runs nothing. -/
def Turn.IsOf (s : State) : Turn → Prop
  | .moves t => Moves s t
  | .runs i t => Turned s t ∧ s.ctl ≠ .stuck ∧ (i.isMicro = true → s.engine.busy = true)
  | .faulted _ | .refused _ => True

theorem ctlTurn_isOf {s t : State} (h : Turned s t) : (ctlTurn t).IsOf s := by
  have hctl : t.ctl = s.ctl := by rw [h.frame]
  have hengine : t.engine = s.engine := by rw [h.frame]
  cases hc : t.ctl with
  | stuck =>
    rw [ctlTurn_stuck hc]
    trivial
  | acqRun =>
    rw [ctlTurn_acqRun hc]
    exact ⟨h, by rw [← hctl, hc]; nofun, nofun⟩
  | idle =>
    have hs : s.ctl ≠ .stuck := by rw [← hctl, hc]; nofun
    cases hb : t.engine.busy with
    | true =>
      rw [ctlTurn_engine hc hb, engineTurn]
      split
      · exact ⟨h, hs, fun _ => by rw [← hengine, hb]⟩
      · exact .refuses _ h
    | false =>
      rw [ctlTurn_host hc hb, hostTurn]
      split
      · exact .waits (h.trans {})
      · exact .refuses _ (h.trans {})
      · next hd => exact ⟨h.trans {}, hs, fun hm => by rw [isMicro_of_decodeRequest hd] at hm; cases hm⟩

theorem agentTurn_isOf (s : State) : (agentTurn s).IsOf s := by
  by_cases hq : s.inflight = []
  · rw [agentTurn_quiet hq]
    exact ctlTurn_isOf {}
  by_cases hc : s.ctl = .stuck
  · rw [agentTurn_stuck hq hc]
    exact .lands _ {}
  have waited : ∀ b : Option Nat, Turned s { s with landBy := b, env := s.env.advance } :=
    fun _ => { deadline := fun h => absurd h hq }
  cases hb : s.landBy with
  | none =>
    rw [agentTurn_undrawn hq hc hb]
    exact .waits (waited _)
  | some k =>
    cases k with
    | zero =>
      rw [agentTurn_due hq hc hb]
      exact .lands 0 {}
    | succ k =>
      rw [agentTurn_free hq hc hb]
      dsimp only
      split
      · exact ctlTurn_isOf (waited _)
      · exact .lands _ (waited _)

/-- Everything a step can do: a move of another agent, or an instruction, which starts without a mark and with CTL not stuck. -/
theorem step_cases {s t : State} (h : step s = .next t) : Moves s t ∨ ∃ (i : Instr) (u : State), turn s = .runs i u
    ∧ Turned s u ∧ Running s ∧ (i.isMicro = true → s.engine.busy = true) ∧ exec i u = .next t := by
  obtain ⟨hf, hr⟩ := unmarked_of_step h
  have hx := agentTurn_isOf s
  rw [step_eq hf hr] at h
  rw [turn_of_unmarked hf hr]
  cases ht : agentTurn s with
  | moves u =>
    rw [ht] at h hx
    cases h
    exact .inl hx
  | runs i u =>
    rw [ht] at h hx
    obtain ⟨hu, hc, hm⟩ := hx
    exact .inr ⟨i, u, rfl, hu, ⟨hf, hr, hc⟩, hm, h⟩
  | faulted r => rw [ht] at h; cases h
  | refused r => rw [ht] at h; cases h

end Sys2Proof.Machine
end

section
/-! SUPPORT. What storage and the device's framing undergo (spec/10_state.md R40, R41, R63, R64, spec/40_register_access.md R110 to
R122): the register accesses, and every other operation but DEV.INIT. -/

namespace Sys2Proof.Machine

/-! ### Register accesses (R110, R116 to R126) -/

/-- From conversion framing a register access stops at its guard (R116). -/
theorem regGuard_of_conversion {α : Type} {a : Half} {s : State} (h : s.dev.framing = .conversion) (f : State → Res α × State) :
    (regGuard a s f).2 = s := by
  unfold regGuard
  rw [if_pos (c := s.xport.wordWidth ≠ Config.regWidth ∨ _) (.inr (by rw [h]; nofun))]
  split
  · rfl
  split <;> rfl

/-- The device's registers are in canonical form. -/
def RegsRising (s : State) : Prop := Memory.wf s.dev.reg

theorem regsRising_deviceWrite {s : State} (h : RegsRising s) (a : Half) (v : Byte) : RegsRising (deviceWrite a v s) := by
  have hset : RegsRising (setDevReg a v s) := Memory.write_wf h _ _
  unfold deviceWrite interfaceEffect
  dsimp only
  split
  · split
    · split
      · exact hset
      split <;> exact hset
    · exact hset
  · exact Memory.erase_wf h _

theorem regsRising_deviceWriteUnknown {s : State} (h : RegsRising s) (a : Half) : RegsRising (deviceWriteUnknown a s) := by
  have hclear : RegsRising (clearDevReg a s) := Memory.erase_wf h _
  unfold deviceWriteUnknown
  split <;> exact hclear

theorem regsRising_deviceForget (s : State) : RegsRising (deviceForget s) := List.Pairwise.nil

theorem deviceAnswer_dev (a : Half) (s : State) : (deviceAnswer a s).2.dev = s.dev := by
  unfold deviceAnswer
  split
  · split
    · rfl
    split <;> rfl
  · rfl

theorem rxData_dev (rx : List (Option Byte)) (s : State) : (rxData rx s).2.dev = s.dev := by
  unfold rxData
  split <;> rfl

theorem drawBus_dev (s : State) : (drawBus s).2.dev = s.dev := by
  unfold drawBus
  split <;> rfl

theorem regsRising_busExchange {s : State} (h : RegsRising s) (tx : List Byte) : RegsRising (busExchange tx s).state := by
  have hd : RegsRising (drawBus (perform (.busExchange tx) s)).2 := by rw [RegsRising, drawBus_dev]; exact h
  unfold busExchange
  dsimp only
  split
  · unfold deviceFrame
    split
    · rw [RegsRising, deviceAnswer_dev]
      exact hd
    · exact regsRising_deviceWrite hd _ _
    · exact regsRising_deviceForget _
  · unfold deviceFrameFailed
    split
    · exact hd
    · exact regsRising_deviceWriteUnknown hd _
    · exact regsRising_deviceForget _
  · exact hd

/-- What a register access does to the device: its registers stay canonical, and in conversion framing nothing of it changes. -/
structure Accessed (s t : State) : Prop extends DeviceOnly s t where
  rising : RegsRising s → RegsRising t
  conversion : s.dev.framing = .conversion → t.dev = s.dev

theorem accessed_regGuard {α : Type} {a : Half} {s : State} {f : State → Res α × State} (hd : DeviceOnly s (regGuard a s f).2)
    (hf : RegsRising s → RegsRising (f s).2) : Accessed s (regGuard a s f).2 where
  toDeviceOnly := hd
  rising hs := regGuard_keeps (P := RegsRising) hs (hf hs)
  conversion h := by rw [regGuard_of_conversion h]

theorem accessed_regRead (a : Half) (s : State) : Accessed s (regRead a s).2 := by
  refine accessed_regGuard (deviceOnly_regRead a s) fun hs => ?_
  have h := regsRising_busExchange hs (readFrame s.launch.params a)
  dsimp only
  split
  · exact h
  · exact h
  · rw [RegsRising, rxData_dev]
    exact h

theorem accessed_regWrite (a : Half) (v : Byte) (s : State) : Accessed s (regWrite a v s).2 := by
  refine accessed_regGuard (deviceOnly_regWrite a v s) fun hs => ?_
  have h := regsRising_busExchange hs (writeFrame s.launch.params a v)
  dsimp only
  split <;> exact h

theorem regsRising_regWriteBack {s : State} (h : RegsRising s) (a : Half) (new : Byte) (b : Bool) :
    RegsRising (regWriteBack a new b s).2 := by
  have hx := regsRising_busExchange h (writeFrame s.launch.params a new)
  unfold regWriteBack
  dsimp only
  split
  · exact hx
  · exact hx
  · split <;> exact hx

theorem accessed_regWriteMasked (a : Half) (m v : Byte) (s : State) : Accessed s (regWriteMasked a m v s).2 := by
  refine accessed_regGuard (deviceOnly_regWriteMasked a m v s) fun hs => ?_
  have h := regsRising_busExchange hs (readFrame s.launch.params a)
  dsimp only
  split
  · exact h
  · split
    · exact h
    · exact regsRising_regWriteBack (by exact h) _ _ _
  · exact regsRising_regWriteBack (by rw [RegsRising, rxData_dev]; exact h) _ _ _

theorem accessed_regReadMasked (a : Half) (m : Byte) (s : State) : Accessed s (regReadMasked a m s).2 :=
  andThen_keeps (P := Accessed s) (accessed_regRead a s) fun _ _ h => h

/-- A read frame leaves the device as it is, whether it is answered or not (R118, R122). -/
theorem busExchange_dev_of_read {s : State} {tx : List Byte} {a : Half} (h : decodeFrame s.launch.params tx = .read a) :
    (busExchange tx s).state.dev = s.dev := by
  have hd := drawBus_dev (perform (.busExchange tx) s)
  have hl := (deviceOnly_drawBus (perform (.busExchange tx) s)).launch
  unfold busExchange
  dsimp only
  split
  · simp only [deviceFrame, hl, perform_launch, h]
    rw [deviceAnswer_dev]
    exact hd
  · simp only [deviceFrameFailed, hl, perform_launch, h]
    exact hd
  · exact hd

/-- REG.RD's body leaves the device as it is (R117), under admissible parameters: its frame is a read frame. -/
theorem regRead_dev {s : State} (hv : s.launch.params.Valid = true) (a : Half) : (regRead a s).2.dev = s.dev := by
  by_cases he : addrEncodable s.launch.params a = true
  · have hx := busExchange_dev_of_read (decodeFrame_readFrame hv he)
    refine regGuard_keeps (P := fun t => t.dev = s.dev) rfl ?_
    dsimp only
    split
    · exact hx
    · exact hx
    · rw [rxData_dev]
      exact hx
  · unfold regRead regGuard
    rw [if_pos (by simpa using he)]

theorem regReadMasked_dev {s : State} (hv : s.launch.params.Valid = true) (a : Half) (m : Byte) :
    (regReadMasked a m s).2.dev = s.dev :=
  andThen_keeps (P := fun t => t.dev = s.dev) (regRead_dev hv a) fun _ _ h => h

/-! ### Everything but the register accesses and DEV.INIT -/

/-- The device's registers and framing are as before; memory and the view marks stay canonical. -/
structure Stored (s t : State) : Prop where
  reg : t.dev.reg = s.dev.reg := by rfl
  framing : t.dev.framing = s.dev.framing := by rfl
  mem : Memory.wf s.mem → Memory.wf t.mem := by exact id
  stale : s.stale.Pairwise (fun a b => a < b) → t.stale.Pairwise (fun a b => a < b) := by exact id

theorem Stored.refl (s : State) : Stored s s := {}

theorem Stored.trans {s t u : State} (h : Stored s t) (k : Stored t u) : Stored s u where
  reg := k.reg.trans h.reg
  framing := k.framing.trans h.framing
  mem := k.mem ∘ h.mem
  stale := k.stale ∘ h.stale

theorem Stored.storageInv {s t : State} (h : Stored s t) (hs : StorageInv s) : StorageInv t :=
  ⟨h.mem hs.mem, h.stale hs.stale, h.reg ▸ hs.reg⟩

theorem PulseOnly.stored {s t : State} (h : PulseOnly s t) : Stored s t := by
  rw [h.frame]
  exact {}

theorem Issued.stored {first n : Nat} {s t : State} (h : Issued first n s t) : Stored s t := by
  rw [h.frame]
  exact {}

theorem Broken.stored {first k : Nat} {s t : State} (h : Broken first k s t) : Stored s t := by
  rw [h.frame]
  exact {}

theorem stored_attempt (c : Call) (s : State) : Stored s (attempt c s).2 :=
  attempt_keeps (P := Stored s) (fun _ _ h => h.trans {}) (fun _ h => h.trans {}) c (.refl s)

theorem stored_land (i : Nat) (s : State) : Stored s (land i s) := by
  unfold land
  split
  · exact .refl s
  · exact { mem := fun h => Memory.writeWord_wf h _ _, stale := fun h => markStale_rising h _ }

theorem stored_dmaMoves (s : State) : Stored s (dmaMoves s) :=
  dmaMoves_keeps (P := Stored s) (fun _ _ h => h.trans {}) (fun i t h => h.trans (stored_land i t)) (.refl s)

theorem stored_settle (ms : Nat) (s : State) : Stored s (settle ms s) := by
  have hp : Stored s (perform (.waitMs ms) s) := {}
  unfold settle
  dsimp only
  split
  · exact hp
  · exact dmaDrain_keeps (P := Stored s) (fun _ _ h => h.trans {}) (fun i t h => h.trans (stored_land i t)) _ hp

theorem stored_cacheInvalidate (a n : Nat) (s : State) : Stored s (cacheInvalidate a n s) :=
  { stale := fun h => markFresh_rising h a n }

theorem stored_decodeBuffer (n : Nat) (s : State) : Stored s (decodeBuffer n s).2 := by
  unfold decodeBuffer
  dsimp only
  split
  · exact .refl s
  split
  · exact .refl s
  · rw [decodeWords_state n s.ofl.rxAddr s]
    exact {}

theorem stored_devTeardown (s : State) : Stored s (devTeardown s) := by
  obtain ⟨p, e, h⟩ := devTeardown_eq s
  rw [h]
  exact {}

theorem stored_oflInit (a len flags : DWord) (s : State) : Stored s (oflInit a len flags s).2 := by
  have ha := stored_attempt (.offloadInit a.toNat true) s
  unfold oflInit oflGuard
  split
  · exact .refl s
  dsimp only
  split
  · exact {}
  split <;> exact ha.trans {}

theorem stored_oflXfer (reps : Nat) (s : State) : Stored s (oflXfer reps s).2 := by
  by_cases h : XferOpen reps s
  · have hx := oflXfer_ends h
    generalize oflXfer reps s = x at hx ⊢
    cases hx with
    | ok _ hi | failed _ _ _ hi => exact .trans {} hi.stored
    | stuck _ _ _ hb => exact .trans {} hb.stored
  · rw [(oflXfer_of_closed h).1]
    exact .refl s

theorem stored_acqTerminate (e : ErrCode) (c : Cause) (s : State) : Stored s (acqTerminate e c s).2 := by
  have h : Stored s (if s.pwm.state = .uninitialized then s else (pwmDisable s).2) := by
    split
    · exact .refl s
    · exact (pulseOnly_pwmDisable s).stored
  exact (h.trans (stored_devTeardown _)).trans {}

theorem stored_acqConsume (s : State) : Stored s (acqConsume s).2 := by
  have h := (stored_dmaMoves s).trans (stored_settle Config.settleMs _)
  refine andThen_keeps (P := Stored s) ?_ fun _ _ h => h.trans {}
  exact ((h.trans (stored_cacheInvalidate _ _ _)).trans (stored_dmaMoves _)).trans (stored_decodeBuffer _ _)

theorem stored_acqIter (s : State) : Stored s (acqIter s).2 := by
  unfold acqIter
  split
  · exact .refl s
  refine andThen_keeps (P := Stored s) (onErr_keeps (P := Stored s) ?_ fun e c t h => h.trans (stored_acqTerminate e c t))
    fun _ t h => h.trans (stored_acqConsume t)
  exact Stored.trans (t := selectChannel s.acq.channel.val s) {} (stored_oflXfer _ _)

theorem stored_engineAdvance (s : State) : Stored s (engineAdvance s) := by
  rw [engineAdvance_eq]
  exact {}

theorem stored_microXfer (n : BitVec 12) (s : State) : Stored s (microXfer n s).2 := by
  unfold microXfer
  split
  · exact .refl s
  obtain ⟨t, hx, hi, -⟩ | ⟨t, k, hx, -, hb, -⟩ := (exchangeWords_issues n.toNat (wordIndex s) s).ends <;> rw [hx]
  · exact hi.stored.trans (stored_engineAdvance t)
  · exact hb.stored

theorem stored_pwmGuard {α : Type} {s : State} {f : State → Res α × State} (hf : Stored s (f s).2) :
    Stored s (pwmGuard s f).2 := by
  unfold pwmGuard
  split
  · exact .refl s
  · exact hf

theorem stored_operandGuard {b : Bool} {s : State} {f : State → Res DWord × State} (hf : Stored s (f s).2) :
    Stored s (operandGuard b s f).2 := by
  unfold operandGuard
  split
  · exact hf
  · exact .refl s

theorem stored_ended (x : Res DWord × State) : Stored x.2 (ended x) := by
  obtain ⟨r, s⟩ := x
  cases r <;> exact {}

theorem stored_endedRun (x : Res Unit × State) : Stored x.2 (endedRun x) := by
  obtain ⟨r, s⟩ := x
  cases r <;> exact {}

theorem stored_endedMicro (x : Res Unit × State) : Stored x.2 (endedMicro x) := by
  obtain ⟨r, s⟩ := x
  cases r <;> exact {}

/-- The instructions with a register access of the device: the four of the register layer, and DEV.INIT (R110). -/
def accessesDevice : Instr → Bool
  | .regRd _ | .regWr _ _ | .regRdm _ _ | .regWrm _ _ _ | .devInit => true
  | _ => false

/-- Every other instruction leaves the device's registers and framing, and storage canonical. -/
theorem exec_stored {i : Instr} {s t : State} (hi : accessesDevice i = false) (h : exec i s = .next t) : Stored s t := by
  have host : ∀ {x : Res DWord × State}, Stored s x.2 → finish x = .next t → Stored s t := by
    rintro x hx ⟨⟩
    exact hx.trans (stored_ended x)
  have micro : ∀ {x : Res Unit × State}, Stored s x.2 → finishMicro x = .next t → Stored s t := by
    rintro x hx ⟨⟩
    exact hx.trans (stored_endedMicro x)
  have ok : ∀ {α : Type} {x : Res α × State} (f : α → DWord), Stored s x.2 → Stored s (andThen x fun v u => (.ok (f v), u)).2 :=
    fun f hx => andThen_keeps (P := Stored s) hx fun _ _ k => k
  cases i with
  | regRd | regWr | regRdm | regWrm | devInit => cases hi
  | pwmInit => exact host (ok _ (pulseOnly_pwmInit s).stored) h
  | pwmSetp ns => exact host (ok _ (stored_pwmGuard (pulseOnly_setPeriod ns s).stored)) h
  | pwmSetd ns => exact host (ok _ (stored_pwmGuard (pulseOnly_setDuty ns s).stored)) h
  | pwmEn => exact host (ok _ (stored_pwmGuard (pulseOnly_pwmEnable s).stored)) h
  | pwmDis => exact host (ok _ (stored_pwmGuard (pulseOnly_pwmDisable s).stored)) h
  | pwmTd => exact host (ok _ (pulseOnly_pwmTeardown s).stored) h
  | pwmGetp => exact host (stored_pwmGuard (.refl s)) h
  | devTd =>
    refine host ?_ h
    dsimp only
    split
    · exact .refl s
    · exact stored_devTeardown s
  | oflInit a len flags => exact host (ok _ (stored_oflInit a len flags s)) h
  | msgSetp w => exact host (stored_operandGuard {}) h
  | msgSetch ch => exact host (stored_operandGuard {}) h
  | oflXfer reps => exact host (stored_operandGuard (ok _ (stored_oflXfer _ s))) h
  | settle ms => exact host (stored_settle _ s) h
  | cinv a len => exact host (stored_operandGuard (stored_cacheInvalidate _ _ s)) h
  | decodeBuf n => exact host (stored_operandGuard (ok _ (stored_decodeBuffer _ s))) h
  | acqIter => exact host (ok _ (stored_acqIter s)) h
  | acqRun =>
    cases h
    exact (stored_acqIter s).trans (stored_endedRun _)
  | csAssert => exact micro (.trans (t := { s with cs := true }) {} (stored_engineAdvance _)) h
  | xfer n => exact micro (stored_microXfer n s) h
  | csDeassert => exact micro (.trans (t := { s with cs := false }) {} (stored_engineAdvance _)) h

/-- A move of another agent does the same. -/
theorem Moves.stored {s t : State} (h : Moves s t) : Stored s t := by
  have turned : ∀ {u : State}, Turned s u → Stored s u := fun {u} hu => by
    rw [hu.frame]
    exact {}
  cases h with
  | waits h => exact turned h
  | lands i h => exact (turned h).trans (stored_land i _)
  | refuses r h => exact (turned h).trans {}

end Sys2Proof.Machine
end

section
/-! SUPPORT. What DEV.INIT can do on every path (spec/42_device_config.md R150 to R159, spec/41_pulse_generator.md R136), said once for
PWM.INIT's body and for each step. -/

namespace Sys2Proof.Machine

/-! ### PWM.INIT (R136) -/

/-- The cause DEV.INIT reports for an error of PWM.INIT (R157). -/
def reportedCause (e : ErrCode) (c : Cause) : Cause := if e = .initError then c else e.asCause

/-- How a part of PWM.INIT that holds the descriptor ends: it is `Ok`, still holds it and meets `Q`; an error has released it;
a refusal leaves it held. -/
inductive Claimed (Q : State → Prop) : Res Unit × State → Prop
  | ok {t : State} (ha : t.alloc.pwm = true) (hq : Q t) : Claimed Q (.ok (), t)
  | err {t : State} {e : ErrCode} {c : Cause} (hc : reportedCause e c ≠ .none) (ha : t.alloc.pwm = false)
      (hp : t.pwm = PwmDesc.reset) : Claimed Q (.err e c, t)
  | refuse {t : State} {r : Refusal} (ha : t.alloc.pwm = true) : Claimed Q (.refuse r, t)

theorem Claimed.andThen {P Q : State → Prop} {x : Res Unit × State} {f : Unit → State → Res Unit × State} (h : Claimed P x)
    (hf : ∀ t, t.alloc.pwm = true → Claimed Q (f () t)) : Claimed Q (andThen x f) := by
  cases h with
  | ok ha _ => exact hf _ ha
  | err hc ha hp => exact .err hc ha hp
  | refuse ha => exact .refuse ha

/-- The errors of the programming sequence (R136). -/
def programError : ErrCode → Cause → State → Res Unit × State := fun _ _ => releaseAndRaise .initError .transportError

theorem claimed_setPeriod {s : State} (h : s.alloc.pwm = true) (ns : DWord) :
    Claimed (fun _ => True) (onErr (setPeriod ns s) programError) := by
  obtain hx | ⟨u, v, hu, hx | hx⟩ := setPeriod_cases ns s <;> rw [hx]
  · exact .refuse h
  · exact .ok (by rw [hu]; exact h) trivial
  · exact .err nofun rfl rfl

theorem claimed_setDuty {s : State} (h : s.alloc.pwm = true) (ns : DWord) :
    Claimed (fun _ => True) (onErr (setDuty ns s) programError) := by
  obtain hx | ⟨u, v, hu, hx | hx⟩ := setDuty_cases ns s <;> rw [hx]
  · exact .refuse h
  · exact .ok (by rw [hu]; exact h) trivial
  · exact .err nofun rfl rfl

theorem claimed_pwmEnable {s : State} (h : s.alloc.pwm = true) :
    Claimed (fun t => t.pwm.state = .enabled) (onErr (pwmEnable s) programError) := by
  obtain ⟨u, hu, hx | hx⟩ := pwmEnable_cases s <;> rw [hx]
  · exact .ok (by rw [hu]; exact h) rfl
  · exact .err nofun rfl rfl

theorem claimed_pwmProgram {s : State} (h : s.alloc.pwm = true) : Claimed (fun t => t.pwm.state = .enabled) (pwmProgram s) :=
  (claimed_setPeriod h _).andThen fun _ h => (claimed_setDuty h _).andThen fun _ h => claimed_pwmEnable h

theorem claimed_pwmSelfTest {s : State} (h : s.alloc.pwm = true) :
    Claimed (fun _ => True) (onErr (pwmSelfTest s) releaseAndRaise) := by
  obtain ⟨u, r, hu, hr, hx⟩ := pwmSelfTest_cases s
  rw [hx]
  obtain rfl | rfl | rfl := hr
  · exact .ok (by rw [hu]; exact h) trivial
  · exact .err nofun rfl rfl
  · exact .err nofun rfl rfl

/-- Everything PWM.INIT's body can come to: a descriptor in use stops it, an allocation that fails leaves the descriptor as it is,
and otherwise it is claimed. -/
theorem pwmInit_cases (s : State) : pwmInit s = (.fault .pwmAlreadyInitialized, s)
    ∨ s.alloc.pwm = false ∧ (pwmInit s = (.err .resourceExhausted .none, (attempt .allocPwm s).2)
      ∨ Claimed (fun t => t.pwm.state = .enabled) (pwmInit s)) := by
  unfold pwmInit
  split
  · exact .inl rfl
  · next hg =>
    refine .inr ⟨by simpa using (not_or.1 hg).2, ?_⟩
    dsimp only
    split
    · exact .inr ((claimed_pwmSelfTest rfl).andThen fun _ h => claimed_pwmProgram h)
    · exact .inl rfl

/-! ### The steps (R151 to R158) -/

/-- The handle states inside DEV.INIT (R23). -/
def Underway (d : DevState) : Prop := d ≠ .absent ∧ d ≠ .ready

/-- What a part of DEV.INIT's steps can do to the state: the resources it names are taken and none is given back, a descriptor
that is not held is a released one, at most `n` self-test mismatches are logged, the device's registers stay canonical, and
conversion framing ends only where the launch has a reset line. A field that is not named when this is built is unchanged. -/
structure Configures (n : Nat) (s t : State) : Prop where
  frame : t = { s with
    devState := t.devState, alloc := t.alloc, xport := t.xport, log := t.log, pwm := t.pwm, dev := t.dev, pulse := t.pulse
    calls := t.calls, env := t.env } := by rfl
  handle : s.alloc.handle = true → t.alloc.handle = true := by exact id
  transport : s.alloc.xport = true → t.alloc.xport = true := by exact id
  initialized : s.xport.initialized = true → t.xport.initialized = true := by exact id
  underway : Underway s.devState → Underway t.devState := by exact id
  descriptor : (s.alloc.pwm = false → s.pwm = PwmDesc.reset) → t.alloc.pwm = false → t.pwm = PwmDesc.reset := by exact id
  log : ∃ l : List Event, l.length ≤ n ∧ (∀ e ∈ l, ∃ b, b ≠ s.launch.params.sentinel ∧ e = .selfTestMismatch b)
    ∧ t.log = s.log ++ l := by exact ⟨[], Nat.zero_le _, nofun, (List.append_nil _).symm⟩
  rising : RegsRising s → RegsRising t := by exact id
  conversion : s.dev.framing = .conversion → t.dev.framing = .conversion ∨ s.launch.cfg.resetLinePresent = true := by exact .inl

theorem Configures.refl (n : Nat) (s : State) : Configures n s s := {}

theorem Configures.launch {n : Nat} {s t : State} (h : Configures n s t) : t.launch = s.launch := by rw [h.frame]

theorem Configures.trans {n m : Nat} {s t u : State} (h : Configures n s t) (k : Configures m t u) :
    Configures (n + m) s u where
  frame := by rw [k.frame, h.frame]
  handle := k.handle ∘ h.handle
  transport := k.transport ∘ h.transport
  initialized := k.initialized ∘ h.initialized
  underway := k.underway ∘ h.underway
  descriptor := k.descriptor ∘ h.descriptor
  log := by
    obtain ⟨l, hl, he, ht⟩ := h.log
    obtain ⟨l', hl', he', hu⟩ := k.log
    refine ⟨l ++ l', by rw [List.length_append]; omega, fun e hm => ?_, by rw [hu, ht, List.append_assoc]⟩
    rcases List.mem_append.1 hm with hm | hm
    · exact he e hm
    · exact h.launch ▸ he' e hm
  rising := k.rising ∘ h.rising
  conversion hs := (h.conversion hs).elim (fun ht => h.launch ▸ k.conversion ht) .inr

theorem Configures.mono {n m : Nat} {s t : State} (h : Configures n s t) (hn : n ≤ m) : Configures m s t :=
  { h with log := h.log.imp fun _ ⟨hl, k⟩ => ⟨hl.trans hn, k⟩ }

theorem attempt_frame (c : Call) (s : State) :
    (attempt c s).2 = { s with calls := (attempt c s).2.calls, env := (attempt c s).2.env } := by
  rcases attempt_state c s with e | e <;> rw [e] <;> rfl

theorem configures_attempt (n : Nat) (c : Call) (s : State) : Configures n s (attempt c s).2 := by
  rw [attempt_frame]
  exact {}

theorem Accessed.configures {s t : State} (h : Accessed s t) : Configures 0 s t := by
  have hr := h.rising
  have hc := h.conversion
  rw [h.frame]
  exact { rising := hr, conversion := fun hs => .inl ((congrArg Dev.framing (hc hs)).trans hs) }

/-- A part of the steps: what it can do, and that an error of it is an `InitError` with a cause (R159). -/
structure StepRuns {α : Type} (n : Nat) (s : State) (x : Res α × State) : Prop where
  configures : Configures n s x.2
  error : ∀ e c, x.1 = .err e c → e = .initError ∧ c ≠ .none

section
variable {α β : Type} {n m : Nat} {r s : State}

theorem StepRuns.ok (v : α) (h : Configures n r s) : StepRuns n r (.ok v, s) := ⟨h, nofun⟩

theorem StepRuns.err {c : Cause} (hc : c ≠ .none) (h : Configures n r s) : StepRuns (α := α) n r (.err .initError c, s) :=
  ⟨h, by rintro _ _ ⟨⟩; exact ⟨rfl, hc⟩⟩

theorem StepRuns.after {x : Res α × State} (k : StepRuns m s x) (h : Configures n r s) : StepRuns (n + m) r x :=
  ⟨h.trans k.configures, k.error⟩

theorem StepRuns.andThen {x : Res α × State} {f : α → State → Res β × State} (h : StepRuns n r x)
    (hf : ∀ v t, StepRuns m t (f v t)) : StepRuns (n + m) r (andThen x f) := by
  obtain ⟨y, t⟩ := x
  cases y with
  | ok v => exact (hf v t).after h.configures
  | err e c =>
    obtain ⟨rfl, hc⟩ := h.error e c rfl
    exact .err hc (h.configures.mono (Nat.le_add_right n m))
  | _ => exact ⟨h.configures.mono (Nat.le_add_right n m), nofun⟩

theorem StepRuns.collaborate {c : Call} {f : State → Res Unit × State} (h : Configures n r s)
    (hf : ∀ t, Configures n r t → StepRuns n r (f t)) : StepRuns n r (collaborate c s f) := by
  have ha := h.trans (configures_attempt 0 c s)
  unfold Machine.collaborate
  dsimp only
  split
  · exact hf _ ha
  · exact .err nofun ha

/-- A register access of a step: its error is a transport error (R153 to R156). -/
theorem Accessed.stepRuns {x : Res α × State} (h : Accessed s x.2) : StepRuns 0 s (stepAccess x) := by
  obtain ⟨y, t⟩ := x
  cases y with
  | err e c => exact .err nofun h.configures
  | _ => exact ⟨h.configures, nofun⟩

theorem StepRuns.runStep {f : State → Res Unit × State} {next : DevState} (hf : ∀ s, StepRuns n s (f s)) (s : State)
    (hn : next ≠ .absent ∧ next ≠ .ready := by decide) : StepRuns n s (runStep f next s) :=
  (hf s).andThen (m := 0) fun _ _ => .ok _ { underway := fun _ => hn }

end

theorem stepRuns_step1 (s : State) : StepRuns 0 s (step1 s) := by
  unfold step1
  by_cases hl : s.launch.cfg.resetLinePresent = true
  swap
  · rw [if_pos (by simpa using hl)]
    exact .ok _ {}
  rw [if_neg (by simp [hl])]
  refine .collaborate {} fun t ht => ?_
  have hd : Configures 0 s (drawBool t).2 := ht.trans (m := 0) {}
  dsimp only
  split
  · exact .ok _ hd
  refine .collaborate (hd.trans (m := 0) {}) fun u hu => .collaborate (hu.trans (m := 0) ?_) fun v hv =>
    .ok _ (hv.trans (m := 0) {})
  exact { rising := fun _ => List.Pairwise.nil, conversion := fun _ => .inr (by rw [hu.launch]; exact hl) }

theorem stepRuns_step2 (s : State) : StepRuns 0 s (step2 s) :=
  .collaborate {} fun _ h => .ok _ (h.trans (m := 0) { transport := fun _ => rfl, initialized := fun _ => rfl })

theorem stepRuns_step3 (s : State) : StepRuns 1 s (step3 s) := by
  refine (accessed_regWrite _ _ s).stepRuns.andThen (m := 1) fun _ t =>
    (accessed_regRead _ t).stepRuns.andThen (m := 1) fun b u => ?_
  dsimp only
  split
  · exact .ok _ {}
  · next hb =>
    have hlog : Configures 1 u { u with log := u.log ++ [.selfTestMismatch b] } :=
      { log := ⟨_, Nat.le_refl _, fun e he => ⟨b, hb, List.mem_singleton.1 he⟩, rfl⟩ }
    split
    · exact .err nofun hlog
    · exact .ok _ hlog

theorem stepRuns_step4 (s : State) : StepRuns 0 s (step4 s) := by
  unfold step4
  split
  · exact (accessed_regWriteMasked _ _ _ s).stepRuns.andThen fun _ t => (accessed_regWriteMasked _ _ _ t).stepRuns
  all_goals
    split
    · exact .err nofun {}
    · exact .ok _ {}

theorem stepRuns_step5 (s : State) : StepRuns 0 s (step5 s) :=
  (accessed_regWriteMasked _ _ _ s).stepRuns.andThen fun _ t => (accessed_regWriteMasked _ _ _ t).stepRuns

theorem stepRuns_step6 (s : State) : StepRuns 0 s (step6 s) := (accessed_regWriteMasked _ _ _ s).stepRuns

/-- PWM.INIT inside step 7. -/
theorem stepRuns_pwmInit (s : State) : StepRuns 0 s (onErr (pwmInit s) pwmInitCause) := by
  have config : ∀ {t : State}, PulseOnly s t →
      ((s.alloc.pwm = false → s.pwm = PwmDesc.reset) → t.alloc.pwm = false → t.pwm = PwmDesc.reset) →
      Configures 0 s t := fun {t} h hd => by
    rw [h.frame] at hd ⊢
    exact { descriptor := hd }
  have hp := pulseOnly_pwmInit s
  rcases pwmInit_cases s with hx | ⟨ha, hx | hx⟩
  · rw [hx]
    exact ⟨{}, nofun⟩
  · rw [hx]
    exact .err nofun (configures_attempt 0 _ s)
  · generalize pwmInit s = x at hp hx
    cases hx with
    | ok h => exact .ok _ (config hp fun _ hn => absurd (h.symm.trans hn) nofun)
    | err hc _ hr => exact .err hc (config hp fun _ _ => hr)
    | refuse h => exact ⟨config (t := _) hp fun _ hn => absurd (h.symm.trans hn) nofun, nofun⟩

theorem stepRuns_step7 (s : State) : StepRuns 0 s (step7 s) :=
  .collaborate {} fun _ h => .collaborate (h.trans (m := 0) {}) fun _ h => .collaborate h fun _ h =>
    .collaborate (h.trans (m := 0) {}) fun _ h => (stepRuns_pwmInit _).after (h.trans (m := 0) {})

theorem stepRuns_registerSteps (s : State) : StepRuns 1 s (registerSteps s) :=
  (StepRuns.runStep stepRuns_step3 s).andThen (m := 0) fun _ s => (StepRuns.runStep stepRuns_step4 s).andThen (m := 0)
    fun _ s => (StepRuns.runStep stepRuns_step5 s).andThen (m := 0) fun _ s => StepRuns.runStep stepRuns_step6 s

/-- The seven steps, before the handle becomes ready (R150). -/
def allSteps (s : State) : Res Unit × State :=
  andThen (runStep step1 .gpioReady s) fun _ s => andThen (runStep step2 .busReady s) fun _ s =>
    andThen (registerSteps s) fun _ s => step7 s

theorem andThen_andThen {α β γ : Type} (x : Res α × State) (f : α → State → Res β × State) (g : β → State → Res γ × State) :
    andThen (andThen x f) g = andThen x fun v s => andThen (f v s) g := by
  obtain ⟨r, s⟩ := x
  cases r <;> rfl

theorem devSteps_eq_runStep (s : State) : devSteps s = runStep allSteps .ready s := by
  simp only [devSteps_eq, runStep, allSteps, andThen_andThen]

/-- Everything they can do (R150, R158). -/
theorem stepRuns_allSteps (s : State) : StepRuns 1 s (allSteps s) :=
  (StepRuns.runStep stepRuns_step1 s).andThen (m := 1) fun _ s => (StepRuns.runStep stepRuns_step2 s).andThen (m := 1)
    fun _ s => (stepRuns_registerSteps s).andThen (m := 0) fun _ s => stepRuns_step7 s

/-! ### Which steps that are `Ok` leave what held (R152, R157, R163) -/

theorem collaborate_eq_ok {c : Call} {s t : State} {f : State → Res Unit × State} (h : collaborate c s f = (.ok (), t)) :
    ∃ u : State, u = { s with calls := u.calls, env := u.env } ∧ f u = (.ok (), t) := by
  refine ⟨(attempt c s).2, attempt_frame c s, ?_⟩
  unfold collaborate at h
  dsimp only at h
  split at h
  · exact h
  · cases h

theorem onErr_eq_ok {α : Type} {x : Res α × State} {f : ErrCode → Cause → State → Res α × State} {v : α} {t : State}
    (hf : ∀ e c s, (f e c s).1 ≠ .ok v) (h : onErr x f = (.ok v, t)) : x = (.ok v, t) := by
  obtain ⟨y, s⟩ := x
  cases y with
  | err e c => exact absurd (congrArg Prod.fst h) (hf e c s)
  | ok w => exact h
  | _ => cases h

theorem runStep_eq_ok {f : State → Res Unit × State} {next : DevState} {s t : State} (h : runStep f next s = (.ok (), t)) :
    ∃ u, f s = (.ok (), u) ∧ t = { u with devState := next } := by
  obtain ⟨v, u, hx, ht⟩ := andThen_eq_ok h
  cases ht
  exact ⟨u, hx, rfl⟩

/-- Step 2 holds the transport (R152). -/
theorem step2_holds {s t : State} (h : step2 s = (.ok (), t)) : t.alloc.xport = true ∧ t.xport.initialized = true := by
  obtain ⟨u, -, hu⟩ := collaborate_eq_ok h
  cases hu
  exact ⟨rfl, rfl⟩

/-- Step 7 holds the clock generator and the pulse generator, with the data width set (R157). -/
theorem step7_holds {s t : State} (h : step7 s = (.ok (), t)) : t.alloc.clkgen = true ∧ t.alloc.pwm = true
    ∧ t.pwm.state = .enabled ∧ t.xport.wordWidth = t.launch.params.xferWidth := by
  obtain ⟨a, -, h⟩ := collaborate_eq_ok h
  obtain ⟨b, hb, h⟩ := collaborate_eq_ok h
  obtain ⟨c, hc, h⟩ := collaborate_eq_ok h
  obtain ⟨d, hd, h⟩ := collaborate_eq_ok h
  have hx := onErr_eq_ok (fun _ _ _ h => by cases h) h
  have hp := pulseOnly_pwmInit { d with xport := { d.xport with speedHz := d.launch.cfg.bulkSpeedHz } }
  have hs := pwmInit_cases { d with xport := { d.xport with speedHz := d.launch.cfg.bulkSpeedHz } }
  rw [hx] at hp hs
  have hframe : t = _ := hp.frame
  have clock : d.alloc.clkgen = true := by rw [hd, hc, hb]
  have width : d.xport.wordWidth = d.launch.params.xferWidth := by rw [hd]
  rcases hs with hs | ⟨-, hs | hs⟩
  · cases hs
  · cases hs
  · cases hs with
    | ok ha hq =>
      refine ⟨?_, ha, hq, ?_⟩ <;> rw [hframe]
      · exact clock
      · exact width

end Sys2Proof.Machine
end

section
/-! SUPPORT. How DEV.INIT ends, said once (R150, R158, R159), and what storage and the framing of the device undergo in every step
(R40, R41, R63, R64, R110). -/

namespace Sys2Proof.Machine

/-! ### DEV.INIT (R150) -/

/-- What holds when the seven steps have succeeded (R163). -/
structure Readied (t : State) : Prop where
  handle : t.alloc.handle = true
  transport : t.alloc.xport = true
  clock : t.alloc.clkgen = true
  pulse : t.alloc.pwm = true
  enabled : t.pwm.state = .enabled
  initialized : t.xport.initialized = true
  width : t.xport.wordWidth = t.launch.params.xferWidth

theorem readied_of_allSteps {s t : State} (hs : s.alloc.handle = true) (h : allSteps s = (.ok (), t)) : Readied t := by
  obtain ⟨_, a, h1, h⟩ := andThen_eq_ok h
  obtain ⟨_, b, h2, h⟩ := andThen_eq_ok h
  obtain ⟨_, c, h3, h7⟩ := andThen_eq_ok h
  have c1 := (StepRuns.runStep (next := .gpioReady) stepRuns_step1 s).configures
  have c2 := (StepRuns.runStep (next := .busReady) stepRuns_step2 a).configures
  have c3 := (stepRuns_registerSteps b).configures
  have c7 := (stepRuns_step7 c).configures
  rw [h1] at c1
  rw [h2] at c2
  rw [h3] at c3
  rw [h7] at c7
  obtain ⟨b', x2, rfl⟩ := runStep_eq_ok h2
  obtain ⟨transport, initialized⟩ := step2_holds x2
  obtain ⟨clock, pulse, enabled, width⟩ := step7_holds h7
  exact {
    handle := c7.handle (c3.handle (c2.handle (c1.handle hs)))
    transport := c7.transport (c3.transport transport)
    clock, pulse, enabled
    initialized := c7.initialized (c3.initialized initialized)
    width }

/-- Everything DEV.INIT's body can come to. -/
inductive InitEnds (s : State) : Res Unit × State → Prop
  /-- A handle exists (R165). -/
  | held (h : s.devState ≠ .absent) : InitEnds s (.fault .handleExists, s)
  /-- The handle is not allocated. -/
  | exhausted (h : s.devState = .absent) : InitEnds s (.err .initError .resourceExhausted, (attempt .allocHandle s).2)
  /-- The seven steps have succeeded. -/
  | ready {t : State} (h : s.devState = .absent) (hc : Configures 1 s t) (hr : Readied t) :
      InitEnds s (.ok (), { t with devState := .ready })
  /-- A step has failed, and everything is torn down (R159). -/
  | failed {t : State} {c : Cause} (h : s.devState = .absent) (hc : Configures 1 s t) (hn : c ≠ .none) :
      InitEnds s (.err .initError c, devTeardown { t with devState := .failed })
  /-- A fault, a refusal or a hang of a step ends it at once. -/
  | stopped {t : State} {r : Res Unit} (h : s.devState = .absent) (hc : Configures 1 s t) (hu : Underway t.devState)
      (ho : ∀ v, r ≠ .ok v) (he : ∀ e c, r ≠ .err e c) : InitEnds s (r, t)

/-- The state in which the steps start: the handle is allocated (R150). -/
def handleOpened (s : State) : State :=
  { (attempt .allocHandle s).2 with alloc := { (attempt .allocHandle s).2.alloc with handle := true }, devState := .reset }

theorem devInit_of_absent {s : State} (h : s.devState = .absent) :
    devInit s = if (attempt .allocHandle s).1 = true then onErr (devSteps (handleOpened s)) fun _ c => devFail c
      else (.err .initError .resourceExhausted, (attempt .allocHandle s).2) :=
  if_neg (not_not.2 h)

theorem configures_handleOpened (s : State) : Configures 0 s (handleOpened s) :=
  (configures_attempt 0 .allocHandle s).trans (m := 0) { handle := fun _ => rfl, underway := fun _ => ⟨nofun, nofun⟩ }

theorem devInit_ends (s : State) : InitEnds s (devInit s) := by
  by_cases hd : s.devState = .absent
  swap
  · rw [devInit, if_pos hd]
    exact .held hd
  rw [devInit_of_absent hd]
  split
  swap
  · exact .exhausted hd
  have hrun := stepRuns_allSteps (handleOpened s)
  have hready : ∀ t, allSteps (handleOpened s) = (.ok (), t) → Readied t := fun _ => readied_of_allSteps rfl
  rw [devSteps_eq_runStep, runStep]
  generalize allSteps (handleOpened s) = x at hrun hready
  obtain ⟨r, t⟩ := x
  have hc : Configures 1 s t := (configures_handleOpened s).trans (m := 1) hrun.configures
  have hu : Underway t.devState := hrun.configures.underway ⟨nofun, nofun⟩
  cases r with
  | ok v => exact .ready hd hc (hready _ rfl)
  | err e c =>
    obtain ⟨-, hn⟩ := hrun.error e c rfl
    exact .failed hd hc hn
  | _ => exact .stopped hd hc hu nofun nofun

/-! ### Storage and framing -/

/-- What DEV.INIT's body does to storage and to the device: the first is as it was, the registers stay canonical, and conversion
framing ends only where the launch has a reset line (R263). -/
structure InitStored (s t : State) : Prop where
  mem : t.mem = s.mem
  stale : t.stale = s.stale
  rising : RegsRising s → RegsRising t
  conversion : s.dev.framing = .conversion → t.dev.framing = .conversion ∨ s.launch.cfg.resetLinePresent = true

theorem Configures.initStored {n : Nat} {s t : State} (h : Configures n s t) : InitStored s t :=
  ⟨by rw [h.frame], by rw [h.frame], h.rising, h.conversion⟩

theorem initStored_devInit (s : State) : InitStored s (devInit s).2 := by
  have hx := devInit_ends s
  generalize devInit s = x at hx ⊢
  cases hx with
  | held => exact (Configures.refl 0 s).initStored
  | exhausted => exact (configures_attempt 0 _ s).initStored
  | ready _ hc =>
    have hr := hc.initStored
    exact ⟨hr.mem, hr.stale, hr.rising, hr.conversion⟩
  | stopped _ hc => exact hc.initStored
  | @failed t _ _ hc =>
    have hr := hc.initStored
    obtain ⟨p, e, h⟩ := devTeardown_eq { t with devState := .failed }
    rw [h]
    exact ⟨hr.mem, hr.stale, hr.rising, hr.conversion⟩

/-- What an operation leaves of storage and of the device is what its body leaves. -/
theorem ended_andThen_ok {α : Type} (x : Res α × State) (f : α → DWord) :
    (ended (andThen x fun v t => (.ok (f v), t))).mem = x.2.mem ∧ (ended (andThen x fun v t => (.ok (f v), t))).stale = x.2.stale
      ∧ (ended (andThen x fun v t => (.ok (f v), t))).dev = x.2.dev := by
  obtain ⟨r, s⟩ := x
  cases r <;> exact ⟨rfl, rfl, rfl⟩

/-- A register access by the host is its body and the answer. -/
theorem exec_access {i : Instr} (s : State) (h : accessesDevice i = true) (hi : i ≠ .devInit) : ∃ u : State, Accessed s u
    ∧ (s.launch.params.Valid = true → u.dev = s.dev ∨ (∃ a v, i = .regWr a v) ∨ ∃ a m v, i = .regWrm a m v)
    ∧ ∀ t, exec i s = .next t → t.mem = u.mem ∧ t.stale = u.stale ∧ t.dev = u.dev := by
  have answer : ∀ {α : Type} (x : Res α × State) (f : α → DWord) (t : State),
      finish (andThen x fun v t => (.ok (f v), t)) = .next t → t.mem = x.2.mem ∧ t.stale = x.2.stale ∧ t.dev = x.2.dev := by
    rintro α x f t ⟨⟩
    exact ended_andThen_ok x f
  cases i with
  | regRd a => exact ⟨_, accessed_regRead a s, fun hv => .inl (regRead_dev hv a), answer _ _⟩
  | regWr a v => exact ⟨_, accessed_regWrite a v s, fun _ => .inr (.inl ⟨a, v, rfl⟩), answer _ _⟩
  | regRdm a m => exact ⟨_, accessed_regReadMasked a m s, fun hv => .inl (regReadMasked_dev hv a m), answer _ _⟩
  | regWrm a m v => exact ⟨_, accessed_regWriteMasked a m v s, fun _ => .inr (.inr ⟨a, m, v, rfl⟩), answer _ _⟩
  | devInit => exact absurd rfl hi
  | _ => cases h

/-- Every instruction keeps storage canonical. -/
theorem exec_storageInv {i : Instr} {s t : State} (hs : StorageInv s) (h : exec i s = .next t) : StorageInv t := by
  cases ha : accessesDevice i with
  | false => exact (exec_stored ha h).storageInv hs
  | true =>
    by_cases hi : i = .devInit
    · subst hi
      cases h
      have hr := initStored_devInit s
      obtain ⟨hm, hst, hd⟩ := ended_andThen_ok (devInit s) fun _ => 0#64
      exact ⟨hm ▸ hr.mem ▸ hs.mem, hst ▸ hr.stale ▸ hs.stale, hd ▸ hr.rising hs.reg⟩
    · obtain ⟨u, hu, -, ht⟩ := exec_access s ha hi
      obtain ⟨hm, hst, hd⟩ := ht t h
      have hmem : u.mem = s.mem := by rw [hu.frame]
      have hstale : u.stale = s.stale := by rw [hu.frame]
      exact ⟨hm ▸ hmem ▸ hs.mem, hst ▸ hstale ▸ hs.stale, hd ▸ hu.rising hs.reg⟩

/-- Settles O57: a move of another agent and an instruction each keep the canonical forms. -/
theorem stepKeepsStorageCanonical : Obligations.StepKeepsStorageCanonical := by
  intro s t hs h
  obtain hm | ⟨i, u, -, hu, -, -, hx⟩ := step_cases h
  · exact hm.stored.storageInv hs
  · exact exec_storageInv ((Moves.waits hu).stored.storageInv hs) hx

/-- Conversion framing is left by an instruction only if that is a DEV.INIT of a launch with a reset line. -/
theorem exec_conversion {i : Instr} {s t : State} (hs : s.dev.framing = .conversion) (h : exec i s = .next t) :
    t.dev.framing = .conversion ∨ (i = .devInit ∧ s.launch.cfg.resetLinePresent = true) := by
  cases ha : accessesDevice i with
  | false => exact .inl ((exec_stored ha h).framing.trans hs)
  | true =>
    by_cases hi : i = .devInit
    · subst hi
      cases h
      rw [(ended_andThen_ok (devInit s) fun _ => 0#64).2.2]
      exact ((initStored_devInit s).conversion hs).imp_right fun hl => ⟨rfl, hl⟩
    · obtain ⟨u, hu, -, ht⟩ := exec_access s ha hi
      rw [(ht t h).2.2, hu.conversion hs]
      exact .inl hs

/-- Settles O39: only register writes and DEV.INIT touch the device's registers and framing, and in conversion framing a register
access stops at its guard. -/
theorem conversionFramingLastsUntilReset : Obligations.ConversionFramingLastsUntilReset := by
  refine ⟨fun i s t hv h hne => ?_, fun s t h hs ht => ?_⟩
  · have changed : t.dev.framing = s.dev.framing → t.dev.reg = s.dev.reg → False := fun hf hr => by
      rcases hne with hne | ⟨x, hx⟩
      · exact hne hf
      · exact hx (by rw [devReg, devReg, hr])
    cases ha : accessesDevice i with
    | false => exact (changed (exec_stored ha h).framing (exec_stored ha h).reg).elim
    | true =>
      by_cases hi : i = .devInit
      · exact .inl hi
      · obtain ⟨u, -, hd, hu⟩ := exec_access s ha hi
        rcases hd hv with hd | hd
        · exact (changed (by rw [(hu t h).2.2, hd]) (by rw [(hu t h).2.2, hd])).elim
        · exact .inr hd
  · obtain hm | ⟨i, u, hturn, hu, -, -, hx⟩ := step_cases h
    · rw [hm.stored.framing, hs] at ht
      cases ht
    · have hdev : u.dev = s.dev := by rw [hu.frame]
      have hlaunch : u.launch = s.launch := by rw [hu.frame]
      rcases exec_conversion (by rw [hdev]; exact hs) hx with hc | ⟨rfl, hl⟩
      · rw [hc] at ht
        cases ht
      · exact ⟨hlaunch ▸ hl, u, hturn⟩

end Sys2Proof.Machine
end

section
/-! SUPPORT. The invariant of the controller, inside an operation and between two (spec/10_state.md R23 to R34, spec/20_memory.md R58,
R62, spec/41_pulse_generator.md R138, spec/42_device_config.md R160, R163). -/

namespace Sys2Proof.Machine

/-! ### The invariant inside an operation and between two -/

/-- The clauses of `BlockInv` that hold inside an operation too: all but the last, which says nothing of a marked state. -/
def CoreInv (s : State) : Prop := BlockInv (recordFault .stuck s)

theorem running_marked {s : State} {P : Prop} (h : Running (recordFault .stuck s)) : P := nomatch h.1

/-- `BlockInv` where an operation has ended or none has begun. -/
structure Resting (s : State) : Prop where
  core : CoreInv s
  devState : s.devState = .absent ∨ s.devState = .ready
  cs : s.cs = false
  idle : s.engine.busy = false
  programmed : s.pwm.state ≠ .configured
  claimed : s.alloc.pwm = true → s.pwm.state ≠ .uninitialized

theorem BlockInv.core {s : State} (h : BlockInv s) : CoreInv s := { h with settled := running_marked }

theorem BlockInv.resting {s : State} (h : BlockInv s) (hr : Running s) : Resting s := by
  obtain ⟨hd, hc, hb, hp, hu⟩ := h.settled hr
  exact ⟨h.core, hd, hc, hb, hp, hu⟩

theorem CoreInv.blockInv {s : State} (h : CoreInv s) (hs : Running s → Resting s) : BlockInv s :=
  { h with settled := fun hr =>
      have k := hs hr
      ⟨k.devState, k.cs, k.idle, k.programmed, k.claimed⟩ }

/-- What the invariant speaks of is as before, but words in flight may have landed. -/
structure Spared (s t : State) : Prop where
  frame : t = { s with
    log := t.log, inflight := t.inflight, landBy := t.landBy, mem := t.mem, stale := t.stale, acq := t.acq, out := t.out
    dev := t.dev, pulse := t.pulse, pending := t.pending, calls := t.calls, env := t.env } := by rfl
  left : t.inflight ⊆ s.inflight := by exact List.Subset.refl _
  deadline : (s.inflight = [] → s.landBy = none) → t.inflight = [] → t.landBy = none := by exact id

theorem Spared.refl (s : State) : Spared s s := {}

theorem Spared.trans {s t u : State} (h : Spared s t) (k : Spared t u) : Spared s u where
  frame := by rw [k.frame, h.frame]
  left := List.Subset.trans k.left h.left
  deadline := k.deadline ∘ h.deadline

theorem CoreInv.spared {s t : State} (hs : CoreInv s) (h : Spared s t) : CoreInv t := by
  have hl := h.left
  have hd := h.deadline
  rw [h.frame]
  exact { hs with inflight := fun c hc => hs.inflight c (hl hc), deadline := hd hs.deadline }

theorem Resting.spared {s t : State} (hs : Resting s) (h : Spared s t) : Resting t := by
  have hc := hs.core.spared h
  rw [h.frame] at hc ⊢
  exact { hs with core := hc }

theorem DeviceOnly.spared {s t : State} (h : DeviceOnly s t) : Spared s t := by
  rw [h.frame]
  exact {}

theorem Landed.spared {s t : State} (h : Landed s t) : Spared s t where
  frame := by rw [h.frame]
  left := h.left.subset
  deadline hs hq := by
    rcases h.oldest with ⟨hn, -⟩ | ⟨hb, hh⟩
    · exact hn
    · rw [hb]
      rw [hq, List.head?_nil] at hh
      exact hs (List.head?_eq_none_iff.1 hh.symm)

theorem Turned.spared {s t : State} (h : Turned s t) : Spared s t where
  frame := by rw [h.frame]
  left := by rw [h.frame]; exact List.Subset.refl _
  deadline hs hq := by
    rw [h.frame] at hq
    rw [h.deadline hq]
    exact hs hq

theorem spared_attempt (c : Call) (s : State) : Spared s (attempt c s).2 :=
  attempt_keeps (P := Spared s) (fun _ _ h => h.trans {}) (fun _ h => h.trans {}) c (.refl s)

theorem spared_decodeBuffer (n : Nat) (s : State) : Spared s (decodeBuffer n s).2 := by
  unfold decodeBuffer
  dsimp only
  split
  · exact .refl s
  split
  · exact .refl s
  · rw [decodeWords_state n s.ofl.rxAddr s]
    exact {}

theorem spared_settle (ms : Nat) (s : State) : Spared s (settle ms s) :=
  Spared.trans (t := perform (.waitMs ms) s) {} (landed_settle ms s).spared

theorem spared_acqConsume (s : State) : Spared s (acqConsume s).2 := by
  have h := (landed_dmaMoves s).spared.trans (spared_settle Config.settleMs _)
  refine andThen_keeps (P := Spared s) ?_ fun _ _ h => h.trans {}
  exact ((h.trans (u := cacheInvalidate _ _ _) {}).trans (landed_dmaMoves _).spared).trans (spared_decodeBuffer _ _)

/-! ### How a body ends -/

/-- A body that returns leaves the controller at rest; one that faults, is refused or hangs leaves the core. -/
def Ends {α : Type} : Res α × State → Prop
  | (.ok _, s) | (.err _ _, s) => Resting s
  | (.fault _, s) | (.refuse _, s) | (.stuck, s) => CoreInv s

section
variable {α β : Type} {s : State} {x : Res α × State}

theorem Resting.ends (h : Resting x.2) : Ends x := by
  obtain ⟨r, s⟩ := x
  cases r with
  | ok | err => exact h
  | fault | refuse | stuck => exact h.core

theorem Ends.andThen {f : α → State → Res β × State} (h : Ends x) (hf : ∀ v t, Resting t → Ends (f v t)) :
    Ends (andThen x f) := by
  obtain ⟨r, t⟩ := x
  cases r with
  | ok v => exact hf v t h
  | _ => exact h

theorem Ends.onErr {f : ErrCode → Cause → State → Res α × State} (h : Ends x) (hf : ∀ e c t, Resting t → Ends (f e c t)) :
    Ends (onErr x f) := by
  obtain ⟨r, t⟩ := x
  cases r with
  | err e c => exact hf e c t h
  | _ => exact h

/-- A body followed by the value it returns. -/
theorem Ends.returns (h : Ends x) (f : α → DWord) : Ends (Machine.andThen x fun v t => (.ok (f v), t)) :=
  h.andThen fun _ _ ht => ht

end

theorem Resting.answers {s : State} (h : Resting s) (r : Result) : BlockInv (giveResult r s) :=
  have hc : CoreInv (giveResult r s) := { h.core with settled := running_marked }
  hc.blockInv fun _ => { h with core := hc }

theorem CoreInv.marks {s : State} (h : CoreInv s) : (∀ r, BlockInv (recordFault r s)) ∧ (∀ r, BlockInv (recordRefusal r s))
    ∧ BlockInv (hang s) :=
  ⟨fun _ => { h with settled := fun hr => nomatch hr.1 }, fun _ => { h with settled := fun hr => nomatch hr.2.1 },
    { h with settled := fun hr => absurd rfl hr.2.2 }⟩

/-- How an operation ends (R18): the invariant holds again. -/
theorem Ends.blockInv {x : Res DWord × State} (h : Ends x) : BlockInv (ended x) := by
  obtain ⟨r, s⟩ := x
  cases r with
  | ok | err => exact Resting.answers h _
  | fault r => exact (CoreInv.marks h).1 r
  | refuse r => exact (CoreInv.marks h).2.1 r
  | stuck => exact (CoreInv.marks h).2.2

theorem Ends.blockInv_run {x : Res Unit × State} (h : Ends x) : BlockInv (endedRun x) := by
  obtain ⟨r, s⟩ := x
  cases r with
  | ok =>
    have k : Resting s := h
    have hc : CoreInv { s with ctl := .acqRun, result := none } := { k.core with settled := running_marked }
    exact hc.blockInv fun _ => { k with core := hc }
  | err => exact Resting.answers h _
  | fault r => exact (CoreInv.marks h).1 r
  | refuse r => exact (CoreInv.marks h).2.1 r
  | stuck => exact (CoreInv.marks h).2.2

/-! ### The pulse generator (R28, R130, R138) -/

theorem CoreInv.pulse {s t : State} (hs : CoreInv s) (h : PulseOnly s t) (hd : t.alloc.pwm = false → t.pwm = PwmDesc.reset) :
    CoreInv t := by
  rw [h.frame]
  exact { hs with descriptor := hd, settled := running_marked }

theorem Resting.pulse {s t : State} (hs : Resting s) (h : PulseOnly s t) (hd : t.alloc.pwm = false → t.pwm = PwmDesc.reset)
    (hp : t.pwm.state ≠ .configured) (hu : t.alloc.pwm = true → t.pwm.state ≠ .uninitialized) : Resting t := by
  have hc := hs.core.pulse h hd
  rw [h.frame] at hc ⊢
  exact { hs with core := hc, programmed := hp, claimed := hu }

/-- A descriptor in use is held. -/
theorem CoreInv.held {s : State} (h : CoreInv s) (hs : s.pwm.state ≠ .uninitialized) : s.alloc.pwm = true := by
  by_contra ha
  exact hs (congrArg PwmDesc.state (h.descriptor (by simpa using ha)))

/-- What programming a held descriptor does: it stays held, and its state stays or is one of the last two. -/
structure Programs (s t : State) : Prop extends PulseOnly s t where
  held : t.alloc.pwm = s.alloc.pwm
  state : t.pwm.state = s.pwm.state ∨ t.pwm.state = .enabled ∨ t.pwm.state = .disabled

/-- From a held descriptor, programming comes to rest. -/
theorem Programs.resting {s t : State} (h : Programs s t) (hs : Resting s) (hu : s.pwm.state ≠ .uninitialized) : Resting t := by
  have ha : t.alloc.pwm = true := h.held.trans (hs.core.held hu)
  refine hs.pulse h.toPulseOnly (fun hn => absurd (ha.symm.trans hn) nofun) ?_ fun _ => ?_ <;>
    rcases h.state with k | k | k <;> rw [k]
  · exact hs.programmed
  · nofun
  · nofun
  · exact hu
  · nofun
  · nofun

theorem programs_setPeriod (ns : DWord) (s : State) : Programs s (setPeriod ns s).2 := by
  have hp := pulseOnly_setPeriod ns s
  obtain hx | ⟨u, v, hu, hx | hx⟩ := setPeriod_cases ns s <;> rw [hx] at hp ⊢
  · exact ⟨hp, rfl, .inl rfl⟩
  all_goals exact ⟨hp, by rw [hu], .inl (by rw [hu])⟩

theorem programs_setDuty (ns : DWord) (s : State) : Programs s (setDuty ns s).2 := by
  have hp := pulseOnly_setDuty ns s
  obtain hx | ⟨u, v, hu, hx | hx⟩ := setDuty_cases ns s <;> rw [hx] at hp ⊢
  · exact ⟨hp, rfl, .inl rfl⟩
  all_goals exact ⟨hp, by rw [hu], .inl (by rw [hu])⟩

theorem programs_pwmEnable (s : State) : Programs s (pwmEnable s).2 := by
  have hp := pulseOnly_pwmEnable s
  obtain ⟨u, hu, hx | hx⟩ := pwmEnable_cases s <;> rw [hx] at hp ⊢
  · exact ⟨hp, by rw [hu], .inr (.inl rfl)⟩
  · exact ⟨hp, by rw [hu], .inl (by rw [hu])⟩

theorem programs_pwmDisable (s : State) : Programs s (pwmDisable s).2 := by
  have hp := pulseOnly_pwmDisable s
  obtain ⟨u, hu, hx | hx⟩ := pwmDisable_cases s <;> rw [hx] at hp ⊢
  · exact ⟨hp, by rw [hu], .inr (.inr rfl)⟩
  · exact ⟨hp, by rw [hu], .inl (by rw [hu])⟩

theorem ends_pwmGuard {α : Type} {s : State} {f : State → Res α × State} (hs : Resting s)
    (hf : s.pwm.state ≠ .uninitialized → Resting (f s).2) : Ends (pwmGuard s f) := by
  unfold pwmGuard
  split
  · exact hs.core
  · next hu => exact (hf hu).ends

/-- A released descriptor leaves the controller at rest (R138). -/
theorem Resting.released {s t : State} (hs : Resting s) (h : PulseOnly s t) (ha : t.alloc.pwm = false)
    (hp : t.pwm = PwmDesc.reset) : Resting t :=
  hs.pulse h (fun _ => hp) (by rw [hp]; nofun) fun hn => absurd (ha.symm.trans hn) nofun

theorem resting_pwmTeardown {s : State} (hs : Resting s) : Resting (pwmTeardown s).2 := by
  have hp := pulseOnly_pwmTeardown s
  rcases pwmTeardown_cases s with ⟨-, hx⟩ | ⟨-, u, p, r, -, -, hx⟩ <;> rw [hx] at hp ⊢
  · exact hs
  · exact hs.released hp rfl rfl

theorem ends_pwmInit {s : State} (hs : Resting s) : Ends (pwmInit s) := by
  have hp := pulseOnly_pwmInit s
  rcases pwmInit_cases s with hx | ⟨-, hx | hx⟩
  · rw [hx]
    exact hs.core
  · rw [hx]
    exact hs.spared (spared_attempt _ s)
  · generalize pwmInit s = x at hp hx
    cases hx with
    | @ok t ha he =>
      exact hs.pulse hp (fun hn => absurd (ha.symm.trans hn) nofun) (by rw [he]; nofun) fun _ => by rw [he]; nofun
    | err _ ha hr => exact hs.released hp ha hr
    | @refuse t _ ha => exact hs.core.pulse hp fun hn => absurd (ha.symm.trans hn) nofun

/-! ### Device configuration (R150, R159 to R163) -/

/-- DevTeardown leaves a released descriptor (R138, R161). -/
theorem CoreInv.devTeardown_pwm {s : State} (h : CoreInv s) : (devTeardown s).pwm = PwmDesc.reset := by
  obtain ⟨p, e, hx⟩ := devTeardown_eq s
  rw [hx]
  dsimp only
  split
  · rfl
  · next ha => exact h.descriptor (by simpa using ha)

/-- DevTeardown comes to rest from every core (R160). -/
theorem resting_devTeardown {s : State} (h : CoreInv s) (hc : s.cs = false) (hb : s.engine.busy = false) :
    Resting (devTeardown s) := by
  obtain ⟨p, e, hx⟩ := devTeardown_eq s
  have hd := h.devTeardown_pwm
  rw [hx] at hd ⊢
  dsimp only at hd
  rw [hd]
  exact {
    core := { h with
      absent := fun _ => ⟨rfl, rfl, rfl, rfl, rfl, rfl⟩
      ready := nofun
      offload := nofun
      descriptor := fun _ => rfl
      settled := running_marked }
    devState := .inl rfl
    cs := hc
    idle := hb
    programmed := nofun
    claimed := nofun }

/-- Inside DEV.INIT the core holds. -/
theorem CoreInv.configures {n : Nat} {s t : State} (hs : CoreInv s) (ha : s.devState = .absent) (h : Configures n s t) {d : DevState}
    (hd : Underway d) : CoreInv { t with devState := d } := by
  have hdesc := h.descriptor hs.descriptor
  obtain ⟨-, -, -, -, -, ho⟩ := hs.absent ha
  rw [h.frame]
  exact { hs with
    absent := fun k => absurd k hd.1
    ready := fun k => absurd k hd.2
    offload := fun k => absurd (ho.symm.trans k) nofun
    descriptor := hdesc
    settled := running_marked }

/-- The handle is ready (R163). -/
theorem Resting.readied {n : Nat} {s t : State} (hs : Resting s) (ha : s.devState = .absent) (h : Configures n s t)
    (hr : Readied t) : Resting { t with devState := .ready } := by
  obtain ⟨-, -, -, -, -, ho⟩ := hs.core.absent ha
  have hw := hr.width
  rw [h.launch] at hw
  have hp : t.pwm.state = .enabled := hr.enabled
  have core : CoreInv { t with devState := .ready } := by
    have handle := hr.handle
    have transport := hr.transport
    have clock := hr.clock
    have pulse := hr.pulse
    have initialized := hr.initialized
    rw [h.frame]
    exact { hs.core with
      absent := nofun
      ready := fun _ => ⟨handle, transport, clock, initialized, hw⟩
      offload := fun k => absurd (ho.symm.trans k) nofun
      descriptor := fun k => absurd (pulse.symm.trans k) nofun
      settled := running_marked }
  exact {
    core
    devState := .inr rfl
    cs := by rw [h.frame]; exact hs.cs
    idle := by rw [h.frame]; exact hs.idle
    programmed := by rw [hp]; nofun
    claimed := fun _ => by rw [hp]; nofun }

theorem ends_devInit {s : State} (hs : Resting s) : Ends (devInit s) := by
  have hx := devInit_ends s
  generalize devInit s = x at hx ⊢
  cases hx with
  | held => exact hs.core
  | exhausted => exact hs.spared (spared_attempt _ s)
  | ready ha hc hr => exact hs.readied ha hc hr
  | @failed t _ ha hc =>
    refine resting_devTeardown (hs.core.configures ha hc ⟨nofun, nofun⟩) ?_ ?_ <;> rw [hc.frame]
    · exact hs.cs
    · exact hs.idle
  | @stopped t r ha hc hu ho he =>
    have hcore : CoreInv t := hs.core.configures ha hc hu
    cases r with
    | ok v => exact absurd rfl (ho v)
    | err e c => exact absurd rfl (he e c)
    | _ => exact hcore

/-! ### The offload and the loop (R62, R180 to R188, R210, R211) -/

theorem oflMisconfigured_eq_false {p : Params} {a len flags : DWord} (h : oflMisconfigured p a len flags = false) :
    a.toNat % Config.wordSize = 0 ∧ len.toNat % Config.wordSize = 0 ∧ 0 < len.toNat ∧ a.toNat + len.toNat ≤ 2 ^ p.memAddrW := by
  simp only [oflMisconfigured, Bool.or_eq_false_iff, bne_eq_false_iff_eq, beq_eq_false_iff_ne, decide_eq_false_iff_not,
    Nat.not_lt] at h
  obtain ⟨⟨⟨⟨-, hz⟩, ha⟩, hl⟩, hm⟩ := h
  exact ⟨ha, hl, Nat.pos_of_ne_zero fun k => hz (BitVec.eq_of_toNat_eq k), hm⟩

/-- An offload configuration of a handle at rest. -/
theorem Resting.offload {s : State} (hs : Resting s) {o : Ofl} (ho : o.initialized = true → s.devState = .ready ∧ o.rxEn = true
    ∧ o.rxAddr % Config.wordSize = 0 ∧ o.rxLen % Config.wordSize = 0 ∧ 0 < o.rxLen
    ∧ o.rxAddr + o.rxLen ≤ 2 ^ s.launch.params.memAddrW) : Resting { s with ofl := o } := by
  refine { hs with core := { hs.core with absent := fun ha => ?_, offload := ho } }
  obtain ⟨h1, h2, h3, h4, h5, -⟩ := hs.core.absent ha
  refine ⟨h1, h2, h3, h4, h5, ?_⟩
  by_contra k
  have hd : s.devState = .absent := ha
  have := (ho (by simpa using k)).1
  rw [hd] at this
  cases this

theorem ends_oflInit {s : State} (hs : Resting s) (a len flags : DWord) : Ends (oflInit a len flags s) := by
  unfold oflInit oflGuard
  split
  · exact hs.core
  next hd =>
  have ha := hs.spared (spared_attempt (.offloadInit a.toNat true) s)
  have hframe := (spared_attempt (.offloadInit a.toNat true) s).frame
  dsimp only
  split
  · exact hs.offload nofun
  next hm =>
  split
  · refine ha.offload fun _ => ⟨?_, rfl, ?_⟩ <;> rw [hframe]
    · exact not_not.1 hd
    · exact oflMisconfigured_eq_false (by simpa using hm)
  · exact ha.offload nofun

/-- A parameter word of `XFER_WIDTH` bits (R32). -/
theorem Resting.setParam {s : State} (hs : Resting s) {w : Word} (tag : Option Nat) (hw : w.toNat < 2 ^ s.launch.params.xferWidth) :
    Resting (setParam w tag s) :=
  { hs with core := { hs.core with param := hw } }

theorem resting_selectChannel {s : State} (hs : Resting s) (ch : Nat) : Resting (selectChannel ch s) :=
  hs.setParam _ (Params.valid_chSelWord hs.core.params ch)

theorem mem_landings {base first : Nat} {ws : List Word} {c : Nat × Word} (h : c ∈ landings base first ws) :
    ∃ j, j < ws.length ∧ c.1 = base + (first + j) * Config.wordSize := by
  simp only [landings, List.mem_map] at h
  obtain ⟨⟨w, i⟩, hm, rfl⟩ := h
  obtain ⟨hlo, hhi, -⟩ := List.mem_zipIdx hm
  exact ⟨i - first, by omega, by dsimp only; rw [Nat.add_sub_cancel' hlo]⟩

/-- Words captured for a buffer that the offload has checked land whole and aligned (R62, R185). -/
theorem CoreInv.captured {s t : State} {reps n : Nat} {ws : List Word} (h : CoreInv s) (ho : XferOpen reps s)
    (hn : n ≤ reps * resultWords s.msg.template) (hw : ws.length = n) (hc : t.inflight = s.inflight ++ landings s.ofl.rxAddr 0 ws)
    (hf : t = { s with
      cs := t.cs, engine := t.engine, inflight := t.inflight, dev := { s.dev with sel := t.dev.sel }, calls := t.calls, env := t.env }) :
    CoreInv t := by
  obtain ⟨-, -, ha, -, -, hl⟩ := h.offload ho.initialized
  rw [hf, hc]
  refine { h with inflight := fun c hm => ?_, deadline := fun hq => ?_, settled := running_marked }
  · rcases List.mem_append.1 hm with hm | hm
    · exact h.inflight c hm
    · obtain ⟨j, hj, hx⟩ := mem_landings hm
      have hfits := ho.fits
      have hle : (j + 1) * Config.wordSize ≤ reps * resultWords s.msg.template * Config.wordSize :=
        Nat.mul_le_mul_right _ (by omega)
      simp only [recordFault_ofl, recordFault_launch, Config.wordSize] at ha hl hfits hle hx ⊢
      rw [hx]
      omega
  · exact h.deadline (List.append_eq_nil_iff.1 hq).1

theorem transfer_cs {w : Word} {k : Nat} {s : State} (hw : templateWf s.msg.template = true) (hc : s.cs = false)
    (hx : (transfer w k s).1 ≠ .stuck) : (transfer w k s).2.cs = false := by
  by_cases hk : k = 0
  · subst hk
    rw [transfer, Nat.zero_mul]
    exact hc
  · obtain ⟨t, ht, -, hcs, -⟩ | ⟨t, j, ht, -⟩ := (transfer_issues w k hw).ends
    · rw [ht]
      exact hcs hk
    · exact absurd (by rw [ht]) hx

theorem andThen_fst_stuck {α β : Type} {x : Res α × State} {f : α → State → Res β × State} (h : x.1 = .stuck) :
    (andThen x f).1 = .stuck := by
  obtain ⟨r, s⟩ := x
  cases h
  rfl

/-- A transfer that ends leaves chip-select deasserted, whether it issues a repetition or none (R26). -/
theorem oflXfer_cs {reps : Nat} {s : State} (hc : s.cs = false) (hx : (oflXfer reps s).1 ≠ .stuck) :
    (oflXfer reps s).2.cs = false := by
  by_cases ho : XferOpen reps s
  swap
  · rw [(oflXfer_of_closed ho).1]
    exact hc
  have hframe := (spared_attempt (.offloadTrigger s.msg.template reps) s).frame
  have hcs : (attempt (.offloadTrigger s.msg.template reps) s).2.cs = false := by rw [hframe]; exact hc
  have hw : templateWf (attempt (.offloadTrigger s.msg.template reps) s).2.msg.template = true := by
    rw [hframe]
    exact ho.template
  rw [oflXfer_of_open ho] at hx ⊢
  dsimp only at hx ⊢
  split at hx
  · next ht =>
    rw [if_pos ht]
    exact transfer_cs hw hcs hx
  · next ht =>
    rw [if_neg ht]
    refine andThen_keeps (P := fun t => t.cs = false) (transfer_cs (by exact hw) (by exact hcs) fun k => hx ?_) fun _ _ h => h
    exact andThen_fst_stuck k

theorem ends_oflXfer {s : State} {reps : Nat} (hs : Resting s) (hr : 0 < reps) : Ends (oflXfer reps s) := by
  by_cases ho : XferOpen reps s
  swap
  · exact Resting.ends (by rw [(oflXfer_of_closed ho).1]; exact hs)
  have hcs := oflXfer_cs (reps := reps) hs.cs
  have hidle := fun h => (ran_oflXfer reps s).idle h hs.idle
  have hx := oflXfer_ends ho
  generalize oflXfer reps s = x at hcs hidle hx ⊢
  have issued : ∀ {t u : State} {k : Nat}, k ≤ reps →
      Issued 0 (k * resultWords s.msg.template) (transferStart k s u) t → t.cs = false → t.engine.busy = false → Resting t := by
    intro t u k hk hi hc hb
    obtain ⟨ws, hl, hw⟩ := hi.words
    have hframe : t = { s with
        cs := t.cs, engine := t.engine, inflight := t.inflight, dev := { s.dev with sel := t.dev.sel }, calls := t.calls
        env := t.env } := hi.frame
    have core := hs.core.captured ho (Nat.mul_le_mul_right _ hk) hl hw hframe
    rw [hframe] at core hc hb ⊢
    exact { hs with core, cs := hc, idle := hb }
  cases hx with
  | ok _ hi => exact issued (Nat.le_refl _) hi (hcs nofun) (hidle nofun)
  | failed _ hk _ hi => exact issued (by omega) hi (hcs nofun) (hidle nofun)
  | stuck _ hu hj hb =>
    obtain ⟨ws, hl, hw⟩ := hb.words
    refine hs.core.captured ho (hj.le.trans (Nat.mul_le_mul_right _ ?_)) hl hw hb.frame
    omega

theorem ends_acqTerminate {s : State} (hs : Resting s) (e : ErrCode) (c : Cause) : Ends (acqTerminate e c s) := by
  have h : Resting (if s.pwm.state = .uninitialized then s else (pwmDisable s).2) := by
    split
    · exact hs
    · next hu => exact (programs_pwmDisable s).resting hs hu
  exact Resting.ends ((resting_devTeardown h.core h.cs h.idle).spared {})

theorem ends_acqIter {s : State} (hs : Resting s) : Ends (acqIter s) := by
  unfold acqIter
  split
  · exact hs.core
  have hpos := (Params.valid_sampleCount hs.core.params).1
  exact ((ends_oflXfer (resting_selectChannel hs _) hpos).onErr fun e c t ht => ends_acqTerminate ht e c).andThen
    fun _ t ht => (ht.spared (spared_acqConsume t)).ends

/-! ### Every instruction and every step -/

theorem ends_operandGuard {b : Bool} {s : State} {f : State → Res DWord × State} (hs : Resting s) (hf : b = true → Ends (f s)) :
    Ends (operandGuard b s f) := by
  unfold operandGuard
  split
  · next hb => exact hf hb
  · exact hs.core

/-- A host operation but ACQ.RUN is a body that ends as `Ends` says, and its answer. -/
theorem exec_ends {i : Instr} {s : State} (hs : Resting s) (hm : i.isMicro = false) (hi : i ≠ .acqRun) :
    ∃ x : Res DWord × State, exec i s = finish x ∧ Ends x := by
  have access : ∀ {α : Type} {x : Res α × State} (f : α → DWord), DeviceOnly s x.2 → Ends (andThen x fun v t => (.ok (f v), t)) :=
    fun f h => (Resting.ends (hs.spared h.spared)).returns f
  cases i with
  | regRd a => exact ⟨_, rfl, access _ (deviceOnly_regRead a s)⟩
  | regWr a v => exact ⟨_, rfl, access _ (deviceOnly_regWrite a v s)⟩
  | regRdm a m => exact ⟨_, rfl, access _ (deviceOnly_regReadMasked a m s)⟩
  | regWrm a m v => exact ⟨_, rfl, access _ (deviceOnly_regWriteMasked a m v s)⟩
  | pwmInit => exact ⟨_, rfl, (ends_pwmInit hs).returns _⟩
  | pwmSetp ns => exact ⟨_, rfl, (ends_pwmGuard hs fun hu => (programs_setPeriod ns s).resting hs hu).returns _⟩
  | pwmSetd ns => exact ⟨_, rfl, (ends_pwmGuard hs fun hu => (programs_setDuty ns s).resting hs hu).returns _⟩
  | pwmEn => exact ⟨_, rfl, (ends_pwmGuard hs fun hu => (programs_pwmEnable s).resting hs hu).returns _⟩
  | pwmDis => exact ⟨_, rfl, (ends_pwmGuard hs fun hu => (programs_pwmDisable s).resting hs hu).returns _⟩
  | pwmTd => exact ⟨_, rfl, (resting_pwmTeardown hs).ends.returns _⟩
  | pwmGetp => exact ⟨_, rfl, ends_pwmGuard hs fun _ => hs⟩
  | devInit => exact ⟨_, rfl, (ends_devInit hs).returns _⟩
  | devTd =>
    refine ⟨_, rfl, Resting.ends ?_⟩
    dsimp only
    split
    · exact hs
    · exact resting_devTeardown hs.core hs.cs hs.idle
  | oflInit a len flags => exact ⟨_, rfl, (ends_oflInit hs a len flags).returns _⟩
  | msgSetp w =>
    refine ⟨_, rfl, ends_operandGuard hs fun hb => Resting.ends (hs.setParam _ ?_)⟩
    rw [BitVec.toNat_setWidth]
    exact (Nat.mod_le _ _).trans_lt (of_decide_eq_true hb)
  | msgSetch ch => exact ⟨_, rfl, ends_operandGuard hs fun _ => (resting_selectChannel hs _).ends⟩
  | oflXfer reps =>
    exact ⟨_, rfl, ends_operandGuard hs fun hb => (ends_oflXfer hs (repsInRange_iff.1 hb).1).returns _⟩
  | settle ms => exact ⟨_, rfl, hs.spared (spared_settle _ s)⟩
  | cinv a len => exact ⟨_, rfl, ends_operandGuard hs fun _ => hs.spared (t := cacheInvalidate _ _ s) {}⟩
  | decodeBuf n =>
    exact ⟨_, rfl, ends_operandGuard hs fun _ => (Resting.ends (hs.spared (spared_decodeBuffer _ s))).returns fun _ => n⟩
  | acqIter => exact ⟨_, rfl, (ends_acqIter hs).returns _⟩
  | acqRun => exact absurd rfl hi
  | csAssert | xfer | csDeassert => cases hm

/-- Every host operation that starts at rest keeps the invariant. -/
theorem exec_blockInv {i : Instr} {s t : State} (hs : Resting s) (hm : i.isMicro = false) (h : exec i s = .next t) : BlockInv t := by
  by_cases hi : i = .acqRun
  · subst hi
    cases h
    exact (ends_acqIter hs).blockInv_run
  · obtain ⟨x, hx, he⟩ := exec_ends hs hm hi
    rw [hx] at h
    cases h
    exact he.blockInv

/-- So does every move of another agent. -/
theorem Moves.blockInv {s t : State} (hs : BlockInv s) (h : Moves s t) : BlockInv t := by
  have spared : ∀ {u : State}, Spared s u → BlockInv u := fun {u} hu => by
    refine (hs.core.spared hu).blockInv fun hr => (hs.resting ?_).spared hu
    rw [hu.frame] at hr
    exact hr
  cases h with
  | waits h => exact spared h.spared
  | lands i h => exact spared (h.spared.trans (landed_land i _).spared)
  | refuses r h => exact (hs.core.spared h.spared).marks.2.1 r

/-- Settles O58: an instruction starts at rest, so no micro-operation runs, and each body ends at rest or stops with the core. -/
theorem stepKeepsBlockInvariant : Obligations.StepKeepsBlockInvariant := by
  intro s t hs h
  obtain hm | ⟨i, u, -, hu, hrun, hmicro, hx⟩ := step_cases h
  · exact hm.blockInv hs
  · have hrest := hs.resting hrun
    have hi : i.isMicro = false := by
      by_contra k
      exact absurd (hrest.idle.symm.trans (hmicro (by simpa using k))) nofun
    exact exec_blockInv (hrest.spared hu.spared) hi hx

end Sys2Proof.Machine
end

section
/-! SUPPORT. The pulse generator operations (spec/41_pulse_generator.md R130, R135, R143, R144): what they leave unchanged, and the
switching of the source. -/

namespace Sys2Proof.Machine

/-- An initialized descriptor passes the guard (R135). -/
theorem pwmGuard_open {α : Type} {s : State} (h : s.pwm.state ≠ .uninitialized) (f : State → Res α × State) :
    pwmGuard s f = f s := if_neg h

/-- Settles O28: with an initialized descriptor and no failure the bodies are exact. -/
theorem enableAndDisableSwitchTheSource : Obligations.EnableAndDisableSwitchTheSource := by
  intro s hf hu
  have hf : s.env.faultFree = true := hf
  constructor
  · show finish (andThen (pwmGuard s pwmEnable) fun _ s => (.ok 0#64, s)) = _
    rw [pwmGuard_open hu, pwmEnable_of_faultFree hf]
    rfl
  · show finish (andThen (pwmGuard s pwmDisable) fun _ s => (.ok 0#64, s)) = _
    rw [pwmGuard_open hu, pwmDisable_of_faultFree hf]
    rfl

theorem pulseOnly_pwmGuard {α : Type} {s : State} {f : State → Res α × State} (hf : PulseOnly s (f s).2) :
    PulseOnly s (pwmGuard s f).2 := by
  unfold pwmGuard
  split
  · exact .refl s
  · exact hf

/-- A pulse generator operation is a body that touches the pulse generator only, and its answer. -/
theorem exec_pulseOnly {i : Instr} {ns : DWord} (s : State)
    (hi : i ∈ [.pwmInit, .pwmSetp ns, .pwmSetd ns, .pwmEn, .pwmDis, .pwmTd, .pwmGetp]) :
    ∃ x : Res DWord × State, exec i s = finish x ∧ PulseOnly s x.2 := by
  have ok : ∀ {α : Type} {x : Res α × State} (f : α → DWord), PulseOnly s x.2 →
      PulseOnly s (andThen x fun v t => (.ok (f v), t)).2 := fun f hx => andThen_keeps (P := PulseOnly s) hx fun _ _ h => h
  simp only [List.mem_cons, List.not_mem_nil, or_false] at hi
  obtain rfl | rfl | rfl | rfl | rfl | rfl | rfl := hi
  · exact ⟨_, rfl, ok _ (pulseOnly_pwmInit s)⟩
  · exact ⟨_, rfl, ok _ (pulseOnly_pwmGuard (pulseOnly_setPeriod ns s))⟩
  · exact ⟨_, rfl, ok _ (pulseOnly_pwmGuard (pulseOnly_setDuty ns s))⟩
  · exact ⟨_, rfl, ok _ (pulseOnly_pwmGuard (pulseOnly_pwmEnable s))⟩
  · exact ⟨_, rfl, ok _ (pulseOnly_pwmGuard (pulseOnly_pwmDisable s))⟩
  · exact ⟨_, rfl, ok _ (pulseOnly_pwmTeardown s)⟩
  · exact ⟨_, rfl, pulseOnly_pwmGuard (.refl s)⟩

/-- Settles O32: the frame of the body and the frame of the answer. -/
theorem pulseGeneratorFrame : Obligations.PulseGeneratorFrame := by
  intro s t ns i hi h
  obtain ⟨x, hx, hp⟩ := exec_pulseOnly s hi
  have hframe := finish_frame (hx ▸ h)
  have hmem : t.mem = s.mem := by rw [hframe, hp.frame]
  have hstale : t.stale = s.stale := by rw [hframe, hp.frame]
  exact ⟨by rw [hframe, hp.frame], fun a => ⟨by rw [memByte, memByte, hmem], by rw [isStale, isStale, hstale]⟩⟩

end Sys2Proof.Machine
end

section
/-! SUPPORT. DEV.INIT when every collaborator answers (spec/42_device_config.md R150 to R158, R163, R263). -/

namespace Sys2Proof.Machine

variable {s : State}

/-- The reset line is there and is pulsed (R151, log 17). -/
def pulsed (s : State) : Bool := s.launch.cfg.resetLinePresent && decide (s.env.head % 2 = 0)

/-- The device after step 1 (R151, R263). -/
def devPulsed (s : State) : Dev := if pulsed s then { reg := [], framing := .register, sel := none } else s.dev

/-- The draws left after step 1, which draws whether the named line is there. -/
def envPulsed (s : State) : Env := if s.launch.cfg.resetLinePresent = true then s.env.advance else s.env

theorem envPulsed_faultFree (s : State) : (envPulsed s).faultFree = s.env.faultFree := by
  unfold envPulsed
  split <;> rfl

/-- The state after steps 1 and 2, with the trace of calls given. -/
def busOpened (calls : List Call) (s : State) : State :=
  { s with
    devState := .busReady
    alloc := { s.alloc with handle := true, gpio := pulsed s || s.alloc.gpio, xport := true }
    xport := { initialized := true, speedHz := s.launch.cfg.regSpeedHz, wordWidth := 8 }
    dev := devPulsed s
    calls := calls
    env := envPulsed s }

/-- Step 1, with its two cases put together. -/
theorem step1_eq_ok (hf : s.env.faultFree = true) : ∃ calls, step1 s = (.ok (), { s with
    alloc := { s.alloc with gpio := pulsed s || s.alloc.gpio }, dev := devPulsed s, calls := calls, env := envPulsed s }) := by
  obtain ⟨t, hx, hframe, henv, hyes, hno⟩ := step1_of_faultFree hf
  refine ⟨t.calls, ?_⟩
  have hboth : t.alloc.gpio = (pulsed s || s.alloc.gpio) ∧ t.dev = devPulsed s := by
    by_cases hp : pulsed s = true
    · obtain ⟨hg, hd⟩ := hyes (by simpa [pulsed] using hp)
      exact ⟨by rw [hg, hp, Bool.true_or], by rw [hd, devPulsed, if_pos hp]⟩
    · obtain ⟨hg, hd⟩ := hno (by simpa [pulsed] using hp)
      exact ⟨by rw [hg, Bool.eq_false_iff.2 hp, Bool.false_or], by rw [hd, devPulsed, if_neg hp]⟩
  rw [hx, hframe, henv, hboth.1, hboth.2]
  rfl

/-- DEV.INIT up to step 2: what is left are the register accesses and step 7. -/
theorem devInit_of_faultFree (hf : s.env.faultFree = true) (hd : s.devState = .absent) : ∃ calls, devInit s =
    onErr (andThen (registerSteps (busOpened calls s)) fun _ t => runStep step7 .ready t) fun _ c => devFail c := by
  have ho : handleOpened s = { perform .allocHandle s with alloc := { s.alloc with handle := true }, devState := .reset } := by
    rw [handleOpened, attempt_of_faultFree _ hf]
    rfl
  obtain ⟨calls, h1⟩ := step1_eq_ok (s := handleOpened s) (by rw [ho]; exact hf)
  refine ⟨calls ++ [.xportInit s.launch.cfg.regSpeedHz s.launch.cfg.busMode Config.regWidth], ?_⟩
  rw [devInit_of_absent hd, attempt_of_faultFree _ hf, if_pos rfl, devSteps_eq, runStep, h1, ho]
  simp only [andThen_ok, runStep]
  rw [step2, collaborate_of_faultFree _ (by exact (envPulsed_faultFree s).trans hf)]
  rfl

theorem sel_devPulsed (s : State) : (devPulsed s).sel = if pulsed s then none else s.dev.sel := by
  unfold devPulsed
  split <;> rfl

theorem devReg_busOpened (calls : List Call) (s : State) (x : Half) :
    devReg (busOpened calls s) x = if pulsed s then none else devReg s x := by
  show (devPulsed s).reg.read x.toNat = _
  unfold devPulsed
  split <;> rfl

theorem framing_devPulsed (h : pulsed s = true ∨ s.dev.framing = .register) : (devPulsed s).framing = .register := by
  unfold devPulsed
  split
  · rfl
  · next hp => exact h.resolve_left hp

/-- After steps 1 and 2 the registers can be accessed, where the pulse or the device itself gives register framing (R263). -/
theorem registerPhase_busOpened (calls : List Call) (hv : s.launch.params.Valid = true) (hf : s.env.faultFree = true)
    (hr : pulsed s = true ∨ (s.dev.framing = .register ∧ ∀ b : Byte, s.launch.params.devConnected = true →
      devReg s s.launch.params.addrSetup = some b → b &&& s.launch.params.setupIfMask = s.launch.params.ifValReg)) :
    RegisterPhase s.launch (busOpened calls s) where
  launch := rfl
  valid := hv
  faultFree := (envPulsed_faultFree s).trans hf
  initialized := rfl
  width := rfl
  framing := framing_devPulsed (hr.imp_right And.left)
  field b hc hb := by
    rw [devReg_busOpened] at hb
    split at hb
    · cases hb
    · next hp => exact (hr.resolve_left hp).2 b hc hb

/-- Step 7 (R157): the clock generator, the data width, the bulk speed and the pulse generator. -/
theorem step7_of_faultFree {tp td : Word} (hf : s.env.faultFree = true) (hc : s.launch.params.pwmConnected = true)
    (hs : s.pwm.state = .uninitialized) (ha : s.alloc.pwm = false)
    (hp : ticks s.launch.cfg.pwmPeriodNs s.launch.cfg.pwmRefHz = some tp)
    (hd : ticks (clampDuty s.launch.cfg.pwmDutyNs s.launch.cfg.pwmPeriodNs) s.launch.cfg.pwmRefHz = some td) :
    ∃ t calls, step7 s = (.ok (), t) ∧ t = { s with
      alloc := { s.alloc with clkgen := true, pwm := true }
      xport := { s.xport with speedHz := s.launch.cfg.bulkSpeedHz, wordWidth := s.launch.params.xferWidth }
      pwm :=
        { state := .enabled
          base := s.launch.cfg.pwmBase
          refHz := s.launch.cfg.pwmRefHz
          periodNs := s.launch.cfg.pwmPeriodNs
          dutyNs := clampDuty s.launch.cfg.pwmDutyNs s.launch.cfg.pwmPeriodNs }
      pulse :=
        { scratch := some s.launch.params.pwmTestPattern
          config := some s.launch.params.cfgLoad
          period := some tp
          width := some td
          run := some { running := true, period := some tp, width := some td } }
      calls := calls } := by
  unfold step7
  rw [collaborate_of_faultFree _ hf, collaborate_of_faultFree _ (by exact hf), collaborate_of_faultFree _ (by exact hf),
    collaborate_of_faultFree _ (by exact hf), pwmInit_of_faultFree (tp := tp) (td := td) (by exact hf) (by exact hc) (by exact hs)
    (by exact ha) (by exact hp) (by exact hd)]
  exact ⟨_, _, rfl, rfl⟩

/-- Settles O34: steps 1 and 2, the register accesses of steps 3 to 6, and step 7, each exact where nothing fails. -/
theorem devInitReachesReady : Obligations.DevInitReachesReady := by
  intro s tp td hv hf hpc hd hs ha cfg p drawn pulse before hseq hself e1 e2 e3 e4 htp htd hr
  obtain ⟨calls, hinit⟩ := devInit_of_faultFree hf hd
  have phase := registerPhase_busOpened calls hv hf hr
  obtain ⟨t, hx, hframe, -, henv, hlog, hframing, hsel, hother, habsent, hconnected⟩ :=
    registerSteps_of_faultFree phase hseq hself e1 e2 e3 e4
  unfold OnDevice at hframe
  obtain ⟨u, calls7, h7, hu⟩ := step7_of_faultFree (s := t) (tp := tp) (td := td) henv (by rw [hframe]; exact hpc)
    (by rw [hframe]; exact hs) (by rw [hframe]; exact ha) (by rw [hframe]; exact htp) (by rw [hframe]; exact htd)
  have hdev : u.dev = t.dev := by rw [hu]
  have hreg : ∀ x, devReg u x = devReg t x := fun x => by rw [devReg, hdev, devReg]
  simp only [devReg_busOpened] at hother hconnected
  refine ⟨giveResult (okResult 0#64) { u with devState := .ready }, ?_, ?_, ?_, ?_, ?_, ?_, ?_⟩
  · show finish (andThen (devInit s) _) = _
    rw [hinit, hx, andThen_ok, runStep, h7]
    rfl
  · rw [hu, hframe, hlog]
    rfl
  · show u.dev.sel = _
    rw [hdev, hsel]
    exact sel_devPulsed s
  · exact (congrArg Dev.framing hdev).trans hframing
  · exact fun x h1 h2 h3 h4 => (hreg x).trans (hother x h1 h2 h3 h4)
  · simp only [← hreg] at habsent
    exact habsent
  · simp only [← hreg] at hconnected
    exact hconnected

end Sys2Proof.Machine
end

section
/-! SUPPORT. A DEV.INIT that returns an error (spec/42_device_config.md R150, R153, R154, R159, R160, spec/60_exceptions.md R231). -/

namespace Sys2Proof.Machine

variable {s : State}

/-! ### The error on every path -/

/-- DEV.INIT answers an error exactly as its body ends (R89). -/
theorem devInit_of_errResult {t : State} {r : Result} (h : exec .devInit s = .next t) (hr : t.result = some r) (hst : r.st ≠ 0#64) :
    ∃ e c u, devInit s = (.err e c, u) ∧ r = errResult e c ∧ t = giveResult r u := by
  obtain ⟨v, u, -, rfl, -⟩ | ⟨e, c, u, hx, rfl, ht⟩ := finish_result h hr
  · exact absurd rfl hst
  · rcases andThen_eq_err hx with hx | ⟨v, w, -, hw⟩
    · exact ⟨e, c, u, hx, rfl, ht⟩
    · cases hw

theorem initError_st {c : Cause} (hc : c ≠ .none) : (errResult .initError c).st = 0x103#64 ∨ (errResult .initError c).st = 0x203#64
    ∨ (errResult .initError c).st = 0x603#64 ∨ (errResult .initError c).st = 0x703#64 ∨ (errResult .initError c).st = 0x803#64 := by
  cases c with
  | none => exact absurd rfl hc
  | _ => decide

/-- At most one self-test mismatch is logged (R153). -/
theorem Configures.log_cases {t : State} (h : Configures 1 s t) : t.log = s.log
    ∨ ∃ b : Byte, b ≠ s.launch.params.sentinel ∧ t.log = s.log ++ [.selfTestMismatch b] := by
  obtain ⟨l, hl, he, ht⟩ := h.log
  match l, hl, he, ht with
  | [], _, _, ht => exact .inl (by rw [ht, List.append_nil])
  | [e], _, he, ht =>
    obtain ⟨b, hb, rfl⟩ := he e (List.mem_singleton.2 rfl)
    exact .inr ⟨b, hb, ht⟩

/-! ### The teardown when every collaborator answers (R161) -/

theorem releaseIf_pulse (b : Bool) (c : Call) (f : Alloc → Alloc) (s : State) : (releaseIf b c f s).pulse = s.pulse := by
  unfold releaseIf
  split <;> rfl

theorem pwmTeardown_pulse (hf : s.env.faultFree = true) : (pwmTeardown s).2.pulse = if s.alloc.pwm = true then
    { s.pulse with config := some s.launch.params.cfgReset, run := some stopped } else s.pulse := by
  unfold pwmTeardown
  cases ha : s.alloc.pwm
  · rfl
  · simp only [mmioWrite_of_faultFree _ _ hf, if_true]
    rfl

theorem devTeardown_pulse (hf : s.env.faultFree = true) : (devTeardown s).pulse = if s.alloc.pwm = true then
    { s.pulse with config := some s.launch.params.cfgReset, run := some stopped } else s.pulse := by
  unfold devTeardown
  simp only [releaseIf_pulse]
  cases hx : s.alloc.xport <;> exact pwmTeardown_pulse (by exact hf)

/-- Everything DevTeardown does then. -/
theorem devTeardown_of_faultFree (hf : s.env.faultFree = true) : ∃ (calls : List Call) (e : Env), devTeardown s = { s with
    devState := .absent
    alloc := { handle := false, gpio := false, xport := false, clkgen := false, pwm := false }
    xport := { s.xport with initialized := false }
    ofl := { s.ofl with initialized := false }
    pwm := if s.alloc.pwm = true then PwmDesc.reset else s.pwm
    pulse := if s.alloc.pwm = true then { s.pulse with config := some s.launch.params.cfgReset, run := some stopped } else s.pulse
    calls := calls
    env := e } := by
  have hp := devTeardown_pulse hf
  obtain ⟨p, e, ht⟩ := devTeardown_eq s
  rw [ht] at hp ⊢
  obtain rfl : p = _ := hp
  exact ⟨_, e, rfl⟩

/-! ### The self-test when every collaborator answers (R153) -/

/-- What the self-test logs, `b` the byte drawn for a device that is not connected. -/
def mismatches (p : Params) (b : Byte) : List Event :=
  if p.devConnected = true ∨ b = p.sentinel then [] else [.selfTestMismatch b]

/-- The register accesses of the self-test. -/
def scratchRead (s : State) : Res Byte × State :=
  andThen (stepAccess (regWrite s.launch.params.addrScratch s.launch.params.sentinel s)) fun _ t =>
    stepAccess (regRead t.launch.params.addrScratch t)

theorem step3_eq (s : State) : step3 s = andThen (scratchRead s) fun b t =>
    if b = t.launch.params.sentinel then (.ok (), t)
    else (match t.launch.params.selfTestPolicy with
      | .strict => .err .initError .selfTestFailure
      | .lenient => .ok (), { t with log := t.log ++ [.selfTestMismatch b] }) := by
  rw [scratchRead, andThen_andThen]
  unfold step3
  congr 1
  funext _ t
  congr 1
  funext b u
  cases u.launch.params.selfTestPolicy <;> rfl

/-- A connected device reads back the sentinel; without one the byte is drawn. -/
theorem scratchRead_of_faultFree (hv : s.launch.params.Valid = true) (hf : s.env.faultFree = true)
    (ho : RegOpen s.launch.params.addrScratch s) : ∃ t, DeviceOnly s t ∧ scratchRead s =
      (.ok (if s.launch.params.devConnected = true then s.launch.params.sentinel else BitVec.ofNat 8 s.env.head), t) := by
  have n1 := (Params.valid_addrs hv).1
  have hx := regWrite_of_faultFree s.launch.params.sentinel hv hf ho
  obtain ⟨hfr, henv⟩ := framing_deviceWrite_other s.launch.params.sentinel (s := perform (.busExchange
    (writeFrame s.launch.params s.launch.params.addrScratch s.launch.params.sentinel)) s) n1
  have hsame := devReg_deviceWrite_same s.launch.params.addrScratch s.launch.params.sentinel (perform (.busExchange
    (writeFrame s.launch.params s.launch.params.addrScratch s.launch.params.sentinel)) s)
  generalize deviceWrite _ _ _ = u at hx hfr henv hsame
  have hd : DeviceOnly s u := by
    have := deviceOnly_regWrite s.launch.params.addrScratch s.launch.params.sentinel s
    rwa [hx] at this
  have hl : u.launch = s.launch := hd.launch
  have hxport : u.xport = s.xport := by rw [hd.frame]
  have hr := regRead_answered (s := u) (a := u.launch.params.addrScratch) (by rw [hl]; exact hv) (hd.faultFree.trans hf)
    ⟨by rw [hl]; exact ho.encodable, hxport ▸ ho.initialized, hxport ▸ ho.width, hfr.trans ho.framing⟩
  have hb : (answeredByte u u.launch.params.addrScratch u.env).1
      = if s.launch.params.devConnected = true then s.launch.params.sentinel else BitVec.ofNat 8 s.env.head := by
    simp only [answeredByte, hl, hsame, henv, perform_launch, perform_env]
    by_cases hc : s.launch.params.devConnected = true <;> simp [hc]
  refine ⟨(regRead u.launch.params.addrScratch u).2, hd.trans (deviceOnly_regRead _ u), ?_⟩
  rw [scratchRead, hx, stepAccess_ok, andThen_ok, hr, stepAccess_ok, hb]

/-- Step 3, whatever the setup register holds: only a mismatch under `STRICT` stops it. -/
theorem step3_of_faultFree (hv : s.launch.params.Valid = true) (hf : s.env.faultFree = true)
    (ho : RegOpen s.launch.params.addrScratch s) : ∃ t, OnDevice s t ∧ t.env.faultFree = true
      ∧ t.log = s.log ++ mismatches s.launch.params (BitVec.ofNat 8 s.env.head)
      ∧ step3 s = (if (s.launch.params.devConnected = true ∨ BitVec.ofNat 8 s.env.head = s.launch.params.sentinel)
        ∨ s.launch.params.selfTestPolicy = .lenient then .ok () else .err .initError .selfTestFailure, t) := by
  obtain ⟨t, hd, hx⟩ := scratchRead_of_faultFree hv hf ho
  have hft := hd.faultFree.trans hf
  rw [step3_eq, hx, andThen_ok, hd.launch]
  by_cases hm : s.launch.params.devConnected = true ∨ BitVec.ofNat 8 s.env.head = s.launch.params.sentinel
  · have hsent : (if s.launch.params.devConnected = true then s.launch.params.sentinel else BitVec.ofNat 8 s.env.head)
        = s.launch.params.sentinel := by
      split
      · rfl
      · next hc => exact hm.resolve_left hc
    refine ⟨t, hd.onDevice, hft, by rw [mismatches, if_pos hm, List.append_nil, hd.log], ?_⟩
    rw [if_pos hsent, if_pos (.inl hm)]
  · obtain ⟨hc, hne⟩ := not_or.1 hm
    rw [if_neg hc, if_neg hne]
    refine ⟨{ t with log := t.log ++ [.selfTestMismatch (BitVec.ofNat 8 s.env.head)] }, hd.onDevice.trans rfl, hft,
      by rw [mismatches, if_neg hm, hd.log], ?_⟩
    cases s.launch.params.selfTestPolicy <;> simp [hm, hd.launch]

/-- Which causes steps 3 and 4 end with when every collaborator answers, `b` the byte drawn for a device that is not connected: a
mismatch under `STRICT` (R153), and otherwise a mode that is refused (R154). -/
inductive Stops (l : Launch) (b : Byte) : Cause → Prop
  | mismatch (hm : ¬ (l.params.devConnected = true ∨ b = l.params.sentinel)) (hp : l.params.selfTestPolicy = .strict) :
      Stops l b .selfTestFailure
  | mode (hm : (l.params.devConnected = true ∨ b = l.params.sentinel) ∨ l.params.selfTestPolicy = .lenient)
      (hq : l.cfg.seqMode ≠ .singleCycle) (hp : l.params.unimplSeqPolicy = .reject) : Stops l b .unimplementedMode

theorem registerSteps_stopped (hv : s.launch.params.Valid = true) (hf : s.env.faultFree = true)
    (ho : RegOpen s.launch.params.addrScratch s) {c : Cause} (hc : Stops s.launch (BitVec.ofNat 8 s.env.head) c) :
    ∃ u, registerSteps s = (.err .initError c, u) ∧ OnDevice s u ∧ u.env.faultFree = true
      ∧ u.log = s.log ++ mismatches s.launch.params (BitVec.ofNat 8 s.env.head) := by
  obtain ⟨t, hdev, hft, hlog, hx⟩ := step3_of_faultFree hv hf ho
  cases hc with
  | mismatch hm hp =>
    rw [if_neg (not_or.2 ⟨hm, by rw [hp]; nofun⟩)] at hx
    exact ⟨t, by rw [registerSteps, runStep, hx]; rfl, hdev, hft, hlog⟩
  | mode hm hq hp =>
    rw [if_pos hm] at hx
    have hl : t.launch = s.launch := by
      unfold OnDevice at hdev
      rw [hdev]
    have h4 := step4_of_unimplemented (s := { t with devState := .identityVerified }) hl hq
    rw [hp] at h4
    refine ⟨{ t with devState := .identityVerified }, ?_, hdev.trans rfl, hft, hlog⟩
    rw [registerSteps, runStep, hx, andThen_ok, andThen_ok, runStep, h4]
    rfl

/-- DEV.INIT then returns that cause, with everything that was held released (R159, R161). -/
theorem exec_devInit_stopped (hv : s.launch.params.Valid = true) (hf : s.env.faultFree = true) (hd : s.devState = .absent)
    (he : addrEncodable s.launch.params s.launch.params.addrScratch = true) (hr : pulsed s = true ∨ s.dev.framing = .register)
    {c : Cause} (hc : Stops s.launch (BitVec.ofNat 8 (envPulsed s).head) c) :
    ∃ t : State, exec .devInit s = .next t ∧ t = { s with
      alloc := { handle := false, gpio := false, xport := false, clkgen := false, pwm := false }
      xport := { initialized := false, speedHz := s.launch.cfg.regSpeedHz, wordWidth := 8 }
      log := s.log ++ mismatches s.launch.params (BitVec.ofNat 8 (envPulsed s).head)
      pwm := if s.alloc.pwm then PwmDesc.reset else s.pwm
      ofl := { s.ofl with initialized := false }
      dev := t.dev
      pulse := if s.alloc.pwm then { s.pulse with config := some s.launch.params.cfgReset, run := some stopped } else s.pulse
      result := some (errResult .initError c)
      ctl := .idle
      calls := t.calls
      env := t.env } := by
  obtain ⟨calls, hi⟩ := devInit_of_faultFree hf hd
  obtain ⟨u, hx, hu, hfu, hl⟩ := registerSteps_stopped (s := busOpened calls s) hv ((envPulsed_faultFree s).trans hf)
    ⟨he, rfl, rfl, framing_devPulsed hr⟩ hc
  obtain ⟨cs, e, ht⟩ := devTeardown_of_faultFree (s := { u with devState := .failed }) hfu
  refine ⟨giveResult (errResult .initError c) (devTeardown { u with devState := .failed }), ?_, ?_⟩
  · show finish (andThen (devInit s) _) = _
    rw [hi, hx]
    rfl
  · unfold OnDevice at hu
    rw [ht, hu, hl, ← hd]
    rfl

/-- Settles O35: the body ends with an error only where the handle is not allocated or a step has failed and everything is torn down;
without failures those are the two cases of `Stops`. -/
theorem devInitErrorTearsDown : Obligations.DevInitErrorTearsDown := by
  constructor
  · intro s t r hs h hr hst
    obtain ⟨e, c, u, hx, rfl, rfl⟩ := devInit_of_errResult h hr hst
    have hends := devInit_ends s
    rw [hx] at hends
    cases hends with
    | exhausted ha =>
      obtain ⟨h1, h2, h3, h4, h5, h6⟩ := hs.absent ha
      rw [attempt_frame]
      refine ⟨initError_st nofun, rfl, ha, h1, h2, h3, h4, h5, h6, fun hp => ?_, .inl rfl, rfl⟩
      have hp := hp.resolve_right fun k => k rfl
      exact ⟨hp, congrArg PwmDesc.state (hs.descriptor hp)⟩
    | @failed v _ ha hc hn =>
      have hreset := (hs.core.configures ha hc (d := .failed) ⟨nofun, nofun⟩).devTeardown_pwm
      obtain ⟨p, e, ht⟩ := devTeardown_eq { v with devState := .failed }
      have hframe := hc.frame
      have hlog := hc.log_cases
      rw [ht] at hreset ⊢
      refine ⟨initError_st hn, rfl, rfl, rfl, rfl, rfl, rfl, rfl, rfl, fun _ => ⟨rfl, congrArg PwmDesc.state hreset⟩, hlog, ?_⟩
      rw [hframe]
      rfl
    | stopped _ _ _ _ he => exact absurd rfl (he _ _)
  · intro s hv hf hd cfg p drawn he hr tornDown
    have hline : pulsed s = true ∨ s.dev.framing = .register := hr.imp_left fun k => by simpa [pulsed] using k
    exact ⟨fun hn hm hp => exec_devInit_stopped hv hf hd he hline
        (.mismatch (not_or.2 ⟨fun k => absurd (hn.symm.trans k) nofun, hm⟩) hp),
      fun hm hq hp => exec_devInit_stopped hv hf hd he hline (.mode (or_assoc.2 hm) hq hp)⟩

end Sys2Proof.Machine
end

section
/-! SUPPORT. What every operation and every step do to memory, to the view marks and to the words in flight (spec/20_memory.md R58,
R63, R65, R75, spec/43_offload.md R186, R187, spec/44_acquisition.md R210), said once for each body. -/

namespace Sys2Proof.Machine

/-! ### Bodies inside which no word lands -/

/-- Memory, the view marks and the deadline are as before, and no word has left what is in flight. A field that is not named when
this is built is unchanged. -/
structure Undisturbed (s t : State) : Prop where
  mem : t.mem = s.mem := by rfl
  stale : t.stale = s.stale := by rfl
  landBy : t.landBy = s.landBy := by rfl
  inflight : s.inflight <+: t.inflight := by exact List.prefix_refl _

theorem Undisturbed.refl (s : State) : Undisturbed s s := {}

theorem Undisturbed.trans {s t u : State} (h : Undisturbed s t) (k : Undisturbed t u) : Undisturbed s u where
  mem := k.mem.trans h.mem
  stale := k.stale.trans h.stale
  landBy := k.landBy.trans h.landBy
  inflight := h.inflight.trans k.inflight

theorem DeviceOnly.undisturbed {s t : State} (h : DeviceOnly s t) : Undisturbed s t := by
  rw [h.frame]
  exact {}

theorem PulseOnly.undisturbed {s t : State} (h : PulseOnly s t) : Undisturbed s t := by
  rw [h.frame]
  exact {}

theorem Configures.undisturbed {n : Nat} {s t : State} (h : Configures n s t) : Undisturbed s t := by
  rw [h.frame]
  exact {}

theorem Issued.undisturbed {first n : Nat} {s t : State} (h : Issued first n s t) : Undisturbed s t := by
  have hi : s.inflight <+: t.inflight := ⟨_, h.captured.symm⟩
  rw [h.frame]
  exact { inflight := hi }

theorem Broken.undisturbed {first k : Nat} {s t : State} (h : Broken first k s t) : Undisturbed s t := by
  have hi : s.inflight <+: t.inflight := ⟨_, h.captured.symm⟩
  rw [h.frame]
  exact { inflight := hi }

theorem undisturbed_attempt (c : Call) (s : State) : Undisturbed s (attempt c s).2 := by
  rw [attempt_frame]
  exact {}

theorem undisturbed_devTeardown (s : State) : Undisturbed s (devTeardown s) := by
  obtain ⟨p, e, h⟩ := devTeardown_eq s
  rw [h]
  exact {}

theorem undisturbed_devInit (s : State) : Undisturbed s (devInit s).2 := by
  have hx := devInit_ends s
  generalize devInit s = x at hx ⊢
  cases hx with
  | held => exact .refl s
  | exhausted => exact undisturbed_attempt _ s
  | ready _ hc => exact hc.undisturbed.trans {}
  | @failed t _ _ hc =>
    exact hc.undisturbed.trans (Undisturbed.trans (t := { t with devState := .failed }) {} (undisturbed_devTeardown _))
  | stopped _ hc => exact hc.undisturbed

theorem undisturbed_oflInit (a len flags : DWord) (s : State) : Undisturbed s (oflInit a len flags s).2 := by
  have ha := undisturbed_attempt (.offloadInit a.toNat true) s
  unfold oflInit oflGuard
  split
  · exact .refl s
  dsimp only
  split
  · exact {}
  split <;> exact ha.trans {}

/-- A transfer only adds words to what is in flight (R185). -/
theorem undisturbed_oflXfer (reps : Nat) (s : State) : Undisturbed s (oflXfer reps s).2 := by
  by_cases h : XferOpen reps s
  · have hx := oflXfer_ends h
    generalize oflXfer reps s = x at hx ⊢
    cases hx with
    | ok _ hi | failed _ _ _ hi => exact .trans {} hi.undisturbed
    | stuck _ _ _ hb => exact .trans {} hb.undisturbed
  · rw [(oflXfer_of_closed h).1]
    exact .refl s

theorem undisturbed_decodeBuffer (n : Nat) (s : State) : Undisturbed s (decodeBuffer n s).2 := by
  unfold decodeBuffer
  dsimp only
  split
  · exact .refl s
  split
  · exact .refl s
  · rw [decodeWords_state n s.ofl.rxAddr s]
    exact {}

theorem undisturbed_acqTerminate (e : ErrCode) (c : Cause) (s : State) : Undisturbed s (acqTerminate e c s).2 := by
  have h : Undisturbed s (if s.pwm.state = .uninitialized then s else (pwmDisable s).2) := by
    split
    · exact .refl s
    · exact (pulseOnly_pwmDisable s).undisturbed
  exact (h.trans (undisturbed_devTeardown _)).trans {}

theorem undisturbed_engineAdvance (s : State) : Undisturbed s (engineAdvance s) := by
  rw [engineAdvance_eq]
  exact {}

theorem undisturbed_microXfer (n : BitVec 12) (s : State) : Undisturbed s (microXfer n s).2 := by
  unfold microXfer
  split
  · exact .refl s
  obtain ⟨t, hx, hi, -⟩ | ⟨t, k, hx, -, hb, -⟩ := (exchangeWords_issues n.toNat (wordIndex s) s).ends <;> rw [hx]
  · exact hi.undisturbed.trans (undisturbed_engineAdvance t)
  · exact hb.undisturbed

theorem undisturbed_pwmGuard {α : Type} {s : State} {f : State → Res α × State} (hf : Undisturbed s (f s).2) :
    Undisturbed s (pwmGuard s f).2 := by
  unfold pwmGuard
  split
  · exact .refl s
  · exact hf

theorem undisturbed_operandGuard {b : Bool} {s : State} {f : State → Res DWord × State} (hf : Undisturbed s (f s).2) :
    Undisturbed s (operandGuard b s f).2 := by
  unfold operandGuard
  split
  · exact hf
  · exact .refl s

theorem undisturbed_ended (x : Res DWord × State) : Undisturbed x.2 (ended x) := by
  obtain ⟨r, s⟩ := x
  cases r <;> exact {}

theorem undisturbed_endedRun (x : Res Unit × State) : Undisturbed x.2 (endedRun x) := by
  obtain ⟨r, s⟩ := x
  cases r <;> exact {}

theorem undisturbed_endedMicro (x : Res Unit × State) : Undisturbed x.2 (endedMicro x) := by
  obtain ⟨r, s⟩ := x
  cases r <;> exact {}

/-- The instructions inside which words land or view marks change (R186, R187, R210). -/
def touchesMemory : Instr → Bool
  | .settle _ | .cinv _ _ | .acqIter | .acqRun => true
  | _ => false

theorem exec_undisturbed {i : Instr} {s t : State} (hi : touchesMemory i = false) (h : exec i s = .next t) : Undisturbed s t := by
  have host : ∀ {x : Res DWord × State}, Undisturbed s x.2 → finish x = .next t → Undisturbed s t := by
    rintro x hx ⟨⟩
    exact hx.trans (undisturbed_ended x)
  have micro : ∀ {x : Res Unit × State}, Undisturbed s x.2 → finishMicro x = .next t → Undisturbed s t := by
    rintro x hx ⟨⟩
    exact hx.trans (undisturbed_endedMicro x)
  have ok : ∀ {α : Type} {x : Res α × State} (f : α → DWord), Undisturbed s x.2 →
      Undisturbed s (andThen x fun v u => (.ok (f v), u)).2 := fun f hx => andThen_keeps (P := Undisturbed s) hx fun _ _ k => k
  cases i with
  | settle | cinv | acqIter | acqRun => cases hi
  | regRd a => exact host (ok _ (deviceOnly_regRead a s).undisturbed) h
  | regWr a v => exact host (ok _ (deviceOnly_regWrite a v s).undisturbed) h
  | regRdm a m => exact host (ok _ (deviceOnly_regReadMasked a m s).undisturbed) h
  | regWrm a m v => exact host (ok _ (deviceOnly_regWriteMasked a m v s).undisturbed) h
  | pwmInit => exact host (ok _ (pulseOnly_pwmInit s).undisturbed) h
  | pwmSetp ns => exact host (ok _ (undisturbed_pwmGuard (pulseOnly_setPeriod ns s).undisturbed)) h
  | pwmSetd ns => exact host (ok _ (undisturbed_pwmGuard (pulseOnly_setDuty ns s).undisturbed)) h
  | pwmEn => exact host (ok _ (undisturbed_pwmGuard (pulseOnly_pwmEnable s).undisturbed)) h
  | pwmDis => exact host (ok _ (undisturbed_pwmGuard (pulseOnly_pwmDisable s).undisturbed)) h
  | pwmTd => exact host (ok _ (pulseOnly_pwmTeardown s).undisturbed) h
  | pwmGetp => exact host (undisturbed_pwmGuard (.refl s)) h
  | devInit => exact host (ok _ (undisturbed_devInit s)) h
  | devTd =>
    refine host ?_ h
    dsimp only
    split
    · exact .refl s
    · exact undisturbed_devTeardown s
  | oflInit a len flags => exact host (ok _ (undisturbed_oflInit a len flags s)) h
  | msgSetp w => exact host (undisturbed_operandGuard {}) h
  | msgSetch ch => exact host (undisturbed_operandGuard {}) h
  | oflXfer reps => exact host (undisturbed_operandGuard (ok _ (undisturbed_oflXfer _ s))) h
  | decodeBuf n => exact host (undisturbed_operandGuard (ok _ (undisturbed_decodeBuffer _ s))) h
  | csAssert => exact micro (.trans (t := { s with cs := true }) {} (undisturbed_engineAdvance _)) h
  | xfer n => exact micro (undisturbed_microXfer n s) h
  | csDeassert => exact micro (.trans (t := { s with cs := false }) {} (undisturbed_engineAdvance _)) h

/-! ### Landings inside an instruction -/

/-- `t` is `s` after the words `new` have been captured and words have landed. -/
structure Delivered (new : List (Nat × Word)) (s t : State) : Prop where
  outside : ∀ x : Nat, (∀ c ∈ s.inflight ++ new, x < c.1 ∨ c.1 + 4 ≤ x) → t.mem.read x = s.mem.read x
  oldest : (t.landBy = none ∧ t.inflight.Sublist (s.inflight ++ new).tail)
    ∨ (t.landBy = s.landBy ∧ t.inflight.head? = (s.inflight ++ new).head?)

theorem Landed.delivered {s t : State} (h : Landed s t) : Delivered [] s t := by
  refine ⟨fun x hx => (h.outside x ?_).1, ?_⟩
  · rwa [List.append_nil] at hx
  · rw [List.append_nil]
    exact h.oldest

theorem Consumed.delivered {new : List (Nat × Word)} {s t u : State} {l : List Word} (h : Consumed t u l) (hm : t.mem = s.mem)
    (hb : t.landBy = s.landBy) (hi : t.inflight = s.inflight ++ new) : Delivered new s u := by
  refine ⟨fun x hx => ?_, ?_⟩
  · rw [← hm]
    exact (h.outside x (by rw [hi]; exact hx)).1
  · rw [← hi, ← hb]
    exact h.oldest

theorem delivered_settle (ms : Nat) (s : State) : Delivered [] s (settle ms s) :=
  have h := (landed_settle ms s).delivered
  ⟨h.outside, h.oldest⟩

/-- What comes after the landings and leaves storage alone. -/
theorem Delivered.congr {new : List (Nat × Word)} {s t u : State} (h : Delivered new s t) (hm : u.mem = t.mem)
    (hl : u.landBy = t.landBy) (hi : u.inflight = t.inflight) : Delivered new s u := by
  refine ⟨fun x hx => hm ▸ h.outside x hx, ?_⟩
  rw [hl, hi]
  exact h.oldest

/-- A byte that changes is a byte of a word that lands. -/
theorem Delivered.exists_word {new : List (Nat × Word)} {s t : State} (h : Delivered new s t) {x : Nat}
    (hx : t.mem.read x ≠ s.mem.read x) : ∃ c ∈ s.inflight ++ new, c.1 ≤ x ∧ x < c.1 + 4 := by
  by_contra k
  refine hx (h.outside x fun c hc => ?_)
  by_contra hn
  exact k ⟨c, hc, by omega⟩

/-- A word for a place of the buffer of an iteration (R185, R210). -/
def InBuffer (s : State) (d : Nat × Word) : Prop := s.ofl.rxAddr ≤ d.1 ∧ d.1 + 4 ≤ s.ofl.rxAddr + iterationWords s * 4

theorem inBuffer_of_mem_landings {s : State} {ws : List Word} (hw : ws.length = iterationWords s) {d : Nat × Word}
    (h : d ∈ landings s.ofl.rxAddr 0 ws) : InBuffer s d := by
  obtain ⟨j, hj, hd⟩ := mem_landings h
  simp only [Config.wordSize] at hd
  exact ⟨by omega, by omega⟩

/-- An iteration whose transfer is `Ok` consumes what the transfer has captured: the words fit, as the transfer has checked. -/
theorem acqIter_of_transfer {s t u : State} (ha : s.acq.terminated = false)
    (ho : XferOpen s.launch.params.sampleCount (selectChannel s.acq.channel.val s))
    (hx : oflXfer s.launch.params.sampleCount (selectChannel s.acq.channel.val s) = (.ok (), t))
    (hi : Issued 0 (iterationWords s) (transferStart s.launch.params.sampleCount (selectChannel s.acq.channel.val s) u) t) :
    ∃ v l, acqIter s = (.ok (), v) ∧ Consumed t v l := by
  have hofl : t.ofl = s.ofl := by rw [hi.frame]; rfl
  have hwords : iterationWords t = iterationWords s := by rw [hi.frame]; rfl
  obtain ⟨v, l, hv, hc⟩ := acqConsume_ok (s := t) (by rw [hofl]; exact ho.initialized) (by rw [hwords, hofl]; exact ho.fits)
  exact ⟨v, l, by rw [acqIter_of_running ha, hx, onErr_ok, andThen_ok, hv], hc⟩

/-- What an iteration does to storage: one that stops before its end only adds words to what is in flight; otherwise words for the
places of its buffer have been captured, and words have landed. -/
theorem acqIter_delivers (s : State) : Undisturbed s (acqIter s).2
    ∨ ∃ new, Delivered new s (acqIter s).2 ∧ ∀ d ∈ new, InBuffer s d := by
  cases ha : s.acq.terminated with
  | true =>
    rw [acqIter_of_terminated ha]
    exact .inl (.refl s)
  | false =>
    have hu : Undisturbed s (oflXfer s.launch.params.sampleCount (selectChannel s.acq.channel.val s)).2 :=
      .trans {} (undisturbed_oflXfer _ (selectChannel s.acq.channel.val s))
    have hx := acqIter_of_running ha
    cases hr : oflXfer s.launch.params.sampleCount (selectChannel s.acq.channel.val s) with
    | mk r t =>
    rw [hr] at hu hx
    cases r with
    | ok =>
      have ho : XferOpen s.launch.params.sampleCount (selectChannel s.acq.channel.val s) :=
        by_contra fun h => (oflXfer_of_closed h).2.1 (by rw [hr])
      have hends := oflXfer_ends ho
      rw [hr] at hends
      cases hends with
      | ok _ hi =>
        obtain ⟨v, l, hv, hc⟩ := acqIter_of_transfer ha ho hr hi
        rw [hv]
        exact .inr ⟨_, hc.delivered hu.mem hu.landBy hi.captured, fun d => inBuffer_of_mem_landings (capturedWords_length _ _ _)⟩
    | err e c =>
      rw [hx]
      exact .inl (hu.trans (undisturbed_acqTerminate e c t))
    | fault | refuse | stuck =>
      rw [hx]
      exact .inl hu

/-- What an instruction does to storage. -/
inductive Stores (i : Instr) (s : State) : State → Prop
  /-- Nothing: no word lands and no view mark changes. -/
  | nothing {t : State} (h : Undisturbed s t) : Stores i s t
  /-- CINV: no word lands, and view marks change. -/
  | invalidates {t : State} {a len : DWord} (hi : i = .cinv a len) (h : Undisturbed { s with stale := t.stale } t) : Stores i s t
  /-- SETTLE: words in flight land. -/
  | settles {t : State} {ms : DWord} (hi : i = .settle ms) (h : Delivered [] s t) : Stores i s t
  /-- The acquisition loop: words for the places of the buffer are captured, and words land. -/
  | iterates {t : State} {new : List (Nat × Word)} (hi : i = .acqIter ∨ i = .acqRun) (h : Delivered new s t)
      (hb : ∀ d ∈ new, InBuffer s d) : Stores i s t

/-- Nothing but the marks, the result and CTL's position changes when an iteration is answered. -/
theorem exec_iteration {i : Instr} {s t : State} (hi : i = .acqIter ∨ i = .acqRun) (h : exec i s = .next t) :
    t = { (acqIter s).2 with fault := t.fault, refused := t.refused, result := t.result, ctl := t.ctl } := by
  obtain rfl | rfl := hi <;> cases h
  · show ended (andThen (acqIter s) fun _ u => (.ok 0#64, u)) = _
    generalize acqIter s = x
    obtain ⟨r, u⟩ := x
    cases r <;> rfl
  · generalize acqIter s = x
    obtain ⟨r, u⟩ := x
    cases r <;> rfl

theorem spanInRange_iff {p : Params} {a len : DWord} : spanInRange p a len = true ↔ a.toNat + len.toNat ≤ 2 ^ p.memAddrW := by
  simp [spanInRange]

theorem exec_cinv {s : State} {a len : DWord} (h : a.toNat + len.toNat ≤ 2 ^ s.launch.params.memAddrW) :
    exec (.cinv a len) s = .next (giveResult (okResult 0#64) (cacheInvalidate a.toNat len.toNat s)) :=
  congrArg finish (if_pos (spanInRange_iff.2 h))

theorem exec_cinv_refused {s : State} {a len : DWord} (h : ¬ a.toNat + len.toNat ≤ 2 ^ s.launch.params.memAddrW) :
    exec (.cinv a len) s = .next (recordRefusal .operandRange s) :=
  congrArg finish (if_neg fun k => h (spanInRange_iff.1 k))

theorem exec_stores {i : Instr} {s t : State} (h : exec i s = .next t) : Stores i s t := by
  have iteration : (i = .acqIter ∨ i = .acqRun) → Stores i s t := fun hi => by
    have hf := exec_iteration hi h
    obtain hu | ⟨new, hd, hb⟩ := acqIter_delivers s
    · exact .nothing (hu.trans (by rw [hf]; exact {}))
    · exact .iterates hi (hd.congr (by rw [hf]) (by rw [hf]) (by rw [hf])) hb
  cases hm : touchesMemory i with
  | false => exact .nothing (exec_undisturbed hm h)
  | true =>
    cases i with
    | settle ms =>
      cases h
      exact .settles rfl ((delivered_settle ms.toNat s).congr rfl rfl rfl)
    | cinv a len =>
      by_cases hr : a.toNat + len.toNat ≤ 2 ^ s.launch.params.memAddrW
      · cases (exec_cinv hr).symm.trans h
        exact .invalidates rfl {}
      · cases (exec_cinv_refused hr).symm.trans h
        exact .nothing {}
    | acqIter => exact iteration (.inl rfl)
    | acqRun => exact iteration (.inr rfl)
    | _ => cases hm

/-- A byte that an instruction changes lies in a word in flight, or in the buffer of an iteration. -/
theorem Stores.changed {i : Instr} {s t : State} (h : Stores i s t) {x : Nat} (hx : t.mem.read x ≠ s.mem.read x) :
    (∃ c ∈ s.inflight, c.1 ≤ x ∧ x < c.1 + 4)
      ∨ ((i = .acqIter ∨ i = .acqRun) ∧ s.ofl.rxAddr ≤ x ∧ x < s.ofl.rxAddr + iterationWords s * 4) := by
  cases h with
  | nothing h => exact absurd (by rw [h.mem]) hx
  | invalidates _ h => exact absurd (by rw [h.mem]) hx
  | settles _ h =>
    obtain ⟨c, hc, hin⟩ := h.exists_word hx
    exact .inl ⟨c, List.append_nil s.inflight ▸ hc, hin⟩
  | iterates hi h hb =>
    obtain ⟨c, hc, hlo, hhi⟩ := h.exists_word hx
    rcases List.mem_append.1 hc with hc | hc
    · exact .inl ⟨c, hc, hlo, hhi⟩
    · obtain ⟨h1, h2⟩ := hb c hc
      exact .inr ⟨hi, by omega, by omega⟩

/-- A byte that a move of another agent changes lies in a word in flight. -/
theorem Moves.changed {s t : State} (h : Moves s t) {x : Nat} (hx : t.mem.read x ≠ s.mem.read x) :
    ∃ c ∈ s.inflight, c.1 ≤ x ∧ x < c.1 + 4 := by
  have turned : ∀ {u : State}, Turned s u → u.mem = s.mem ∧ u.inflight = s.inflight := fun {u} hu => by
    rw [hu.frame]
    exact ⟨rfl, rfl⟩
  cases h with
  | waits h => exact absurd (by rw [(turned h).1]) hx
  | @lands u i h =>
    obtain ⟨hm, hi⟩ := turned h
    rw [← hm] at hx
    obtain ⟨c, hc, hin⟩ := (landed_land i u).delivered.exists_word hx
    rw [List.append_nil, hi] at hc
    exact ⟨c, hc, hin⟩
  | @refuses u r h => exact absurd (congrArg (Memory.read · x) (turned h).1) hx

/-- Settles O48: each instruction does one of the things `Stores` names, and a step is an instruction or a move of another agent. -/
theorem memoryChangesOnlyByLandings : Obligations.MemoryChangesOnlyByLandings := by
  refine ⟨fun i s t h hset hiter hrun => ?_, fun s t x h hx => ?_⟩
  · cases exec_stores h with
    | nothing h => exact ⟨h.mem, h.inflight, h.landBy, fun _ => h.stale⟩
    | @invalidates a len hi h => exact ⟨h.mem, h.inflight, h.landBy, fun k => absurd hi (k a len)⟩
    | @settles ms hi => exact absurd hi (hset ms)
    | iterates hi => exact absurd hi (not_or.2 ⟨hiter, hrun⟩)
  · obtain hm | ⟨i, u, hturn, hu, -, -, hexec⟩ := step_cases h
    · exact .inl (hm.changed hx)
    · have hmem : u.mem = s.mem := by rw [hu.frame]
      have hinflight : u.inflight = s.inflight := by rw [hu.frame]
      have hofl : u.ofl = s.ofl := by rw [hu.frame]
      have hwords : iterationWords u = iterationWords s := by rw [hu.frame]; rfl
      rcases (exec_stores hexec).changed (hmem ▸ hx) with hc | ⟨hi, hlo, hhi⟩
      · exact .inl (hinflight ▸ hc)
      · rw [hofl] at hlo
        rw [hofl, hwords] at hhi
        refine .inr ⟨hlo, hhi, u, ?_⟩
        obtain rfl | rfl := hi
        · exact .inl hturn
        · exact .inr hturn

end Sys2Proof.Machine
end

section
/-! SUPPORT. A landing, CINV and DECODE (spec/20_memory.md R61, R65 to R67, R75, spec/43_offload.md R187, R188). -/

namespace Sys2Proof.Machine

/-! ### A landing (R61, R65) -/

theorem memByte_of_read {s : State} {x : Nat} {b : Byte} (h : s.mem.read x = some b) : memByte s x = b := by
  rw [memByte, h, Option.getD_some]

/-- Settles O47: memory and the view marks after a landing are those of `writeWord` and `markStale`; a turn that draws a word lands
it. -/
theorem landingWritesItsWord : Obligations.LandingWritesItsWord := by
  refine ⟨fun s i a w h => ?_, fun s k hf hr hc hq hb hd => ?_⟩
  · have hl := land_of_getElem h
    have hstale : ∀ x, isStale (land i s) x = true ↔ (a ≤ x ∧ x < a + 4) ∨ isStale s x = true := fun x => by
      rw [hl, isStale_iff, isStale_iff]
      exact mem_markStale
    have hread : ∀ x, (land i s).mem.read x = if a ≤ x ∧ x < a + 4 then some (wordByte w (x - a)) else s.mem.read x := fun x => by
      rw [hl]
      exact Memory.read_writeWord s.mem a x w
    refine ⟨by rw [hl], fun k hk => ⟨memByte_of_read ?_, (hstale _).2 (.inl (by omega))⟩, fun x hx => ⟨?_, ?_⟩⟩
    · rw [hread, if_pos (by omega), Nat.add_sub_cancel_left]
      rfl
    · rw [hread, if_neg (by omega)]
    · rw [Bool.eq_iff_iff, hstale]
      exact or_iff_right (by omega)
  · rw [step_eq hf hr, agentTurn_free hq hc hb]
    exact congrArg Turn.answer (if_neg hd)

/-! ### CINV (R67, R187) -/

/-- Settles O50: the marks left are those of `markFresh`. -/
theorem invalidateMakesTheRangeFresh : Obligations.InvalidateMakesTheRangeFresh := by
  intro s a len h
  have hstale : ∀ x, isStale (giveResult (okResult 0#64) (cacheInvalidate a.toNat len.toNat s)) x = true ↔
      isStale s x = true ∧ (x < a.toNat ∨ a.toNat + len.toNat ≤ x) := fun x => by
    rw [isStale_iff, isStale_iff]
    exact mem_markFresh
  refine ⟨_, exec_cinv h, rfl, fun x hx => ?_, fun x hx => ?_, fun _ => rfl⟩
  · rw [Bool.eq_false_iff, ne_eq, hstale]
    omega
  · rw [Bool.eq_iff_iff, hstale]
    exact and_iff_left hx

/-! ### DECODE (R66, R188) -/

theorem exec_decodeBuf {s : State} {n : DWord} (h : 1 ≤ n.toNat) :
    exec (.decodeBuf n) s = finish (andThen (decodeBuffer n.toNat s) fun _ t => (.ok n, t)) :=
  congrArg finish (if_pos (decide_eq_true h))

/-- A buffer that holds the words is decoded: only the list is appended, and draws may be taken. -/
theorem decodeBuffer_ok {s : State} {n : Nat} (hi : s.ofl.initialized = true) (hl : n * Config.wordSize ≤ s.ofl.rxLen) :
    decodeBuffer n s = (.ok (), { s with
      out := s.out ++ [(decodeWords n s.ofl.rxAddr s).1], env := (decodeWords n s.ofl.rxAddr s).2.env }) := by
  rw [decodeBuffer, hi, if_neg (by simp), if_neg (Nat.not_lt.2 hl)]
  dsimp only
  rw [decodeWords_state]

theorem decodeBuffer_uninitialized {s : State} (n : Nat) (hi : s.ofl.initialized = false) :
    decodeBuffer n s = (.fault .offloadNotInitialized, s) := by
  rw [decodeBuffer, hi]
  rfl

theorem decodeBuffer_overrun {s : State} {n : Nat} (hi : s.ofl.initialized = true) (hl : s.ofl.rxLen < n * Config.wordSize) :
    decodeBuffer n s = (.fault .bufferOverrun, s) := by
  rw [decodeBuffer, hi, if_neg (by simp), if_pos hl]

/-- Settles O51: the list is `decodeWords` of the buffer, exact where the buffer is Fresh. -/
theorem decodeEmitsTheBuffer : Obligations.DecodeEmitsTheBuffer := by
  intro s n hv hn p word
  rw [exec_decodeBuf hn]
  refine ⟨fun hi => ?_, fun hi hl => ?_, fun hi hl => ?_⟩
  · rw [decodeBuffer_uninitialized _ hi]
    rfl
  · rw [decodeBuffer_overrun hi hl]
    rfl
  · rw [decodeBuffer_ok hi hl]
    refine ⟨_, _, rfl, rfl, decodeWords_length _ _ _, fun hs x hx => ?_, fun hfresh => ?_⟩
    · obtain ⟨w, rfl⟩ := mem_decodeWords hx
      exact decodeSample_le hv hs w
    · have hwords : decodeWords n.toNat s.ofl.rxAddr s = _ := decodeWords_fresh fun j hj k hk => hfresh _ (by omega) (by omega)
      refine ⟨congrArg (fun r => r.2.env) hwords, fun j hj => ?_⟩
      rw [hwords, List.getElem?_map, List.getElem?_range hj, Option.map_some, decodeSample_eq hv]
      rfl

end Sys2Proof.Machine
end

section
/-! SUPPORT. SETTLE and the fairness of landings (spec/20_memory.md R65, R75, spec/43_offload.md R186,
spec/60_exceptions.md R248). -/

namespace Sys2Proof.Machine

/-! ### SETTLE (R186) -/

theorem exec_settle (ms : DWord) (s : State) :
    exec (.settle ms) s = .next (giveResult (okResult 0#64) (settle ms.toNat s)) := rfl

theorem settle_conservative {s : State} (h : s.launch.params.settleMode = .conservative) (ms : Nat) :
    settle ms s = perform (.waitMs ms) s := by
  simp only [settle, perform_launch, h]

theorem settle_quiet {s : State} (h : s.inflight = []) (ms : Nat) : settle ms s = perform (.waitMs ms) s := by
  unfold settle
  dsimp only
  split
  · rfl
  · rw [perform_inflight, h]
    rfl

/-- Under `ASSUMED` the deadline goes with the oldest word; without a word in flight it stays. -/
theorem settle_landBy {s : State} (h : s.launch.params.settleMode = .assumed) (ms : Nat) :
    (settle ms s).landBy = if s.inflight = [] then s.landBy else none := by
  split
  · next hq => rw [settle_quiet hq, perform_landBy]
  · next hq =>
    rcases (landed_settle ms s).oldest with ⟨hb, -⟩ | ⟨-, hh⟩
    · exact hb
    · rw [settle_inflight h] at hh
      exact absurd (List.head?_eq_none_iff.1 hh.symm) hq

theorem settle_drains {s : State} (h : s.launch.params.settleMode = .assumed) (ms : Nat) :
    settle ms s = { s with
      inflight := [], landBy := if s.inflight = [] then s.landBy else none, mem := (settle ms s).mem
      stale := (settle ms s).stale, calls := s.calls ++ [.waitMs ms], env := (settle ms s).env } := by
  have hframe := (landed_settle ms s).frame
  rw [settle_inflight h, settle_landBy h] at hframe
  exact hframe

/-! ### The oldest word in flight (R248) -/

/-- The turn of CTL or HOST leaves storage and the controller's configuration alone until an instruction is executed. -/
theorem ctlTurn_frame (s : State) : (ctlTurn s).Leads fun u =>
    u = { s with refused := u.refused, result := u.result, pending := u.pending, env := u.env } := by
  unfold ctlTurn engineTurn hostTurn
  split
  · trivial
  · rfl
  split
  · split <;> rfl
  · split <;> rfl

/-- The instructions inside which the oldest word may land. -/
def LandsInside (i : Instr) : Prop := (∃ ms, i = .settle ms) ∨ i = .acqIter ∨ i = .acqRun

/-- After an instruction that a turn of `s` runs, the oldest word waits as before, or it has landed inside the instruction. -/
theorem Stores.oldest {i : Instr} {s u t : State} (h : Stores i u t) (hq : s.inflight ≠ []) (hturn : turn s = .runs i u)
    (hi : u.inflight = s.inflight) (hb : ∀ d, InBuffer u d → InBuffer s d) :
    (t.landBy = u.landBy ∧ t.inflight.head? = s.inflight.head?) ∨ (t.landBy = none ∧ OldestLeft s t ∧ LandsInside i) := by
  have kept : Undisturbed { u with stale := t.stale } t → t.landBy = u.landBy ∧ t.inflight.head? = s.inflight.head? := fun h => by
    obtain ⟨l, hl⟩ := h.inflight
    exact ⟨h.landBy, by rw [← hl, ← hi, List.head?_append_of_ne_nil _ (by rw [hi]; exact hq)]⟩
  have delivered : ∀ {new : List (Nat × Word)}, Delivered new u t → LandsInside i → (new = [] ∨ i = .acqIter ∨ i = .acqRun) →
      (∀ d ∈ new, InBuffer u d) → (t.landBy = u.landBy ∧ t.inflight.head? = s.inflight.head?)
        ∨ (t.landBy = none ∧ OldestLeft s t ∧ LandsInside i) := fun {new} h hl hn hd => by
    obtain ⟨hnone, hsub⟩ | ⟨hsame, hhead⟩ := h.oldest
    · rw [hi, List.tail_append_of_ne_nil hq] at hsub
      exact .inr ⟨hnone, ⟨new, hsub, hn.imp_right fun k => ⟨i, u, hturn, k⟩, fun d hm => hb d (hd d hm)⟩, hl⟩
    · rw [hi, List.head?_append_of_ne_nil _ hq] at hhead
      exact .inl ⟨hsame, hhead⟩
  cases h with
  | nothing h => exact .inl (kept { h with stale := rfl })
  | invalidates _ h => exact .inl (kept h)
  | settles hset h => exact delivered h (.inl ⟨_, hset⟩) (.inl rfl) nofun
  | iterates hacq h hin => exact delivered h (.inr hacq) (.inr hacq) hin

theorem land_landBy_of_ne_zero {i : Nat} (h : i ≠ 0) (s : State) : (land i s).landBy = s.landBy := by
  unfold land
  split
  · rfl
  · exact if_neg h

/-- A landing takes another word, and the oldest waits as before, or it takes the oldest. -/
theorem oldest_of_land {s t : State} {k : Nat} (i : Nat) (hi : t.inflight = s.inflight) (hb : t.landBy = some k) :
    ((land i t).landBy = some k ∧ (land i t).inflight.head? = s.inflight.head?)
      ∨ ((land i t).landBy = none ∧ OldestLeft s (land i t) ∧ i = 0) := by
  obtain ⟨hnone, hsub⟩ | ⟨hsame, hhead⟩ := (landed_land i t).oldest
  · refine .inr ⟨hnone, ⟨[], by rwa [List.append_nil, ← hi], .inl rfl, nofun⟩, by_contra fun h0 => ?_⟩
    rw [land_landBy_of_ne_zero h0, hb] at hnone
    cases hnone
  · exact .inl ⟨hsame.trans hb, hi ▸ hhead⟩

/-- A step with words in flight counts the turns of the oldest one down, or the oldest word lands in it. -/
theorem step_oldest {s t : State} {k : Nat} (hc : s.ctl ≠ .stuck) (hq : s.inflight ≠ []) (hb : s.landBy = some (k + 1))
    (h : step s = .next t) : (t.landBy = some k ∧ t.inflight.head? = s.inflight.head?)
      ∨ (t.landBy = none ∧ OldestLeft s t ∧ (t = land 0 { s with landBy := some k, env := s.env.advance }
        ∨ ∃ (i : Instr) (u : State), turn s = .runs i u ∧ LandsInside i)) := by
  obtain ⟨hf, hr⟩ := unmarked_of_step h
  have hturn := turn_of_unmarked hf hr
  rw [agentTurn_free hq hc hb] at hturn
  rw [step_eq hf hr, agentTurn_free hq hc hb] at h
  dsimp only at h hturn
  split at h
  · next hd =>
    rw [if_pos hd] at hturn
    have hx := ctlTurn_frame { s with landBy := some k, env := s.env.advance }
    cases hw : ctlTurn { s with landBy := some k, env := s.env.advance } with
    | moves u =>
      rw [hw] at h hx
      cases h
      exact .inl ⟨congrArg State.landBy hx, congrArg (fun u => u.inflight.head?) hx⟩
    | runs i u =>
      rw [hw] at h hx hturn
      have hu : u = { s with
        landBy := some k, refused := u.refused, result := u.result, pending := u.pending, env := u.env } := hx
      have hstores := (exec_stores h).oldest hq hturn (by rw [hu]) fun d hd => by rw [hu] at hd; exact hd
      rw [show u.landBy = some k by rw [hu]] at hstores
      exact hstores.imp_right fun ⟨hn, ho, hl⟩ => ⟨hn, ho, .inr ⟨i, u, hturn, hl⟩⟩
    | faulted r => rw [hw] at h; cases h
    | refused r => rw [hw] at h; cases h
  · cases h
    obtain hkept | ⟨hn, ho, h0⟩ := oldest_of_land (s := s) (t := { s with landBy := some k, env := s.env.advance })
      (s.env.head % (s.inflight.length + 1) - 1) rfl rfl
    · exact .inl hkept
    · exact .inr ⟨hn, ho, .inl (by rw [h0])⟩

/-- When no turn is left, the oldest word has landed. -/
theorem step_due {s t : State} (hc : s.ctl ≠ .stuck) (hq : s.inflight ≠ []) (hb : s.landBy = some 0)
    (h : step s = .next t) : t = land 0 s := by
  obtain ⟨hf, hr⟩ := unmarked_of_step h
  rw [step_eq hf hr, agentTurn_due hq hc hb] at h
  exact (Host.Outcome.next.inj h).symm

theorem oldestLeft_land {s : State} (hq : s.inflight ≠ []) : (land 0 s).landBy = none ∧ OldestLeft s (land 0 s) := by
  have hl := land_of_getElem (List.getElem?_eq_getElem (List.length_pos_iff.2 hq))
  rw [hl]
  exact ⟨rfl, [], by rw [List.append_nil, List.eraseIdx_zero], .inl rfl, nofun⟩

theorem ne_nil_of_oldest {s : State} {c : Nat × Word} (h : s.inflight.head? = some c) : s.inflight ≠ [] := fun k => by
  rw [k] at h
  cases h

/-- In a run in which CTL is not stuck the oldest word leaves within the turns drawn for it and one more. -/
theorem oldest_leaves {d : Nat} {r : Nat → State} {c : Nat × Word}
    (hrun : ∀ j : Nat, j ≤ d → (r j).ctl ≠ .stuck ∧ step (r j) = .next (r (j + 1)))
    (hc : (r 0).inflight.head? = some c) (hb : (r 0).landBy = some d) :
    ∃ n : Nat, n ≤ d ∧ (∀ j : Nat, j ≤ n → (r j).inflight.head? = some c ∧ (r j).landBy = some (d - j))
      ∧ (r (n + 1)).landBy = none ∧ OldestLeft (r n) (r (n + 1)) := by
  induction d generalizing r with
  | zero =>
    obtain ⟨hctl, hstep⟩ := hrun 0 (Nat.le_refl 0)
    have hq := ne_nil_of_oldest hc
    refine ⟨0, Nat.le_refl 0, fun j hj => (Nat.le_zero.1 hj).symm ▸ ⟨hc, hb⟩, ?_⟩
    rw [step_due hctl hq hb hstep]
    exact oldestLeft_land hq
  | succ d ih =>
    obtain ⟨hctl, hstep⟩ := hrun 0 (Nat.zero_le _)
    obtain ⟨hk, hh⟩ | ⟨hn, ho, -⟩ := step_oldest hctl (ne_nil_of_oldest hc) hb hstep
    · obtain ⟨n, hn, hwait, hleft⟩ := ih (r := fun j => r (j + 1)) (fun j hj => hrun (j + 1) (by omega)) (hh.trans hc) hk
      refine ⟨n + 1, by omega, fun j hj => ?_, hleft⟩
      cases j with
      | zero => exact ⟨hc, hb⟩
      | succ j =>
        rw [Nat.add_sub_add_right]
        exact hwait j (by omega)
    · exact ⟨0, Nat.zero_le _, fun j hj => (Nat.le_zero.1 hj).symm ▸ ⟨hc, hb⟩, hn, ho⟩

/-- Settles O49: SETTLE's body is the wait or the drain; a step counts the turns of the oldest word down or lands it; a run repeats
that. -/
theorem settleDrainsWhenAssumed : Obligations.SettleDrainsWhenAssumed := by
  refine ⟨fun s ms => ⟨fun h => ?_, fun h => ?_⟩, fun s t c hc hh h => ?_, fun r d c hrun hc hb => oldest_leaves hrun hc hb⟩
  · rw [exec_settle, settle_conservative h]
    rfl
  · have hl := landed_settle ms.toNat s
    have gone : ∀ c, c ∉ (settle ms.toNat s).inflight := fun c => by rw [settle_inflight h]; exact List.not_mem_nil
    refine ⟨_, exec_settle ms s, congrArg (giveResult (okResult 0#64)) (settle_drains h ms.toNat), fun c hc k hk => ?_, hl.outside⟩
    exact ⟨(hl.landed c hc).resolve_left (gone c) k hk, (hl.held c hc).resolve_left (gone c) k hk⟩
  · have hq := ne_nil_of_oldest hh
    refine ⟨fun hb => ?_, fun hb => step_due hc hq hb h, fun k hb => ?_⟩
    · obtain ⟨hf, hr⟩ := unmarked_of_step h
      rw [step_eq hf hr, agentTurn_undrawn hq hc hb] at h
      exact (Host.Outcome.next.inj h).symm
    · rw [← hh]
      exact step_oldest hc hq hb h

end Sys2Proof.Machine
end

section
/-! SUPPORT. A whole iteration when every collaborator answers (spec/43_offload.md R184 to R188, R194,
spec/44_acquisition.md R210, R212, R215). -/

namespace Sys2Proof.Machine

/-- Under TransportFaultFree a transfer that passes every check issues all of its exchanges (R184, R185). -/
theorem oflXfer_of_faultFree {s : State} {reps : Nat} (h : XferOpen reps s) (hf : s.env.faultFree = true) :
    ∃ t, oflXfer reps s = (.ok (), t) ∧ Issued 0 (reps * resultWords s.msg.template)
        (transferStart reps s (perform (.offloadTrigger s.msg.template reps) s)) t
      ∧ (reps ≠ 0 → t.cs = false) ∧ t.engine = { busy := false, tpc := 0, rep := reps, param := s.msg.param, reps := reps } := by
  have hx := oflXfer_ends h
  generalize oflXfer reps s = x at hx ⊢
  cases hx with
  | ok hu hi hc he =>
    obtain ⟨-, rfl⟩ | ⟨hn, -⟩ := hu
    · exact ⟨_, rfl, hi, hc, he⟩
    · rw [hf] at hn
      cases hn
  | failed hn => rw [hf] at hn; cases hn
  | stuck hn => rw [hf] at hn; cases hn

/-- The words of one capture share no byte. -/
theorem apart_landings (base first : Nat) (ws : List Word) : (landings base first ws).Pairwise Apart := by
  rw [List.pairwise_iff_getElem]
  intro i j hi hj hij
  simp only [landings, List.getElem_map, List.getElem_zipIdx, Config.wordSize, Apart]
  omega

theorem one_le_resultWords {t : List Half} (h : templateWf t = true) : 1 ≤ resultWords t := by
  simp only [templateWf, Bool.and_eq_true, decide_eq_true_eq] at h
  exact h.2

/-- The state after the transfer of an iteration whose collaborators answer: the channel's word has been sent for every word of
the buffer. -/
theorem iteration_transfer {s : State} (hv : s.launch.params.Valid = true) (hf : s.env.faultFree = true)
    (ho : XferOpen s.launch.params.sampleCount (selectChannel s.acq.channel.val s)) :
    ∃ t, oflXfer s.launch.params.sampleCount (selectChannel s.acq.channel.val s) = (.ok (), t)
      ∧ Issued 0 (iterationWords s) (transferStart s.launch.params.sampleCount (selectChannel s.acq.channel.val s)
        (perform (.offloadTrigger s.msg.template s.launch.params.sampleCount) (selectChannel s.acq.channel.val s))) t
      ∧ t.inflight = s.inflight ++ landings s.ofl.rxAddr 0
        ((List.range (iterationWords s)).map fun j => responseWord s.launch.params (Env.advance^[j] s.env))
      ∧ t = { s with
        msg := { s.msg with
          param := s.launch.params.chSelWord s.acq.channel.val, paramValid := true, channelTag := some s.acq.channel.val }
        cs := false
        engine := {
          busy := false, tpc := 0, rep := s.launch.params.sampleCount, param := s.launch.params.chSelWord s.acq.channel.val
          reps := s.launch.params.sampleCount }
        inflight := t.inflight
        dev := { s.dev with sel := some (s.launch.params.chSelWord s.acq.channel.val) }
        calls := s.calls ++ [.offloadTrigger s.msg.template s.launch.params.sampleCount]
          ++ List.replicate (iterationWords s) (.convExchange (s.launch.params.chSelWord s.acq.channel.val))
        env := t.env } := by
  have hcount : 0 < s.launch.params.sampleCount := (Params.valid_sampleCount hv).1
  have hpos : iterationWords s ≠ 0 := (Nat.mul_pos hcount (one_le_resultWords ho.template)).ne'
  obtain ⟨t, hx, hi, hc, he⟩ := oflXfer_of_faultFree ho hf
  have hi : Issued 0 (iterationWords s) _ t := hi
  have hframe := hi.frame
  rw [hc hcount.ne', he, hi.sel, if_neg hpos, hi.calls] at hframe
  exact ⟨t, hx, hi, (hi.exact hf).2, hframe⟩

/-- Settles O53: the transfer leaves the captured words in flight, and what consumes them is `Consumed`. -/
theorem iterationCompletes : Obligations.IterationCompletes := by
  intro s hv hf ha ho p n word
  obtain ⟨t, hx, hi, hin, hframe⟩ := iteration_transfer hv hf ho
  obtain ⟨v, l, hiter, hc⟩ := acqIter_of_transfer ha ho hx hi
  have hlaunch : t.launch = s.launch := by rw [hframe]
  have hofl : t.ofl = s.ofl := by rw [hframe]
  have hmem : t.mem = s.mem := by rw [hframe]
  have hstale : t.stale = s.stale := by rw [hframe]
  have hwords : iterationWords t = n := by rw [hframe]; rfl
  have hacq : Acq.mk (if s.acq.channel = 0 then 1 else 0) (s.acq.iter + 1) false
      = { s.acq with channel := otherChannel s.acq.channel, iter := s.acq.iter + 1 } := by
    rw [← ha]
    rfl
  have hend := hc.frame
  rw [hframe] at hend
  refine ⟨giveResult (okResult 0#64) v, l, ?_, ?_, ?_, hc.length.trans hwords, fun hs x hm => ?_, fun x hx hb => ?_, fun hs => ?_⟩
  · show finish (andThen (acqIter s) fun _ u => (.ok 0#64, u)) = _
    rw [hiter]
    rfl
  · show Host.Outcome.next (endedRun (acqIter s)) = _
    rw [hiter]
    rfl
  · rw [hacq]
    exact congrArg (giveResult (okResult 0#64)) hend
  · obtain ⟨w, rfl⟩ := hc.samples x hm
    rw [hlaunch]
    exact decodeSample_le hv hs w
  · have apart : ∀ c ∈ t.inflight, x < c.1 ∨ c.1 + 4 ≤ x := fun c hm => by
      rw [hin] at hm
      rcases List.mem_append.1 hm with hm | hm
      · exact hx c hm
      · obtain ⟨h1, h2⟩ := inBuffer_of_mem_landings (by rw [List.length_map, List.length_range]) hm
        have hn : iterationWords s = n := rfl
        omega
    obtain ⟨hread, hmark⟩ := hc.outside x apart
    exact ⟨hread.trans (by rw [hmem]), (hmark (by rw [hofl, hwords]; exact hb)).trans (by rw [isStale, isStale, hstale])⟩
  · have hs : t.launch.params.settleMode = .assumed := by rw [hlaunch]; exact hs
    refine ⟨hc.drained hs, fun hq j hj => ?_⟩
    have hq : s.inflight = [] := hq
    rw [hq, List.nil_append] at hin
    rw [hc.exact hs (by rw [hin]; exact apart_landings _ _ _) j (by rw [hwords]; exact hj) (word j) ?_, hlaunch, decodeSample_eq hv]
    rw [hin, landings_map, List.mem_map, hofl]
    exact ⟨j, List.mem_range.2 hj, by rw [Nat.zero_add, Nat.mul_comm]; rfl⟩

end Sys2Proof.Machine
end

section
/-! SUPPORT. Decoding and encoding are inverse (spec/30_encoding.md R82 to R88, R96): what a header, a request and a
micro-operation decode to, and which words encode what was decoded. -/

namespace Sys2Proof

/-! ### Headers (R83, R85) -/

/-- The fields that the format of an operation does not use are 0. -/
structure Op.UnusedZero (o : Op) (a : Half) (m v : Byte) : Prop where
  addr : o ∉ [.regRd, .regWr, .regRdm, .regWrm] → a = 0#16 := by simp
  mask : o ∉ [.regRdm, .regWrm] → m = 0#8 := by simp
  value : o ∉ [.regWr, .regWrm] → v = 0#8 := by simp

/-- What decodes to an operation is its header, with the unused fields 0. -/
theorem header_of_decodeHeader {h : DWord} {o : Op} (hd : decodeHeader h = .ok o) :
    h = raHeader o.code (headerA h) (headerM h) (headerV h) ∧ o.UnusedZero (headerA h) (headerM h) (headerV h) := by
  obtain ⟨hop, hmask⟩ := decodeHeader_eq_ok hd
  obtain ⟨h8, h48, hA, hM, hV⟩ := reserved_of_accepted hmask
  exact ⟨hop ▸ header_of_reserved h8 h48, hA, hM, hV⟩

theorem build_regRd (c : Byte) (a : Half) (m v : Byte) (w1 w2 w3 : DWord) :
    Op.regRd.build (raHeader c a m v) w1 w2 w3 = .regRd a := by
  rw [Op.build, headerA_raHeader]

theorem build_regWr (c : Byte) (a : Half) (m v : Byte) (w1 w2 w3 : DWord) :
    Op.regWr.build (raHeader c a m v) w1 w2 w3 = .regWr a v := by
  rw [Op.build, headerA_raHeader, headerV_raHeader]

theorem build_regRdm (c : Byte) (a : Half) (m v : Byte) (w1 w2 w3 : DWord) :
    Op.regRdm.build (raHeader c a m v) w1 w2 w3 = .regRdm a m := by
  rw [Op.build, headerA_raHeader, headerM_raHeader]

theorem build_regWrm (c : Byte) (a : Half) (m v : Byte) (w1 w2 w3 : DWord) :
    Op.regWrm.build (raHeader c a m v) w1 w2 w3 = .regWrm a m v := by
  rw [Op.build, headerA_raHeader, headerM_raHeader, headerV_raHeader]

/-- The instruction's words are the header it was built from and the operand words that the operation takes. -/
theorem encodeRequest_build {o : Op} {a : Half} {m v : Byte} (hu : o.UnusedZero a m v) (w1 w2 w3 : DWord) :
    encodeRequest (o.build (raHeader o.code a m v) w1 w2 w3) = raHeader o.code a m v :: [w1, w2, w3].take o.operands := by
  obtain ⟨hA, hM, hV⟩ := hu
  cases o with
  | regRd =>
    rw [hM (by decide), hV (by decide), build_regRd, encodeRequest, encode_regRd]
    rfl
  | regWr =>
    rw [hM (by decide), build_regWr, encodeRequest, encode_regWr]
    rfl
  | regRdm =>
    rw [hV (by decide), build_regRdm, encodeRequest, encode_regRdm]
    rfl
  | regWrm =>
    rw [build_regWrm, encodeRequest, encode_regWrm]
    rfl
  | _ =>
    rw [hA (by decide), hM (by decide), hV (by decide)]
    rfl

/-! ### Requests (R82, R84, R88) -/

theorem decodeRequest_of_ok {h : DWord} {o : Op} {ws : List DWord} (hd : decodeHeader h = .ok o)
    (hl : o.operands ≤ ws.length) : decodeRequest (h :: ws)
      = .instr (o.build h (ws.getD 0 0#64) (ws.getD 1 0#64) (ws.getD 2 0#64)) (ws.drop o.operands) := by
  simp only [decodeRequest, hd, if_neg (Nat.not_lt.2 hl)]

/-- An instruction is decoded from a header and the operand words that it opens, and from nothing else. -/
theorem decodeRequest_eq_instr {ws rest : List DWord} {i : Instr} (hi : decodeRequest ws = .instr i rest) :
    ∃ h vs o, ws = h :: vs ∧ decodeHeader h = .ok o ∧ o.operands ≤ vs.length
      ∧ i = o.build h (vs.getD 0 0#64) (vs.getD 1 0#64) (vs.getD 2 0#64) ∧ rest = vs.drop o.operands := by
  cases ws with
  | nil => cases hi
  | cons h vs =>
    cases hd : decodeHeader h with
    | error e => simp [decodeRequest, hd] at hi
    | ok o =>
      by_cases hl : vs.length < o.operands
      · simp [decodeRequest, hd, hl] at hi
      · rw [decodeRequest_of_ok hd (Nat.not_lt.1 hl)] at hi
        cases hi
        exact ⟨h, vs, o, rfl, hd, Nat.not_lt.1 hl, rfl, rfl⟩

/-- The operand words that are read are the first of the words that follow. -/
theorem take_operands (o : Op) {ws : List DWord} (hl : o.operands ≤ ws.length) :
    [ws.getD 0 0#64, ws.getD 1 0#64, ws.getD 2 0#64].take o.operands = ws.take o.operands := by
  have ho : o.operands ≤ 3 := by cases o <;> decide
  refine List.ext_getElem (by simp; omega) fun j hj hj' => ?_
  obtain ⟨hjo, hjw⟩ : j < o.operands ∧ j < ws.length := by simpa using hj'
  have hj3 : j < 3 := hjo.trans_le ho
  rw [List.getElem_take, List.getElem_take, ← List.getD_eq_getElem _ 0#64 hjw]
  interval_cases j <;> rfl

/-- The words of an instruction built from a header with its unused fields 0 decode to it. -/
theorem decodeRequest_build {o : Op} {a : Half} {m v : Byte} (hu : o.UnusedZero a m v) (w1 w2 w3 : DWord) (rest : List DWord) :
    decodeRequest (encodeRequest (o.build (raHeader o.code a m v) w1 w2 w3) ++ rest)
      = .instr (o.build (raHeader o.code a m v) w1 w2 w3) rest := by
  have hl : o.operands ≤ ([w1, w2, w3].take o.operands ++ rest).length := by cases o <;> simp [Op.operands]
  rw [encodeRequest_build hu, List.cons_append, decodeRequest_of_ok (decodeHeader_raHeader hu.addr hu.mask hu.value) hl]
  cases o <;> rfl

/-- THE DECODER AND THE ENCODER ARE INVERSE ON REQUESTS. The register accesses are built from a header with fields; the header of
every other operation is one closed word, on which the decoder computes. -/
theorem decodeRequest_iff {ws rest : List DWord} {i : Instr} :
    decodeRequest ws = .instr i rest ↔ i.isMicro = false ∧ ws = encodeRequest i ++ rest := by
  constructor
  · intro hi
    refine ⟨Machine.isMicro_of_decodeRequest hi, ?_⟩
    obtain ⟨h, vs, o, rfl, hd, hl, rfl, rfl⟩ := decodeRequest_eq_instr hi
    obtain ⟨hh, hu⟩ := header_of_decodeHeader hd
    rw [hh, encodeRequest_build hu, take_operands o hl, List.cons_append, List.take_append_drop]
  · rintro ⟨hi, rfl⟩
    cases i with
    | csAssert | xfer | csDeassert => cases hi
    | regRd a =>
      rw [← build_regRd Op.regRd.code a 0#8 0#8 0#64 0#64 0#64]
      exact decodeRequest_build {} _ _ _ rest
    | regWr a v =>
      rw [← build_regWr Op.regWr.code a 0#8 v 0#64 0#64 0#64]
      exact decodeRequest_build {} _ _ _ rest
    | regRdm a m =>
      rw [← build_regRdm Op.regRdm.code a m 0#8 0#64 0#64 0#64]
      exact decodeRequest_build {} _ _ _ rest
    | regWrm a m v =>
      rw [← build_regWrm Op.regWrm.code a m v 0#64 0#64 0#64]
      exact decodeRequest_build {} _ _ _ rest
    | _ => rfl

/-! ### Micro-operations (R96) -/

/-- The word of an XFER is `KIND` 2 before `N`. -/
theorem xferWord_eq (n : BitVec 12) : 0x2000#16 ||| n.setWidth 16 = 0x2#4 ++ n := by
  rw [BitVec.append_def]
  rfl

/-- `KIND` and `N` are all of a micro-operation's word. -/
theorem micro_eq (u : Half) : u.extractLsb' 12 4 ++ u.extractLsb' 0 12 = u :=
  (BitVec.extractLsb'_append_extractLsb'_eq_extractLsb' rfl).trans BitVec.extractLsb'_eq_self

theorem isSome_encodeMicro (i : Instr) : (encodeMicro i).isSome = i.isMicro := by cases i <;> rfl

/-- THE DECODER AND THE ENCODER ARE INVERSE ON MICRO-OPERATIONS. -/
theorem decodeMicro_iff {u : Half} {i : Instr} : decodeMicro u = some i ↔ encodeMicro i = some u := by
  constructor
  · intro h
    unfold decodeMicro at h
    split at h
    · next hu =>
      cases h
      exact congrArg some hu.symm
    split at h
    · next hk =>
      cases h
      rw [encodeMicro, xferWord_eq, ← hk, micro_eq]
    split at h
    · next hu =>
      cases h
      exact congrArg some hu.symm
    · cases h
  · intro h
    cases i with
    | csAssert | csDeassert =>
      cases h
      decide
    | xfer n =>
      cases h
      rw [xferWord_eq]
      have hkind : (0x2#4 ++ n).extractLsb' 12 4 = 0x2#4 := BitVec.extractLsb'_append_eq_left
      have hassert : 0x2#4 ++ n ≠ 0x1000#16 := fun h => by
        rw [h] at hkind
        exact absurd hkind (by decide)
      rw [decodeMicro, if_neg hassert, if_pos hkind, BitVec.extractLsb'_append_eq_right]
    | _ => cases h

/-! ### The obligations -/

/-- Settles O1: every instruction has words, and the equivalences read from right to left. -/
theorem decodeInvertsEncode : Obligations.DecodeInvertsEncode := by
  refine ⟨fun i rest hi => decodeRequest_iff.2 ⟨hi, rfl⟩, fun i hi => ?_⟩
  obtain ⟨u, hu⟩ := Option.isSome_iff_exists.1 ((isSome_encodeMicro i).trans hi)
  exact ⟨u, hu, decodeMicro_iff.2 hu⟩

/-- Settles O2: the equivalences read from left to right. -/
theorem decodedWordsAreTheEncoding : Obligations.DecodedWordsAreTheEncoding :=
  ⟨fun _ _ _ => decodeRequest_iff.1, fun _ _ => decodeMicro_iff.1⟩

/-- Settles O5: the words are closed. -/
theorem sampleWordsDecode : Obligations.SampleWordsDecode := by
  unfold Obligations.SampleWordsDecode
  decide

end Sys2Proof
end

section
/-! SUPPORT. Requests that are refused: at decode (spec/30_encoding.md R85, R87, R236), and for an operand out of its range
(R88, R97). -/

namespace Sys2Proof

/-! ### Headers (R85, R87) -/

theorem ofCode_eq_none {c : Byte} : Op.ofCode c = none ↔ c ∉ Op.all.map Op.code := by
  simp only [Op.ofCode, List.find?_eq_none, List.mem_map, beq_iff_eq, not_exists, not_and]

theorem decodeHeader_of_reservedOpcode {h : DWord} (hc : headerOp h ∉ Op.all.map Op.code) :
    decodeHeader h = .error .reservedOpcode := by
  simp only [decodeHeader, ofCode_eq_none.2 hc]

/-- The gaps of the opcode map. -/
theorem not_mem_codes_iff (c : Byte) : c ∉ Op.all.map Op.code ↔
    c.toNat = 0x00 ∨ (0x05 ≤ c.toNat ∧ c.toNat ≤ 0x0F) ∨ (0x17 ≤ c.toNat ∧ c.toNat ≤ 0x1F)
      ∨ (0x22 ≤ c.toNat ∧ c.toNat ≤ 0x2F) ∨ (0x37 ≤ c.toNat ∧ c.toNat ≤ 0x3F) ∨ 0x42 ≤ c.toNat := by
  have := c.isLt
  simp only [Op.all, List.map, Op.code, List.mem_cons, List.not_mem_nil, or_false, not_or, ← BitVec.toNat_inj,
    BitVec.toNat_ofNat]
  omega

theorem decodeHeader_eq_reservedBits {h : DWord} {o : Op} (ho : Op.ofCode (headerOp h) = some o) :
    decodeHeader h = .error .reservedBits ↔ ¬ h &&& o.mask = o.code.setWidth 64 := by
  simp only [decodeHeader, ho]
  split <;> simp_all

/-- The mask of an operation accepts the headers with its reserved bits and its unused fields 0. -/
theorem accepted_iff {h : DWord} {o : Op} (ho : headerOp h = o.code) : h &&& o.mask = o.code.setWidth 64 ↔
    h.extractLsb' 8 8 = 0#8 ∧ h.extractLsb' 48 16 = 0#16 ∧ (o ∉ [.regRd, .regWr, .regRdm, .regWrm] → headerA h = 0#16)
      ∧ (o ∉ [.regRdm, .regWrm] → headerM h = 0#8) ∧ (o ∉ [.regWr, .regWrm] → headerV h = 0#8) :=
  ⟨reserved_of_accepted, fun ⟨h8, h48, hA, hM, hV⟩ => accepted_of_reserved ho h8 h48 hA hM hV⟩

end Sys2Proof

namespace Sys2Proof.Machine

theorem hostTurn_refused {s : State} {e : DecodeError} (h : decodeRequest s.pending = .refused e) :
    hostTurn s = .moves (recordRefusal (decodeRefusal e) { s with pending := s.pending.tail }) := by
  simp only [hostTurn, h]

/-- The step that takes a request refused at decode records the refusal and takes the header, nothing else (R82, R234, R236). -/
theorem step_of_refusedHeader {s : State} {h : DWord} {rest : List DWord} {e : DecodeError} (hw : Waiting s)
    (hp : s.pending = h :: rest) (he : decodeHeader h = .error e) :
    step s = .next { s with refused := some (decodeRefusal e), result := none, pending := rest } := by
  have hd : decodeRequest s.pending = .refused e := by simp only [hp, decodeRequest, he]
  rw [step_eq hw.fault hw.refused, agentTurn_quiet hw.quiet, ctlTurn_host hw.ctl hw.engine, hostTurn_refused hd, hp]
  rfl

/-- Settles O3: such a header decodes to no operation, and the opcodes of the map leave exactly these gaps. -/
theorem reservedOpcodesRefused : Obligations.ReservedOpcodesRefused :=
  ⟨fun _ _ _ hw hp hc => step_of_refusedHeader hw hp (decodeHeader_of_reservedOpcode hc), not_mem_codes_iff⟩

/-- Settles O4: the mask of an operation covers its reserved bits and its unused fields. -/
theorem reservedBitsRefused : Obligations.ReservedBitsRefused := by
  intro h o ho reserved
  have hiff : decodeHeader h = .error .reservedBits ↔ reserved := by
    rw [decodeHeader_eq_reservedBits ho, accepted_iff (code_of_ofCode ho).symm]
    tauto
  exact ⟨hiff, fun hr s rest hw hp => step_of_refusedHeader hw hp (hiff.2 hr)⟩

/-! ### Operands out of range (R88, R97) -/

/-- An operation whose operand is out of range is refused before its body runs (R236). -/
theorem finish_operandGuard_of_false {inRange : Bool} {s : State} (h : inRange = false) (f : State → Res DWord × State) :
    finish (operandGuard inRange s f) = .next { s with refused := some .operandRange, result := none } := by
  rw [h]
  rfl

theorem execXfer_zero (s : State) :
    execXfer 0#12 s = .next { s with refused := some .templateNotAdmitted, result := none } := rfl

/-- Settles O6: five host operations and XFER have an operand range, and each checks it first. -/
theorem illFormedOperandsRefused : Obligations.IllFormedOperandsRefused := by
  intro i s hi
  cases i with
  | msgSetp | msgSetch | oflXfer | cinv | decodeBuf => exact finish_operandGuard_of_false hi _
  | xfer n =>
    obtain rfl : n = 0#12 := by simpa [Instr.WellFormed, ← BitVec.toNat_inj] using hi
    exact execXfer_zero s
  | _ => cases hi

end Sys2Proof.Machine
end

section
/-! SUPPORT. REG.RD, REG.RDM and REG.WR when every collaborator answers (spec/40_register_access.md R117 to R123). -/

namespace Sys2Proof.Machine

/-- Settles O9: the body reads the known byte with one frame. -/
theorem registerReadReturnsContent : Obligations.RegisterReadReturnsContent := by
  intro s a b m hv hf ho hc hb frame
  have hread := regRead_of_known hv hf ho hc hb
  constructor
  · show execRegRd a s = _
    rw [execRegRd, hread]
    rfl
  · show execRegRdm a m s = _
    rw [execRegRdm, regReadMasked, hread]
    rfl

/-- REG.WR when every collaborator answers (R119): the device takes the write, and the operation is `Ok`. -/
theorem execRegWr_of_faultFree {s : State} {a : Half} (v : Byte) (hv : s.launch.params.Valid = true)
    (hf : s.env.faultFree = true) (ho : RegOpen a s) : execRegWr a v s = .next (giveResult (okResult 0#64)
      (deviceWrite a v (perform (.busExchange (writeFrame s.launch.params a v)) s))) := by
  rw [execRegWr, regWrite_of_faultFree v hv hf ho]
  rfl

/-- A write that the device takes touches the device and, for the setup register, the draws. -/
theorem deviceWrite_frame (a : Half) (v : Byte) (s : State) :
    deviceWrite a v s = { s with dev := (deviceWrite a v s).dev, env := (deviceWrite a v s).env } := by
  have h := (deviceOnly_deviceWrite a v s).frame
  rwa [deviceWrite_calls] at h

/-- Settles O11: after its frame REG.WR changes what the device's write changes. -/
theorem registerWriteTakesEffect : Obligations.RegisterWriteTakesEffect := by
  intro s a v hv hf ho p frame switches
  let sent := perform (.busExchange frame) s
  have hframing : FramingAfterWrite p a v s.env (deviceWrite a v sent) :=
    framingAfterWrite_deviceWrite (s := sent) hv a v ho.framing
  exact ⟨_, execRegWr_of_faultFree v hv hf ho, congrArg (giveResult (okResult 0#64)) (deviceWrite_frame a v sent),
    devReg_deviceWrite_same a v sent, fun _ hx => devReg_deviceWrite_other v sent hx,
    (deviceOnly_deviceWrite a v sent).sel, hframing⟩

end Sys2Proof.Machine
end

section
/-! SUPPORT. What every register access checks first and what it leaves unchanged (spec/40_register_access.md R115, R116, R127), and a
DEV.INIT that the guard stops (spec/42_device_config.md R153, R164). -/

namespace Sys2Proof.Machine

/-! ### The guard (R115, R116) -/

section
variable {α β : Type} {a : Half} {s : State}

/-- What follows a guarded access is guarded with it. -/
theorem andThen_regGuard (f : State → Res α × State) (g : α → State → Res β × State) :
    andThen (regGuard a s f) g = regGuard a s fun s => andThen (f s) g := by
  unfold regGuard
  split_ifs <;> rfl

theorem regGuard_addressNotEncodable (f : State → Res α × State) (ha : addrHigh a &&& ~~~s.launch.params.addrHiMask ≠ 0#8) :
    regGuard a s f = (.refuse .addressNotEncodable, s) := if_pos (by simpa [addrEncodable] using ha)

theorem regGuard_noTransport (f : State → Res α × State) (ha : addrEncodable s.launch.params a = true)
    (hi : s.xport.initialized = false) : regGuard a s f = (.fault .noTransport, s) := by
  simp [regGuard, ha, hi]

theorem regGuard_framingHazard (f : State → Res α × State) (ha : addrEncodable s.launch.params a = true)
    (hi : s.xport.initialized = true) (hw : s.xport.wordWidth ≠ 8 ∨ s.dev.framing ≠ .register) :
    regGuard a s f = (.fault .framingHazard, s) := by
  unfold regGuard
  rw [ha, hi]
  exact if_pos hw

end

section
variable {s : State} {a : Half} {m v : Byte} {i : Instr} (hi : i ∈ [.regRd a, .regWr a v, .regRdm a m, .regWrm a m v])
include hi

/-- Every register access is the guard and then something. -/
theorem exec_eq_regGuard (s : State) : ∃ f : State → Res DWord × State, exec i s = finish (regGuard a s f) := by
  simp only [List.mem_cons, List.not_mem_nil, or_false] at hi
  obtain rfl | rfl | rfl | rfl := hi
  · exact ⟨_, congrArg finish (andThen_regGuard _ _)⟩
  · exact ⟨_, congrArg finish (andThen_regGuard _ _)⟩
  · exact ⟨_, congrArg finish ((congrArg (andThen · _) (andThen_regGuard _ _)).trans (andThen_regGuard _ _))⟩
  · exact ⟨_, congrArg finish (andThen_regGuard _ _)⟩

/-- Everything the body of a register access can do: it touches the device, the trace and the draws. -/
theorem exec_eq_deviceOnly (s : State) : ∃ x : Res DWord × State, exec i s = finish x ∧ DeviceOnly s x.2 := by
  have answered : ∀ {α : Type} {x : Res α × State} (f : α → DWord), DeviceOnly s x.2 →
      DeviceOnly s (andThen x fun b t => (.ok (f b), t)).2 := fun _ hx => andThen_keeps hx fun _ _ ht => ht
  simp only [List.mem_cons, List.not_mem_nil, or_false] at hi
  obtain rfl | rfl | rfl | rfl := hi
  · exact ⟨_, rfl, answered _ (deviceOnly_regRead a s)⟩
  · exact ⟨_, rfl, answered _ (deviceOnly_regWrite a v s)⟩
  · exact ⟨_, rfl, answered _ (deviceOnly_regReadMasked a m s)⟩
  · exact ⟨_, rfl, answered _ (deviceOnly_regWriteMasked a m v s)⟩

end

/-- Settles O15: each register access begins with the guard, and what the guard stops is recorded. -/
theorem registerAccessGuard : Obligations.RegisterAccessGuard := by
  intro s a m v i hi
  obtain ⟨f, hx⟩ := exec_eq_regGuard hi s
  rw [hx]
  have encodable : addrHigh a &&& ~~~s.launch.params.addrHiMask = 0#8 → addrEncodable s.launch.params a = true :=
    fun h => by simpa [addrEncodable] using h
  refine ⟨fun ha => ?_, fun ha ht => ?_, fun ha ht hw => ?_⟩
  · rw [regGuard_addressNotEncodable f ha]
    rfl
  · rw [regGuard_noTransport f (encodable ha) ht]
    rfl
  · rw [regGuard_framingHazard f (encodable ha) ht hw]
    rfl

/-- Settles O16: the body touches the device, the trace and the draws, and its answer the marks, the result and CTL's position. -/
theorem registerAccessFrame : Obligations.RegisterAccessFrame := by
  intro s t a m v i hi h
  obtain ⟨x, hx, hd⟩ := exec_eq_deviceOnly hi s
  have ht := finish_frame (hx.symm.trans h)
  have hframe : t = { s with
      dev := t.dev
      fault := t.fault
      refused := t.refused
      result := t.result
      ctl := t.ctl
      calls := t.calls
      env := t.env } := by
    rw [ht, hd.frame]
  refine ⟨hframe, fun x => ?_⟩
  rw [hframe]
  exact ⟨rfl, rfl⟩

/-! ### A DEV.INIT that the guard stops (R151 to R153) -/

theorem step1_of_noResetLine {s : State} (h : s.launch.cfg.resetLinePresent = false) : step1 s = (.ok (), s) :=
  if_pos (by rw [h]; rfl)

/-- The handle is allocated when every collaborator answers (R150). -/
theorem handleOpened_of_faultFree {s : State} (hf : s.env.faultFree = true) : handleOpened s =
    { s with devState := .reset, alloc := { s.alloc with handle := true }, calls := s.calls ++ [.allocHandle] } := by
  rw [handleOpened, attempt_of_faultFree _ hf]
  rfl

/-- Step 2 when every collaborator answers (R152). -/
theorem step2_of_faultFree {s : State} (hf : s.env.faultFree = true) : step2 s = (.ok (), { s with
    alloc := { s.alloc with xport := true }
    xport := { initialized := true, speedHz := s.launch.cfg.regSpeedHz, wordWidth := 8 }
    calls := s.calls ++ [.xportInit s.launch.cfg.regSpeedHz s.launch.cfg.busMode 8] }) := by
  rw [step2, collaborate_of_faultFree _ hf]
  rfl

/-- Step 3 with the device in conversion framing: its first register access is stopped (R164). -/
theorem step3_of_conversion {s : State} (he : addrEncodable s.launch.params s.launch.params.addrScratch = true)
    (hi : s.xport.initialized = true) (hc : s.dev.framing = .conversion) : step3 s = (.fault .framingHazard, s) := by
  rw [step3, regWrite, regGuard_framingHazard _ he hi (.inr (by rw [hc]; decide))]
  rfl

/-- Settles O38: steps 1 and 2 leave the framing, so that the guard stops step 3, and a fault tears nothing down. -/
theorem reinitializationNeedsAReset : Obligations.ReinitializationNeedsAReset := by
  intro s hf hd hl hc he
  show finish (andThen (devInit s) _) = _
  rw [devInit_of_absent hd, attempt_of_faultFree _ hf, if_pos rfl, handleOpened_of_faultFree hf, devSteps_eq,
    runStep, step1_of_noResetLine (by exact hl), andThen_ok, andThen_ok,
    runStep, step2_of_faultFree (by exact hf), andThen_ok, andThen_ok,
    registerSteps, runStep, step3_of_conversion (by exact he) rfl (by exact hc), List.append_assoc]
  rfl

end Sys2Proof.Machine
end

section
/-! SUPPORT. REG.RD, REG.RDM and REG.WRM when every collaborator answers, whatever is known of the register
(spec/40_register_access.md R118, R123 to R125). -/

namespace Sys2Proof.Machine

/-- REG.RD when every collaborator answers (R117, R118): the byte answered, zero-extended. -/
theorem execRegRd_of_faultFree {s : State} {a : Half} (hv : s.launch.params.Valid = true) (hf : s.env.faultFree = true)
    (ho : RegOpen a s) : execRegRd a s = .next (giveResult (okResult ((answeredByte s a s.env).1.setWidth 64)) { s with
      calls := s.calls ++ [.busExchange (readFrame s.launch.params a)], env := (answeredByte s a s.env).2 }) := by
  rw [execRegRd, regRead_answered hv hf ho]
  rfl

/-- REG.RDM when every collaborator answers (R123): the byte answered, masked. -/
theorem execRegRdm_of_faultFree {s : State} {a : Half} (m : Byte) (hv : s.launch.params.Valid = true)
    (hf : s.env.faultFree = true) (ho : RegOpen a s) :
    execRegRdm a m s = .next (giveResult (okResult (((answeredByte s a s.env).1 &&& m).setWidth 64)) { s with
      calls := s.calls ++ [.busExchange (readFrame s.launch.params a)], env := (answeredByte s a s.env).2 }) := by
  rw [execRegRdm, regReadMasked, regRead_answered hv hf ho]
  rfl

/-- A register whose content is unspecified, or that no device has, is answered by a draw (R118). -/
theorem answeredByte_unknown {s : State} {a : Half} (h : s.launch.params.devConnected = false ∨ devReg s a = none) (e : Env) :
    answeredByte s a e = (if s.launch.params.devConnected = true ∧ a = s.launch.params.addrSetup then
      (BitVec.ofNat 8 e.head &&& ~~~s.launch.params.setupIfMask) ||| s.launch.params.ifValReg else BitVec.ofNat 8 e.head,
      e.advance) := by
  have hn : (if s.launch.params.devConnected = true then devReg s a else none) = none := by
    rcases h with h | h <;> simp [h]
  simp only [answeredByte, hn]

theorem answeredByte_known {s : State} {a : Half} {b : Byte} (hc : s.launch.params.devConnected = true)
    (hb : devReg s a = some b) (e : Env) : answeredByte s a e = (b, e) := by
  simp [answeredByte, hc, hb]

/-- Settles O10: both operations return the byte answered, which is a draw. -/
theorem unknownRegisterReadsDraw : Obligations.UnknownRegisterReadsDraw := by
  intro s a m hv hf ho hu d b frame
  have hb : answeredByte s a s.env = (b, s.env.advance) := answeredByte_unknown hu s.env
  have hrd := execRegRd_of_faultFree hv hf ho
  have hrdm := execRegRdm_of_faultFree m hv hf ho
  rw [hb] at hrd hrdm
  exact ⟨hrd, hrdm⟩

/-! ### The masked-write law (R124, R125) -/

/-- Inside the mask a masked write puts the value's bits, whatever the base (R124). -/
theorem maskedValue_and_mask (old m v : Byte) : maskedValue old m v &&& m = v &&& m := by
  apply BitVec.eq_of_getElem_eq
  intro i hi
  simp [maskedValue]
  cases m[i] <;> simp

theorem and_mask_of_inside {m v : Byte} (hv : v &&& ~~~m = 0#8) : v &&& m = v :=
  (maskedValue_and_mask 0#8 m v).symm.trans (maskedValue_inside hv)

/-- REG.WRM when every collaborator answers (R124): the device takes the masked value. -/
theorem execRegWrm_of_faultFree {s : State} {a : Half} (m v : Byte) (hv : s.launch.params.Valid = true)
    (hf : s.env.faultFree = true) (ho : RegOpen a s) :
    execRegWrm a m v s = .next (giveResult (okResult 0#64) (deviceWrite a (maskedValue (answeredByte s a s.env).1 m v)
      { s with
        calls := s.calls ++ [.busExchange (readFrame s.launch.params a),
          .busExchange (writeFrame s.launch.params a (maskedValue (answeredByte s a s.env).1 m v))]
        env := (answeredByte s a s.env).2 })) := by
  rw [execRegWrm, regWriteMasked_answered m v hv hf ho]
  rfl

/-- A known register that can be accessed reads as its content. -/
theorem exec_regRd_result {s : State} {a : Half} {b : Byte} (hv : s.launch.params.Valid = true) (hf : s.env.faultFree = true)
    (ho : RegOpen a s) (hc : s.launch.params.devConnected = true) (hb : devReg s a = some b) :
    ∃ u, exec (.regRd a) s = .next u ∧ u.result = some (okResult (b.setWidth 64)) := by
  have h := execRegRd_of_faultFree hv hf ho
  rw [answeredByte_known hc hb] at h
  exact ⟨_, h, rfl⟩

/-- An access stays open while the parameters and the transport are as before and the device is in register framing. -/
theorem RegOpen.congr {s t : State} {a : Half} (ho : RegOpen a s) (hl : t.launch = s.launch) (hx : t.xport = s.xport)
    (hr : t.dev.framing = .register) : RegOpen a t :=
  ⟨hl ▸ ho.encodable, hx ▸ ho.initialized, hx ▸ ho.width, hr⟩

/-- Settles O12: the device takes `maskedValue` of the byte answered, and what is known is read back. -/
theorem maskedWriteLaw : Obligations.MaskedWriteLaw := by
  intro s a m v hv hf ho p read new byte0
  let sent : State := { s with
    calls := s.calls ++ [.busExchange (readFrame p a), .busExchange (writeFrame p a new)], env := read.2 }
  let t : State := giveResult (okResult 0#64) (deviceWrite a new sent)
  have hframe := deviceWrite_frame a new sent
  have honly := deviceOnly_deviceWrite a new sent
  have hsame : devReg t a = if p.devConnected = true then some new else none := devReg_deviceWrite_same a new sent
  refine ⟨t, execRegWrm_of_faultFree m v hv hf ho, congrArg (giveResult (okResult 0#64)) hframe, hsame,
    fun _ hx => devReg_deviceWrite_other new sent hx, honly.sel,
    framingAfterWrite_deviceWrite (s := sent) hv a new ho.framing, fun old hc hold => ?_⟩
  have hread : read = (old, s.env) := answeredByte_known hc hold s.env
  have hnew : new = (old &&& ~~~m) ||| v := congrArg (fun r : Byte × Env => maskedValue r.1 m v) hread
  refine ⟨hnew, congrArg Prod.snd hread, fun hin => ?_⟩
  have hmasked : new = (old &&& ~~~m) ||| (v &&& m) := by rw [and_mask_of_inside hin, hnew]
  refine ⟨hmasked, hnew ▸ maskedValue_outside hin, fun hreg => ?_⟩
  have hlaunch : t.launch = s.launch := honly.launch
  have hxport : t.xport = s.xport := (congrArg State.xport hframe :)
  have hfree : t.env.faultFree = true := honly.faultFree.trans ((answeredByte_faultFree s a s.env).trans hf)
  rw [← hmasked]
  exact exec_regRd_result (hlaunch ▸ hv) hfree (ho.congr hlaunch hxport hreg) (hlaunch ▸ hc) (hsame.trans (if_pos hc))

end Sys2Proof.Machine
end

section
/-! SUPPORT. Register accesses with a frame whose exchange fails (spec/40_register_access.md R117, R119, R122, R124, R126). -/

namespace Sys2Proof.Machine

/-! ### A frame that fails (R122) -/

/-- A failed read frame leaves the device as it was. -/
theorem busExchange_readFrame_fail {s : State} {a : Half} (hv : s.launch.params.Valid = true)
    (he : addrEncodable s.launch.params a = true) (hf : s.env.faultFree = false) (hd : s.env.head % 3 = 1) :
    busExchange (readFrame s.launch.params a) s =
      { res := .fail, rx := [], state := (drawNat (perform (.busExchange (readFrame s.launch.params a)) s)).2 } := by
  rw [busExchange_fail hf hd, deviceFrameFailed, drawNat_launch, perform_launch, decodeFrame_readFrame hv he]

/-- A failed write frame leaves its register unknown. -/
theorem busExchange_writeFrame_fail {s : State} {a : Half} (v : Byte) (hv : s.launch.params.Valid = true)
    (he : addrEncodable s.launch.params a = true) (hf : s.env.faultFree = false) (hd : s.env.head % 3 = 1) :
    busExchange (writeFrame s.launch.params a v) s =
      { res := .fail
        rx := []
        state := deviceWriteUnknown a (drawNat (perform (.busExchange (writeFrame s.launch.params a v)) s)).2 } := by
  rw [busExchange_fail hf hd, deviceFrameFailed, drawNat_launch, perform_launch, decodeFrame_writeFrame v hv he]

/-- A failed write touches the device and, for the setup register, the draws. -/
theorem deviceWriteUnknown_frame (a : Half) (s : State) :
    deviceWriteUnknown a s = { s with dev := (deviceWriteUnknown a s).dev, env := (deviceWriteUnknown a s).env } := by
  have hcalls : (deviceWriteUnknown a s).calls = s.calls := by
    unfold deviceWriteUnknown
    split <;> rfl
  have h := (deviceOnly_deviceWriteUnknown a s).frame
  rwa [hcalls] at h

theorem devReg_deviceWriteUnknown_same (a : Half) (s : State) : devReg (deviceWriteUnknown a s) a = none :=
  (devReg_deviceWriteUnknown a a s).trans (if_pos rfl)

theorem devReg_deviceWriteUnknown_other {a x : Half} (s : State) (h : x ≠ a) :
    devReg (deviceWriteUnknown a s) x = devReg s x := (devReg_deviceWriteUnknown a x s).trans (if_neg h)

/-! ### REG.RD, REG.RDM and REG.WR (R117, R119) -/

section
variable {s : State} {a : Half} (hv : s.launch.params.Valid = true) (hf : s.env.faultFree = false) (hd : s.env.head % 3 = 1)
  (ho : RegOpen a s)
include hv hf hd ho

theorem regRead_fails :
    regRead a s = (.err .transportError .none, (drawNat (perform (.busExchange (readFrame s.launch.params a)) s)).2) := by
  rw [regRead, regGuard_open ho, busExchange_readFrame_fail hv ho.encodable hf hd]

theorem regWrite_fails (v : Byte) : regWrite a v s = (.err .transportError .none,
    deviceWriteUnknown a (drawNat (perform (.busExchange (writeFrame s.launch.params a v)) s)).2) := by
  rw [regWrite, regGuard_open ho, busExchange_writeFrame_fail v hv ho.encodable hf hd]

theorem execRegRd_fails : execRegRd a s = .next (giveResult (errResult .transportError .none)
    (drawNat (perform (.busExchange (readFrame s.launch.params a)) s)).2) := by
  rw [execRegRd, regRead_fails hv hf hd ho]
  rfl

theorem execRegRdm_fails (m : Byte) : execRegRdm a m s = .next (giveResult (errResult .transportError .none)
    (drawNat (perform (.busExchange (readFrame s.launch.params a)) s)).2) := by
  rw [execRegRdm, regReadMasked, regRead_fails hv hf hd ho]
  rfl

theorem execRegWr_fails (v : Byte) : execRegWr a v s = .next (giveResult (errResult .transportError .none)
    (deviceWriteUnknown a (drawNat (perform (.busExchange (writeFrame s.launch.params a v)) s)).2)) := by
  rw [execRegWr, regWrite_fails hv hf hd ho v]
  rfl

end

/-- Settles O13: the error is returned after the failed frame, which for a write leaves its register unknown. -/
theorem failedFrameReportsTransportError : Obligations.FailedFrameReportsTransportError := by
  intro s a m v hv hf hd ho p byte0
  constructor
  · intro i hi
    simp only [List.mem_cons, List.not_mem_nil, or_false] at hi
    obtain rfl | rfl := hi
    · exact execRegRd_fails hv hf hd ho
    · exact execRegRdm_fails hv hf hd ho m
  · let sent := (drawNat (perform (.busExchange (writeFrame p a v)) s)).2
    obtain ⟨hstays, hdrawn⟩ := framingAfterFailure_deviceWriteUnknown (s := sent) a ho.framing
    exact ⟨_, execRegWr_fails hv hf hd ho v,
      congrArg (giveResult (errResult .transportError .none)) (deviceWriteUnknown_frame a sent),
      devReg_deviceWriteUnknown_same a sent, fun _ hx => devReg_deviceWriteUnknown_other sent hx,
      (deviceOnly_deviceWriteUnknown a sent).sel, hstays, hdrawn⟩

/-! ### The read half of REG.WRM (R124, R126) -/

/-- The base byte of a masked write whose collaborators may fail, and the draws left after the read half: a draw where the read
frame failed, else the byte answered. -/
def maskedBase (s : State) (a : Half) : Byte × Env :=
  if s.env.head % 3 = 1 then (BitVec.ofNat 8 s.env.advance.head, s.env.advance.advance) else answeredByte s a s.env.advance

/-- The state in which the write half of a masked write starts. -/
def readHalfDone (s : State) (a : Half) : State :=
  { s with calls := s.calls ++ [.busExchange (readFrame s.launch.params a)], env := (maskedBase s a).2 }

theorem maskedBase_faultFree (s : State) (a : Half) : (maskedBase s a).2.faultFree = s.env.faultFree := by
  unfold maskedBase
  split
  · rfl
  · exact answeredByte_faultFree s a s.env.advance

section
variable {s : State} {a : Half} (m v : Byte) (hv : s.launch.params.Valid = true) (hf : s.env.faultFree = false)
  (ho : RegOpen a s)
include hv hf ho

/-- A failed read frame ends REG.WRM under `FAIL_FAST`. -/
theorem regWriteMasked_failFast (hd : s.env.head % 3 = 1) (hp : s.launch.params.maskedWritePolicy = .failFast) :
    regWriteMasked a m v s =
      (.err .transportError .none, (drawNat (perform (.busExchange (readFrame s.launch.params a)) s)).2) := by
  rw [regWriteMasked, regGuard_open ho, busExchange_readFrame_fail hv ho.encodable hf hd]
  simp only [hp]

/-- Where the read frame is answered, or fails under `FAIL_OPEN`, the write half follows. -/
theorem regWriteMasked_eq_regWriteBack
    (hd : (s.env.head % 3 = 1 ∧ s.launch.params.maskedWritePolicy = .failOpen) ∨ s.env.head % 3 = 0) :
    regWriteMasked a m v s
      = regWriteBack a (maskedValue (maskedBase s a).1 m v) (decide (s.env.head % 3 = 1)) (readHalfDone s a) := by
  rw [regWriteMasked, regGuard_open ho]
  rcases hd with ⟨hd, hp⟩ | hd
  · rw [busExchange_readFrame_fail hv ho.encodable hf hd]
    simp only [hp, readHalfDone, maskedBase, hd, if_true, decide_true]
    rfl
  · have hn : ¬ s.env.head % 3 = 1 := by omega
    have hr : drawBus (perform (.busExchange (readFrame s.launch.params a)) s)
        = (.ok, { perform (.busExchange (readFrame s.launch.params a)) s with env := s.env.advance }) := by
      rw [drawBus_of_draw (by exact hf), perform_env, BusResult.ofDraw, if_pos hd]
      rfl
    obtain ⟨x, hx, hok, hrx⟩ := readFrame_answered hv ho.encodable hr
    simp only [hx, hok, hrx, readHalfDone, maskedBase, hn, if_false, decide_false]

end

/-! ### The write half of REG.WRM (R124) -/

/-- The write frame of a masked write has been sent, and its result drawn. -/
def writeHalfSent (s : State) (a : Half) (new : Byte) : State :=
  (drawNat (perform (.busExchange (writeFrame s.launch.params a new)) s)).2

/-- After both halves only the two frames and the draws are recorded. -/
theorem writeHalfSent_readHalfDone (s : State) (a : Half) (new : Byte) : writeHalfSent (readHalfDone s a) a new = { s with
    calls := s.calls ++ [.busExchange (readFrame s.launch.params a), .busExchange (writeFrame s.launch.params a new)]
    env := (maskedBase s a).2.advance } := by
  simp [writeHalfSent, readHalfDone, drawNat, perform]

section
variable {s : State} {a : Half} (new : Byte) (failed : Bool) (hf : s.env.faultFree = false)
include hf

theorem regWriteBack_takes (hv : s.launch.params.Valid = true) (he : addrEncodable s.launch.params a = true)
    (hd : s.env.head % 3 = 0) : regWriteBack a new failed s =
      (if failed then .err .transportError .none else .ok (), deviceWrite a new (writeHalfSent s a new)) := by
  have hr : drawBus (perform (.busExchange (writeFrame s.launch.params a new)) s) = (.ok, writeHalfSent s a new) := by
    rw [drawBus_of_draw (by exact hf), perform_env, BusResult.ofDraw, if_pos hd]
    rfl
  rw [regWriteBack, busExchange_write hv he (by rw [hr]), hr]
  cases failed <;> rfl

theorem regWriteBack_fails (hv : s.launch.params.Valid = true) (he : addrEncodable s.launch.params a = true)
    (hd : s.env.head % 3 = 1) :
    regWriteBack a new failed s = (.err .transportError .none, deviceWriteUnknown a (writeHalfSent s a new)) := by
  rw [regWriteBack, busExchange_writeFrame_fail new hv he hf hd, writeHalfSent]

theorem regWriteBack_hangs (hd : s.env.head % 3 = 2) : regWriteBack a new failed s = (.stuck, writeHalfSent s a new) := by
  rw [regWriteBack, busExchange_hang hf hd, writeHalfSent]

end

theorem execRegWrm_of_err {s t : State} {a : Half} {m v : Byte} (h : regWriteMasked a m v s = (.err .transportError .none, t)) :
    execRegWrm a m v s = .next (giveResult (errResult .transportError .none) t) := by
  rw [execRegWrm, h]
  rfl

/-- Settles O14: the read half gives `maskedBase` or ends the operation, and the write half follows with one of three outcomes. -/
theorem maskedWriteAfterFailedRead : Obligations.MaskedWriteAfterFailedRead := by
  intro s a m v hv hf ho p byte0 readCall readFails read new sent reports
  let u : State := writeHalfSent (readHalfDone s a) a new
  have hu : u = { s with calls := sent, env := read.2.advance } := writeHalfSent_readHalfDone s a new
  have hback := regWriteMasked_eq_regWriteBack m v hv hf ho
  have hfree : (readHalfDone s a).env.faultFree = false := (maskedBase_faultFree s a).trans hf
  have report : ∀ w : State, regWriteMasked a m v s = (.err .transportError .none, w) →
      w = { u with dev := w.dev, env := w.env } → (∀ x : Half, x ≠ a → devReg w x = devReg u x) → w.dev.sel = u.dev.sel →
      reports (giveResult (errResult .transportError .none) w) := by
    intro w hx hw hother hsel
    rw [hu] at hw
    exact ⟨execRegWrm_of_err hx, congrArg (giveResult _) hw, hother, hsel⟩
  refine ⟨fun hd hp => ?_, fun hd hp hw => ?_, fun hd => ⟨fun hw => ?_, fun hw => ?_⟩⟩
  · exact execRegWrm_of_err (regWriteMasked_failFast m v hv hf ho hd hp)
  · have hx := (hback (.inl ⟨hd, hp⟩)).trans (regWriteBack_takes new _ hfree hv ho.encodable hw)
    rw [decide_eq_true hd, if_pos rfl] at hx
    exact ⟨_, report _ hx (deviceWrite_frame a new u) (fun _ hn => devReg_deviceWrite_other new u hn)
      (deviceOnly_deviceWrite a new u).sel, devReg_deviceWrite_same a new u, maskedValue_and_mask _ m v,
      framingAfterWrite_deviceWrite (s := u) hv a new ho.framing⟩
  · have hx := (hback hd).trans (regWriteBack_fails new _ hfree hv ho.encodable hw)
    exact ⟨_, report _ hx (deviceWriteUnknown_frame a u) (fun _ hn => devReg_deviceWriteUnknown_other u hn)
      (deviceOnly_deviceWriteUnknown a u).sel, devReg_deviceWriteUnknown_same a u,
      framingAfterFailure_deviceWriteUnknown (s := u) a ho.framing⟩
  · have hx := (hback hd).trans (regWriteBack_hangs new _ hfree hw)
    rw [writeHalfSent_readHalfDone] at hx
    exact finish_of_stuck hx _

end Sys2Proof.Machine
end

section
/-! SUPPORT. The laws of the tick quantizer (spec/41_pulse_generator.md R132 to R134). -/

namespace Sys2Proof.Machine

variable {ns r : DWord} {t : Word}

/-- A tick count is the ideal value of the reference rounded down to a multiple of 1000. -/
theorem ticks_toNat_eq_ideal (h : ticks ns r = some t) :
    t.toNat = (1000 * (r.toNat / 1000) * ns.toNat + (10 ^ 9 - 1)) / 10 ^ 9 := by
  obtain ⟨-, -, hval⟩ := ticks_eq_some h
  rw [hval, Nat.mul_assoc]
  omega

/-- Settles O18: rounding the reference down changes nothing for a multiple of 1000 and never raises the value. -/
theorem ticksMatchTheIdeal : Obligations.TicksMatchTheIdeal := by
  refine ⟨fun ns r t ht hr => ?_, fun ns r t ht => ?_, by decide, by decide⟩
  · have hk : 1000 * (r.toNat / 1000) = r.toNat := by omega
    rw [ticks_toNat_eq_ideal ht, hk, Nat.mul_comm]
  · have hk : 1000 * (r.toNat / 1000) ≤ r.toNat := by omega
    rw [ticks_toNat_eq_ideal ht, Nat.mul_comm ns.toNat]
    gcongr

theorem ticks_of_product_eq_zero (h : r.toNat / 1000 * ns.toNat = 0) : ticks ns r = some 0#32 := by
  rw [ticks_of_lt (by omega) (by omega), h]

/-- Settles O19: the formula is monotonic in the nanoseconds, and its product is 0 in the two cases. -/
theorem ticksMonotonic : Obligations.TicksMonotonic := by
  refine ⟨fun ns1 ns2 r t1 t2 hlt h1 h2 => ?_, fun r => ?_, fun ns r hr => ?_⟩
  · obtain ⟨-, -, hval1⟩ := ticks_eq_some h1
    obtain ⟨-, -, hval2⟩ := ticks_eq_some h2
    rw [hval1, hval2]
    gcongr
  · exact ticks_of_product_eq_zero (Nat.mul_zero _)
  · exact ticks_of_product_eq_zero (by rw [Nat.div_eq_of_lt hr, Nat.zero_mul])

/-- Settles O20: the product is bounded by that of the bounds. -/
theorem ticksFitWithinTheBounds : Obligations.TicksFitWithinTheBounds := by
  intro ns r hr hns
  have hk : r.toNat / 1000 ≤ 200000 := by omega
  have hprod : r.toNat / 1000 * ns.toNat ≤ 200000 * 10000000000 := Nat.mul_le_mul hk hns
  refine ⟨hk, by omega, by decide, _, ticks_of_lt (by omega) (by omega), ?_, by decide⟩
  rw [BitVec.toNat_ofNat]
  omega

end Sys2Proof.Machine
end

section
/-! SUPPORT. The guards of the pulse generator operations and of the two initializations, and PWM.SETP, PWM.SETD and PWM.GETP
(spec/41_pulse_generator.md R131, R135, R136, R139 to R142, R146). -/

namespace Sys2Proof.Machine

variable {s : State} {ns : DWord}

/-! ### The guards (R135, R136, R165) -/

/-- An uninitialized descriptor stops the operation (R135). -/
theorem pwmGuard_closed {α : Type} (h : s.pwm.state = .uninitialized) (f : State → Res α × State) :
    pwmGuard s f = (.fault .pwmNotInitialized, s) := if_pos h

/-- Settles O24: each of the five operations begins with the guard. -/
theorem uninitializedPulseGeneratorFaults : Obligations.UninitializedPulseGeneratorFaults := by
  intro s ns i hi hu
  have guarded : ∀ f : State → Res Unit × State, finish (andThen (pwmGuard s f) fun _ t => (.ok 0#64, t)) =
      .next { s with fault := some .pwmNotInitialized, result := none } := fun f => by
    rw [pwmGuard_closed hu]
    rfl
  simp only [List.mem_cons, List.not_mem_nil, or_false] at hi
  obtain rfl | rfl | rfl | rfl | rfl := hi
  · exact guarded (setPeriod ns)
  · exact guarded (setDuty ns)
  · exact guarded pwmEnable
  · exact guarded pwmDisable
  · exact congrArg finish (pwmGuard_closed hu _)

/-- Settles O25: both initializations check first whether they have been done. -/
theorem secondInitFaults : Obligations.SecondInitFaults := by
  refine fun s => ⟨fun h => ?_, fun h => ?_⟩
  · have hx : pwmInit s = (.fault .pwmAlreadyInitialized, s) := if_pos h
    show finish (andThen (pwmInit s) _) = _
    rw [hx]
    rfl
  · have hx : devInit s = (.fault .handleExists, s) := if_pos h
    show finish (andThen (devInit s) _) = _
    rw [hx]
    rfl

/-! ### On an initialized descriptor an operation is its body (R135) -/

section
variable (hu : s.pwm.state ≠ .uninitialized)
include hu

theorem exec_pwmSetp : exec (.pwmSetp ns) s = finish (andThen (setPeriod ns s) fun _ t => (.ok 0#64, t)) := by
  rw [← pwmGuard_open hu (setPeriod ns)]
  rfl

theorem exec_pwmSetd : exec (.pwmSetd ns) s = finish (andThen (setDuty ns s) fun _ t => (.ok 0#64, t)) := by
  rw [← pwmGuard_open hu (setDuty ns)]
  rfl

theorem exec_pwmEn : exec .pwmEn s = finish (andThen (pwmEnable s) fun _ t => (.ok 0#64, t)) := by
  rw [← pwmGuard_open hu pwmEnable]
  rfl

theorem exec_pwmDis : exec .pwmDis s = finish (andThen (pwmDisable s) fun _ t => (.ok 0#64, t)) := by
  rw [← pwmGuard_open hu pwmDisable]
  rfl

theorem exec_pwmGetp :
    exec .pwmGetp s = .next { s with result := some { st := 0#64, val := s.pwm.periodNs }, ctl := .idle } :=
  congrArg finish (pwmGuard_open hu _)

end

/-- Settles O31: the guard, then the descriptor. -/
theorem getPeriodReturnsTheStoredPeriod : Obligations.GetPeriodReturnsTheStoredPeriod :=
  fun s => ⟨exec_pwmGetp, uninitializedPulseGeneratorFaults s 0#64 _ (by simp)⟩

/-! ### The period and the duty cycle when every collaborator answers (R131, R139, R141) -/

/-- Settles O26: the tick count is defined, and the register and the descriptor take their values. -/
theorem periodAndDutyAreStored : Obligations.PeriodAndDutyAreStored := by
  intro s ns hf hu k d
  constructor <;> intro h1 h2 t
  · rw [exec_pwmSetp hu, setPeriod_of_faultFree hf (ticks_of_lt h1 h2)]
    rfl
  · rw [exec_pwmSetd hu, setDuty_of_faultFree hf (ticks_of_lt h1 h2)]
    rfl

/-! ### The period and the duty cycle on every path (R139 to R142) -/

/-- A guarded operation that returned result words ran its body to `Ok` or `Err` on an initialized descriptor. -/
theorem guarded_result {f : State → Res Unit × State} {t : State} {r : Result}
    (h : finish (andThen (pwmGuard s f) fun _ u => (.ok 0#64, u)) = .next t) (hr : t.result = some r) :
    s.pwm.state ≠ .uninitialized ∧ ((∃ u, f s = (.ok (), u) ∧ r = okResult 0#64 ∧ t = giveResult r u)
      ∨ ∃ e c u, f s = (.err e c, u) ∧ r = errResult e c ∧ t = giveResult r u) := by
  by_cases hu : s.pwm.state = .uninitialized
  · rw [pwmGuard_closed hu] at h
    cases h
    cases hr
  · rw [pwmGuard_open hu] at h
    refine ⟨hu, ?_⟩
    obtain ⟨v, u, hx, rfl, rfl⟩ | ⟨e, c, u, hx, rfl, rfl⟩ := finish_result h hr
    · obtain ⟨_, w, hw, he⟩ := andThen_eq_ok hx
      cases he
      exact .inl ⟨u, hw, rfl, rfl⟩
    · obtain hw | ⟨_, w, -, he⟩ := andThen_eq_err hx
      · exact .inr ⟨e, c, u, hw, rfl, rfl⟩
      · cases he

/-- Where SetPeriod is `Ok` the nanoseconds are stored, not the tick count (R139, R140). -/
theorem setPeriod_pwm_of_ok {u : State} (h : setPeriod ns s = (.ok (), u)) : u.pwm = { s.pwm with periodNs := ns } := by
  obtain hx | ⟨w, v, -, hx | hx⟩ := setPeriod_cases ns s <;> cases hx.symm.trans h
  rfl

/-- Where SetPeriod is `Err` the descriptor stays (R139: "only on successful write"). -/
theorem setPeriod_pwm_of_err {u : State} {e : ErrCode} {c : Cause} (h : setPeriod ns s = (.err e c, u)) : u.pwm = s.pwm := by
  obtain hx | ⟨w, v, hw, hx | hx⟩ := setPeriod_cases ns s <;> cases hx.symm.trans h
  rw [hw]

/-- Where SetDuty is `Ok` the clamped nanoseconds are stored (R141). -/
theorem setDuty_pwm_of_ok {u : State} (h : setDuty ns s = (.ok (), u)) :
    u.pwm = { s.pwm with dutyNs := clampDuty ns s.pwm.periodNs } := by
  obtain hx | ⟨w, v, -, hx | hx⟩ := setDuty_cases ns s <;> cases hx.symm.trans h
  rfl

/-- Settles O27: what the body has stored, and the clamp. -/
theorem periodAndDutyAreKeptInNanoseconds : Obligations.PeriodAndDutyAreKeptInNanoseconds := by
  refine ⟨fun s t ns h => ⟨fun hr => ?_, fun r hr hst => ?_⟩, fun s t ns h hr => ?_⟩
  · obtain ⟨hu, ⟨u, hx, -, rfl⟩ | ⟨e, c, u, -, he, -⟩⟩ := guarded_result h hr
    · have hpwm := setPeriod_pwm_of_ok hx
      rw [exec_pwmGetp (by rw [giveResult_pwm, hpwm]; exact hu), giveResult_pwm, hpwm]
    · exact absurd (congrArg Result.st he).symm (errResult_st e c)
  · obtain ⟨hu, ⟨u, -, rfl, -⟩ | ⟨e, c, u, hx, -, rfl⟩⟩ := guarded_result h hr
    · exact absurd rfl hst
    · have hpwm := setPeriod_pwm_of_err hx
      rw [exec_pwmGetp (by rw [giveResult_pwm, hpwm]; exact hu), giveResult_pwm, hpwm]
  · obtain ⟨-, ⟨u, hx, -, rfl⟩ | ⟨e, c, u, -, he, -⟩⟩ := guarded_result h hr
    · rw [giveResult_pwm, setDuty_pwm_of_ok hx]
      refine ⟨fun hlt => if_neg (by omega), rfl, ?_⟩
      show (clampDuty ns s.pwm.periodNs).toNat ≤ _
      rw [clampDuty_toNat]
      exact Nat.min_le_right _ _
    · exact absurd (congrArg Result.st he).symm (errResult_st e c)

end Sys2Proof.Machine
end

section
/-! SUPPORT. PWM.INIT and a tick count that does not fit (spec/41_pulse_generator.md R131, R136 to R139, R141,
spec/60_exceptions.md R231, R232, R234). -/

namespace Sys2Proof.Machine

variable {s : State}

/-! ### PWM.INIT when every collaborator answers (R136, R137) -/

/-- Settles O22: the body is exact where nothing fails. -/
theorem pwmInitEnables : Obligations.PwmInitEnables := by
  intro s tp td hf hc hs ha cfg p duty hp hd
  show finish (andThen (pwmInit s) _) = _
  rw [pwmInit_of_faultFree hf hc hs ha hp hd]
  rfl

/-- The state in which PWM.INIT begins to program: the descriptor claimed and the self-test passed. -/
def pwmTested (s : State) : State :=
  { s with
    alloc := { s.alloc with pwm := true }
    pwm := { s.pwm with base := s.launch.cfg.pwmBase, refHz := s.launch.cfg.pwmRefHz, periodNs := 0#64, dutyNs := 0#64 }
    pulse := { s.pulse with scratch := some s.launch.params.pwmTestPattern }
    calls := s.calls ++ [.allocPwm,
      .mmioWrite (s.launch.cfg.pwmBase + s.launch.params.offScratch) s.launch.params.pwmTestPattern,
      .mmioRead (s.launch.cfg.pwmBase + s.launch.params.offScratch)] }

theorem pwmInit_eq_pwmProgram (hf : s.env.faultFree = true) (hc : s.launch.params.pwmConnected = true)
    (hs : s.pwm.state = .uninitialized) (ha : s.alloc.pwm = false) : pwmInit s = pwmProgram (pwmTested s) := by
  rw [pwmInit, if_neg (by simp [hs, ha])]
  simp only [attempt_of_faultFree _ hf, if_true]
  rw [pwmSelfTest_of_faultFree (by exact hf) (by exact hc)]
  simp only [onErr_ok, andThen_ok, pwmClaim, perform, List.append_assoc]
  rfl

/-! ### A tick count that does not fit (R131, R234) -/

theorem setPeriod_of_overflow {ns : DWord} (h : ticks ns s.pwm.refHz = none) : setPeriod ns s = (.refuse .tickOverflow, s) := by
  simp only [setPeriod, h]

theorem setDuty_of_overflow {ns : DWord} (h : ticks (clampDuty ns s.pwm.periodNs) s.pwm.refHz = none) :
    setDuty ns s = (.refuse .tickOverflow, s) := by
  simp only [setDuty, h]

/-- Settles O21: SetPeriod and SetDuty are refused before they write, and a refusal is no error that PWM.INIT cleans up. -/
theorem tickOverflowRefused : Obligations.TickOverflowRefused := by
  constructor
  · intro s ns hu overflows
    constructor <;> intro h
    · rw [exec_pwmSetp hu, setPeriod_of_overflow (ticks_of_le h)]
      rfl
    · rw [← clampDuty_toNat] at h
      rw [exec_pwmSetd hu, setDuty_of_overflow (ticks_of_le h)]
      rfl
  · intro s hf hc hs ha cfg p h
    show finish (andThen (pwmInit s) _) = _
    rw [pwmInit_eq_pwmProgram hf hc hs ha, pwmProgram, setPeriod_of_overflow (by exact ticks_of_le h), ← hs]
    rfl

/-! ### A PWM.INIT that returns an error (R136, R138, R231, R232) -/

/-- The error of a part that raises one given error. -/
theorem onErr_releaseAndRaise_eq_err {x : Res Unit × State} {e e' : ErrCode} {c c' : Cause} {t : State}
    (h : onErr x (fun _ _ => releaseAndRaise e c) = (.err e' c', t)) : e' = e ∧ c' = c := by
  obtain ⟨r, u⟩ := x
  cases r <;> cases h
  exact ⟨rfl, rfl⟩

theorem pwmProgram_eq_err {e : ErrCode} {c : Cause} {t : State} (h : pwmProgram s = (.err e c, t)) :
    e = .initError ∧ c = .transportError := by
  obtain h | ⟨_, u, -, h⟩ := andThen_eq_err h
  · exact onErr_releaseAndRaise_eq_err h
  · obtain h | ⟨_, u, -, h⟩ := andThen_eq_err h <;> exact onErr_releaseAndRaise_eq_err h

/-- The errors of PWM.INIT's body (R136, R137). -/
theorem pwmInit_eq_err {e : ErrCode} {c : Cause} {t : State} (h : pwmInit s = (.err e c, t)) :
    (e = .resourceExhausted ∧ c = .none) ∨ (e = .initError ∧ c = .transportError)
      ∨ (e = .selfTestFailure ∧ c = .none) := by
  unfold pwmInit at h
  dsimp only at h
  split at h
  · cases h
  split at h
  · obtain h | ⟨_, u, -, h⟩ := andThen_eq_err h
    · obtain ⟨u, r, -, hr, hx⟩ := pwmSelfTest_cases (pwmClaim (attempt .allocPwm s).2)
      rw [hx] at h
      obtain rfl | rfl | rfl := hr <;> cases h
      · exact .inr (.inl ⟨rfl, rfl⟩)
      · exact .inr (.inr ⟨rfl, rfl⟩)
    · exact .inr (.inl (pwmProgram_eq_err h))
  · cases h
    exact .inl ⟨rfl, rfl⟩

/-- After an error of PWM.INIT's body the descriptor is free (R136, R138). -/
theorem pwmInit_released {e : ErrCode} {c : Cause} {t : State} (hs : s.pwm.state = .uninitialized)
    (h : pwmInit s = (.err e c, t)) : t.alloc.pwm = false ∧ t.pwm.state = .uninitialized := by
  obtain hx | ⟨ha, hx | hx⟩ := pwmInit_cases s
  · cases hx.symm.trans h
  · cases hx.symm.trans h
    obtain hp | hp := attempt_state .allocPwm s <;> rw [hp] <;> exact ⟨ha, hs⟩
  · rw [h] at hx
    cases hx with
    | err _ ha hp => exact ⟨ha, by rw [hp]; rfl⟩

/-- With no descriptor held PWM.TD is a no-op (R145). -/
theorem exec_pwmTd_of_free (h : s.alloc.pwm = false) :
    exec .pwmTd s = .next { s with result := some { st := 0#64, val := 0#64 }, ctl := .idle } := by
  have hx : pwmTeardown s = (.ok (), s) := if_pos (by rw [h]; rfl)
  show finish (andThen (pwmTeardown s) _) = _
  rw [hx]
  rfl

/-- Settles O23: the errors of the body, each of which has released the descriptor. -/
theorem pwmInitErrorReleases : Obligations.PwmInitErrorReleases := by
  intro s t r hs ha h hr hst
  obtain ⟨v, u, -, rfl, -⟩ | ⟨e, c, u, hx, rfl, rfl⟩ := finish_result h hr
  · exact absurd rfl hst
  obtain hx | ⟨_, w, -, hx⟩ := andThen_eq_err hx
  · obtain ⟨hfree, hstate⟩ := pwmInit_released hs hx
    have halloc : u.alloc = s.alloc := by
      have hframe : PulseOnly s u := by
        have hp := pulseOnly_pwmInit s
        rwa [hx] at hp
      rw [hframe.frame, hfree, ← ha]
    refine ⟨?_, rfl, hstate, halloc, exec_pwmTd_of_free hfree⟩
    obtain ⟨rfl, rfl⟩ | ⟨rfl, rfl⟩ | ⟨rfl, rfl⟩ := pwmInit_eq_err hx <;> decide
  · cases hx

end Sys2Proof.Machine
end

section
/-! SUPPORT. PWM.TD, and pulse generator operations whose register write fails (spec/41_pulse_generator.md R138, R139, R141, R143 to
R145). -/

namespace Sys2Proof.Machine

variable {s : State}

/-- PWM.TD's body with a descriptor held, when every collaborator answers (R145). -/
theorem pwmTeardown_of_faultFree (hf : s.env.faultFree = true) (ha : s.alloc.pwm = true) :
    pwmTeardown s = (.ok (), { s with
      alloc := { s.alloc with pwm := false }
      pwm := PwmDesc.reset
      pulse := { s.pulse with config := some s.launch.params.cfgReset, run := some stopped }
      calls := s.calls ++ [.mmioWrite (s.pwm.base + s.launch.params.offConfig) s.launch.params.cfgReset] }) := by
  simp only [pwmTeardown, ha, mmioWrite_of_faultFree _ _ hf, Bool.not_true, Bool.false_eq_true, if_false, if_true]
  rfl

/-- Settles O29: the body with and without a descriptor held. -/
theorem pwmTeardownReleases : Obligations.PwmTeardownReleases := by
  refine fun s => ⟨fun hf ha => ?_, exec_pwmTd_of_free⟩
  show finish (andThen (pwmTeardown s) _) = _
  rw [pwmTeardown_of_faultFree hf ha]
  rfl

/-- The state after a register write that fails, the registers given: the call and the draw are recorded. -/
def writeFailed (c : Nat) (v : Word) (pulse : Pulse) (s : State) : State :=
  { s with pulse := pulse, calls := s.calls ++ [.mmioWrite (s.pwm.base + c) v], env := s.env.advance }

section
variable (hf : s.env.faultFree = false) (hd : s.env.head % 2 = 1)
include hf hd

theorem setPeriod_of_fail {ns : DWord} {t : Word} (ht : ticks ns s.pwm.refHz = some t) : setPeriod ns s =
    (.err .transportError .none, writeFailed s.launch.params.offPeriod t { s.pulse with period := none } s) := by
  simp only [setPeriod, ht, mmioWrite_of_fail _ _ hf hd, Bool.false_eq_true, if_false]
  rfl

theorem setDuty_of_fail {ns : DWord} {t : Word} (ht : ticks (clampDuty ns s.pwm.periodNs) s.pwm.refHz = some t) : setDuty ns s =
    (.err .transportError .none, writeFailed s.launch.params.offWidth t { s.pulse with width := none } s) := by
  simp only [setDuty, ht, mmioWrite_of_fail _ _ hf hd, Bool.false_eq_true, if_false]
  rfl

theorem pwmEnable_of_fail : pwmEnable s = (.err .transportError .none,
    writeFailed s.launch.params.offConfig s.launch.params.cfgLoad { s.pulse with config := none, run := none } s) := by
  simp only [pwmEnable, mmioWrite_of_fail _ _ hf hd, Bool.false_eq_true, if_false]
  rfl

theorem pwmDisable_of_fail : pwmDisable s = (.err .transportError .none,
    writeFailed s.launch.params.offConfig s.launch.params.cfgReset { s.pulse with config := none, run := none } s) := by
  simp only [pwmDisable, mmioWrite_of_fail _ _ hf hd, Bool.false_eq_true, if_false]
  rfl

/-- The release happens whether or not the write succeeds (R145). -/
theorem pwmTeardown_of_fail (ha : s.alloc.pwm = true) : pwmTeardown s = (.err .transportError .none, pwmRelease
    (writeFailed s.launch.params.offConfig s.launch.params.cfgReset { s.pulse with config := none, run := none } s)) := by
  simp only [pwmTeardown, ha, mmioWrite_of_fail _ _ hf hd, Bool.not_true, Bool.false_eq_true, if_false]
  rfl

end

/-- Settles O30: each body with the failed write. -/
theorem failedPulseGeneratorWriteReports : Obligations.FailedPulseGeneratorWriteReports := by
  intro s ns tp td hf hd hu p failed
  refine ⟨fun ht => ?_, fun ht => ?_, ?_, ?_, fun ha => ?_⟩
  · rw [exec_pwmSetp hu, setPeriod_of_fail hf hd ht]
    rfl
  · rw [exec_pwmSetd hu, setDuty_of_fail hf hd ht]
    rfl
  · rw [exec_pwmEn hu, pwmEnable_of_fail hf hd]
    rfl
  · rw [exec_pwmDis hu, pwmDisable_of_fail hf hd]
    rfl
  · show finish (andThen (pwmTeardown s) _) = _
    rw [pwmTeardown_of_fail hf hd ha]
    rfl

end Sys2Proof.Machine
end

section
/-! SUPPORT. DEV.TD (spec/42_device_config.md R161, R162): the pulse generator's registers and the draws left after the teardown,
for every draw. -/

namespace Sys2Proof.Machine

variable {s : State}

/-- A register write whose draw is a success sets the register (R15). -/
theorem mmioWrite_of_success (r : PwmReg) (v : Word) (hf : s.env.faultFree = false) (hd : s.env.head % 2 ≠ 1) :
    mmioWrite r v s =
      (true, setPwmReg r (some v) (drawNat (perform (.mmioWrite (s.pwm.base + pwmOffset s.launch.params r) v) s)).2) := by
  have hok : (s.env.head % 2 == 0) = true := by simpa using hd
  simp only [mmioWrite, attempt_of_draw _ hf, hok, if_true]

/-- PWM.TD's body with no descriptor held (R145). -/
theorem pwmTeardown_of_free (ha : s.alloc.pwm = false) : pwmTeardown s = (.ok (), s) := if_pos (by rw [ha]; rfl)

/-- PWM.TD's body with a descriptor held, when the draw of its write is a success (R145). -/
theorem pwmTeardown_of_success (hf : s.env.faultFree = false) (hd : s.env.head % 2 ≠ 1) (ha : s.alloc.pwm = true) :
    pwmTeardown s = (.ok (), pwmRelease (setRun (some stopped) (setPwmReg .config (some s.launch.params.cfgReset)
      (drawNat (perform (.mmioWrite (s.pwm.base + s.launch.params.offConfig) s.launch.params.cfgReset) s)).2))) := by
  simp only [pwmTeardown, ha, mmioWrite_of_success _ _ hf hd, Bool.not_true, Bool.false_eq_true, if_false, if_true, pwmOffset]

/-- The pulse generator's registers after a teardown: CONFIG and the source are unspecified if the write fails (log 12). -/
def pulseAfterTeardown (s : State) : Pulse :=
  if s.alloc.pwm then
    (if s.env.faultFree = false ∧ s.env.head % 2 = 1 then { s.pulse with config := none, run := none }
      else { s.pulse with config := some s.launch.params.cfgReset, run := some stopped })
  else s.pulse

/-- The draws left after a teardown: its register write takes one where collaborators may fail. -/
def envAfterTeardown (s : State) : Env :=
  if s.alloc.pwm = true ∧ s.env.faultFree = false then s.env.advance else s.env

/-- The registers and the draws that PWM.TD leaves, whatever its write draws. -/
theorem pwmTeardown_pulse_env (s : State) :
    (pwmTeardown s).2.pulse = pulseAfterTeardown s ∧ (pwmTeardown s).2.env = envAfterTeardown s := by
  unfold pulseAfterTeardown envAfterTeardown
  cases ha : s.alloc.pwm
  case false => simp [pwmTeardown_of_free ha]
  case true =>
    cases hf : s.env.faultFree
    case true => simp [pwmTeardown_of_faultFree hf ha]
    case false =>
      by_cases hd : s.env.head % 2 = 1
      · simp [pwmTeardown_of_fail hf hd ha, writeFailed, hd]
      · simp [pwmTeardown_of_success hf hd ha, hd, setPwmReg, drawNat, perform]

/-- Only DevTeardown's pulse generator part changes its registers and takes a draw (R161). -/
theorem devTeardown_pulse_env (s : State) :
    (devTeardown s).pulse = pulseAfterTeardown s ∧ (devTeardown s).env = envAfterTeardown s := by
  unfold devTeardown
  simp only [releaseIf_pulse, releaseIf_env, pwmTeardown_pulse_env]
  cases hx : s.alloc.xport <;> exact ⟨rfl, rfl⟩

/-- DEV.TD with something held is DevTeardown, and returns `Ok` (R162). -/
theorem exec_devTd_of_held (h : s.devState ≠ .absent ∨ s.alloc.pwm = true) :
    exec .devTd s = .next (giveResult (okResult 0#64) (devTeardown s)) := by
  have hheld : ¬ (s.devState = .absent ∧ s.alloc.pwm = false) := by
    rintro ⟨hd, hp⟩
    exact h.elim (· hd) (by simp [hp])
  show finish (_, if _ then s else _) = _
  rw [if_neg hheld, finish_ok]

/-- DEV.TD with neither a handle nor a pulse generator is a no-op (R162). -/
theorem exec_devTd_of_free (h : s.devState = .absent ∧ s.alloc.pwm = false) :
    exec .devTd s = .next (giveResult (okResult 0#64) s) := by
  show finish (_, if _ then s else _) = _
  rw [if_pos h, finish_ok]

/-- Settles O36: DevTeardown's frame (`devTeardown_eq`), its registers and draws in every case of the CONFIG write. -/
theorem devTdReleasesWhatIsHeld : Obligations.DevTdReleasesWhatIsHeld := by
  refine fun s => ⟨exec_devTd_of_free, fun h => ?_⟩
  obtain ⟨hpulse, henv⟩ := devTeardown_pulse_env s
  obtain ⟨p, e, ht⟩ := devTeardown_eq s
  rw [ht] at hpulse henv
  obtain rfl : p = pulseAfterTeardown s := hpulse
  obtain rfl : e = envAfterTeardown s := henv
  rw [exec_devTd_of_held h, ht]
  rfl

end Sys2Proof.Machine
end

section
/-! SUPPORT. OFL.INIT and the parameter word (spec/43_offload.md R180 to R183). -/

namespace Sys2Proof.Machine

/-! ### The parameter word (R182, R183) -/

/-- Settles O41: a word that fits is stored by `setParam`, any other is refused by the operand check. -/
theorem setParameterStoresTheWord : Obligations.SetParameterStoresTheWord := fun _ w =>
  ⟨fun h => congrArg finish (if_pos (decide_eq_true h)),
    fun h => finish_operandGuard_of_false (decide_eq_false (Nat.not_lt.2 h)) fun t => (.ok 0#64, setParam (w.setWidth 32) none t)⟩

/-- Settles O42: a channel that is there has its word stored by `selectChannel`, any other is refused by the operand check, and the
words of channels 0 and 1 differ by R11. -/
theorem setChannelStoresItsWord : Obligations.SetChannelStoresItsWord := fun _ ch =>
  ⟨fun h => congrArg finish (if_pos (decide_eq_true h)),
    fun h => finish_operandGuard_of_false (decide_eq_false (Nat.not_lt.2 h)) fun t => (.ok 0#64, selectChannel ch.toNat t),
    Params.valid_chSel⟩

/-! ### OFL.INIT (R180, R181) -/

/-- The flags word of OFL.INIT is 1 exactly where bit 0 is set and no other (R181). -/
theorem flags_eq_one_iff {flags : DWord} : flags = 1#64 ↔ flags >>> 1 = 0#64 ∧ flags.getLsbD 0 = true := by
  rw [BitVec.getLsbD, Nat.testBit_zero, decide_eq_true_iff]
  bv_omega

theorem oflMisconfigured_iff {p : Params} {a len flags : DWord} : oflMisconfigured p a len flags = true ↔
    flags ≠ 1#64 ∨ len = 0#64 ∨ a.toNat % 4 ≠ 0 ∨ len.toNat % 4 ≠ 0 ∨ 2 ^ p.memAddrW < a.toNat + len.toNat := by
  rw [ne_eq flags, flags_eq_one_iff]
  simp only [oflMisconfigured, Bool.or_eq_true, bne_iff_ne, beq_iff_eq, decide_eq_true_eq, Bool.not_eq_true', ne_eq, not_and_or,
    Bool.not_eq_true, or_assoc, Config.wordSize]

section
variable {s : State} {a len flags : DWord}

theorem oflInit_of_notReady (h : s.devState ≠ .ready) : oflInit a len flags s = (.fault .notReady, s) := if_pos h

variable (hr : s.devState = .ready)
include hr

theorem oflInit_of_misconfigured (hm : oflMisconfigured s.launch.params a len flags = true) :
    oflInit a len flags s = (.err .offloadInitError .none, oflUnset s) := by
  rw [oflInit, oflGuard, if_neg (not_not.2 hr), if_pos hm]

theorem oflInit_of_configured (hm : ¬ oflMisconfigured s.launch.params a len flags = true) : oflInit a len flags s =
    if (attempt (.offloadInit a.toNat true) s).1 then (.ok (), { (attempt (.offloadInit a.toNat true) s).2 with
      ofl := { initialized := true, rxAddr := a.toNat, rxLen := len.toNat, rxEn := true } })
    else (.err .offloadInitError .none, oflUnset (attempt (.offloadInit a.toNat true) s).2) := by
  rw [oflInit, oflGuard, if_neg (not_not.2 hr), if_neg hm]

end

/-- Settles O40: `G_OFL`, then the misconfigurations, then the result of the transport. -/
theorem offloadInitChecksAndStores : Obligations.OffloadInitChecksAndStores := by
  intro s a len flags bad
  have hexec : exec (.oflInit a len flags) s = finish (andThen (oflInit a len flags s) fun _ t => (.ok 0#64, t)) := rfl
  rw [hexec]
  refine ⟨fun hn => ?_, fun hr hb => ?_, fun hr hb hf => ?_, fun hr hb hf hd => ?_⟩
  · rw [oflInit_of_notReady hn]
    rfl
  · rw [oflInit_of_misconfigured hr (oflMisconfigured_iff.2 hb)]
    rfl
  · rw [oflInit_of_configured hr (mt oflMisconfigured_iff.1 hb), attempt_of_faultFree _ hf]
    rfl
  · rw [oflInit_of_configured hr (mt oflMisconfigured_iff.1 hb), attempt_of_draw _ hf, hd]
    rfl

end Sys2Proof.Machine
end

section
/-! SUPPORT. OFL.XFER: its checks in order, and the transfer when every collaborator answers; the micro-operations
(spec/43_offload.md R180, R184, R185, R190, R191, R193, R196 to R198, spec/60_exceptions.md R236). -/

namespace Sys2Proof.Machine

/-! ### The checks (R180, R184, R190, R236) -/

/-- Settles O44: at each check `oflXfer` answers that check's outcome or goes on to the next one; past the last the transfer is
open. -/
theorem transferChecksInOrder : Obligations.TransferChecksInOrder := by
  intro s reps h1 h2 faults
  have ends (r : Res Unit) (hx : oflXfer reps.toNat s = (r, s)) :
      exec (.oflXfer reps) s = finish (andThen (r, s) fun _ t => (.ok 0#64, t)) := by rw [exec_oflXfer h1 h2, hx]
  have hx : oflXfer reps.toNat s = oflGuard s _ := rfl
  rw [oflGuard, Config.wordSize] at hx
  split
  · next hready => exact ends _ (hx.trans (if_pos hready))
  next hready =>
  rw [if_neg hready] at hx
  split
  · next hinit => exact ends _ (hx.trans (if_pos (by rw [hinit]; rfl)))
  next hinit =>
  rw [if_neg (by simpa using hinit)] at hx
  split
  · next hwf => exact ends _ (hx.trans (if_pos (by rw [hwf]; rfl)))
  next hwf =>
  rw [if_neg (by simpa using hwf)] at hx
  split
  · next hparam => exact ends _ (hx.trans (if_pos (by rw [hparam]; rfl)))
  next hparam =>
  rw [if_neg (by simpa using hparam)] at hx
  split
  · next hlen => exact ends _ (hx.trans (if_pos hlen))
  next hlen =>
  rw [if_neg hlen] at hx
  split
  · next hframe => exact ends _ (hx.trans (if_pos hframe))
  next hframe =>
  rw [if_neg hframe] at hx
  split
  · next hclock => exact ends _ (hx.trans (if_pos hclock))
  next hclock =>
  obtain ⟨hwidth, hframing⟩ := not_or.1 hframe
  exact {
    ready := not_not.1 hready
    initialized := by simpa using hinit
    template := by simpa using hwf
    param := by simpa using hparam
    fits := Nat.le_of_not_lt hlen
    width := not_not.1 hwidth
    framing := not_not.1 hframing
    clock := not_not.1 hclock }

/-! ### A transfer when every collaborator answers (R184, R185, R191, R193) -/

/-- Under TransportFaultFree the exchanges of a transfer leave the words in flight for consecutive word addresses. -/
theorem Issued.inflight_eq {first n : Nat} {s t : State} (h : Issued first n s t) (hf : s.env.faultFree = true) :
    t.inflight = s.inflight ++ (List.range n).map fun j => (s.ofl.rxAddr + (first + j) * 4,
      BitVec.ofNat 32 ((Env.advance^[j] s.env).head % 2 ^ s.launch.params.xferWidth)) := by
  rw [(h.exact hf).2, landings_map]
  rfl

/-- The words of an open transfer lie inside the buffer. -/
theorem XferOpen.fits_words {s : State} {reps : Nat} (h : XferOpen reps s) :
    4 * (reps * resultWords s.msg.template) ≤ s.ofl.rxLen := by
  rw [Nat.mul_comm]
  exact h.fits

theorem XferOpen.words_pos {s : State} {reps : Nat} (h : XferOpen reps s) (hr : 1 ≤ reps) :
    0 < reps * resultWords s.msg.template := Nat.mul_pos hr (one_le_resultWords h.template)

/-- Settles O43: every repetition is issued (`oflXfer_of_faultFree`), and what `Issued` says is the whole state. -/
theorem transferIssuesEveryRepetition : Obligations.TransferIssuesEveryRepetition := by
  intro s reps hf ho h1 h2 n word
  refine ⟨?_, Nat.add_le_add_left ho.fits_words _⟩
  obtain ⟨t, hx, hi, hc, he⟩ := oflXfer_of_faultFree ho hf
  have hframe := hi.frame
  rw [hc (by omega), he, hi.sel, if_neg (ho.words_pos h1).ne', hi.calls, (hi.exact hf).1, hi.inflight_eq hf] at hframe
  simp only [Nat.zero_add, Nat.mul_comm _ 4] at hframe
  rw [exec_oflXfer h1 h2, hx]
  exact congrArg (fun u => Host.Outcome.next (giveResult (okResult 0#64) u)) hframe

/-! ### The micro-operations when every collaborator answers (R185, R196 to R198) -/

/-- The micro-operation XFER when every collaborator answers: its exchanges are issued, and the engine moves on. -/
theorem microXfer_of_faultFree {s : State} {n : BitVec 12} (hf : s.env.faultFree = true) (hn : n ≠ 0#12) :
    ∃ t, microXfer n s = (.ok (), { t with engine := engineNext s })
      ∧ Issued (s.engine.rep * resultWords s.msg.template + wordIndex s) n.toNat s t ∧ t.cs = s.cs := by
  obtain ⟨t, hx, hi, hc, he⟩ | ⟨t, k, -, -, hb, -⟩ := (exchangeWords_issues n.toNat (wordIndex s) s).ends
  · have hm : t.msg = s.msg := by rw [hi.frame]
    have hnext : engineNext t = engineNext s := by simp only [engineNext, he, hm]
    exact ⟨t, by rw [microXfer, if_neg hn, hx, andThen_ok, engineAdvance_eq, hnext], hi, hc⟩
  · exact absurd hf (by simp [hb.drawn])

/-- Settles O46: chip-select or the exchanges, then the engine moves on (`engineNext`). -/
theorem microOperationsComplete : Obligations.MicroOperationsComplete := by
  intro s n hf hn last engine first word
  have hengine : engine = engineNext s := ite_not _ _ _
  rw [hengine]
  refine ⟨congrArg Host.Outcome.next (engineAdvance_eq { s with cs := true }),
    congrArg Host.Outcome.next (engineAdvance_eq { s with cs := false }), ?_⟩
  obtain ⟨t, hx, hi, hc⟩ := microXfer_of_faultFree hf hn
  have hpos : n.toNat ≠ 0 := fun h => hn (BitVec.eq_of_toNat_eq h)
  have hframe := hi.frame
  rw [hc, hi.sel, if_neg hpos, hi.calls, (hi.exact hf).1, hi.inflight_eq hf] at hframe
  have hnext := congrArg (fun u : State => { u with engine := engineNext s }) hframe
  exact (congrArg finishMicro hx).trans (congrArg Host.Outcome.next hnext)

end Sys2Proof.Machine
end

section
/-! SUPPORT. A whole transfer cycle when every collaborator answers: transfer, settle, invalidate, decode (spec/43_offload.md R184,
R186 to R188, R194). -/

namespace Sys2Proof.Machine

theorem landings_map_snd (base first : Nat) (ws : List Word) : (landings base first ws).map Prod.snd = ws := by
  simp only [landings, List.map_map]
  exact List.zipIdx_map_fst first ws

theorem getElem_landings_mem {base : Nat} {ws : List Word} {j : Nat} (hj : j < ws.length) :
    (base + 4 * j, ws[j]) ∈ landings base 0 ws := by
  rw [landings, List.mem_map]
  exact ⟨(ws[j], j), List.mk_mem_zipIdx_iff_getElem?.2 (List.getElem?_eq_getElem hj), by rw [Nat.mul_comm]; rfl⟩

/-- The words of an invalidated range are Fresh (R67). -/
theorem freshWord_cacheInvalidate {s : State} {a len x : Nat} (h1 : a ≤ x) (h2 : x + 4 ≤ a + len) :
    FreshWord (cacheInvalidate a len s) x := fun k hk => by
  rw [isStale_eq_false]
  exact fun hm => absurd (mem_markFresh.1 hm).2 (by omega)

/-- Decoding a Fresh buffer gives the words placed in it, decoded (R188). -/
theorem decodeWords_of_placed {s : State} {ws : List Word} {base : Nat} (hf : ∀ j, j < ws.length → FreshWord s (base + 4 * j))
    (hw : ∀ j (hj : j < ws.length), memWord s (base + 4 * j) = ws[j]) :
    (decodeWords ws.length base s).1 = ws.map (decodeSample s.launch.params) := by
  rw [decodeWords_fresh hf]
  refine List.ext_getElem (by simp) fun j hj _ => ?_
  rw [List.getElem_map, List.getElem_map, List.getElem_range, hw]

/-- The transfer of a cycle: the offload, the launch and what has been emitted stay, and the captured words alone are in flight. -/
theorem exec_oflXfer_captures {s : State} {reps : DWord} (hf : s.env.faultFree = true) (ho : XferOpen reps.toNat s)
    (h1 : 1 ≤ reps.toNat) (h2 : reps.toNat ≤ Config.repsMax) (hq : s.inflight = []) :
    ∃ t ws, exec (.oflXfer reps) s = .next t ∧ (t.launch = s.launch ∧ t.ofl = s.ofl ∧ t.out = s.out)
      ∧ ws.length = reps.toNat * resultWords s.msg.template ∧ t.inflight = landings s.ofl.rxAddr 0 ws := by
  obtain ⟨t, hx, hi, -⟩ := oflXfer_of_faultFree ho hf
  obtain ⟨ws, hlen, hin⟩ := hi.words
  refine ⟨giveResult (okResult 0#64) t, ws, by rw [exec_oflXfer h1 h2, hx]; rfl, ?_, hlen, ?_⟩
  · rw [hi.frame]
    exact ⟨rfl, rfl, rfl⟩
  · exact hin.trans (congrArg (· ++ _) hq)

/-- The SETTLE of a cycle: the offload, the launch and what has been emitted stay, and under `ASSUMED` memory holds at each word
address the word that was captured for it (R61, R186). -/
theorem exec_settle_places {s : State} {ws : List Word} {base : Nat} (ms : DWord) (hi : s.inflight = landings base 0 ws) :
    ∃ t, exec (.settle ms) s = .next t ∧ (t.launch = s.launch ∧ t.ofl = s.ofl ∧ t.out = s.out)
      ∧ (s.launch.params.settleMode = .assumed → ∀ j (hj : j < ws.length), memWord t (base + 4 * j) = ws[j]) := by
  refine ⟨_, exec_settle ms s, ?_⟩
  have hl := landed_settle ms.toNat s
  have hdrained := fun h => settle_inflight (ms := ms.toNat) (s := s) h
  generalize settle ms.toNat s = t at hl hdrained ⊢
  refine ⟨?_, fun ha j hj => ?_⟩
  · rw [hl.frame]
    exact ⟨rfl, rfl, rfl⟩
  · have hplaced := hl.placed
    rw [perform_inflight, hi, hdrained ha] at hplaced
    exact memWord_of_bytes ((hplaced (apart_landings _ _ _) _ (getElem_landings_mem hj)).resolve_left List.not_mem_nil)

/-- Settles O52: the captured words are in flight for consecutive addresses of the buffer, SETTLE lands them there under `ASSUMED`,
and the range invalidated is the one decoded. -/
theorem fullTransferCycle : Obligations.FullTransferCycle := by
  intro s reps ms addr len count hv hf ho h1 h2 hq hsign hspan haddr hcount hlen
  have hfits := ho.fits_words
  have hpos := ho.words_pos h1
  obtain ⟨s1, ws, hx, ⟨hl1, ho1, hout1⟩, hws, hin⟩ := exec_oflXfer_captures hf ho h1 h2 hq
  obtain ⟨s2, hsettle, ⟨hl2, ho2, hout2⟩, hplaced⟩ := exec_settle_places ms hin
  let s3 := giveResult (okResult 0#64) (cacheInvalidate addr.toNat len.toNat s2)
  have hl3 : s3.launch = s.launch := hl2.trans hl1
  have ho3 : s3.ofl = s.ofl := ho2.trans ho1
  have hout3 : s3.out = s.out := hout2.trans hout1
  have hcinv : exec (.cinv addr len) s2 = .next s3 := exec_cinv (by rw [hl2, hl1]; omega)
  have hdecode := exec_decodeBuf (s := s3) (n := count) (by omega)
  rw [decodeBuffer_ok (by rw [ho3]; exact ho.initialized) (by rw [ho3, Config.wordSize]; omega), ho3, hout3] at hdecode
  refine ⟨s1, s2, s3, _, ws, _, hx, hsettle, hcinv, hdecode, ?_, rfl, decodeWords_length _ _ _, fun x hm => ?_, fun ha => ?_⟩
  · rw [hin, landings_map_snd]
  · obtain ⟨w, rfl⟩ := mem_decodeWords hm
    rw [hl3]
    exact decodeSample_le hv hsign w
  · have hfresh : ∀ j, j < ws.length → FreshWord s3 (s.ofl.rxAddr + 4 * j) := fun j hj =>
      freshWord_cacheInvalidate (s := s2) (a := addr.toNat) (len := len.toNat) (by omega) (by omega)
    rw [hcount, ← hws, decodeWords_of_placed hfresh (hplaced (by rw [hl1]; exact ha)), hl3]
    exact List.map_congr_left fun w _ => decodeSample_unsigned hsign w

end Sys2Proof.Machine
end

section
/-! SUPPORT. How an iteration of the acquisition loop ends, said once (spec/44_acquisition.md R210, R211, R214), what its
answer says of it (R89, R212), and which channel comes next (R213). -/

namespace Sys2Proof.Machine

/-! ### The transfer of an iteration (R184) -/

/-- Everything a transfer can change, whatever its outcome: chip-select, the engine, the words in flight, the conversion word. -/
theorem oflXfer_frame (reps : Nat) (s : State) : (oflXfer reps s).2 = { s with
    cs := (oflXfer reps s).2.cs, engine := (oflXfer reps s).2.engine, inflight := (oflXfer reps s).2.inflight
    dev := { s.dev with sel := (oflXfer reps s).2.dev.sel }
    calls := (oflXfer reps s).2.calls, env := (oflXfer reps s).2.env } := by
  by_cases h : XferOpen reps s
  · have hx := oflXfer_ends h
    generalize oflXfer reps s = x at hx ⊢
    cases hx with
    | ok _ hi | failed _ _ _ hi => exact hi.frame
    | stuck _ _ _ hb => exact hb.frame
  · rw [(oflXfer_of_closed h).1]

/-- A transfer that is `Ok` has passed every check and issued all of its exchanges. -/
theorem oflXfer_eq_ok {reps : Nat} {s t : State} (h : oflXfer reps s = (.ok (), t)) :
    XferOpen reps s ∧ ∃ u, Issued 0 (reps * resultWords s.msg.template) (transferStart reps s u) t := by
  have ho : XferOpen reps s := by_contra fun hn => (oflXfer_of_closed hn).2.1 (by rw [h])
  have hx := oflXfer_ends ho
  rw [h] at hx
  cases hx with
  | ok _ hi => exact ⟨ho, _, hi⟩

/-- The error of a transfer is `OffloadTransferError` (R184). -/
theorem oflXfer_eq_err {reps : Nat} {s t : State} {e : ErrCode} {c : Cause} (h : oflXfer reps s = (.err e c, t)) :
    e = .offloadTransferError ∧ c = .none := by
  by_cases ho : XferOpen reps s
  · have hx := oflXfer_ends ho
    rw [h] at hx
    cases hx with
    | failed => exact ⟨rfl, rfl⟩
  · exact (oflXfer_of_closed ho).2.2 e c (by rw [h])

/-! ### How an iteration ends (R210, R211, R214) -/

/-- The block is torn down and the loop is over (R211). Memory, the view marks, the output and the rest of the loop are as
before. -/
structure Terminated (s t : State) : Prop where
  frame : t = { s with
    devState := .absent
    alloc := { handle := false, gpio := false, xport := false, clkgen := false, pwm := false }
    xport := { s.xport with initialized := false }
    ofl := { s.ofl with initialized := false }
    acq := { s.acq with terminated := true }
    cs := t.cs, pwm := t.pwm, msg := t.msg, engine := t.engine, inflight := t.inflight, dev := t.dev, pulse := t.pulse
    calls := t.calls, env := t.env }

theorem terminated_acqTerminate (e : ErrCode) (c : Cause) (s : State) : Terminated s (acqTerminate e c s).2 := by
  have disabled : PulseOnly s (if s.pwm.state = .uninitialized then s else (pwmDisable s).2) := by
    split
    · exact .refl s
    · exact pulseOnly_pwmDisable s
  unfold acqTerminate
  generalize (if s.pwm.state = .uninitialized then s else (pwmDisable s).2) = u at disabled
  obtain ⟨p, v, hu⟩ := devTeardown_eq u
  dsimp only
  rw [hu, disabled.frame]
  exact ⟨rfl⟩

/-- What the transfer of the iteration has done before it failed is no more than what may change. -/
theorem terminated_of_transfer {n ch : Nat} {s t : State} (h : Terminated (oflXfer n (selectChannel ch s)).2 t) :
    Terminated s t := by
  have ht := h.frame
  rw [oflXfer_frame] at ht
  exact ⟨ht⟩

/-- Everything an iteration can come to. -/
inductive IterEnds (s : State) : Res Unit × State → Prop
  /-- The transfer is `Ok`, and what it has captured is consumed. -/
  | ok {t u v : State} {l : List Word}
      (ho : XferOpen s.launch.params.sampleCount (selectChannel s.acq.channel.val s))
      (hi : Issued 0 (iterationWords s) (transferStart s.launch.params.sampleCount (selectChannel s.acq.channel.val s) u) t)
      (hc : Consumed t v l) : IterEnds s (.ok (), v)
  /-- The transfer has failed, and the loop is terminated. -/
  | failed {t : State} (h : Terminated s t) : IterEnds s (.err .offloadTransferError .none, t)
  /-- A fault, a refusal or a hang. -/
  | stopped {t : State} {r : Res Unit} (ho : ∀ v, r ≠ .ok v) (he : ∀ e c, r ≠ .err e c) : IterEnds s (r, t)

theorem acqIter_ends (s : State) : IterEnds s (acqIter s) := by
  cases ha : s.acq.terminated with
  | true =>
    rw [acqIter_of_terminated ha]
    exact .stopped nofun nofun
  | false =>
    cases hx : oflXfer s.launch.params.sampleCount (selectChannel s.acq.channel.val s) with
    | mk r t =>
    cases r with
    | ok =>
      obtain ⟨ho, u, hi⟩ := oflXfer_eq_ok hx
      obtain ⟨v, l, hv, hc⟩ := acqIter_of_transfer ha ho hx hi
      rw [hv]
      exact .ok ho hi hc
    | err e c =>
      obtain ⟨rfl, rfl⟩ := oflXfer_eq_err hx
      rw [acqIter_of_running ha, hx]
      have hend := terminated_acqTerminate .offloadTransferError .none t
      exact .failed (terminated_of_transfer (by rw [hx]; exact hend))
    | fault | refuse | stuck =>
      rw [acqIter_of_running ha, hx]
      exact .stopped nofun nofun

/-! ### What an iteration that returns has done (R210, R211) -/

/-- An iteration that is `Ok` has sent its channel's word and goes to the other channel. -/
theorem acqIter_eq_ok {s t : State} (hv : s.launch.params.Valid = true) (h : acqIter s = (.ok (), t)) :
    t.dev.sel = some (s.launch.params.chSelWord s.acq.channel.val) ∧ t.acq.channel = otherChannel s.acq.channel
      ∧ t.launch = s.launch := by
  have hx := acqIter_ends s
  rw [h] at hx
  cases hx with
  | ok ho hi hc =>
    have hpos : iterationWords s ≠ 0 :=
      (Nat.mul_pos (Params.valid_sampleCount hv).1 (one_le_resultWords ho.template)).ne'
    have hsel := hi.sel.trans (if_neg hpos)
    rw [hc.frame]
    refine ⟨hsel, ?_, ?_⟩ <;> rw [hi.frame] <;> rfl
  | stopped ho => exact absurd rfl (ho ())

/-- An iteration that is `Err` reports `OffloadTransferError`, with everything torn down. -/
theorem acqIter_eq_err {s t : State} {e : ErrCode} {c : Cause} (h : acqIter s = (.err e c, t)) :
    e = .offloadTransferError ∧ c = .none ∧ Terminated s t := by
  have hx := acqIter_ends s
  rw [h] at hx
  cases hx with
  | failed hk => exact ⟨rfl, rfl, hk⟩
  | stopped _ he => exact absurd rfl (he e c)

/-! ### The answer of an iteration (R89, R210, R212) -/

/-- ACQ.ITER returns `Ok` when its iteration does. -/
theorem acqIter_of_exec_ok {s t : State} (h : exec .acqIter s = .next t) (hr : t.result = some (okResult 0#64)) :
    ∃ u, acqIter s = (.ok (), u) ∧ t = giveResult (okResult 0#64) u := by
  obtain ⟨v, u, hx, -, ht⟩ | ⟨e, c, -, -, hr, -⟩ := finish_result h hr
  · obtain ⟨_, w, hw, hu⟩ := andThen_eq_ok hx
    cases hu
    exact ⟨u, hw, ht⟩
  · exact absurd (congrArg Result.st hr).symm (errResult_st e c)

/-- ACQ.ITER and ACQ.RUN return an error when their iteration does. -/
theorem acqIter_of_exec_err {i : Instr} {s t : State} {r : Result} (hi : i = .acqIter ∨ i = .acqRun) (h : exec i s = .next t)
    (hr : t.result = some r) (hn : r.st ≠ 0#64) :
    ∃ e c u, acqIter s = (.err e c, u) ∧ r = errResult e c ∧ t = giveResult r u := by
  obtain rfl | rfl := hi
  · obtain ⟨v, u, -, rfl, -⟩ | ⟨e, c, u, hx, hr, ht⟩ := finish_result h hr
    · exact absurd rfl hn
    · obtain hx | ⟨_, _, _, hv⟩ := andThen_eq_err hx
      · exact ⟨e, c, u, hx, hr, ht⟩
      · cases hv
  · cases h
    cases hx : acqIter s with
    | mk y u =>
    rw [hx] at hr
    cases y with
    | err e c =>
      cases hr
      exact ⟨e, c, u, rfl, rfl, rfl⟩
    | _ => cases hr

/-- ACQ.ITER and ACQ.RUN of a terminated loop fault (R214, R215). -/
theorem exec_of_terminated {i : Instr} {s : State} (hi : i = .acqIter ∨ i = .acqRun) (h : s.acq.terminated = true) :
    exec i s = .next (recordFault .acqTerminated s) := by
  have hx := acqIter_of_terminated h
  obtain rfl | rfl := hi
  · exact congrArg (fun x => finish (andThen x fun _ u => (.ok 0#64, u))) hx
  · exact congrArg (fun x => Host.Outcome.next (endedRun x)) hx

/-! ### Channels (R213) -/

theorem otherChannel_val : ∀ c : Fin 2, (otherChannel c).val = 1 - c.val := by decide

/-- The words of a channel and of the other one differ (R11). -/
theorem chSelWord_ne_other {p : Params} (hv : p.Valid = true) (c : Fin 2) :
    p.chSelWord c.val ≠ p.chSelWord (1 - c.val) := by
  obtain hc | hc : c.val = 0 ∨ c.val = 1 := by omega
  · rw [hc]
    exact Params.valid_chSel hv
  · rw [hc]
    exact (Params.valid_chSel hv).symm

/-- Settles O54: an iteration that is `Ok` sends its channel's word and leaves the loop at the other channel. -/
theorem channelsAlternate : Obligations.ChannelsAlternate := by
  refine ⟨rfl, fun s t t' u hv hs hst hacq hlaunch hu hut => ?_⟩
  obtain ⟨_, hx, rfl⟩ := acqIter_of_exec_ok hs hst
  obtain ⟨_, hy, rfl⟩ := acqIter_of_exec_ok hu hut
  obtain ⟨hsel, hchannel, hl⟩ := acqIter_eq_ok hv hx
  have hl' : t'.launch = s.launch := hlaunch.trans hl
  obtain ⟨hsel', -, -⟩ := acqIter_eq_ok (hl'.symm ▸ hv) hy
  have hc : t'.acq.channel.val = 1 - s.acq.channel.val := by
    rw [hacq, giveResult_acq, hchannel, otherChannel_val]
  rw [hl', hc] at hsel'
  exact ⟨hsel, hsel', chSelWord_ne_other hv s.acq.channel⟩

end Sys2Proof.Machine
end

section
/-! SUPPORT. Nothing but an iteration writes the loop's state `S.acq` (spec/10_state.md R36, spec/44_acquisition.md R210, R211). -/

namespace Sys2Proof.Machine

/-- The loop's state is as before. -/
def SameLoop (s t : State) : Prop := t.acq = s.acq

theorem SameLoop.trans {s t u : State} (h : SameLoop s t) (k : SameLoop t u) : SameLoop s u := Eq.trans k h

/-! ### Bodies -/

theorem DeviceOnly.sameLoop {s t : State} (h : DeviceOnly s t) : SameLoop s t := by rw [SameLoop, h.frame]

theorem PulseOnly.sameLoop {s t : State} (h : PulseOnly s t) : SameLoop s t := by rw [SameLoop, h.frame]

theorem Configures.sameLoop {n : Nat} {s t : State} (h : Configures n s t) : SameLoop s t := by rw [SameLoop, h.frame]

theorem Landed.sameLoop {s t : State} (h : Landed s t) : SameLoop s t := by rw [SameLoop, h.frame]

theorem sameLoop_attempt (c : Call) (s : State) : SameLoop s (attempt c s).2 := by rw [SameLoop, attempt_frame]

theorem sameLoop_devTeardown (s : State) : SameLoop s (devTeardown s) := by
  obtain ⟨p, e, h⟩ := devTeardown_eq s
  rw [SameLoop, h]

theorem sameLoop_devInit (s : State) : SameLoop s (devInit s).2 := by
  have hx := devInit_ends s
  generalize devInit s = x at hx ⊢
  cases hx with
  | held => rfl
  | exhausted => exact sameLoop_attempt _ s
  | ready _ hc | stopped _ hc => exact hc.sameLoop
  | failed _ hc => exact hc.sameLoop.trans (sameLoop_devTeardown _)

theorem sameLoop_oflInit (a len flags : DWord) (s : State) : SameLoop s (oflInit a len flags s).2 := by
  by_cases hr : s.devState = .ready
  swap
  · rw [oflInit_of_notReady hr]
    rfl
  by_cases hm : oflMisconfigured s.launch.params a len flags = true
  · rw [oflInit_of_misconfigured hr hm]
    rfl
  · rw [oflInit_of_configured hr hm]
    split <;> exact sameLoop_attempt _ s

theorem sameLoop_oflXfer (reps : Nat) (s : State) : SameLoop s (oflXfer reps s).2 := by rw [SameLoop, oflXfer_frame]

theorem sameLoop_settle (ms : Nat) (s : State) : SameLoop s (settle ms s) := (landed_settle ms s).sameLoop

theorem sameLoop_decodeBuffer (n : Nat) (s : State) : SameLoop s (decodeBuffer n s).2 := by
  unfold decodeBuffer
  dsimp only
  split
  · rfl
  split
  · rfl
  · rw [decodeWords_state n s.ofl.rxAddr s]
    rfl

theorem sameLoop_engineAdvance (s : State) : SameLoop s (engineAdvance s) := by rw [SameLoop, engineAdvance_eq]

theorem sameLoop_microXfer (n : BitVec 12) (s : State) : SameLoop s (microXfer n s).2 := by
  unfold microXfer
  split
  · rfl
  obtain ⟨t, hx, hi, -⟩ | ⟨t, k, hx, -, hb, -⟩ := (exchangeWords_issues n.toNat (wordIndex s) s).ends <;> rw [hx]
  · exact SameLoop.trans (t := t) (by rw [SameLoop, hi.frame]) (sameLoop_engineAdvance t)
  · show SameLoop s t
    rw [SameLoop, hb.frame]

theorem sameLoop_pwmGuard {α : Type} {s : State} {f : State → Res α × State} (hf : SameLoop s (f s).2) :
    SameLoop s (pwmGuard s f).2 := by
  unfold pwmGuard
  split
  · rfl
  · exact hf

theorem sameLoop_operandGuard {b : Bool} {s : State} {f : State → Res DWord × State} (hf : SameLoop s (f s).2) :
    SameLoop s (operandGuard b s f).2 := by
  unfold operandGuard
  split
  · exact hf
  · rfl

/-! ### Every instruction and every step -/

theorem SameLoop.returns {α : Type} {s : State} {x : Res α × State} (hx : SameLoop s x.2) (f : α → DWord) :
    SameLoop s (andThen x fun v t => (.ok (f v), t)).2 :=
  andThen_keeps (P := SameLoop s) hx fun _ _ h => h

theorem sameLoop_finish {s t : State} {x : Res DWord × State} (hx : SameLoop s x.2) (h : finish x = .next t) : SameLoop s t :=
  hx.trans (by rw [SameLoop, finish_frame h])

theorem sameLoop_finishMicro {s t : State} {x : Res Unit × State} (hx : SameLoop s x.2) (h : finishMicro x = .next t) :
    SameLoop s t := by
  cases h
  refine hx.trans ?_
  obtain ⟨r, u⟩ := x
  cases r <;> rfl

/-- Every instruction but ACQ.ITER and ACQ.RUN leaves the loop's state. -/
theorem exec_sameLoop {i : Instr} {s t : State} (hi : ¬ (i = .acqIter ∨ i = .acqRun)) (h : exec i s = .next t) :
    SameLoop s t := by
  have ok : ∀ {α : Type} {x : Res α × State} (f : α → DWord), SameLoop s x.2 →
      finish (andThen x fun v u => (.ok (f v), u)) = .next t → SameLoop s t :=
    fun f hx => sameLoop_finish (hx.returns f)
  cases i with
  | acqIter => exact absurd (.inl rfl) hi
  | acqRun => exact absurd (.inr rfl) hi
  | regRd a => exact ok _ (deviceOnly_regRead a s).sameLoop h
  | regWr a v => exact ok _ (deviceOnly_regWrite a v s).sameLoop h
  | regRdm a m => exact ok _ (deviceOnly_regReadMasked a m s).sameLoop h
  | regWrm a m v => exact ok _ (deviceOnly_regWriteMasked a m v s).sameLoop h
  | pwmInit => exact ok _ (pulseOnly_pwmInit s).sameLoop h
  | pwmSetp ns => exact ok _ (sameLoop_pwmGuard (pulseOnly_setPeriod ns s).sameLoop) h
  | pwmSetd ns => exact ok _ (sameLoop_pwmGuard (pulseOnly_setDuty ns s).sameLoop) h
  | pwmEn => exact ok _ (sameLoop_pwmGuard (pulseOnly_pwmEnable s).sameLoop) h
  | pwmDis => exact ok _ (sameLoop_pwmGuard (pulseOnly_pwmDisable s).sameLoop) h
  | pwmTd => exact ok _ (pulseOnly_pwmTeardown s).sameLoop h
  | pwmGetp => exact sameLoop_finish (sameLoop_pwmGuard (by rfl)) h
  | devInit => exact ok _ (sameLoop_devInit s) h
  | devTd =>
    refine sameLoop_finish ?_ h
    dsimp only
    split
    · rfl
    · exact sameLoop_devTeardown s
  | oflInit a len flags => exact ok _ (sameLoop_oflInit a len flags s) h
  | msgSetp | msgSetch | cinv => exact sameLoop_finish (sameLoop_operandGuard (by rfl)) h
  | oflXfer reps => exact sameLoop_finish (sameLoop_operandGuard ((sameLoop_oflXfer _ s).returns _)) h
  | settle ms => exact sameLoop_finish (sameLoop_settle _ s) h
  | decodeBuf n => exact sameLoop_finish (sameLoop_operandGuard ((sameLoop_decodeBuffer _ s).returns fun _ => n)) h
  | csAssert => exact sameLoop_finishMicro (SameLoop.trans (t := { s with cs := true }) rfl (sameLoop_engineAdvance _)) h
  | xfer n => exact sameLoop_finishMicro (sameLoop_microXfer n s) h
  | csDeassert => exact sameLoop_finishMicro (SameLoop.trans (t := { s with cs := false }) rfl (sameLoop_engineAdvance _)) h

theorem Turned.sameLoop {s t : State} (h : Turned s t) : SameLoop s t := by rw [SameLoop, h.frame]

/-- A move of another agent leaves it too. -/
theorem Moves.sameLoop {s t : State} (h : Moves s t) : SameLoop s t := by
  cases h with
  | waits h => exact h.sameLoop
  | lands i h => exact h.sameLoop.trans (landed_land i _).sameLoop
  | refuses r h => exact h.sameLoop

/-- A terminated loop stays as it is: its operations fault, and nothing else writes it (R214, R215). -/
theorem exec_sameLoop_of_terminated {i : Instr} {s t : State} (hs : s.acq.terminated = true) (h : exec i s = .next t) :
    SameLoop s t := by
  by_cases hi : i = .acqIter ∨ i = .acqRun
  · rw [exec_of_terminated hi hs] at h
    cases h
    rfl
  · exact exec_sameLoop hi h

theorem step_sameLoop_of_terminated {s t : State} (hs : s.acq.terminated = true) (h : step s = .next t) : SameLoop s t := by
  obtain hm | ⟨i, u, -, hu, -, -, hexec⟩ := step_cases h
  · exact hm.sameLoop
  · have hsame : u.acq = s.acq := hu.sameLoop
    exact hu.sameLoop.trans (exec_sameLoop_of_terminated (by rw [hsame]; exact hs) hexec)

/-- Settles O55: an error ends the iteration as `Terminated` says, and from then on the loop's state stays. -/
theorem terminationIsFinal : Obligations.TerminationIsFinal := by
  have loop : ∀ {i : Instr}, i ∈ [.acqIter, .acqRun] → i = .acqIter ∨ i = .acqRun := fun h => by simpa using h
  refine ⟨fun s t r i hi h hr hn => ?_, fun s i hi hs => exec_of_terminated (loop hi) hs, fun s t h hs => ?_⟩
  · obtain ⟨e, c, u, hx, rfl, rfl⟩ := acqIter_of_exec_err (loop hi) h hr hn
    obtain ⟨rfl, rfl, hk⟩ := acqIter_eq_err hx
    rw [hk.frame]
    exact ⟨rfl, rfl, rfl, rfl, rfl, rfl, rfl, rfl, rfl⟩
  · have hsame : t.acq = s.acq := step_sameLoop_of_terminated hs h
    rw [hsame]
    exact hs

end Sys2Proof.Machine
end

section
/-! SUPPORT. The cleanup law (spec/60_exceptions.md R240). -/

namespace Sys2Proof.Machine

/-- DevTeardown with no flag set releases nothing: it marks the device absent, the transport and the offload uninitialized (R161). -/
theorem devTeardown_of_released {s : State}
    (h : s.alloc = { handle := false, gpio := false, xport := false, clkgen := false, pwm := false }) :
    devTeardown s = { s with
      devState := .absent
      xport := { s.xport with initialized := false }
      ofl := { s.ofl with initialized := false } } := by
  obtain ⟨hpulse, henv⟩ := devTeardown_pulse_env s
  obtain ⟨p, e, ht⟩ := devTeardown_eq s
  rw [ht] at hpulse henv
  obtain rfl : p = s.pulse := by simpa [pulseAfterTeardown, h] using hpulse
  obtain rfl : e = s.env := by simpa [envAfterTeardown, h] using henv
  simp [ht, h]

/-- Settles O37: the calls and the flags are DevTeardown's frame (`devTeardown_eq`), and that frame leaves a second teardown
nothing to release. -/
theorem teardownIsIdempotent : Obligations.TeardownIsIdempotent := by
  intro s
  obtain ⟨p, e, ht⟩ := devTeardown_eq s
  refine ⟨by rw [ht], by rw [ht], ?_⟩
  rw [devTeardown_of_released (s := devTeardown s) (by rw [ht]), ht]

end Sys2Proof.Machine
end

section
/-! SUPPORT. The running source between a new period and the next PWM.EN (spec/10_state.md R52,
spec/70_reset_and_hazards.md R277). -/

namespace Sys2Proof.Machine

variable {s : State} {ns : DWord}

/-- SetPeriod writes the period register, which the source does not read by itself (R52). -/
theorem setPeriod_run : (setPeriod ns s).2.pulse.run = s.pulse.run := by
  obtain hx | ⟨u, v, -, hx | hx⟩ := setPeriod_cases ns s <;> rw [hx]

/-- SetDuty writes the width register, which the source does not read by itself (R52). -/
theorem setDuty_run : (setDuty ns s).2.pulse.run = s.pulse.run := by
  obtain hx | ⟨u, v, -, hx | hx⟩ := setDuty_cases ns s <;> rw [hx]

/-- Where Enable is `Ok` the source runs with what the period and width registers held (R143). -/
theorem pwmEnable_run_of_ok {u : State} (h : pwmEnable s = (.ok (), u)) :
    u.pulse.run = some { running := true, period := s.pulse.period, width := s.pulse.width } := by
  obtain ⟨w, -, hx | hx⟩ := pwmEnable_cases s <;> cases hx.symm.trans h
  rfl

/-- A guarded operation leaves the source as it is where its body does, whatever its outcome. -/
theorem guarded_run {f : State → Res Unit × State} {t : State} (hf : (f s).2.pulse.run = s.pulse.run)
    (h : finish (andThen (pwmGuard s f) fun _ u => (.ok 0#64, u)) = .next t) : t.pulse.run = s.pulse.run := by
  have hguard : (pwmGuard s f).2.pulse.run = s.pulse.run := by
    by_cases hu : s.pwm.state = .uninitialized
    · rw [pwmGuard_closed hu]
    · rw [pwmGuard_open hu, hf]
  rw [finish_frame h]
  exact andThen_keeps (P := fun u => u.pulse.run = s.pulse.run) hguard fun _ _ hu => hu

/-- Settles O33: SetPeriod and SetDuty leave the source, and a PWM.EN that is `Ok` ran Enable to `Ok`. -/
theorem newPeriodNeedsReload : Obligations.NewPeriodNeedsReload := by
  refine fun s t ns i hi h => ⟨?_, fun u hen hr => ?_⟩
  · simp only [List.mem_cons, List.not_mem_nil, or_false] at hi
    obtain rfl | rfl := hi
    · exact guarded_run setPeriod_run h
    · exact guarded_run setDuty_run h
  · obtain ⟨-, ⟨v, hx, -, rfl⟩ | ⟨e, c, v, -, he, -⟩⟩ := guarded_result hen hr
    · rw [giveResult_pulse, pwmEnable_run_of_ok hx]
    · exact absurd (congrArg Result.st he).symm (errResult_st e c)

end Sys2Proof.Machine
end

section
/-! SUPPORT. The state at power-on (spec/70_reset_and_hazards.md R260): a clean launch in which both invariants hold. -/

namespace Sys2Proof.Machine

/-- Every launch starts clean: the value R260 gives does not depend on the parameters, except for the template, which is theirs. -/
theorem cleanLaunch_boot (l : Launch) : CleanLaunch (State.boot l) where
  devState := rfl
  alloc := rfl
  xport := rfl
  cs := rfl
  log := rfl
  pwmState := rfl
  period := rfl
  duty := rfl
  ofl := rfl
  template := rfl
  paramValid := rfl
  channelTag := rfl
  busy := rfl
  tpc := rfl
  rep := rfl
  inflight := rfl
  vis _ := rfl
  acq := rfl
  out := rfl
  fault := rfl
  refused := rfl
  reg _ := rfl
  framing := rfl
  sel := rfl
  pulse r := by cases r <;> rfl
  run := rfl

/-- Nothing is stored at power-on: memory, the marks and the device registers are empty. -/
theorem storageInv_boot (l : Launch) : StorageInv (State.boot l) where
  mem := .nil
  stale := .nil
  reg := .nil

/-- The parameter word is 0, the device is absent, and nothing is allocated, configured or in flight: of the launch only its
parameters matter. -/
theorem blockInv_boot {l : Launch} (h : l.params.Valid = true) : BlockInv (State.boot l) where
  params := h
  template := rfl
  absent _ := ⟨rfl, rfl, rfl, rfl, rfl, rfl⟩
  ready := nofun
  offload := nofun
  descriptor _ := rfl
  inflight := nofun
  deadline _ := rfl
  param := Nat.two_pow_pos _
  settled _ := ⟨.inl rfl, rfl, rfl, nofun, nofun⟩

/-- Settles O56: reset is the power-on of the opaque launch. -/
theorem resetIsTheCleanLaunch : Obligations.ResetIsTheCleanLaunch := cleanLaunch_boot Config.launch

/-- Settles O59: reset is the power-on of the opaque launch, whose parameters are admissible. -/
theorem invariantsHoldAtReset : Obligations.InvariantsHoldAtReset :=
  ⟨storageInv_boot Config.launch, blockInv_boot Config.params_valid, fun _ => blockInv_boot⟩

end Sys2Proof.Machine
end
